-- ==== Sys2Proof/Word.lean ====
section
/-! DEFINITION. The words the machine computes on (R5, R7, R9). -/

namespace Sys2Proof

/-- One byte of memory. -/
abbrev Byte := BitVec 8

/-- A lane register of one lane (R7). -/
abbrev Word32 := BitVec 32

/-- A scalar, a control register, an instruction word or a global address (R7, R67). -/
abbrev Word64 := BitVec 64

/-- The greatest number of threads of a population (R4). -/
abbrev maxLanes : Nat := 16384

/-- A set of lanes: bit i is lane i (R7, R184). -/
abbrev LaneSet := BitVec 16384

/-- A lane register number v0–v2047 (R7). -/
abbrev VReg := BitVec 11

/-- A scalar number; 192–255 are refused (R7, R67). -/
abbrev SReg := BitVec 8

/-- A set register m0–m15 (R7). -/
abbrev MReg := BitVec 4

/-- A stream register x0–x15 (R7). -/
abbrev XReg := BitVec 4

/-- An accumulator tile acc0–acc15 (R7). -/
abbrev TReg := BitVec 4

/-- The 64-bit all-ones value that stands for "no lane" and "none" (R157, R232). -/
abbrev allOnes64 : Word64 := BitVec.allOnes 64

end Sys2Proof
end

