-- ==== Sys2Proof/Syntax.lean ====
section
/-! DEFINITION. The operations and events of the SW-7: one constructor of Instr for each row of spec/opcode_table.json. -/

namespace Sys2Proof

/-- The element types of R68. -/
inductive Ty where
  | s8 | n8 | s16 | n16 | s32 | n32 | s64 | n64 | f16 | b16 | f32 | f64 | nb8
  deriving DecidableEq, Repr

/-- The rounding codes 000–110 of R69. -/
inductive Rnd where
  | mode | rne | rtz | rdn | rup | rna | rto
  deriving DecidableEq, Repr

/-- The LV integer modes 000 and 001 of R69. -/
inductive IMode where
  | wrap | sat
  deriving DecidableEq, Repr

/-- The field [49:47] of VSCAN: an integer mode for integer types, a rounding for floating types (R150). -/
inductive ScanMode where
  | int (m : IMode)
  | fp (r : Rnd)
  deriving DecidableEq, Repr

/-- The b operand of an LV word, by its bk field (R70, R119). -/
inductive BSrc where
  | reg (vb : VReg)
  | scalar (sb : SReg)
  | imm (v : BitVec 21)
  deriving DecidableEq, Repr

/-- The last operand of an X word, by its i bit (R76). -/
inductive XSrc where
  | reg (sb : SReg)
  | imm (v : BitVec 32)
  deriving DecidableEq, Repr

/-- The operand n or g of a K word, by its i bit (R81). -/
inductive KSrc where
  | reg (sb : SReg)
  | imm (v : BitVec 24)
  deriving DecidableEq, Repr

/-- LV shape "none" (R70). -/
structure Lv0 where
  ty : Ty
  mask : MReg
  vd : VReg
  deriving DecidableEq, Repr

/-- LV shape "one-source" (R70). -/
structure Lv1 where
  ty : Ty
  mask : MReg
  vd : VReg
  va : VReg
  deriving DecidableEq, Repr

/-- LV shape "move" (R70). -/
structure LvMove where
  ty : Ty
  mask : MReg
  vd : VReg
  b : BSrc
  deriving DecidableEq, Repr

/-- LV shapes "two-source" and "accumulating" (R70). -/
structure Lv2 where
  ty : Ty
  mask : MReg
  vd : VReg
  va : VReg
  b : BSrc
  deriving DecidableEq, Repr

/-- The conditions EQ–GE of R73 and R165. -/
inductive Cond where
  | eq | ne | lt | le | gt | ge
  deriving DecidableEq, Repr

/-- The branch conditions of R75. -/
inductive BCond where
  | eq | ne | lt | le | gt | ge | ltn | len | gtn | gen
  deriving DecidableEq, Repr

/-- The BSET conditions of R75. -/
inductive SetCond where
  | any | none | one | many
  deriving DecidableEq, Repr

/-- The comb codes of R73. -/
inductive Comb where
  | set | and | or | andn | xor
  deriving DecidableEq, Repr

/-- The fields that the five searches share (R73). -/
structure Ls where
  ty : Ty
  md : MReg
  ms : MReg
  comb : Comb
  sel : BitVec 2
  va : VReg
  deriving DecidableEq, Repr

/-- The operations of SETOP (R74). -/
inductive SetOp where
  | and (ma mb : MReg) | or (ma mb : MReg) | andn (ma mb : MReg) | xor (ma mb : MReg)
  | not (ma : MReg) | mov (ma : MReg)
  deriving DecidableEq, Repr

/-- The operations of RBIT (R74). -/
inductive BitFold where
  | and | or | xor
  deriving DecidableEq, Repr

/-- An X word with destination, first source and last operand (R76). -/
structure X2 where
  ty : Ty
  sd : SReg
  sa : SReg
  b : XSrc
  deriving DecidableEq, Repr

/-- An X word with destination and one source (R76). -/
structure X1 where
  ty : Ty
  sd : SReg
  sa : SReg
  deriving DecidableEq, Repr

/-- An X word with destination and three source scalars (R76). -/
structure X3 where
  ty : Ty
  sd : SReg
  sa : SReg
  sb : SReg
  sc : SReg
  deriving DecidableEq, Repr

/-- The widths of R77 and R205. -/
inductive Width where
  | b8 | b16 | b32 | b64 | v1 | v2 | v4
  deriving DecidableEq, Repr

/-- The spaces of R77 and R203. -/
inductive Space where
  | g | w | f
  deriving DecidableEq, Repr

/-- The scopes of R77 and R340. -/
inductive Scope where
  | pop | clu | dev | sys
  deriving DecidableEq, Repr

/-- The orders of R77 and R217. -/
inductive MOrder where
  | plain | acq | rel | ar
  deriving DecidableEq, Repr

/-- The atomic operations of R77 and R226. -/
inductive AOp where
  | swap | cas | add | and | or | xor | min | max | minn | maxn | fadd | fmin | fmax
  deriving DecidableEq, Repr

/-- The index term of a lane address: register and shift, absent when NX = 1 (R77, R204). -/
structure Index where
  vidx : VReg
  sh : BitVec 2
  deriving DecidableEq, Repr

/-- A lane memory operand [sbase + vidx*scale + imm13] (R77, R223). -/
structure MLane where
  width : Width
  space : Space
  scope : Scope
  order : MOrder
  vdat : VReg
  sbase : SReg
  idx : Option Index
  imm : BitVec 13
  deriving DecidableEq, Repr

/-- A CP-level memory operand [sbase + imm13] with a scalar (R223, R225). -/
structure MScalar where
  width : Width
  space : Space
  scope : Scope
  order : MOrder
  sd : SReg
  sbase : SReg
  imm : BitVec 13
  deriving DecidableEq, Repr

/-- A lane atomic operand with imm8 (R77, R227, R229). -/
structure MAtom where
  op : AOp
  width : Width
  space : Space
  scope : Scope
  order : MOrder
  vdat : VReg
  sbase : SReg
  idx : Option Index
  imm : BitVec 8
  deriving DecidableEq, Repr

/-- A CP-level atomic operand with imm8 (R228). -/
structure MSatom where
  op : AOp
  width : Width
  space : Space
  scope : Scope
  order : MOrder
  sd : SReg
  sbase : SReg
  imm : BitVec 8
  deriving DecidableEq, Repr

/-- The operand of PREF (R231). -/
structure MPref where
  scope : Scope
  sbase : SReg
  idx : Option Index
  imm : BitVec 13
  deriving DecidableEq, Repr

/-- The operand of INVAL and FLUSH: a range (R234). -/
structure MRange where
  sl : SReg
  sbase : SReg
  imm : BitVec 13
  deriving DecidableEq, Repr

/-- The operand of STPL and LDPL (R236). -/
structure MPlane where
  vdat : VReg
  sbase : SReg
  imm : BitVec 13
  deriving DecidableEq, Repr

/-- The operand of SETLD and SETST (R235). -/
structure MSet where
  width : Width
  scope : Scope
  vdat : VReg
  sbase : SReg
  idx : Option Index
  imm : BitVec 13
  deriving DecidableEq, Repr

/-- The roles that BANKCFG sets (R223, R237). -/
inductive CfgRole where
  | scratch | fifo
  deriving DecidableEq, Repr

/-- The space and scope of a rennet word operand (R81, R328). -/
structure KAddr where
  space : Space
  scope : Scope
  sa : SReg
  deriving DecidableEq, Repr

/-- Scale block lengths of R79. -/
inductive BlkLen where
  | l32 | l64 | l128 | l256
  deriving DecidableEq, Repr

/-- A format block, with the fields of R79. -/
structure Fmt where
  xr : XReg
  xp : XReg
  xs : XReg
  n1 : BitVec 3
  sg : Bool
  ce : Bool
  len : BlkLen
  f32 : Bool
  rnd : Rnd
  sc : Bool
  deriving DecidableEq, Repr

/-- The PST types of R78. -/
inductive PstTy where
  | f32 | f16 | b16 | s8 | s16 | s32 | nb8
  deriving DecidableEq, Repr

/-- The roles of a cluster-store bank (R209). -/
inductive BankRole where
  | cache | scratch | fifo | off
  deriving DecidableEq, Repr

/-- Names a CP: its population's device id and its CP index (R305, R321). -/
structure CpRef where
  pid : Nat
  cid : Nat
  deriving DecidableEq, Repr

/-- Names one outstanding operation of a CP by its serial number. -/
structure OpRef where
  pid : Nat
  cid : Nat
  serial : Nat
  deriving DecidableEq, Repr

/-- One access of an operation, by its place among them, or (none) all that is left of it. -/
structure OpPart where
  op : OpRef
  part : Option Nat
  deriving DecidableEq, Repr

/-- Some lines of a copy. -/
structure CopyPart where
  op : OpRef
  lines : Nat
  deriving DecidableEq, Repr

/-- One access of the operation at a population's press, or (none) all that is left of it. -/
structure PressPart where
  pid : Nat
  part : Option Nat
  deriving DecidableEq, Repr

/-- An engine operation that waits on range locks: a copy or lane transfer of a CP, or a stream's tile operation (R220, R259). -/
inductive EngineRef where
  | copy (op : OpRef)
  | tile (pid : Nat)
  deriving DecidableEq, Repr

/-- Names a fragment entry of a core, or the overflow slot of a context (R29, R302). -/
structure FragRef where
  core : Nat
  idx : Nat
  ovf : Bool
  deriving DecidableEq, Repr

/-- The transport modes of R360. -/
inductive Delivery where
  | rud | rod | rudi
  deriving DecidableEq, Repr

/-- How a MGMT message comes: its sequence number, whether both its signatures verify (R371), its port, whether its packets carry
security, its delivery (R360, R361), and the four words of its header with the length of its body (R364). -/
structure Auth where
  seq : Word64
  sigOk : Bool
  port : BitVec 3
  secured : Bool
  delivery : Delivery
  words : List Word64
  len : Nat
  deriving DecidableEq, Repr

/-- The sender of a fabric operation: source address and job id (R363). -/
structure Sender where
  addr : BitVec 128
  job : BitVec 24
  deriving DecidableEq, Repr

/-- What every Rilhal or UET operation carries: endpoint, sender, delivery, port, whether its packets carry security, the type of a
Rilhal message (0 for an operation of UET itself) and its tag (R360, R361, R364). -/
structure Msg where
  vf : Nat
  sender : Sender
  delivery : Delivery
  port : BitVec 3
  secured : Bool
  type : BitVec 8
  tag : Word32
  deriving DecidableEq, Repr

/-- Where the hypervisor's write of a function's tables goes: to the function's entry of the virtual-function table; its first n words
to HBM at addr, where the tables lie that the entry names (peer entries, asid directories, leaves that carry MAJ); or to the region of the
fatal dump in a majority set, w0 its address and w1 its length (R306, R307, R309, R362, R377). -/
inductive VfPlace where
  | entry (vf : Nat)
  | table (vf addr n : Nat)
  | dump (set : Nat)
  deriving DecidableEq, Repr

/-- What a debugger reads at a halted CP (R322). -/
inductive DebugItem where
  | scalar (r : SReg)
  | set (r : MReg)
  | level (n : Nat)
  | control (n : Nat)
  | pc
  | region
  | wait
  | save
  | lane (lane : Nat) (r : VReg)
  | status (lane : Nat)
  deriving DecidableEq, Repr

/-- What a debugger writes at a halted CP (R322). -/
inductive DebugWrite where
  | scalar (r : SReg) (v : Word64)
  | set (r : MReg) (v : LaneSet)
  | level (n : Nat) (v : LaneSet)
  | pc (hdr : Word64)
  | lanes (writes : List (Nat × VReg × Word32))
  deriving DecidableEq, Repr

/-- The fields an endpoint's configuration writes (R361). -/
structure EndpointCfg where
  addr : BitVec 128
  ports : BitVec 8
  sa : BitVec 16
  weight : BitVec 8
  /-- The hypervisor's decision for a function's endpoint: packets without security are dropped (R360). -/
  secure : Bool
  deriving DecidableEq, Repr

/-- A firmware image offered to a slot: its security version and whether both signatures verify (R374). -/
structure FwImage where
  version : Word32
  security : Word32
  sigOk : Bool
  deriving DecidableEq, Repr

/-- What an invalidation names: a function, an asid or all, an address range or all (R308). -/
structure InvalRange where
  vf : Nat
  asid : Option (BitVec 12)
  range : Option (Nat × Nat)
  deriving DecidableEq, Repr

/-- The resource the power manager withholds (R378). -/
inductive Throttle where
  | none | press | issue | bandwidth
  deriving DecidableEq, Repr

/-- The rows of spec/opcode_table.json: instruction words and events, in its order but for the rows without operands, which stand
last. -/
inductive Instr where
  -- issue (R18, R63, R314)
  | clauseIssue (core part : Nat)
  | cpPromotion (cp : CpRef)
  | continuationClause (core part : Nat)
  | trapResume (cp : CpRef) (repaired : Bool)
  -- control (R168-R181)
  | bra (off : BitVec 32)
  | bsc (cc : BCond) (sa sb : SReg) (off : BitVec 32)
  | bsi (cc : BCond) (sa : SReg) (imm : BitVec 8) (off : BitVec 32)
  | bset (c : SetCond) (ms : MReg) (off : BitVec 32)
  | call (sd : SReg) (off : BitVec 32)
  | calli (sa sd : SReg)
  | jmp (sa : SReg)
  | ret (sa : SReg)
  | loop (sa : SReg) (off : BitVec 32)
  | succ (sa sb : SReg)
  | successorHandover (pid : Nat)
  | trap (code : BitVec 32)
  | getc (sd : SReg) (n : BitVec 8)
  | putc (n : BitVec 8) (sa : SReg)
  | pstart (sa sb : SReg)
  | brk (code : BitVec 32)
  -- scalar (R162-R167)
  | sadd (o : X2)
  | ssub (o : X2)
  | smul (o : X2)
  | smulh (o : X2)
  | sdiv (o : X2)
  | srem (o : X2)
  | sand (o : X2)
  | sor (o : X2)
  | sxor (o : X2)
  | sshl (o : X2)
  | sshr (o : X2)
  | ssar (o : X2)
  | smin (o : X2)
  | smax (o : X2)
  | sclz (o : X1)
  | spopc (o : X1)
  | smov (ty : Ty) (sd : SReg) (b : XSrc)
  | sliLo (sd : SReg) (imm : BitVec 32)
  | sliHi (sd : SReg) (imm : BitVec 32)
  | sset (cc : Cond) (o : X2)
  | ssel (o : X3)
  | sext (o : X2)
  | sins (o : X2)
  | sfadd (r : Rnd) (o : X2)
  | sfmul (r : Rnd) (o : X2)
  | sfma (r : Rnd) (o : X3)
  | sfcvt (r : Rnd) (dst src : Ty) (sd sa : SReg)
  | sfdiv (r : Rnd) (o : X2)
  | sfsqrt (r : Rnd) (o : X1)
  -- searches, sets, folds (R187-R200)
  | srch (cc : Cond) (o : Ls) (sk : SReg)
  | srchi (cc : Cond) (o : Ls) (imm : BitVec 24)
  | srchv (cc : Cond) (o : Ls) (vb : VReg)
  | srchm (o : Ls) (sk sk2 : SReg)
  | srchr (o : Ls) (sk sk2 : SReg)
  | setop (md : MReg) (op : SetOp)
  | setc (md : MReg) (all : Bool)
  | first (md ma : MReg)
  | firstk (md ma : MReg) (sa : SReg)
  | withSet (ma : MReg)
  | rcount (sd : SReg) (ma : MReg)
  | rfind (sd : SReg) (ma : MReg)
  | rsum (ty : Ty) (sd : SReg) (ma : MReg) (va : VReg)
  | rmin (ty : Ty) (sd : SReg) (ma : MReg) (va : VReg)
  | rmax (ty : Ty) (sd : SReg) (ma : MReg) (va : VReg)
  | rbit (op : BitFold) (sd : SReg) (ma : MReg) (va : VReg)
  | setv (md : MReg) (va : VReg)
  -- lane integer (R120-R132)
  | vadd (m : IMode) (o : Lv2)
  | vsub (m : IMode) (o : Lv2)
  | vmul (m : IMode) (o : Lv2)
  | vmulh (o : Lv2)
  | vmad (m : IMode) (o : Lv2)
  | vmin (o : Lv2)
  | vmax (o : Lv2)
  | vabs (m : IMode) (o : Lv1)
  | vneg (m : IMode) (o : Lv1)
  | vand (o : Lv2)
  | vor (o : Lv2)
  | vxor (o : Lv2)
  | vandn (o : Lv2)
  | vnot (o : Lv1)
  | vshl (m : IMode) (o : Lv2)
  | vshr (m : IMode) (o : Lv2)
  | vsar (m : IMode) (o : Lv2)
  | vrot (m : IMode) (o : Lv2)
  | vclz (o : Lv1)
  | vpopc (o : Lv1)
  | vbrev (o : Lv1)
  | vext (o : Lv2)
  | vins (o : Lv2)
  | vsad (m : IMode) (o : Lv2)
  | vsel (o : Lv2)
  | vmov (o : LvMove)
  | vmovi (ty : Ty) (mask : MReg) (vd : VReg) (imm : BitVec 32)
  | vid (o : Lv0)
  -- lane floating, generator, cross-lane (R136-R151)
  | vfadd (r : Rnd) (o : Lv2)
  | vfsub (r : Rnd) (o : Lv2)
  | vfmul (r : Rnd) (o : Lv2)
  | vfma (r : Rnd) (o : Lv2)
  | vfms (r : Rnd) (o : Lv2)
  | vfnma (r : Rnd) (o : Lv2)
  | vfmin (o : Lv2)
  | vfmax (o : Lv2)
  | vfabs (o : Lv1)
  | vfneg (o : Lv1)
  | vfdiv (r : Rnd) (o : Lv2)
  | vfsqrt (r : Rnd) (o : Lv1)
  | vfrnd (r : Rnd) (o : Lv1)
  | vfscale (r : Rnd) (o : Lv2)
  | vfclass (o : Lv1)
  | vcvt (r : Rnd) (dst src : Ty) (mask : MReg) (vd va : VReg)
  | vunif (o : Lv1)
  | vrand (mask : MReg) (vd va : VReg) (sb : SReg)
  | vbcast (o : Lv2)
  | vscan (m : ScanMode) (o : Lv1)
  | vcompact (o : Lv1)
  | vshfl (o : Lv2)
  -- memory (R222-R237)
  | ld (o : MLane)
  | loadComplete (x : OpPart)
  | st (o : MLane)
  | storePerform (x : OpPart)
  | lds (o : MScalar)
  | sts (o : MScalar)
  | atom (o : MAtom)
  | atomicPerform (x : OpPart)
  | satom (o : MSatom)
  | red (o : MAtom)
  | redUpdateApply (op : OpRef) (k : Nat)
  | fence (scope : Scope) (order : MOrder)
  | pref (o : MPref)
  | cpy (sb : SReg)
  | cpy2 (sb : SReg)
  | copyComplete (x : CopyPart)
  | copyRepairResume (op : OpRef) (repaired : Bool)
  | inval (o : MRange)
  | flush (o : MRange)
  | flushComplete (op : OpRef)
  | setld (o : MSet)
  | setst (o : MSet)
  | setTransferComplete (x : OpPart)
  | stpl (o : MPlane)
  | ldpl (o : MPlane)
  | bankcfg (role : CfgRole) (bank : BitVec 5)
  | engineLockProceed (e : EngineRef)
  -- queues and network (R277-R292)
  | spillRefill (cave : Nat)
  | mpSegmentLink (cave : Nat) (frame : Option (BitVec 36))
  | qpush (cave : BitVec 6) (sa : SReg)
  | qpushTry (sd : SReg) (cave : BitVec 6) (sa : SReg)
  | qpop (sd : SReg) (cave : BitVec 6)
  | qpopb (mask : MReg) (vd : VReg) (cave : BitVec 6)
  | qins (mask : MReg) (cave : BitVec 6) (va : VReg)
  | qstat (sd : SReg) (cave : BitVec 6)
  | fpush (mask : MReg) (bank : BitVec 5) (va : VReg)
  | fpop (mask : MReg) (vd : VReg) (bank : BitVec 5)
  | nput (sa : SReg)
  | nget (sa : SReg)
  | narrive (sa : SReg)
  | netComplete (op : OpRef) (ok : Bool) (data : List Byte)
  | netTimeout (op : OpRef)
  -- sync and counters (R328-R337)
  | arrive (a : KAddr) (sd : SReg) (n : KSrc)
  | waitr (a : KAddr) (g : KSrc)
  | rwset (a : KAddr) (sb : SReg)
  | rwget (a : KAddr) (sd : SReg)
  | waitt (wt wa : BitVec 6)
  | pmcr (sd : SReg) (n : BitVec 4)
  | pmcs (n : BitVec 4) (sa : SReg)
  | cpWake (cp : CpRef)
  -- streams (R257-R273)
  | streamFetch (pid : Nat)
  | pfmtA (f : Fmt)
  | pfmtB (f : Fmt)
  | pmm (t : TReg) (xa xb : XReg) (kc : BitVec 8)
  | pmmg (t : TReg) (xa xb xc : XReg) (kc : BitVec 8)
  | pzero (mask : BitVec 16)
  | pld (t : TReg) (xa : XReg)
  | pst (ty : PstTy) (t : TReg) (xa : XReg)
  | pwait (xa xb : XReg)
  | pwaitPass (pid : Nat)
  | parrive (xa : XReg) (n : BitVec 32)
  | parrivePerform (pid : Nat)
  | ploop (xa : XReg) (off : BitVec 32)
  | paddx (xa : XReg) (imm : BitVec 32)
  | psetx (xa : XReg) (imm : BitVec 32)
  | tileLockEnter (pid : Nat)
  | pressGrant (cluster : Nat)
  | tileOpComplete (x : PressPart)
  | streamCompletion (pid : Nat)
  -- distributor, images, checkpoints (R34, R175, R294-R298, R318-R320)
  | pendingPlace (vf : Nat)
  | populationRetire (pid : Nat)
  | preempt (pid : Nat)
  | preemptImage (pid : Nat)
  | restore (vf : Nat) (image : Nat)
  | checkpoint (a : Auth) (vf : Nat) (dst : Nat)
  | checkpointRestore (a : Auth) (vf : Nat) (src : Nat) (gen : Word64)
  | fragmentReady (f : FragRef)
  | fragmentDead (f : FragRef)
  -- debugger (R321, R322)
  | debugHalt (a : Auth) (vf : Nat) (cp : CpRef)
  | debugRead (a : Auth) (cp : CpRef) (item : DebugItem)
  | debugWrite (a : Auth) (cp : CpRef) (w : DebugWrite)
  | debugStep (a : Auth) (cp : CpRef)
  | debugResume (a : Auth) (cp : CpRef)
  | debugDetach (a : Auth)
  -- majority cells and L2 (R214, R245-R251)
  | majWriteComplete (serial : Nat) (accept : BitVec 5)
  | majWriteback (serial : Nat)
  | copyLateReport (serial : Nat) (copy : Nat)
  | laggardTimeout (serial : Nat)
  | stackFailover (stack : Nat)
  | stackRejoin (a : Auth) (set copy : Nat)
  | scrubRead (set line : Nat)
  | wayMaskDrain (slice vf : Nat)
  -- host and fabric (R360-R369)
  | hostLaunch (m : Msg) (cave : Nat) (entry : List Word64)
  | memw (m : Msg) (asid : BitVec 12) (target : Word64) (body : List Byte)
  | memr (m : Msg) (asid : BitVec 12) (target : Word64) (length : Nat)
  | hostArrive (m : Msg) (asid : BitVec 12) (target : Word64) (n : Word32)
  | query (m : Msg)
  | hostHoldResume (serial : Nat) (repaired : Bool)
  | hostHoldTimeout (serial : Nat)
  | rmaWrite (m : Msg) (target : Word64) (body : List Byte)
  | rmaRead (m : Msg) (target : Word64) (length : Nat)
  | uetAtomic (m : Msg) (op : AOp) (width : Width) (target v v2 : Word64)
  | uudDrop (vf : Nat)
  -- management (R209, R214, R240, R277, R308, R309, R360, R361, R371-R378)
  | vfTableWrite (a : Auth) (place : VfPlace) (w0 w1 w2 w3 gen : Word64)
  | caveConfigWrite (a : Auth) (cave : Nat) (w0 w1 : Word64)
  | wayMaskWrite (a : Auth) (slice vf : Nat) (mask : BitVec 16)
  | majSetWrite (a : Auth) (set : Nat) (entry : Word64)
  | bankRoleWrite (a : Auth) (cluster bank : Nat) (role : BankRole)
  | tlbInvalidate (a : Auth) (r : InvalRange)
  | tlbInvalidateComplete (serial : Nat)
  | portConfig (a : Auth) (port : BitVec 3) (two : Bool)
  | endpointConfig (a : Auth) (ep : Nat) (c : EndpointCfg)
  | firmwareUpdate (a : Auth) (image : FwImage)
  | testPeriodSet (a : Auth) (minutes : Nat)
  | quarantineLift (a : Auth) (cluster : Nat)
  | powerLimitSet (a : Auth) (watts : Nat)
  -- start-up, test, power (R372-R378)
  | coldStart (bist : BitVec 24)
  | warmStart (bist : BitVec 24)
  | stageAdvance (bist : BitVec 24)
  | infieldTest (cluster : Nat) (pass : Bool)
  | powerThrottle (level : Throttle)
  -- rows added at the end of the table
  | streamFetchResume (pid : Nat) (repaired : Bool)
  | debugAttach (a : Auth) (cp : CpRef)
  | badMsg (m : Msg) (mgmt : Bool)
  | mgmtEnteredTest (a : Auth)
  | clusterDisable (a : Auth) (cluster : Nat)
  -- rows without operands
  | nop
  | region
  | join
  | endCp
  | yield
  | elseSet
  | popset
  | pend
  | distributorTakeup
  | startTimeout
  | fatalError
  | clockIncrement
  deriving DecidableEq, Repr

end Sys2Proof
end

