-- ==== Sys2Proof/Machine/Form.lean ====
section
/-! DEFINITION. The static form of an instruction word: which types, registers, codes and fields R67 to R81 and the tables of
each instruction admit, before the population's register count is known. -/

namespace Sys2Proof

/-- Element width in bits (R68, R85, R89). -/
def Ty.bits : Ty → Nat
  | .s8 | .n8 | .nb8 => 8
  | .s16 | .n16 | .f16 | .b16 => 16
  | .s32 | .n32 | .f32 => 32
  | .s64 | .n64 | .f64 => 64

/-- Integer types, codes 0–7 (R68). -/
def Ty.isInt : Ty → Bool
  | .s8 | .n8 | .s16 | .n16 | .s32 | .n32 | .s64 | .n64 => true
  | .f16 | .b16 | .f32 | .f64 | .nb8 => false

/-- Floating types, codes 8–11 (R68). -/
def Ty.isFloat : Ty → Bool
  | .f16 | .b16 | .f32 | .f64 => true
  | .s8 | .n8 | .s16 | .n16 | .s32 | .n32 | .s64 | .n64 | .nb8 => false

/-- Signed integer types (R68). -/
def Ty.isSigned : Ty → Bool
  | .s8 | .s16 | .s32 | .s64 => true
  | .n8 | .n16 | .n32 | .n64 | .f16 | .b16 | .f32 | .f64 | .nb8 => false

/-- A 64-bit type, which occupies a lane-register pair (R85, R115). -/
def Ty.wide (t : Ty) : Bool := t.bits == 64

/-- Elements per 32-bit register, 1 for a pair (R85, R143). -/
def Ty.elems (t : Ty) : Nat := if t.wide then 1 else 32 / t.bits

/-- Lane registers that one operand occupies (R115). -/
def Ty.regs (t : Ty) : Nat := if t.wide then 2 else 1

/-- Integer types of 32 and 64 bits, codes 4–7 (R120). -/
def Ty.isInt3264 : Ty → Bool
  | .s32 | .n32 | .s64 | .n64 => true
  | .s8 | .n8 | .s16 | .n16 | .f16 | .b16 | .f32 | .f64 | .nb8 => false

/-- The scalar floating types (R163). -/
def Ty.isXFloat : Ty → Bool
  | .f32 | .f64 => true
  | .s8 | .n8 | .s16 | .n16 | .s32 | .n32 | .s64 | .n64 | .f16 | .b16 | .nb8 => false

/-- The six types of the X format (R68). -/
def Ty.isX (t : Ty) : Bool := t.isInt3264 || t.isXFloat

/-- The access size in bytes (R205). -/
def Width.size : Width → Nat
  | .b8 => 1 | .b16 => 2 | .b32 => 4 | .b64 => 8 | .v1 => 4 | .v2 => 8 | .v4 => 16

/-- Lane registers that an access of this width uses (R205). -/
def Width.regs : Width → Nat
  | .b8 | .b16 | .b32 | .v1 => 1
  | .b64 | .v2 => 2
  | .v4 => 4

/-- The widths of a CP-level load or store (R222). -/
def Width.isScalar : Width → Bool
  | .b8 | .b16 | .b32 | .b64 => true
  | .v1 | .v2 | .v4 => false

/-- The widths of an atomic (R77). -/
def Width.isAtomic : Width → Bool
  | .b32 | .b64 => true
  | .b8 | .b16 | .v1 | .v2 | .v4 => false

namespace Machine

/-- A scalar number below 192 (R67). -/
def sOk (r : SReg) : Bool := r.toNat < 192

/-- A scalar block r … r+n−1 that ends at or below s191 (R67). -/
def sBlockOk (r : SReg) (n : Nat) : Bool := r.toNat + n ≤ 192

/-- The first register of a pair is even (R67, R115). -/
def evenReg (v : VReg) : Bool := v.toNat % 2 == 0

/-- A lane operand of this type names an even register when it is a pair (R67). -/
def vOk (t : Ty) (v : VReg) : Bool := !t.wide || evenReg v

/-- A b operand of an arithmetic word (R70, R71). -/
def bOk (t : Ty) : BSrc → Bool
  | .reg vb => vOk t vb
  | .scalar sb => sOk sb
  | .imm v => !(t == .f16 || t == .b16) || v.extractLsb' 16 5 == 0#5

/-- A b operand that is read as an integer: any immediate is taken (R140). -/
def bIntOk (t : Ty) : BSrc → Bool
  | .reg vb => vOk t vb
  | .scalar sb => sOk sb
  | .imm _ => true

/-- A b operand that is a lane index: the register is a 32-bit operand of any parity (R148). -/
def bIdxOk : BSrc → Bool
  | .reg _ => true
  | .scalar sb => sOk sb
  | .imm _ => true

/-- The last operand of an X word. -/
def xOk : XSrc → Bool
  | .reg sb => sOk sb
  | .imm _ => true

/-- The n or g operand of a K word. -/
def kOk : KSrc → Bool
  | .reg sb => sOk sb
  | .imm _ => true

def wfX2 (p : Ty → Bool) (o : X2) : Bool := p o.ty && sOk o.sd && sOk o.sa && xOk o.b
def wfX1 (p : Ty → Bool) (o : X1) : Bool := p o.ty && sOk o.sd && sOk o.sa
def wfX3 (p : Ty → Bool) (o : X3) : Bool := p o.ty && sOk o.sd && sOk o.sa && sOk o.sb && sOk o.sc

def wfLv2 (p : Ty → Bool) (o : Lv2) : Bool := p o.ty && vOk o.ty o.vd && vOk o.ty o.va && bOk o.ty o.b
def wfLv1 (p : Ty → Bool) (o : Lv1) : Bool := p o.ty && vOk o.ty o.vd && vOk o.ty o.va

/-- Types 0–11: every type but NB8 (R120). -/
def notNb8 (t : Ty) : Bool := t.isInt || t.isFloat

/-- Types 0–5 (R120, VSAD). -/
def isInt32 (t : Ty) : Bool := t.isInt && !t.wide

/-- The element selector fits the type (R191). -/
def selOk (t : Ty) (sel : BitVec 2) : Bool := sel.toNat < (if t.bits < 32 then t.elems else 1)

def wfLs (o : Ls) : Bool := notNb8 o.ty && vOk o.ty o.va && selOk o.ty o.sel

/-- The pairs of types that VCVT accepts (R144). -/
def cvtOk (dst src : Ty) : Bool :=
  (src.isFloat && dst.isFloat && src != dst) || (src.isFloat && dst.isInt) || (src.isInt && dst.isFloat)

/-- The pairs of types that SFCVT accepts (R167). -/
def sfcvtOk (dst src : Ty) : Bool :=
  (src.isXFloat && dst.isXFloat && src != dst) || (src.isXFloat && dst.isInt3264) || (src.isInt3264 && dst.isXFloat)

/-- Window and FIFO words take only the scopes POP and CLU (R77). -/
def scopeOk (sp : Space) (sc : Scope) : Bool :=
  match sp with
  | .g => true
  | .w | .f => sc == .pop || sc == .clu

/-- A lane access of LD or ST: widths, spaces, scopes and orders of R212 and R222. -/
def wfMLane (dir : MOrder) (o : MLane) : Bool :=
  scopeOk o.space o.scope && (o.order == .plain || o.order == dir)
    && (o.space != .f || (o.scope == .pop && o.order == .plain))
    && (o.width != .b64 || evenReg o.vdat) && sOk o.sbase

/-- LDS and STS (R222). -/
def wfMScalar (dir : MOrder) (o : MScalar) : Bool :=
  o.width.isScalar && o.space != .f && scopeOk o.space o.scope && (o.order == .plain || o.order == dir)
    && sOk o.sd && sOk o.sbase

/-- ATOM and RED (R77, R222). -/
def wfMAtom (o : MAtom) : Bool :=
  o.width.isAtomic && o.space != .f && scopeOk o.space o.scope && (o.width != .b64 || evenReg o.vdat) && sOk o.sbase

/-- SATOM (R228). -/
def wfMSatom (o : MSatom) : Bool :=
  o.width.isAtomic && o.space != .f && scopeOk o.space o.scope && sOk o.sd && sOk o.sbase
    && (o.op != .cas || sBlockOk o.sd 2)

/-- A rennet-word operand (R81, R328). -/
def wfKAddr (a : KAddr) : Bool := a.space != .f && scopeOk a.space a.scope && sOk a.sa

/-- An instruction word keeps every static rule of R67; an event carries no such fields. -/
def wfInstr : Instr → Bool
  | .nop | .region | .join | .endCp | .yield | .elseSet | .popset | .pend => true
  | .bra _ | .trap _ | .brk _ | .bset _ _ _ => true
  | .bsc _ sa sb _ => sOk sa && sOk sb
  | .bsi _ sa _ _ => sOk sa
  | .call sd _ => sOk sd
  | .calli sa sd => sOk sa && sOk sd
  | .jmp sa | .ret sa | .loop sa _ => sOk sa
  | .succ sa sb | .pstart sa sb => sOk sa && sOk sb
  | .getc sd n => sOk sd && n.toNat < 23
  | .putc n sa => sOk sa && n.toNat < 23
  | .sadd o | .ssub o | .smul o | .smulh o | .sdiv o | .srem o | .sand o | .sor o | .sxor o
  | .sshl o | .sshr o | .ssar o | .smin o | .smax o | .sext o | .sins o => wfX2 Ty.isInt3264 o
  | .sclz o | .spopc o => wfX1 Ty.isInt3264 o
  | .smov ty sd b => ty.isX && sOk sd && xOk b
  | .sliLo sd _ | .sliHi sd _ => sOk sd
  | .sset _ o => wfX2 Ty.isX o
  | .ssel o => wfX3 Ty.isX o
  | .sfadd _ o | .sfmul _ o | .sfdiv _ o => wfX2 Ty.isXFloat o
  | .sfma _ o => wfX3 Ty.isXFloat o
  | .sfcvt _ dst src sd sa => sfcvtOk dst src && sOk sd && sOk sa
  | .sfsqrt _ o => wfX1 Ty.isXFloat o
  | .srch _ o sk => wfLs o && sOk sk
  | .srchi _ o imm => wfLs o && (!(o.ty == .f16 || o.ty == .b16) || imm.extractLsb' 16 8 == 0#8)
  | .srchv _ o vb => wfLs o && vOk o.ty vb
  | .srchm o sk sk2 | .srchr o sk sk2 => wfLs o && sOk sk && sOk sk2
  | .setop _ _ | .setc _ _ | .first _ _ | .withSet _ | .setv _ _ => true
  | .firstk _ _ sa => sOk sa
  | .rcount sd _ | .rfind sd _ | .rbit _ sd _ _ => sOk sd
  | .rsum ty sd _ va | .rmin ty sd _ va | .rmax ty sd _ va => notNb8 ty && sOk sd && vOk ty va
  | .vadd _ o | .vsub _ o | .vmul _ o | .vmad _ o | .vshl _ o | .vshr _ o | .vsar _ o | .vrot _ o => wfLv2 Ty.isInt o
  | .vmulh o | .vmin o | .vmax o => wfLv2 Ty.isInt o
  | .vabs _ o | .vneg _ o => wfLv1 Ty.isInt o
  | .vand o | .vor o | .vxor o | .vandn o | .vsel o => wfLv2 notNb8 o
  | .vnot o => wfLv1 notNb8 o
  | .vclz o | .vpopc o | .vbrev o => wfLv1 Ty.isInt o
  | .vext o | .vins o => wfLv2 Ty.isInt3264 o
  | .vsad _ o => wfLv2 isInt32 o
  | .vmov o => notNb8 o.ty && vOk o.ty o.vd && bOk o.ty o.b
  | .vmovi ty _ vd _ => notNb8 ty && vOk ty vd
  | .vid o => o.ty.isInt3264 && vOk o.ty o.vd
  | .vfadd _ o | .vfsub _ o | .vfmul _ o | .vfma _ o | .vfms _ o | .vfnma _ o | .vfdiv _ o => wfLv2 Ty.isFloat o
  | .vfmin o | .vfmax o => wfLv2 Ty.isFloat o
  | .vfabs o | .vfneg o | .vfclass o => wfLv1 Ty.isFloat o
  | .vfsqrt _ o | .vfrnd _ o => wfLv1 Ty.isFloat o
  | .vfscale _ o => o.ty.isFloat && vOk o.ty o.vd && vOk o.ty o.va && bIntOk o.ty o.b
  | .vcvt _ dst src _ vd va => cvtOk dst src && vOk dst vd && vOk src va
  | .vunif o => o.ty.isXFloat && vOk o.ty o.vd && vOk o.ty o.va
  | .vrand _ _ _ sb => sOk sb
  | .vbcast o => notNb8 o.ty && vOk o.ty o.vd && vOk o.ty o.va && bIdxOk o.b
      && (match o.b with | .reg _ => false | .scalar _ => true | .imm _ => true)
  | .vshfl o => notNb8 o.ty && vOk o.ty o.vd && vOk o.ty o.va && bIdxOk o.b
  | .vscan m o => notNb8 o.ty && vOk o.ty o.vd && vOk o.ty o.va
      && (match m with | .int _ => o.ty.isInt | .fp _ => o.ty.isFloat)
  | .vcompact o => wfLv1 notNb8 o
  | .ld o => wfMLane .acq o
  | .st o => wfMLane .rel o
  | .lds o => wfMScalar .acq o
  | .sts o => wfMScalar .rel o
  | .atom o => wfMAtom o
  | .satom o => wfMSatom o
  | .red o => wfMAtom o && (o.order == .plain || o.order == .rel) && o.op != .swap && o.op != .cas
  | .fence _ order => order != .plain
  | .pref o => o.scope != .sys && sOk o.sbase
  | .cpy sb => sBlockOk sb 4
  | .cpy2 sb => sBlockOk sb 7
  | .inval o | .flush o => sOk o.sl && sOk o.sbase
  | .setld o | .setst o => o.scope != .sys && sOk o.sbase
  | .stpl o | .ldpl o => sBlockOk o.sbase 3
  | .bankcfg _ _ => true
  | .qpush _ sa => sBlockOk sa 18
  | .qpushTry sd _ sa => sOk sd && sBlockOk sa 18
  | .qpop sd _ => sBlockOk sd 18
  | .qpopb _ _ _ | .qins _ _ _ | .fpush _ _ _ | .fpop _ _ _ => true
  | .qstat sd _ => sOk sd
  | .nput sa | .nget sa | .narrive sa => sBlockOk sa 6
  | .arrive a sd n => wfKAddr a && sOk sd && kOk n
  | .waitr a g => wfKAddr a && kOk g
  | .rwset a sb => wfKAddr a && sOk sb
  | .rwget a sd => wfKAddr a && sBlockOk sd 2
  | .waitt _ _ => true
  | .pmcr sd _ => sOk sd
  | .pmcs _ sa => sOk sa
  | .pfmtA _ => true
  | .pfmtB f => !f.f32 && f.rnd == .mode
  | .pmm _ _ _ kc | .pmmg _ _ _ _ kc => kc != 0
  | .pzero _ | .pld _ _ | .pst _ _ _ | .pwait _ _ | .parrive _ _ | .ploop _ _ | .paddx _ _ | .psetx _ _ => true
  | .clauseIssue _ _ | .cpPromotion _ | .continuationClause _ _ | .trapResume _ _ | .successorHandover _
  | .loadComplete _ | .storePerform _ | .atomicPerform _ | .redUpdateApply _ _ | .copyComplete _
  | .copyRepairResume _ _ | .flushComplete _ | .setTransferComplete _ | .engineLockProceed _ | .spillRefill _
  | .mpSegmentLink _ _ | .netComplete _ _ _ | .netTimeout _ | .cpWake _ | .streamFetch _ | .pwaitPass _
  | .parrivePerform _ | .tileLockEnter _ | .pressGrant _ | .tileOpComplete _ | .streamCompletion _
  | .distributorTakeup | .pendingPlace _ | .populationRetire _ | .preempt _ | .preemptImage _ | .restore _ _
  | .checkpoint _ _ _ | .checkpointRestore _ _ _ _ | .fragmentReady _ | .fragmentDead _ | .debugHalt _ _ _
  | .debugRead _ _ _ | .debugWrite _ _ _ | .debugStep _ _ | .debugResume _ _ | .debugDetach _
  | .majWriteComplete _ _ | .majWriteback _ | .copyLateReport _ _ | .laggardTimeout _ | .stackFailover _
  | .stackRejoin _ _ _ | .scrubRead _ _ | .wayMaskDrain _ _ | .hostLaunch _ _ _ | .memw _ _ _ _ | .memr _ _ _ _
  | .hostArrive _ _ _ _ | .query _ | .hostHoldResume _ _ | .hostHoldTimeout _ | .rmaWrite _ _ _ | .rmaRead _ _ _
  | .uetAtomic _ _ _ _ _ _ | .uudDrop _ | .vfTableWrite _ _ _ _ _ _ _ | .caveConfigWrite _ _ _ _
  | .wayMaskWrite _ _ _ _ | .majSetWrite _ _ _ | .bankRoleWrite _ _ _ _ | .tlbInvalidate _ _
  | .tlbInvalidateComplete _ | .portConfig _ _ _ | .endpointConfig _ _ _ | .firmwareUpdate _ _ | .testPeriodSet _ _
  | .quarantineLift _ _ | .powerLimitSet _ _ | .coldStart _ | .warmStart _ | .stageAdvance _ | .startTimeout
  | .infieldTest _ _ | .fatalError | .powerThrottle _ | .streamFetchResume _ _ | .clockIncrement | .debugAttach _ _
  | .badMsg _ _ | .mgmtEnteredTest _ | .clusterDisable _ _ => true

end Machine
end Sys2Proof
end

