-- ==== Sys2Proof/Machine/Tab.lean ====
section
/-! DEFINITION. Sparse tables: lists of a number and a value with strictly rising numbers. A table of defaults lists no entry
that equals its default, so that equal tables are equal lists. -/

namespace Sys2Proof.Machine

/-- A sparse table. -/
abbrev Tab (α : Type) := List (Nat × α)

/-- The value listed at a number. -/
def Tab.find {α : Type} : Tab α → Nat → Option α
  | [], _ => none
  | (j, v) :: t, k => if j = k then some v else Tab.find t k

/-- The table with the number listed with this value. -/
def Tab.insert {α : Type} : Tab α → Nat → α → Tab α
  | [], k, v => [(k, v)]
  | (j, w) :: t, k, v =>
    if k < j then (k, v) :: (j, w) :: t else if j = k then (k, v) :: t else (j, w) :: Tab.insert t k v

/-- The table without the number. -/
def Tab.erase {α : Type} : Tab α → Nat → Tab α
  | [], _ => []
  | (j, w) :: t, k => if j = k then Tab.erase t k else (j, w) :: Tab.erase t k

/-- Reading with a default. -/
def Tab.get {α : Type} (d : α) (t : Tab α) (k : Nat) : α := (Tab.find t k).getD d

/-- Writing with a default: a value equal to the default is not listed. -/
def Tab.put {α : Type} [DecidableEq α] (d : α) (t : Tab α) (k : Nat) (v : α) : Tab α :=
  if v = d then Tab.erase t k else Tab.insert t k v

/-- The table without the numbers of a range, which then read as the default. -/
def Tab.clear {α : Type} (t : Tab α) (lo n : Nat) : Tab α := t.filter (fun e => decide (e.1 < lo) || decide (lo + n ≤ e.1))

/-- The numbers of the table rise strictly, above a bound. -/
def Tab.rises {α : Type} : Nat → Tab α → Bool
  | _, [] => true
  | lo, (j, _) :: t => decide (lo ≤ j) && Tab.rises (j + 1) t

/-- The canonical form of a table of defaults: rising numbers, and no entry equal to the default. -/
def Tab.wf {α : Type} [DecidableEq α] (d : α) (t : Tab α) : Bool := Tab.rises 0 t && t.all (fun e => decide (e.2 ≠ d))

/-- Writing consecutive values. -/
def Tab.putAll {α : Type} [DecidableEq α] (d : α) : Tab α → Nat → List α → Tab α
  | t, _, [] => t
  | t, k, v :: vs => Tab.putAll d (Tab.put d t k v) (k + 1) vs

/-- Reading consecutive values. -/
def Tab.getAll {α : Type} (d : α) (t : Tab α) (k : Nat) : Nat → List α
  | 0 => []
  | n + 1 => Tab.get d t k :: Tab.getAll d t (k + 1) n

/-- Reading consecutive values in one pass over a table whose numbers are all at least the first. -/
def Tab.readFrom {α : Type} (d : α) : Nat → Tab α → Nat → List α
  | 0, _, _ => []
  | n + 1, [], lo => d :: Tab.readFrom d n [] (lo + 1)
  | n + 1, (j, v) :: t, lo =>
    if j = lo then v :: Tab.readFrom d n t (lo + 1) else d :: Tab.readFrom d n ((j, v) :: t) (lo + 1)

/-- The n values from a number on. -/
def Tab.slice {α : Type} (d : α) (t : Tab α) (lo n : Nat) : List α := Tab.readFrom d n (t.dropWhile (fun e => decide (e.1 < lo))) lo

/-- The table with the values from a number on replaced. -/
def Tab.splice {α : Type} [DecidableEq α] (d : α) (t : Tab α) (lo : Nat) (vs : List α) : Tab α :=
  t.takeWhile (fun e => decide (e.1 < lo))
    ++ (vs.zipIdx.filterMap (fun e => if e.1 = d then none else some (lo + e.2, e.1)))
    ++ t.dropWhile (fun e => decide (e.1 < lo + vs.length))

end Sys2Proof.Machine
end

