-- ==== Sys2Proof/Machine/State.lean ====
section
/-! DEFINITION. The state of the device as plain data, the reasons a step can stop, and the state right after reset. -/

namespace Sys2Proof.Machine

/-- The reasons the machine stops with a fault. -/
inductive Fault where
  /-- Raised by step when the agent named as the issuer holds no fetched word at its word index; no clause issue leaves
  such a state (R60), so the stop is safe. -/
  | noWord
  deriving DecidableEq, Repr

/-- The reasons a step is refused. -/
inductive Refusal where
  /-- Raised by exec for an instruction that has no meaning yet; safe. -/
  | notModelled (mnemonic : String)
  /-- Raised by an event whose conditions do not hold in the state: the event does not come about there; safe. -/
  | notEnabled (event : String)
  /-- Raised by an instruction word when the state names no agent of its kind that issues it (R58, R66); safe. -/
  | noIssuer (mnemonic : String)
  deriving DecidableEq, Repr

/-- Bytes by address; the bytes not listed read 0 (R15, R373; DESIGN CHOICE, notes/assumptions/4.md). -/
abbrev Memory := Tab Byte

/-- The canonical form of a memory: rising addresses and no entry that equals an unlisted byte. -/
abbrev Memory.wf (m : Memory) : Bool := Tab.wf (0 : Byte) m

/-- The precise traps of R314. -/
inductive Trap where
  | illegal | clause | clauseCrc | setStack | rangeLock | scope | fragFull | rciFault | permission | fpTrap | shape
  | software | brk | priv | queue | bankRole | align | window | detViol
  deriving DecidableEq, Repr

/-- The lane causes of R315. -/
inductive LaneCause where
  | notPresent | permission | uncorrectable | majority | poison
  deriving DecidableEq, Repr

/-- The lane status word (R10). -/
structure LaneStatus where
  ovf : Bool
  dead : Bool
  parked : Bool
  frag : BitVec 8
  cause : BitVec 3
  deriving DecidableEq, Repr

/-- The trap policy of a kernel descriptor (R177). -/
inductive Policy where
  | abort | resume | vector
  deriving DecidableEq, Repr

/-- The kinds of a wait entry (R310). -/
inductive WaitKind where
  | waitr | waitt | header | join | qpush | fpush | fpop | succ2 | succ3
  deriving DecidableEq, Repr

/-- A wait entry (R310). -/
structure Wait where
  kind : WaitKind
  space : Space
  addr : Word64
  value : Word32
  aux : Word32
  deriving DecidableEq, Repr

/-- Where an access performs: a cluster-store byte, a physical byte with its page's cache field and whether its function may
hold it in L2, or a stack-local byte of a majority set (R208, R211, R213). -/
inductive Loc where
  | store (cluster addr : Nat)
  | hbm (pa : Nat) (cache : BitVec 2)
  | maj (set off : Nat)
  deriving DecidableEq, Repr

/-- One performing part of an access: its lanes (none for a CP-level word), its address as the program formed it, where it
performs, and what it carries. -/
structure Item where
  lanes : List Nat
  addr : Word64
  loc : Loc
  size : Nat
  data : BitVec 128
  data2 : Word64
  /-- The bits a plane store writes; all ones for every other store (R236). -/
  bits : BitVec 128
  res : Option (BitVec 128)
  done : Bool
  /-- The majority writes it has sent (R245). -/
  maj : List Nat
  deriving DecidableEq, Repr

/-- What an agent knows of memory: of a byte, by physical address, the version it has read or written, before which no held line may
give it (R344); and, where a channel keeps no record, the serial number before which no line may have been filled (the serial numbers
are the model's, notes/assumptions/61.md). -/
structure Know where
  mark : Nat
  seen : Tab Nat
  deriving DecidableEq, Repr

/-- A release that stands at a place: its bytes, its scope with the releasing population and cluster, whether it is an arrival, what it
passes on, and which of its bytes a plain store has written since, with no atomic or arrival after it (R342, R343). -/
structure RelRec where
  loc : Loc
  size : Nat
  scope : Scope
  popid : Nat
  cluster : Nat
  arrival : Bool
  know : Know
  hidden : Tab Bool
  deriving DecidableEq, Repr

/-- What an access does and where its result goes. -/
inductive AccOp where
  | ld (vd : VReg) (width : Width)
  | lds (sd : SReg)
  | st
  | sts
  | atom (op : AOp) (vd : VReg) (width : Width)
  | satom (op : AOp) (sd : SReg) (width : Width)
  | red (op : AOp) (width : Width)
  | stpl
  | ldpl (vd : VReg)
  | fence
  | arrive (sd : SReg) (n : Word32)
  | rwget (sd : SReg)
  | rwset (target : Word32)
  /-- A result already known when the word issued, for scalars (QPOP, QSTAT, QPUSH.try). -/
  | scalars (ws : List (SReg × Word64))
  /-- A result already known when the word issued, for lanes (QPOPB). -/
  | lanes (vd : VReg)
  /-- A QPUSH.try that the management processor has yet to serve: cave, depth and entry (R283, R285). -/
  | tryPush (sd : SReg) (cave depth : Nat) (words : List Word64)
  deriving DecidableEq, Repr

/-- An access of a CP in its memory pipeline (R23, R217, R333). -/
structure Access where
  serial : Nat
  word : Word64
  op : AccOp
  scope : Scope
  order : MOrder
  ticket : Bool
  items : List Item
  performed : Bool
  complete : Bool
  /-- The mode register at issue (R226) and the flags its floating atomics raised (R227). -/
  mode : Word64
  flags : BitVec 6
  /-- The majority writes it has sent (R245). -/
  majWait : List Nat
  /-- A data cause of a CP-level word, not yet taken (R221). -/
  fault : Option LaneCause
  deriving DecidableEq, Repr

/-- The descriptor of a copy (R232) with its rows. -/
structure CopyDesc where
  dst : Word64
  src : Word64
  len : Nat
  rows : Nat
  dstW : Bool
  srcW : Bool
  dstStride : Word64
  srcStride : Word64
  cw : Option Nat
  deriving DecidableEq, Repr

/-- The network operations of R292. -/
inductive NetOp where
  | put | get | arrive
  deriving DecidableEq, Repr

/-- The descriptor of a network operation (R292). -/
structure NetDesc where
  op : NetOp
  peer : Nat
  remote : Word64
  localAddr : Word64
  len : Nat
  window : Bool
  cw : Word64
  remoteCw : Word64
  deriving DecidableEq, Repr

/-- One lane of SETLD or SETST: the window offset and the global place, and its bytes once they have been read and not yet written
(R235, R345). -/
structure SetItem where
  lane : Nat
  off : Nat
  addr : Word64
  loc : Loc
  size : Nat
  got : Option (List Byte)
  deriving DecidableEq, Repr

/-- The asynchronous operations of R333. -/
inductive AsyncKind where
  | copy (d : CopyDesc)
  | flush (lo len : Nat) (all : Bool)
  | setTransfer (load : Bool) (items : List SetItem)
  | net (d : NetDesc)
  deriving DecidableEq, Repr

/-- An asynchronous operation of a CP: how many bytes it has moved, the address it is held at while it waits for a repair, its
status bits and whether it is complete. -/
structure AsyncOp where
  serial : Nat
  kind : AsyncKind
  moved : Nat
  /-- It waits inside its engine for locks entered before its own (R220). -/
  waiting : Bool
  held : Option Word64
  status : BitVec 2
  complete : Bool
  /-- The clock at its issue, or at its last message (R369). -/
  since : Word64
  /-- The majority writes it has sent (R245). -/
  majWait : List Nat
  /-- Of a transfer, each of them with its lane (R221). -/
  majLanes : List (Nat × Nat)
  /-- What its CP had acquired when it began, and what it has read since: what its arrival passes on (R342, R344 step 5). -/
  know : Know
  /-- The data of a network operation has been acknowledged and its remote arrival is under way (R369). -/
  acked : Bool
  /-- The bytes of its next line that a copy has read and not yet written; none within for a line that reads no good data (R345). -/
  got : Option (Option (List Byte))
  deriving DecidableEq, Repr

/-- The replay save area (R155, R173). -/
structure SaveArea where
  s : Tab Word64
  m : Tab LaneSet
  stack : List LaneSet
  hdr : Word64
  widx : Nat
  clause : List Word64
  deriving DecidableEq, Repr

/-- A held trap: its code and whether firmware can repair its cause (R161, R314). -/
structure Held where
  code : Trap
  repairable : Bool
  deriving DecidableEq, Repr

/-- A pending SCOPE trap (R219). -/
structure ScopeTrap where
  tpc : Word64
  taddr : Word64
  tlane : Word64
  deriving DecidableEq, Repr

/-- A control program (R155). -/
structure Cp where
  ctx : Nat
  s : Tab Word64
  mode : Word64
  flags : BitVec 6
  tpc : Word64
  tcause : Word64
  taddr : Word64
  tlane : Word64
  gen : Word64
  hdr : Word64
  widx : Nat
  /-- The fetched clause under way (R60); empty at a clause boundary. -/
  clause : List Word64
  issuing : Bool
  entry : Word64
  d0 : Nat
  /-- A region-closing instruction (R25) has opened a region and no clause has begun in it yet (R172). -/
  fresh : Bool
  save : Option SaveArea
  replayF : LaneSet
  m : Tab LaneSet
  /-- The set stack, level 1 first (R183). -/
  stack : List LaneSet
  pend : List Access
  asyncs : List AsyncOp
  wait : Option Wait
  /-- The address of the word that parked the CP, for a WAITR's fault (R330). -/
  waitWord : Word64
  /-- Where the rennet word of a parked WAITR lies, and whether its unit has signalled since the last test (R311). -/
  waitLoc : Option Loc
  waitDue : Bool
  /-- The scope at which that WAITR acquires (R330). -/
  waitScope : Scope
  held : Option Held
  attached : Bool
  halted : Bool
  haltDue : Bool
  stepping : Bool
  ended : Bool
  readySince : Word64
  promoted : Bool
  scopeTrap : Option ScopeTrap
  /-- What it has acquired, read and written (R344 steps 1, 2 and 4). -/
  know : Know
  /-- What it has acquired alone, which its lane registers carry on to the other control programs (R344 step 3). -/
  learned : Know
  /-- What lane registers have carried to it, which its releases pass on (R344 step 3). -/
  carried : Know
  /-- Its loads use no line held before this serial number: an acquire or a fence at DEV or SYS (R217, R230). -/
  bar : Nat
  /-- What the releases passed on whose values its plain reads have taken, from its own population (0), from others of its cluster (1)
  and from other agents (2): a later acquire fence brings it in (R230, R342). -/
  observed : Tab Know
  /-- The release fences that have performed, by scope: later stores carry their releases, as the fences knew them (R230, R342). -/
  fenced : List (Scope × Know)
  /-- The lanes that a memory word of the clause under way has parked: its lane words still act on them (R135; notes/assumptions/62.md). -/
  late : LaneSet
  /-- The operands of a SUCC under way: descriptor and record address (R176). -/
  succ : Option (Word64 × Word64)
  deriving DecidableEq, Repr

/-- One operand of a pass as a tile operation captured it at issue: its format block, base, strides and scale offset (R259, R267). -/
structure Operand where
  fmt : Fmt
  base : Nat
  rs : Nat
  ps : Nat
  sc : Nat
  deriving DecidableEq, Repr

/-- A tile operation with what it captured at issue (R259, R267, R269): the rows of a gathered pass, none for a dense one; a gathered
pass whose index vector an earlier operation may still write has not read it. -/
inductive TileKind where
  | pmm (t : Nat) (a b : Operand) (kc : Nat) (rows : Option (List Nat)) (badIndex : Bool)
  | gather (t : Nat) (a b : Operand) (kc base : Nat)
  | pzero (mask : BitVec 16)
  | pld (t : Nat) (base : Nat)
  | pst (ty : PstTy) (t : Nat) (a : Operand)
  deriving DecidableEq, Repr

/-- Where a stream stood when it issued a tile operation: pre-emption returns to it if the operation has not been granted
(R34, R275). -/
structure StreamMark where
  hdr : Word64
  widx : Nat
  clause : List Word64
  x : Tab Word32
  fa : Fmt
  fb : Fmt
  deriving DecidableEq, Repr

/-- A window access that a granted tile operation has yet to make: the bytes at an offset, under the place they have in the operation,
or a line with its pieces, none for a poisoned line (R264, R268 to R271). -/
inductive TilePart where
  | read (key off n : Nat)
  | write (line : Nat) (pieces : List (Nat × List Byte))
  deriving DecidableEq, Repr

/-- A tile operation issued and not complete (R259): whether it waits on earlier locks, whether the press has been granted to it, the
flags and poison it leaves, and the accesses it has yet to make with the bytes it has read. -/
structure TileOp where
  serial : Nat
  kind : TileKind
  waiting : Bool
  granted : Bool
  issued : Word64
  flags : BitVec 6
  poison : Bool
  mark : StreamMark
  parts : List TilePart
  got : Tab (List Byte)
  deriving DecidableEq, Repr

/-- A matrix stream with the items of R254 and its reservation entry (R312). -/
structure Stream where
  hdr : Word64
  widx : Nat
  clause : List Word64
  /-- A clause has been fetched since PSTART (R258). -/
  started : Bool
  x : Tab Word32
  fa : Fmt
  fb : Fmt
  flags : BitVec 6
  err : Bool
  poison : Bool
  code : BitVec 3
  rm : BitVec 3
  ftz : Bool
  daz : Bool
  cw : Nat
  starter : Nat
  pwait : Bool
  /-- The word at the position is a PARRIVE that waits for earlier tile operations: its offset and count (R272). -/
  parrive : Option (Nat × Word32)
  /-- The word at the position is a tile operation that waits in the sequencer, holding no lock (R259). -/
  lockWait : Bool
  held : Option Word64
  ops : List TileOp
  /-- PEND has been reached or a stream error has stopped the stream (R263, R273). -/
  stopped : Bool
  /-- The clock at the last press grant of the entry (R312). -/
  granted : Word64
  /-- What the stream has acquired: PSTART and PWAIT (R342). -/
  know : Know
  deriving DecidableEq, Repr

/-- Stream flags that a WAITR of the starting CP has yet to bring in (R262). -/
structure FlagsDue where
  starter : Nat
  cw : Nat
  flags : BitVec 6
  deriving DecidableEq, Repr

/-- A population (R9, R12, R114). -/
structure Pop where
  vf : Nat
  task : Nat
  cave : Nat
  seq : Word32
  popix : Nat
  npop : Nat
  key : Word32
  nest : Nat
  lanes : Nat
  regs : Nat
  ncp : Nat
  banks : Nat
  tiles : BitVec 16
  prio : Nat
  asid : BitVec 12
  policy : Policy
  handler : Word64
  word1 : Word64
  cluster : Nat
  base : Nat
  /-- The core of each group, the home core first (R14). -/
  groups : List Nat
  /-- The coreid and cluid registers (R157). -/
  coreid : Nat
  cluid : Nat
  v : Tab Word32
  status : Tab LaneStatus
  faults : Word32
  errors : Word32
  cps : Tab Cp
  stream : Option Stream
  flagsDue : List FlagsDue
  aborted : Bool
  preempting : Bool
  /-- The instruction words it has fetched, by address: the old form of a rewritten word (R65). -/
  code : Tab Word64
  /-- The serial number at its creation or successor launch: words rewritten since may come in their old form (R65). -/
  since : Nat
  /-- The CP whose clause entered population order last (R22). -/
  lastCp : Nat
  deriving DecidableEq, Repr

/-- The states of a fragment entry (R302). -/
inductive FragState where
  | free | pending | ready | dead
  deriving DecidableEq, Repr

/-- A fragment entry or overflow slot (R302), with the serial number that tells the newest, and firmware's note of the lanes that
joined it from another word than the one at wordaddr (R28, R303; DESIGN CHOICE, notes/assumptions/7.md). -/
structure Frag where
  state : FragState
  ctx : Nat
  lanes : Nat
  more : Bool
  page : BitVec 40
  wordaddr : Word64
  born : Nat
  late : Tab Word64
  deriving DecidableEq, Repr

/-- The engines of a range lock (R304). -/
inductive Engine where
  | copy | press | ladle
  deriving DecidableEq, Repr

/-- A valid range-lock entry (R304) with the serial number of the operation that holds it, and the clk at which it was entered (R220). -/
structure Lock where
  cluster : Nat
  write : Bool
  engine : Engine
  first : Nat
  last : Nat
  owner : Nat
  entered : Word64
  deriving DecidableEq, Repr

/-- A valid scope-check entry (R305) with the serial number that tells the least recent. -/
structure Stamp where
  slice : Nat
  scope : Scope
  popid : Nat
  clu : Nat
  line : Nat
  age : Nat
  deriving DecidableEq, Repr

/-- The poison bit of a 128-byte line, and which of its sixteen 8-byte words have an uncorrectable error that no read has met (R211). -/
structure LineState where
  poison : Bool
  bad : BitVec 16
  deriving DecidableEq, Repr

/-- A line of a cluster cache (R209, R213). -/
structure CacheLine where
  cluster : Nat
  vf : Nat
  line : Nat
  bank : Nat
  age : Nat
  bytes : List Byte
  /-- The version of each byte, by its place in the line (R213, R344). -/
  vers : Tab Nat
  /-- The releases that a read of the line observes (R343). -/
  rels : List RelRec
  deriving DecidableEq, Repr

/-- The old form of an 8-byte word of memory that a write has changed, by its place: the physical address, or for a word of a majority
line its stack-local address past HBM and the spaces of the sets before it (R65). -/
structure OldWord where
  serial : Nat
  place : Nat
  word : Word64
  deriving DecidableEq, Repr

/-- A dirty L2 line: its function and its way (R214). -/
structure L2Line where
  vf : Nat
  way : Nat
  /-- The bytes not yet in HBM, by their place in the line. -/
  bytes : Tab Byte
  deriving DecidableEq, Repr

/-- A TLB entry of a core (unit 0–95) or of a cluster (unit 96 + k) (R308): a leaf with the level it was found at. -/
structure TlbEntry where
  unit : Nat
  vf : Nat
  asid : BitVec 12
  level : Nat
  page : Nat
  leaf : Word64
  deriving DecidableEq, Repr

/-- An invalidation that has not completed (R308). -/
structure Inval where
  serial : Nat
  range : InvalRange
  /-- The tag of its message, which the answer echoes (R364). -/
  tag : Word32
  deriving DecidableEq, Repr

/-- A write of a majority line on its way to the copies, with the clk at which it was sent and that at which it completed (R245, R249). -/
structure MajWrite where
  serial : Nat
  set : Nat
  line : Nat
  tag : Word64
  data : List Byte
  poison : Bool
  accepted : BitVec 5
  reported : BitVec 5
  complete : Bool
  sent : Word64
  since : Word64
  deriving DecidableEq, Repr

/-- A write-back that a majority read has left due (R246). -/
structure MajBack where
  serial : Nat
  set : Nat
  line : Nat
  copy : Nat
  tag : Word64
  data : List Byte
  poison : Bool
  deriving DecidableEq, Repr

/-- A copy that has not answered a read of its home (R246, R249): the read's line and the clock at which it was sent. -/
structure MajAsk where
  serial : Nat
  set : Nat
  line : Nat
  copy : Nat
  since : Word64
  reported : Bool
  deriving DecidableEq, Repr

/-- Where an entry of a cave lies (R283): the head, or a place of the segment with this frame. -/
inductive Place where
  | head
  | seg (frame slot : Nat)
  deriving DecidableEq, Repr

/-- An entry of a cave: the 18 words of R279 in ordered mode, or a key alone in set mode (R281); slot d is the reserved slot
of depth d, 0 a general place (R278). -/
structure CaveEntry where
  words : List Word64
  key : Word32
  seq : Word32
  slot : Nat
  place : Place
  /-- The order of pushes among all caves. -/
  born : Nat
  /-- What its push has released (R342). -/
  know : Know
  deriving DecidableEq, Repr

/-- A cave (R277). -/
structure Cave where
  vf : Nat
  prio : Nat
  wcode : Nat
  set : Bool
  launch : Bool
  enable : Bool
  pool : Nat
  npool : Nat
  segs : List Nat
  lost : BitVec 16
  seq : Word32
  entries : List CaveEntry
  deriving DecidableEq, Repr

/-- A FIFO bank (R290). -/
structure Fifo where
  head : Word32
  tail : Word32
  waiters : List CpRef
  /-- What its pushes have released (R291, R342). -/
  know : Know
  deriving DecidableEq, Repr

/-- A task taken up by the distributor (R294–R298). -/
structure Task where
  words : List Word64
  /-- The eight words of its kernel descriptor, read at take-up (R295). -/
  desc : List Word64
  vf : Nat
  cave : Nat
  seq : Word32
  next : Nat
  left : Nat
  status : BitVec 32
  run : Nat
  /-- What the push of its entry has released (R293, R342). -/
  know : Know
  deriving DecidableEq, Repr

/-- A residency-log entry (R313). -/
structure LogEntry where
  vf : Nat
  cave : Nat
  popix : Nat
  seq : Word32
  deriving DecidableEq, Repr

/-- A pre-emption image in a save area (R318): its function, population id, address and length, with what firmware records of
the population beside the sections of R318: the population without the contents they hold, and the fault order of its fragments
(DESIGN CHOICE, notes/assumptions/8.md). -/
structure Image where
  vf : Nat
  popid : Nat
  addr : Nat
  len : Nat
  record : Pop
  births : List (Nat × Tab Word64)
  deriving DecidableEq, Repr

/-- The selector of a performance counter: the event code, and the population it is limited to (R337). -/
structure PmcSel where
  code : Nat
  only : Option Nat
  deriving DecidableEq, Repr

/-- The statuses of a Rilhal response (R364). -/
inductive Status where
  | ok | caveFull | denied | badCave | badMsg | fault | poison | badSig | stage
  deriving DecidableEq, Repr

/-- What the device sends on the fabric (R364, R368, R369, R376); type 0 answers an operation of UET itself. -/
inductive Out where
  | response (vf : Nat) (dest : Sender) (type : BitVec 8) (tag : Word32) (status : Status) (body : List Byte)
  /-- On the management endpoint: an answer, or a report of the device with type 8 (R364, R376). -/
  | mgmt (type : BitVec 8) (tag : Word32) (status : Status) (body : List Byte)
  | notify (vf : Nat) (src : Nat) (key seq : Word32) (status : Word32) (count : Nat)
  | suspect (vf : Nat) (peer : Nat) (cluster : Nat) (lastPass : Word64) (ovf : Bool) (log : List LogEntry)
  | rdma (vf : Nat) (peer : Nat) (op : NetOp) (remote : Word64) (len : Nat) (data : List Byte)
  deriving DecidableEq, Repr

/-- A Rilhal message as it comes from the transport: the four words of its header and its body (R364); with a MGMT message, what its body
asks for, whose layout the spec does not give (R371; DESIGN CHOICE, notes/assumptions/52.md). -/
structure Packet where
  msg : Msg
  words : List Word64
  body : List Byte
  command : Option Instr
  deriving DecidableEq, Repr

/-- What the messages of a source have written, which its LAUNCH and ARRIVE release (R366). -/
structure HostKnow where
  vf : Nat
  sender : Sender
  know : Know
  deriving DecidableEq, Repr

/-- A LAUNCH that waits for the management processor to link a segment (R283, R293). -/
structure LaunchHold where
  msg : Msg
  cave : Nat
  entry : List Word64
  src : Nat
  deriving DecidableEq, Repr

/-- A host message held on a page that is not present (R365). -/
structure HostHold where
  serial : Nat
  msg : Msg
  uet : Bool
  write : Bool
  asid : BitVec 12
  addr : Word64
  len : Nat
  body : List Byte
  since : Word64
  deriving DecidableEq, Repr

/-- A record firmware keeps of an error of a population or function (R263, R401). -/
structure ErrRecord where
  vf : Nat
  popid : Nat
  addr : Word64
  code : Nat
  deriving DecidableEq, Repr

/-- The error counts of capability 0x0007 (R375). -/
structure ErrCounts where
  denied : Nat
  uud : Nat
  poisoned : Nat
  faults : Nat
  lost : Nat
  deriving DecidableEq, Repr

/-- A firmware slot (R374). -/
structure Slot where
  version : Word32
  security : Word32
  sigOk : Bool
  deriving DecidableEq, Repr

/-- Start-up, firmware, test, fatal-error and power state (R372–R378). -/
structure Sys where
  stage : Nat
  testMode : Bool
  recovery : Bool
  failedStarts : Nat
  /-- This start has been counted as failed (R373). -/
  startFailed : Bool
  startClock : Word64
  enabled : BitVec 24
  disabled : BitVec 24
  passed : BitVec 24
  lastPass : Tab Word64
  failing : BitVec 24
  quarantine : BitVec 24
  period : Nat
  slots : Tab Slot
  active : Nat
  nextActive : Nat
  dumpPresent : Bool
  dumpAddr : Nat
  dumpSet : Nat
  dumpLen : Nat
  /-- The clock since which a cluster has found no idle window (R376). -/
  idle : Tab Word64
  limit : Nat
  throttle : Throttle
  /-- How often each level has been entered, in the order of R378 (R375). -/
  throttles : Tab Nat
  deriving DecidableEq, Repr

/-- The agent whose word the next step issues. -/
inductive Issuer where
  | none
  | cp (r : CpRef)
  | stream (pid : Nat)
  deriving DecidableEq, Repr

/-- The device. -/
structure State where
  clock : Word64
  pops : Tab Pop
  -- cores and clusters
  frags : Tab Frag
  ovfs : Tab Frag
  pmc : Tab Word64
  pmcSel : Tab PmcSel
  role : Tab BankRole
  roleDue : Tab BankRole
  cstore : Memory
  cline : Tab LineState
  fifos : Tab Fifo
  ccache : List CacheLine
  locks : List Lock
  tiles : Tab Word64
  tilePoison : Tab Bool
  tlb : List TlbEntry
  invals : List Inval
  log : Tab (List LogEntry)
  logOvf : Tab Bool
  -- memory behind the slices
  hbm : Memory
  hline : Tab LineState
  /-- The function for whose tables the hypervisor wrote an 8-byte word, plus 1, by address / 8; 0 for a word that others wrote (R306). -/
  hvWords : Tab Nat
  /-- Words that running populations may still fetch in their old form (R65). -/
  olds : List OldWord
  /-- The releases that stand at their places (R343). -/
  rels : List RelRec
  /-- The version of each byte of HBM that was written while a cluster held its line (R344). -/
  vers : Tab Nat
  /-- What the populations that SUCC has handed over had released (R33, R356). -/
  handed : Know
  hostKnows : List HostKnow
  l2 : Tab L2Line
  wayMask : Tab (BitVec 16)
  stamps : List Stamp
  majSet : Tab Word64
  majTag : Tab Word64
  /-- The set whose data and tag a physical line holds; 16 for a line that no set has written (R244, R253). -/
  majOwn : Tab Nat
  /-- The sets whose rebase waits until they are valid again (R243, R244). -/
  majDue : Tab Bool
  version : Tab Nat
  majWrites : List MajWrite
  majBacks : List MajBack
  majAsks : List MajAsk
  majRepairs : Tab Nat
  majFails : Tab Nat
  scrubRate : Tab Nat
  stackFailed : BitVec 12
  -- queues, distributor and device tables
  caves : Tab Cave
  lastVf : Nat
  taken : Nat
  lastCave : Tab Nat
  tasks : Tab Task
  pending : Tab Nat
  vft : Tab Word64
  ckptGen : Tab Word64
  images : List Image
  endpoints : Tab EndpointCfg
  portTwo : BitVec 8
  mgmtSeq : Word64
  inbox : List Instr
  wire : List Packet
  outbox : List Out
  holds : List HostHold
  launches : List LaunchHold
  errRecords : List ErrRecord
  errCounts : ErrCounts
  sys : Sys
  -- the model's own (DESIGN CHOICE, notes/assumptions/1.md, 2.md)
  issuer : Issuer
  tick : Nat
  serial : Nat
  deriving DecidableEq, Repr

/-! ### Defaults and accessors of the tables -/

def LaneStatus.zero : LaneStatus := { ovf := false, dead := false, parked := false, frag := 0, cause := 0 }

def LineState.clean : LineState := { poison := false, bad := 0 }

/-- A line whose storage met an uncorrectable error: it is poisoned (R211). -/
def LineState.poisoned : LineState := { poison := true, bad := 0 }

def Know.zero : Know := { mark := 0, seen := [] }

def Frag.empty : Frag :=
  { state := .free, ctx := 0, lanes := 0, more := false, page := 0, wordaddr := 0, born := 0, late := [] }

def Fifo.empty : Fifo := { head := 0, tail := 0, waiters := [], know := Know.zero }

def Cave.empty : Cave :=
  { vf := 0, prio := 0, wcode := 0, set := false, launch := false, enable := false, pool := 0, npool := 0, segs := [],
    lost := 0, seq := 0, entries := [] }

def Fmt.zero : Fmt :=
  { xr := 0, xp := 0, xs := 0, n1 := 0, sg := false, ce := false, len := .l32, f32 := false, rnd := .mode, sc := false }

def PmcSel.zero : PmcSel := { code := 0, only := none }

/-- An endpoint at reset: reachable on every port, security left to the transport (R360, R361; DESIGN CHOICE, notes/assumptions/63.md). -/
def EndpointCfg.zero : EndpointCfg := { addr := 0, ports := 0xFF, sa := 0, weight := 0, secure := false }

def Slot.empty : Slot := { version := 0, security := 0, sigOk := false }

def ErrCounts.zero : ErrCounts := { denied := 0, uud := 0, poisoned := 0, faults := 0, lost := 0 }

/-- The role of a bank after a cold start: banks 0–7 CACHE, 8–31 SCRATCH (R209). -/
def coldRole (bank : Nat) : BankRole := if bank < 8 then .cache else .scratch

/-- The role of a bank; key 32·cluster + bank. -/
def State.roleOf (s : State) (cluster bank : Nat) : BankRole :=
  Tab.get (coldRole bank) s.role (32 * cluster + bank)

/-- Word w of a virtual-function entry; an entry of reset has weight 1 (R309). -/
def State.vfWord (s : State) (vf w : Nat) : Word64 :=
  Tab.get (if w = 0 then 0x0100000000000000#64 else 0) s.vft (4 * vf + w)

def Sys.reset : Sys :=
  { stage := 0, testMode := false, recovery := false, failedStarts := 0, startFailed := false, startClock := 0, enabled := 0, disabled := 0,
    passed := 0, lastPass := [], failing := 0, quarantine := 0, period := 10,
    slots := [(0, { version := 0, security := BitVec.allOnes 32, sigOk := true })], active := 0, nextActive := 0,
    dumpPresent := false, dumpAddr := 0, dumpSet := 0, dumpLen := 0, idle := [], limit := 2300, throttle := .none, throttles := [] }

/-- The device right after reset: stage 0, every table at its reset value, HBM clear, no population (R301, R372, R373). -/
def State.reset : State :=
  { clock := 0, pops := [], frags := [], ovfs := [], pmc := [], pmcSel := [], role := [], roleDue := [], cstore := [],
    cline := [], fifos := [], ccache := [], locks := [], tiles := [], tilePoison := [], tlb := [], invals := [], log := [],
    logOvf := [], hbm := [], hline := [], hvWords := [], olds := [], rels := [], vers := [], handed := Know.zero,
    hostKnows := [], l2 := [], wayMask := [], stamps := [],
    majSet := [], majTag := [], majOwn := [], majDue := [], version := [],
    majWrites := [], majBacks := [], majAsks := [], majRepairs := [], majFails := [], scrubRate := [], stackFailed := 0, caves := [],
    lastVf := 15, taken := 63, lastCave := [], tasks := [], pending := [], vft := [], ckptGen := [], images := [],
    endpoints := [], portTwo := 0, mgmtSeq := 0, inbox := [], wire := [], outbox := [], holds := [], launches := [], errRecords := [],
    errCounts := ErrCounts.zero, sys := Sys.reset, issuer := .none, tick := 0, serial := 0 }

end Sys2Proof.Machine
end

