-- ==== Sys2Proof/Machine/Flags.lean ====
section
/-! DEFINITION. Flags and integer results: the flag bits of R159, wrapping and saturation of R86, integer division of R88. -/

namespace Sys2Proof.Machine

/-- The flags IV, DZ, OF, UF, IX and SAT in the order of R159. -/
abbrev Flags := BitVec 6

def fIV : Flags := 1
def fDZ : Flags := 2
def fOF : Flags := 4
def fUF : Flags := 8
def fIX : Flags := 16
def fSAT : Flags := 32

/-- A flag when a condition holds. -/
def flagIf (b : Bool) (f : Flags) : Flags := if b then f else 0

/-- The integer a w-bit pattern stands for, in the signed or natural sense. -/
def senseOf (signed : Bool) (w x : Nat) : Int :=
  let x := x % 2 ^ w
  if signed && decide (2 ^ (w - 1) ≤ x) then (x : Int) - 2 ^ w else x

/-- The w-bit pattern of an integer, modulo 2^w. -/
def patOf (w : Nat) (x : Int) : Nat := (x % 2 ^ w).toNat

/-- The bounds of an integer type of w bits (R86). -/
def loBound (signed : Bool) (w : Nat) : Int := if signed then -(2 ^ (w - 1)) else 0
def hiBound (signed : Bool) (w : Nat) : Int := if signed then 2 ^ (w - 1) - 1 else 2 ^ w - 1

/-- The value clamped to a range, with SAT when the clamp changed it. -/
def clamp (lo hi x : Int) : Int × Flags :=
  if x < lo then (lo, fSAT) else if hi < x then (hi, fSAT) else (x, 0)

/-- fit of R120: the exact result wrapped, or saturated with SAT (R86). -/
def fit (m : IMode) (signed : Bool) (w : Nat) (x : Int) : Nat × Flags :=
  match m with
  | .wrap => (patOf w x, 0)
  | .sat => let r := clamp (loBound signed w) (hiBound signed w) x; (patOf w r.1, r.2)

/-- Quotient, remainder and flag of an integer division (R88, R164). -/
def divide (signed : Bool) (w : Nat) (a b : Int) : Int × Int × Flags :=
  if b = 0 then (0, a, fDZ)
  else if signed ∧ a = loBound true w ∧ b = -1 then (a, 0, 0)
  else (Int.tdiv a b, Int.tmod a b, 0)

/-- One bits of the low w bits. -/
def popCount : Nat → Nat → Nat
  | 0, _ => 0
  | w + 1, x => x % 2 + popCount w (x / 2)

/-- The number of bits that x needs, among its low w bits. -/
def bitLength : Nat → Nat → Nat
  | 0, _ => 0
  | w + 1, x => if x % 2 ^ (w + 1) < 2 ^ w then bitLength w x else w + 1

/-- Leading zeros of a w-bit pattern; w when it is 0 (R127, R163). -/
def leadingZeros (w x : Nat) : Nat := w - bitLength w x

/-- Bit j moved to bit w−1−j (R127). -/
def reverseBits (w x : Nat) : Nat :=
  (List.range w).foldl (fun acc j => acc + (x / 2 ^ j % 2) * 2 ^ (w - 1 - j)) 0

/-- The field position and end of R128: pos = b[5:0] mod w, top = min(pos + b[13:8], w). -/
def fieldOf (w b : Nat) : Nat × Nat :=
  let pos := b % 64 % w
  (pos, min (pos + b / 256 % 64) w)

/-- VEXT and SEXT: the field, extended by the type's sense (R128, R166). -/
def extractField (signed : Bool) (w a b : Nat) : Nat :=
  let (pos, top) := fieldOf w b
  let f := a / 2 ^ pos % 2 ^ (top - pos)
  if signed ∧ pos < top then patOf w (senseOf true (top - pos) f) else f

/-- VINS and SINS: the old value with the field replaced by the low bits of a (R128, R166). -/
def insertField (w a b c : Nat) : Nat :=
  let (pos, top) := fieldOf w b
  c % 2 ^ pos + a % 2 ^ (top - pos) * 2 ^ pos + c / 2 ^ top * 2 ^ top

/-- Shifts and rotates by a count already taken modulo w (R126). -/
def shiftLeft (w x n : Nat) : Nat := x * 2 ^ n % 2 ^ w
def shiftRight (x n : Nat) : Nat := x / 2 ^ n
def shiftArith (w x n : Nat) : Nat := patOf w (senseOf true w x / 2 ^ n)
def rotateLeft (w x n : Nat) : Nat := (x * 2 ^ n % 2 ^ w) ||| (x / 2 ^ ((w - n) % w))

/-- EQ to GE on integers (R73, R165). -/
def condInt (c : Cond) (a b : Int) : Bool :=
  match c with
  | .eq => a == b
  | .ne => a != b
  | .lt => decide (a < b)
  | .le => decide (a ≤ b)
  | .gt => decide (b < a)
  | .ge => decide (b ≤ a)

end Sys2Proof.Machine
end

