-- ==== Sys2Proof/Machine/Float.lean ====
section
/-! DEFINITION. Floating arithmetic of R89 to R98: every operation forms its exact result and rounds it once. -/

namespace Sys2Proof.Machine

/-- A binary interchange format by its exponent and fraction widths (R89). -/
structure FpFmt where
  eb : Nat
  fb : Nat
  deriving DecidableEq, Repr

def fpF16 : FpFmt := { eb := 5, fb := 10 }
def fpB16 : FpFmt := { eb := 8, fb := 7 }
def fpF32 : FpFmt := { eb := 8, fb := 23 }
def fpF64 : FpFmt := { eb := 11, fb := 52 }

/-- The format of a floating type; F64 stands for the types that are none. -/
def fpOf : Ty → FpFmt
  | .f16 => fpF16
  | .b16 => fpB16
  | .f32 => fpF32
  | .f64 | .s8 | .n8 | .s16 | .n16 | .s32 | .n32 | .s64 | .n64 | .nb8 => fpF64

namespace FpFmt

def bias (f : FpFmt) : Nat := 2 ^ (f.eb - 1) - 1
/-- The weight of the sign bit. -/
def signW (f : FpFmt) : Nat := 2 ^ (f.eb + f.fb)
/-- The pattern of +∞. -/
def infP (f : FpFmt) : Nat := (2 ^ f.eb - 1) * 2 ^ f.fb
/-- The quantum of subnormals: values are multiples of 2 to this power. -/
def minQ (f : FpFmt) : Int := 1 - (f.bias : Int) - f.fb
/-- The weight of the quiet bit. -/
def quietW (f : FpFmt) : Nat := 2 ^ (f.fb - 1)

end FpFmt

/-- The effective rounding directions of R91. -/
inductive Dir where
  | rne | rtz | rdn | rup | rna | rto
  deriving DecidableEq, Repr

/-- The direction a mode register's RM selects; 000 is RNE (R91). -/
def dirOfRm (rm : BitVec 3) : Dir :=
  match rm.toNat with
  | 2 => .rtz
  | 3 => .rdn
  | 4 => .rup
  | 5 => .rna
  | 6 => .rto
  | _ => .rne

/-- The effective rounding of a word's field (R69, R91). -/
def rndDir (r : Rnd) (rm : BitVec 3) : Dir :=
  match r with
  | .mode => dirOfRm rm
  | .rne => .rne
  | .rtz => .rtz
  | .rdn => .rdn
  | .rup => .rup
  | .rna => .rna
  | .rto => .rto

/-- What the arithmetic takes from the acting CP or stream: the rounding, FTZ and DAZ. -/
structure FpEnv where
  dir : Dir
  ftz : Bool
  daz : Bool
  deriving DecidableEq, Repr

/-- An unpacked value: a NaN with its pattern, an infinity, or sign · m · 2^e. -/
inductive FVal where
  | nan (pat : Nat)
  | inf (neg : Bool)
  | fin (neg : Bool) (m : Nat) (e : Int)
  deriving DecidableEq, Repr

def FpFmt.neg (f : FpFmt) (x : Nat) : Bool := x / f.signW % 2 == 1

/-- Unpacking, with DAZ reading a subnormal as a zero of its sign (R93). -/
def unpack (f : FpFmt) (daz : Bool) (x : Nat) : FVal :=
  let s := f.neg x
  let e := x / 2 ^ f.fb % 2 ^ f.eb
  let m := x % 2 ^ f.fb
  if e = 2 ^ f.eb - 1 then (if m = 0 then .inf s else .nan (x % (2 * f.signW)))
  else if e = 0 then .fin s (if daz then 0 else m) f.minQ
  else .fin s (m + 2 ^ f.fb) (f.minQ + (e - 1))

/-- A signalling NaN has its quiet bit 0. -/
def isSnan (f : FpFmt) : FVal → Bool
  | .nan p => p / f.quietW % 2 == 0
  | .inf _ | .fin _ _ _ => false

def isNan : FVal → Bool
  | .nan _ => true
  | .inf _ | .fin _ _ _ => false

/-- A NaN made quiet, sign and payload kept (R95). -/
def quiet (f : FpFmt) (p : Nat) : Nat := if p / f.quietW % 2 = 0 then p + f.quietW else p

/-- The generated NaN of a cause code (R94). -/
def genNan (f : FpFmt) (code : Nat) : Nat := f.infP + f.quietW + code

/-- Whether a magnitude m·2^e (with more below when sticky) has its number of units of 2^q raised by one, when the part below
q is not zero. -/
def roundsUp (d : Dir) (neg odd : Bool) (half : Ordering) : Bool :=
  match d with
  | .rne => half == .gt || (half == .eq && odd)
  | .rna => half != .lt
  | .rtz | .rto => false
  | .rdn => neg
  | .rup => !neg

/-- The magnitude m·2^e in units of 2^q after rounding, and whether it was inexact. -/
def roundAt (d : Dir) (neg : Bool) (m : Nat) (e : Int) (sticky : Bool) (q : Int) : Nat × Bool :=
  if q ≤ e then (m * 2 ^ (e - q).toNat, sticky)
  else
    let sh := (q - e).toNat
    let n := m / 2 ^ sh
    let rem := m % 2 ^ sh
    if rem = 0 ∧ !sticky then (n, false)
    else
      let half : Ordering :=
        if 2 ^ sh < 2 * rem then .gt
        else if 2 * rem = 2 ^ sh then (if sticky then .gt else .eq) else .lt
      let n' := if roundsUp d neg (n % 2 == 1) half then n + 1 else n
      (if d = .rto ∧ n' % 2 = 0 then n' + 1 else n', true)

/-- The result of an overflow (R92). -/
def overflowPat (f : FpFmt) (d : Dir) (neg : Bool) : Nat :=
  let toInf := match d with
    | .rne | .rna => true
    | .rtz | .rto => false
    | .rup => !neg
    | .rdn => neg
  if toInf then f.infP else f.infP - 1

/-- Rounding a nonzero exact magnitude to a format, with overflow (R92), tininess and FTZ (R93). -/
def roundPack (f : FpFmt) (env : FpEnv) (neg : Bool) (m : Nat) (e : Int) (sticky : Bool) : Nat × Flags :=
  let sgn := if neg then f.signW else 0
  let top : Int := e + Nat.log2 m
  let qn : Int := top - f.fb
  let q := if qn < f.minQ then f.minQ else qn
  let (n, inexact) := roundAt env.dir neg m e sticky q
  let pat := if n < 2 ^ f.fb then n else ((q - f.minQ).toNat + 1) * 2 ^ f.fb + (n - 2 ^ f.fb)
  let wide := roundAt env.dir neg m e sticky qn
  let tiny := decide (qn < f.minQ) && !(decide (qn + 1 = f.minQ) && decide (2 ^ (f.fb + 1) ≤ wide.1))
  if f.infP ≤ pat then (sgn + overflowPat f env.dir neg, fOF ||| fIX)
  else if env.ftz ∧ 0 < pat ∧ pat < 2 ^ f.fb then (sgn, fUF ||| fIX)
  else (sgn + pat, flagIf inexact fIX ||| flagIf (tiny && inexact) fUF)

/-- The sign of an exact zero sum whose terms are not zeros of one sign (R139). -/
def zeroSum (f : FpFmt) (d : Dir) : Nat := if d = .rdn then f.signW else 0

/-- The first NaN in operand order, made quiet, with IV when an operand is signalling (R95). -/
def nanOf (f : FpFmt) (l : List FVal) : Option (Nat × Flags) :=
  match l.findSome? (fun v => match v with | .nan p => some p | .inf _ | .fin _ _ _ => none) with
  | some p => some (quiet f p, flagIf (l.any (isSnan f)) fIV)
  | none => none

/-- The exact sum of two signed dyadic values, as sign, magnitude and exponent. -/
def addDyadic (na : Bool) (ma : Nat) (ea : Int) (nb : Bool) (mb : Nat) (eb : Int) : Int × Int :=
  let e := min ea eb
  let x : Int := ma * 2 ^ (ea - e).toNat
  let y : Int := mb * 2 ^ (eb - e).toNat
  ((if na then -x else x) + (if nb then -y else y), e)

/-- The rounded sum of two values that are no NaNs (R138, R139). -/
def addVals (f : FpFmt) (env : FpEnv) (a b : FVal) : Nat × Flags :=
  match a, b with
  | .inf na, .inf nb => if na = nb then (f.infP + (if na then f.signW else 0), 0) else (genNan f 1, fIV)
  | .inf na, _ => (f.infP + (if na then f.signW else 0), 0)
  | _, .inf nb => (f.infP + (if nb then f.signW else 0), 0)
  | .fin na ma ea, .fin nb mb eb =>
    if ma = 0 ∧ mb = 0 ∧ na = nb then (if na then f.signW else 0, 0)
    else
      let (x, e) := addDyadic na ma ea nb mb eb
      if x = 0 then (zeroSum f env.dir, 0) else roundPack f env (decide (x < 0)) x.natAbs e false
  | .nan p, _ => (quiet f p, 0)
  | _, .nan p => (quiet f p, 0)

/-- The value with its sign changed; a NaN stays as it stands (R138). -/
def negVal : FVal → FVal
  | .nan p => .nan p
  | .inf n => .inf (!n)
  | .fin n m e => .fin (!n) m e

def fAdd (f : FpFmt) (env : FpEnv) (x y : Nat) : Nat × Flags :=
  let a := unpack f env.daz x
  let b := unpack f env.daz y
  (nanOf f [a, b]).getD (addVals f env a b)

def fSub (f : FpFmt) (env : FpEnv) (x y : Nat) : Nat × Flags :=
  let a := unpack f env.daz x
  let b := unpack f env.daz y
  (nanOf f [a, b]).getD (addVals f env a (negVal b))

/-- The exact product of two values that are no NaNs, or none for 0 × ∞ (R138). -/
def mulVals : FVal → FVal → Option FVal
  | .fin na ma ea, .fin nb mb eb => some (.fin (na != nb) (ma * mb) (ea + eb))
  | .inf na, .inf nb => some (.inf (na != nb))
  | .inf na, .fin nb mb _ => if mb = 0 then none else some (.inf (na != nb))
  | .fin na ma _, .inf nb => if ma = 0 then none else some (.inf (na != nb))
  | .nan p, _ => some (.nan p)
  | _, .nan p => some (.nan p)

/-- An exact value rounded once. -/
def packVal (f : FpFmt) (env : FpEnv) : FVal → Nat × Flags
  | .nan p => (p, 0)
  | .inf n => (f.infP + (if n then f.signW else 0), 0)
  | .fin n m e => if m = 0 then (if n then f.signW else 0, 0) else roundPack f env n m e false

def fMul (f : FpFmt) (env : FpEnv) (x y : Nat) : Nat × Flags :=
  let a := unpack f env.daz x
  let b := unpack f env.daz y
  (nanOf f [a, b]).getD (match mulVals a b with
    | none => (genNan f 2, fIV)
    | some v => packVal f env v)

/-- round(±(a × b) ± c), the product judged first (R95, R138). -/
def fFma (f : FpFmt) (env : FpEnv) (negP negC : Bool) (x y z : Nat) : Nat × Flags :=
  let a := unpack f env.daz x
  let b := unpack f env.daz y
  let c := unpack f env.daz z
  let prod := mulVals a b
  let badProd := !isNan a && !isNan b && prod.isNone
  match nanOf f [a, b, c] with
  | some (p, fl) => (p, fl ||| flagIf badProd fIV)
  | none =>
    match prod with
    | none => (genNan f 2, fIV)
    | some v => addVals f env (if negP then negVal v else v) (if negC then negVal c else c)

def fDiv (f : FpFmt) (env : FpEnv) (x y : Nat) : Nat × Flags :=
  let a := unpack f env.daz x
  let b := unpack f env.daz y
  (nanOf f [a, b]).getD (match a, b with
    | .inf _, .inf _ => (genNan f 4, fIV)
    | .inf na, .fin nb _ _ => (f.infP + (if na != nb then f.signW else 0), 0)
    | .fin na _ _, .inf nb => (if na != nb then f.signW else 0, 0)
    | .fin na ma ea, .fin nb mb eb =>
      let n := na != nb
      if mb = 0 then
        (if ma = 0 then (genNan f 4, fIV) else (f.infP + (if n then f.signW else 0), fDZ))
      else if ma = 0 then (if n then f.signW else 0, 0)
      else
        let sh := 2 * f.fb + 4
        let num := ma * 2 ^ sh
        roundPack f env n (num / mb) (ea - eb - sh) (decide (num % mb ≠ 0))
    | _, _ => (genNan f 7, fIV))

/-- The integer square root, one bit at a time from bit n − 1. -/
def isqrt : Nat → Nat → Nat → Nat
  | 0, _, r => r
  | n + 1, x, r => if (r + 2 ^ n) * (r + 2 ^ n) ≤ x then isqrt n x (r + 2 ^ n) else isqrt n x r

def fSqrt (f : FpFmt) (env : FpEnv) (x : Nat) : Nat × Flags :=
  match unpack f env.daz x with
  | .nan p => (quiet f p, flagIf (isSnan f (.nan p)) fIV)
  | .inf n => if n then (genNan f 5, fIV) else (f.infP, 0)
  | .fin n m e =>
    if m = 0 then (if n then f.signW else 0, 0)
    else if n then (genNan f 5, fIV)
    else
      let sh := 2 * f.fb + 8 + (if (e - (2 * f.fb + 8 : Nat)) % 2 = 0 then 0 else 1)
      let y := m * 2 ^ sh
      let r := isqrt (Nat.log2 y / 2 + 1) y 0
      roundPack f env false r ((e - sh) / 2) (decide (r * r ≠ y))

/-- The magnitude of a dyadic value rounded to an integer, and whether it was inexact. -/
def roundInt (d : Dir) (neg : Bool) (m : Nat) (e : Int) : Nat × Bool := roundAt d neg m e false 0

/-- Rounding to an integral value of the same format (R139). -/
def fRound (f : FpFmt) (env : FpEnv) (x : Nat) : Nat × Flags :=
  match unpack f env.daz x with
  | .nan p => (quiet f p, flagIf (isSnan f (.nan p)) fIV)
  | .inf n => (f.infP + (if n then f.signW else 0), 0)
  | .fin n m e =>
    let (k, inexact) := roundInt env.dir n m e
    if k = 0 then (if n then f.signW else 0, flagIf inexact fIX)
    else ((roundPack f env n k 0 false).1, flagIf inexact fIX)

/-- round(a × 2^n) (R140). -/
def fScale (f : FpFmt) (env : FpEnv) (x : Nat) (n : Int) : Nat × Flags :=
  match unpack f env.daz x with
  | .nan p => (quiet f p, flagIf (isSnan f (.nan p)) fIV)
  | .inf s => (f.infP + (if s then f.signW else 0), 0)
  | .fin s m e =>
    if m = 0 then (if s then f.signW else 0, 0)
    else
      -- far beyond the format's range every power gives the same result, so the exponent is cut there
      let lim : Int := 4 * 2 ^ f.eb
      let n := if n < -lim then -lim else if lim < n then lim else n
      roundPack f env s m (e + n) false

/-- The order of two values that are no NaNs, by value. -/
def valLt (a b : FVal) : Bool :=
  match a, b with
  | .inf na, .inf nb => na && !nb
  | .inf na, _ => na
  | _, .inf nb => !nb
  | .fin na ma ea, .fin nb mb eb => decide ((addDyadic na ma ea (!nb) mb eb).1 < 0)
  | .nan _, _ => false
  | _, .nan _ => false

def valNeg : FVal → Bool
  | .inf n => n
  | .fin n _ _ => n
  | .nan _ => false

def valEq (a b : FVal) : Bool := !isNan a && !isNan b && !valLt a b && !valLt b a

/-- The order with −0 below +0 (R141, R199). -/
def valLtZ (a b : FVal) : Bool := valLt a b || (valEq a b && valNeg a && !valNeg b)

/-- EQ to GE on floating patterns; a NaN makes NE true and the others false (R165, R189). -/
def condFp (c : Cond) (a b : FVal) : Bool :=
  if isNan a || isNan b then c == .ne
  else match c with
    | .eq => valEq a b
    | .ne => !valEq a b
    | .lt => valLt a b
    | .le => !valLt b a
    | .gt => valLt b a
    | .ge => !valLt a b

/-- A value back in its format, exactly; it was unpacked from it. -/
def repack (f : FpFmt) (daz : Bool) (x : Nat) : Nat :=
  match unpack f daz x with
  | .fin n m _ => if m = 0 then (if n then f.signW else 0) else x
  | .nan _ | .inf _ => x

/-- VFMIN and VFMAX (R141). -/
def fMinMax (f : FpFmt) (env : FpEnv) (isMax : Bool) (x y : Nat) : Nat × Flags :=
  let a := unpack f env.daz x
  let b := unpack f env.daz y
  (nanOf f [a, b]).getD (
    let takeB := if isMax then valLtZ a b else valLtZ b a
    let r := repack f env.daz (if takeB then y else x)
    if env.ftz ∧ r % f.signW ≠ 0 ∧ r % f.signW < 2 ^ f.fb then (if f.neg r then f.signW else 0, fUF ||| fIX)
    else (r, 0))

/-- VFCLASS: one bit of R142. -/
def fClass (f : FpFmt) (x : Nat) : Nat :=
  let n := f.neg x
  match unpack f false x with
  | .nan p => if isSnan f (.nan p) then 2 ^ 8 else 2 ^ 9
  | .inf _ => if n then 2 ^ 0 else 2 ^ 7
  | .fin _ m _ =>
    if m = 0 then (if n then 2 ^ 3 else 2 ^ 4)
    else if m < 2 ^ f.fb then (if n then 2 ^ 2 else 2 ^ 5)
    else (if n then 2 ^ 1 else 2 ^ 6)

/-- A conversion between floating formats (R96, R144). -/
def fConv (src dst : FpFmt) (env : FpEnv) (x : Nat) : Nat × Flags :=
  match unpack src env.daz x with
  | .nan p =>
    (dst.infP + dst.quietW + p % 8 + (if src.neg p then dst.signW else 0), flagIf (isSnan src (.nan p)) fIV)
  | v => packVal dst env v

/-- A conversion to an integer type of w bits (R97). -/
def fToInt (src : FpFmt) (env : FpEnv) (signed : Bool) (w x : Nat) : Int × Flags :=
  match unpack src env.daz x with
  | .nan _ => (0, fIV)
  | .inf n => (if n then loBound signed w else hiBound signed w, fIV)
  | .fin n m e =>
    let (k, inexact) := roundInt env.dir n m e
    let v : Int := if n then -(k : Int) else k
    if v < loBound signed w then (loBound signed w, fIV)
    else if hiBound signed w < v then (hiBound signed w, fIV)
    else (v, flagIf inexact fIX)

/-- A conversion from an integer (R97, R144). -/
def intToF (dst : FpFmt) (env : FpEnv) (v : Int) : Nat × Flags :=
  if v = 0 then (0, 0) else roundPack dst env (decide (v < 0)) v.natAbs 0 false

/-- An F32 pattern widened exactly to F64 as a pattern (R400). -/
def widenF32 (x : Nat) : Nat :=
  match unpack fpF32 false x with
  | .nan p => fpF64.infP + p % 2 ^ 23 * 2 ^ 29 + (if fpF32.neg p then fpF64.signW else 0)
  | v => (packVal fpF64 { dir := .rne, ftz := false, daz := false } v).1

/-- A generator word as a uniform value: (x >> 8)·2^−24 or m·2^−53 (R110). -/
def uniform (t : Ty) (x : Nat) : Nat :=
  let env : FpEnv := { dir := .rne, ftz := false, daz := false }
  if t = .f64 then
    let m := x / 2 ^ 32 * 2 ^ 21 + x % 2 ^ 32 / 2 ^ 11
    (packVal fpF64 env (.fin false m (-53))).1
  else (packVal fpF32 env (.fin false (x % 2 ^ 32 / 2 ^ 8) (-24))).1

end Sys2Proof.Machine
end

