-- ==== Sys2Proof/Config.lean ====
section
/-! DEFINITION. The values the spec leaves open (DESIGN CHOICE, notes/assumptions/2.md): opaque, so that no proof can see one. -/

namespace Sys2Proof.Config

/-- Which of the enabled events comes next (R18, R22, R402): drawn at the model's tick. -/
opaque sched : Nat → Nat

/-- A choice the spec leaves to the hardware: a pop rank within W, the order of lanes of an ATOM, which copies of a majority
line answer first, a victim, whether a cached line or entry is still held (R214, R227, R229, R246, R280, R281, R308). -/
opaque pick : Nat → Nat

/-- The lowest security version the fuses accept (R374). -/
opaque fusedMinimum : Word32

/-- The bytes of the read-only capability list that no rule gives a value (R375): identity, stepping, link states. -/
opaque capabilityByte : Nat → Byte

/-- The frame at which the hypervisor maps a function's capability page (R375). -/
opaque capabilityFrame : Nat → BitVec 36

/-- A performance count that caches and miss registers decide: hits, L2 accesses, merged misses (R215, R337). -/
opaque hidden : Nat → Word64

/-- The present draw in watts that the power manager measures (R375, R378). -/
opaque draw : Nat → Nat

end Sys2Proof.Config
end

