-- ==== Sys2Proof/WellFormed.lean ====
section
/-! DEFINITION. Well-formed instructions: the static rules of R67 hold of every field. -/

namespace Sys2Proof

/-- Every static rule of R67 holds; the checks stand in Machine/Form.lean. -/
abbrev Instr.WellFormed (i : Instr) : Prop := Machine.wfInstr i = true

end Sys2Proof
end

