-- ==== Sys2Proof/Decode.lean ====
section
/-! DEFINITION. Decoding of instruction words by the nine formats of R70 to R81 and the opcode map of R82, and the encoder
written from the same tables. -/

namespace Sys2Proof

/-- Why a word is no instruction (R67): every one of these is the trap ILLEGAL in a control program. -/
inductive DecodeError where
  /-- The opcode is a dash of R82. -/
  | unassigned
  /-- A reserved field, or a field the instruction does not use, is nonzero. -/
  | field
  /-- A type, condition, comb, rounding, mode, width, space, sub-op or atomic code is not listed for the instruction. -/
  | code
  /-- A static rule of wfInstr fails: a type the instruction refuses, a scalar above s191, an odd pair. -/
  | form
  /-- The bytes do not hold eight bytes of a word. -/
  | short
  deriving DecidableEq, Repr

/-- The fields of an LV word (R70). -/
structure LvF where
  op : BitVec 8
  ty : BitVec 4
  bk : BitVec 2
  rnd : BitVec 3
  mask : BitVec 4
  vd : BitVec 11
  va : BitVec 11
  b : BitVec 21
  deriving DecidableEq, Repr

/-- The fields of an LS word (R73); lo is [23:0]. -/
structure LsF where
  op : BitVec 8
  ty : BitVec 4
  cond : BitVec 4
  md : BitVec 4
  ms : BitVec 4
  comb : BitVec 3
  sel : BitVec 2
  va : BitVec 11
  lo : BitVec 24
  deriving DecidableEq, Repr

/-- The fields of an LM word (R74). -/
structure LmF where
  op : BitVec 8
  sub : BitVec 4
  md : BitVec 4
  ma : BitVec 4
  mb : BitVec 4
  sd : BitVec 8
  va : BitVec 11
  z : BitVec 21
  deriving DecidableEq, Repr

/-- The fields of a C word (R75). -/
structure CF where
  op : BitVec 8
  cond : BitVec 4
  m : BitVec 4
  sa : BitVec 8
  sb : BitVec 8
  off : BitVec 32
  deriving DecidableEq, Repr

/-- The fields of an X word (R76); lo is [31:0]. -/
structure XF where
  op : BitVec 8
  ty : BitVec 4
  i : BitVec 1
  rnd : BitVec 3
  sd : BitVec 8
  sa : BitVec 8
  lo : BitVec 32
  deriving DecidableEq, Repr

/-- The fields of an M word (R77). -/
structure MF where
  op : BitVec 8
  nx : BitVec 1
  width : BitVec 3
  space : BitVec 3
  scope : BitVec 2
  order : BitVec 2
  vdat : BitVec 11
  sbase : BitVec 8
  vidx : BitVec 11
  sh : BitVec 2
  imm : BitVec 13
  deriving DecidableEq, Repr

/-- The fields of a P word (R78, R79). -/
structure PF where
  op : BitVec 8
  t : BitVec 4
  xa : BitVec 4
  xb : BitVec 4
  xc : BitVec 4
  kc : BitVec 8
  imm : BitVec 32
  deriving DecidableEq, Repr

/-- The fields of a Q word (R80). -/
structure QF where
  op : BitVec 8
  sub : BitVec 4
  m : BitVec 4
  sd : BitVec 8
  sa : BitVec 8
  v : BitVec 11
  z : BitVec 15
  c : BitVec 6
  deriving DecidableEq, Repr

/-- The fields of a K word (R81). -/
structure KF where
  op : BitVec 8
  space : BitVec 3
  scope : BitVec 2
  z : BitVec 2
  i : BitVec 1
  sd : BitVec 8
  sa : BitVec 8
  sb : BitVec 8
  imm : BitVec 24
  deriving DecidableEq, Repr

def lvFUnpack (w : Word64) : LvF :=
  { op := w.extractLsb' 56 8,
    ty := w.extractLsb' 52 4,
    bk := w.extractLsb' 50 2,
    rnd := w.extractLsb' 47 3,
    mask := w.extractLsb' 43 4,
    vd := w.extractLsb' 32 11,
    va := w.extractLsb' 21 11,
    b := w.extractLsb' 0 21 }

def lvFPack (f : LvF) : Word64 := f.op ++ f.ty ++ f.bk ++ f.rnd ++ f.mask ++ f.vd ++ f.va ++ f.b

def lsFUnpack (w : Word64) : LsF :=
  { op := w.extractLsb' 56 8,
    ty := w.extractLsb' 52 4,
    cond := w.extractLsb' 48 4,
    md := w.extractLsb' 44 4,
    ms := w.extractLsb' 40 4,
    comb := w.extractLsb' 37 3,
    sel := w.extractLsb' 35 2,
    va := w.extractLsb' 24 11,
    lo := w.extractLsb' 0 24 }

def lsFPack (f : LsF) : Word64 := f.op ++ f.ty ++ f.cond ++ f.md ++ f.ms ++ f.comb ++ f.sel ++ f.va ++ f.lo

def lmFUnpack (w : Word64) : LmF :=
  { op := w.extractLsb' 56 8,
    sub := w.extractLsb' 52 4,
    md := w.extractLsb' 48 4,
    ma := w.extractLsb' 44 4,
    mb := w.extractLsb' 40 4,
    sd := w.extractLsb' 32 8,
    va := w.extractLsb' 21 11,
    z := w.extractLsb' 0 21 }

def lmFPack (f : LmF) : Word64 := f.op ++ f.sub ++ f.md ++ f.ma ++ f.mb ++ f.sd ++ f.va ++ f.z

def cFUnpack (w : Word64) : CF :=
  { op := w.extractLsb' 56 8,
    cond := w.extractLsb' 52 4,
    m := w.extractLsb' 48 4,
    sa := w.extractLsb' 40 8,
    sb := w.extractLsb' 32 8,
    off := w.extractLsb' 0 32 }

def cFPack (f : CF) : Word64 := f.op ++ f.cond ++ f.m ++ f.sa ++ f.sb ++ f.off

def xFUnpack (w : Word64) : XF :=
  { op := w.extractLsb' 56 8,
    ty := w.extractLsb' 52 4,
    i := w.extractLsb' 51 1,
    rnd := w.extractLsb' 48 3,
    sd := w.extractLsb' 40 8,
    sa := w.extractLsb' 32 8,
    lo := w.extractLsb' 0 32 }

def xFPack (f : XF) : Word64 := f.op ++ f.ty ++ f.i ++ f.rnd ++ f.sd ++ f.sa ++ f.lo

def mFUnpack (w : Word64) : MF :=
  { op := w.extractLsb' 56 8,
    nx := w.extractLsb' 55 1,
    width := w.extractLsb' 52 3,
    space := w.extractLsb' 49 3,
    scope := w.extractLsb' 47 2,
    order := w.extractLsb' 45 2,
    vdat := w.extractLsb' 34 11,
    sbase := w.extractLsb' 26 8,
    vidx := w.extractLsb' 15 11,
    sh := w.extractLsb' 13 2,
    imm := w.extractLsb' 0 13 }

def mFPack (f : MF) : Word64 := f.op ++ f.nx ++ f.width ++ f.space ++ f.scope ++ f.order ++ f.vdat ++ f.sbase ++ f.vidx ++ f.sh ++ f.imm

def pFUnpack (w : Word64) : PF :=
  { op := w.extractLsb' 56 8,
    t := w.extractLsb' 52 4,
    xa := w.extractLsb' 48 4,
    xb := w.extractLsb' 44 4,
    xc := w.extractLsb' 40 4,
    kc := w.extractLsb' 32 8,
    imm := w.extractLsb' 0 32 }

def pFPack (f : PF) : Word64 := f.op ++ f.t ++ f.xa ++ f.xb ++ f.xc ++ f.kc ++ f.imm

def qFUnpack (w : Word64) : QF :=
  { op := w.extractLsb' 56 8,
    sub := w.extractLsb' 52 4,
    m := w.extractLsb' 48 4,
    sd := w.extractLsb' 40 8,
    sa := w.extractLsb' 32 8,
    v := w.extractLsb' 21 11,
    z := w.extractLsb' 6 15,
    c := w.extractLsb' 0 6 }

def qFPack (f : QF) : Word64 := f.op ++ f.sub ++ f.m ++ f.sd ++ f.sa ++ f.v ++ f.z ++ f.c

def kFUnpack (w : Word64) : KF :=
  { op := w.extractLsb' 56 8,
    space := w.extractLsb' 53 3,
    scope := w.extractLsb' 51 2,
    z := w.extractLsb' 49 2,
    i := w.extractLsb' 48 1,
    sd := w.extractLsb' 40 8,
    sa := w.extractLsb' 32 8,
    sb := w.extractLsb' 24 8,
    imm := w.extractLsb' 0 24 }

def kFPack (f : KF) : Word64 := f.op ++ f.space ++ f.scope ++ f.z ++ f.i ++ f.sd ++ f.sa ++ f.sb ++ f.imm

/-- The type codes of R68. -/
def tyOf (c : BitVec 4) : Except DecodeError Ty :=
  match c.toNat with
  | 0 => .ok .s8
  | 1 => .ok .n8
  | 2 => .ok .s16
  | 3 => .ok .n16
  | 4 => .ok .s32
  | 5 => .ok .n32
  | 6 => .ok .s64
  | 7 => .ok .n64
  | 8 => .ok .f16
  | 9 => .ok .b16
  | 10 => .ok .f32
  | 11 => .ok .f64
  | 12 => .ok .nb8
  | _ => .error .code

def tyCode : Ty → BitVec 4
  | .s8 => 0
  | .n8 => 1
  | .s16 => 2
  | .n16 => 3
  | .s32 => 4
  | .n32 => 5
  | .s64 => 6
  | .n64 => 7
  | .f16 => 8
  | .b16 => 9
  | .f32 => 10
  | .f64 => 11
  | .nb8 => 12

/-- The rounding codes of R69. -/
def rndOf (c : BitVec 3) : Except DecodeError Rnd :=
  match c.toNat with
  | 0 => .ok .mode
  | 1 => .ok .rne
  | 2 => .ok .rtz
  | 3 => .ok .rdn
  | 4 => .ok .rup
  | 5 => .ok .rna
  | 6 => .ok .rto
  | _ => .error .code

def rndCode : Rnd → BitVec 3
  | .mode => 0
  | .rne => 1
  | .rtz => 2
  | .rdn => 3
  | .rup => 4
  | .rna => 5
  | .rto => 6

/-- The integer modes of R69. -/
def imodeOf (c : BitVec 3) : Except DecodeError IMode :=
  match c.toNat with
  | 0 => .ok .wrap
  | 1 => .ok .sat
  | _ => .error .code

def imodeCode : IMode → BitVec 3
  | .wrap => 0
  | .sat => 1

/-- The conditions EQ to GE of R73. -/
def condOf (c : BitVec 4) : Except DecodeError Cond :=
  match c.toNat with
  | 0 => .ok .eq
  | 1 => .ok .ne
  | 2 => .ok .lt
  | 3 => .ok .le
  | 4 => .ok .gt
  | 5 => .ok .ge
  | _ => .error .code

def condCode : Cond → BitVec 4
  | .eq => 0
  | .ne => 1
  | .lt => 2
  | .le => 3
  | .gt => 4
  | .ge => 5

/-- The conditions of SSET (R76). -/
def scondOf (c : BitVec 3) : Except DecodeError Cond :=
  match c.toNat with
  | 0 => .ok .eq
  | 1 => .ok .ne
  | 2 => .ok .lt
  | 3 => .ok .le
  | 4 => .ok .gt
  | 5 => .ok .ge
  | _ => .error .code

def scondCode : Cond → BitVec 3
  | .eq => 0
  | .ne => 1
  | .lt => 2
  | .le => 3
  | .gt => 4
  | .ge => 5

/-- The comb codes of R73. -/
def combOf (c : BitVec 3) : Except DecodeError Comb :=
  match c.toNat with
  | 0 => .ok .set
  | 1 => .ok .and
  | 2 => .ok .or
  | 3 => .ok .andn
  | 4 => .ok .xor
  | _ => .error .code

def combCode : Comb → BitVec 3
  | .set => 0
  | .and => 1
  | .or => 2
  | .andn => 3
  | .xor => 4

/-- The branch conditions of R75. -/
def bcondOf (c : BitVec 4) : Except DecodeError BCond :=
  match c.toNat with
  | 0 => .ok .eq
  | 1 => .ok .ne
  | 2 => .ok .lt
  | 3 => .ok .le
  | 4 => .ok .gt
  | 5 => .ok .ge
  | 6 => .ok .ltn
  | 7 => .ok .len
  | 8 => .ok .gtn
  | 9 => .ok .gen
  | _ => .error .code

def bcondCode : BCond → BitVec 4
  | .eq => 0
  | .ne => 1
  | .lt => 2
  | .le => 3
  | .gt => 4
  | .ge => 5
  | .ltn => 6
  | .len => 7
  | .gtn => 8
  | .gen => 9

/-- The BSET conditions of R75. -/
def setCondOf (c : BitVec 4) : Except DecodeError SetCond :=
  match c.toNat with
  | 0 => .ok .any
  | 1 => .ok .none
  | 2 => .ok .one
  | 3 => .ok .many
  | _ => .error .code

def setCondCode : SetCond → BitVec 4
  | .any => 0
  | .none => 1
  | .one => 2
  | .many => 3

/-- The sub-ops of RBIT (R74). -/
def bitFoldOf (c : BitVec 4) : Except DecodeError BitFold :=
  match c.toNat with
  | 0 => .ok .and
  | 1 => .ok .or
  | 2 => .ok .xor
  | _ => .error .code

def bitFoldCode : BitFold → BitVec 4
  | .and => 0
  | .or => 1
  | .xor => 2

/-- The width codes of R77. -/
def widthOf (c : BitVec 3) : Except DecodeError Width :=
  match c.toNat with
  | 0 => .ok .b8
  | 1 => .ok .b16
  | 2 => .ok .b32
  | 3 => .ok .b64
  | 4 => .ok .v1
  | 5 => .ok .v2
  | 6 => .ok .v4
  | _ => .error .code

def widthCode : Width → BitVec 3
  | .b8 => 0
  | .b16 => 1
  | .b32 => 2
  | .b64 => 3
  | .v1 => 4
  | .v2 => 5
  | .v4 => 6

/-- The space codes of R77. -/
def spaceOf (c : BitVec 3) : Except DecodeError Space :=
  match c.toNat with
  | 0 => .ok .g
  | 1 => .ok .w
  | 2 => .ok .f
  | _ => .error .code

def spaceCode : Space → BitVec 3
  | .g => 0
  | .w => 1
  | .f => 2

/-- The scope codes of R77. -/
def scopeOf (c : BitVec 2) : Except DecodeError Scope :=
  match c.toNat with
  | 0 => .ok .pop
  | 1 => .ok .clu
  | 2 => .ok .dev
  | _ => .ok .sys

def scopeCode : Scope → BitVec 2
  | .pop => 0
  | .clu => 1
  | .dev => 2
  | .sys => 3

/-- The order codes of R77. -/
def orderOf (c : BitVec 2) : Except DecodeError MOrder :=
  match c.toNat with
  | 0 => .ok .plain
  | 1 => .ok .acq
  | 2 => .ok .rel
  | _ => .ok .ar

def orderCode : MOrder → BitVec 2
  | .plain => 0
  | .acq => 1
  | .rel => 2
  | .ar => 3

/-- The atomic codes of R77. -/
def aopOf (c : BitVec 5) : Except DecodeError AOp :=
  match c.toNat with
  | 0 => .ok .swap
  | 1 => .ok .cas
  | 2 => .ok .add
  | 3 => .ok .and
  | 4 => .ok .or
  | 5 => .ok .xor
  | 6 => .ok .min
  | 7 => .ok .max
  | 8 => .ok .minn
  | 9 => .ok .maxn
  | 10 => .ok .fadd
  | 11 => .ok .fmin
  | 12 => .ok .fmax
  | _ => .error .code

def aopCode : AOp → BitVec 5
  | .swap => 0
  | .cas => 1
  | .add => 2
  | .and => 3
  | .or => 4
  | .xor => 5
  | .min => 6
  | .max => 7
  | .minn => 8
  | .maxn => 9
  | .fadd => 10
  | .fmin => 11
  | .fmax => 12

/-- The BANKCFG roles (R223). -/
def roleOf (c : BitVec 3) : Except DecodeError CfgRole :=
  match c.toNat with
  | 0 => .ok .scratch
  | 1 => .ok .fifo
  | _ => .error .code

def roleCode : CfgRole → BitVec 3
  | .scratch => 0
  | .fifo => 1

/-- The PST types (R78), by the codes of R68. -/
def pstTyOf (c : BitVec 4) : Except DecodeError PstTy :=
  match c.toNat with
  | 10 => .ok .f32
  | 8 => .ok .f16
  | 9 => .ok .b16
  | 0 => .ok .s8
  | 2 => .ok .s16
  | 4 => .ok .s32
  | 12 => .ok .nb8
  | _ => .error .code

def pstTyCode : PstTy → BitVec 4
  | .f32 => 10
  | .f16 => 8
  | .b16 => 9
  | .s8 => 0
  | .s16 => 2
  | .s32 => 4
  | .nb8 => 12

/-- The scale block lengths of R79. -/
def blkLenOf (c : BitVec 2) : Except DecodeError BlkLen :=
  match c.toNat with
  | 0 => .ok .l32
  | 1 => .ok .l64
  | 2 => .ok .l128
  | _ => .ok .l256

def blkLenCode : BlkLen → BitVec 2
  | .l32 => 0
  | .l64 => 1
  | .l128 => 2
  | .l256 => 3


/-- A field that must be zero (R67). -/
def zero {n : Nat} (f : BitVec n) : Except DecodeError Unit := if f = 0 then .ok () else .error .field

/-- A field that must hold one code (R69, R223). -/
def exactly {n : Nat} (f c : BitVec n) : Except DecodeError Unit := if f = c then .ok () else .error .code

/-- The b slot of an LV word (R70). -/
def bsrcOf (bk : BitVec 2) (b : BitVec 21) : Except DecodeError BSrc :=
  match bk.toNat with
  | 0 => do zero (b.extractLsb' 0 10); .ok (.reg (b.extractLsb' 10 11))
  | 1 => do zero (b.extractLsb' 0 13); .ok (.scalar (b.extractLsb' 13 8))
  | 2 => .ok (.imm b)
  | _ => .error .code

def bsrcBk : BSrc → BitVec 2
  | .reg _ => 0
  | .scalar _ => 1
  | .imm _ => 2

def bsrcSlot : BSrc → BitVec 21
  | .reg vb => vb ++ 0#10
  | .scalar sb => sb ++ 0#13
  | .imm v => v

/-- The last operand of an X word (R76). -/
def xsrcOf (i : BitVec 1) (lo : BitVec 32) : Except DecodeError XSrc :=
  if i = 0 then do zero (lo.extractLsb' 0 24); .ok (.reg (lo.extractLsb' 24 8)) else .ok (.imm lo)

def xsrcI : XSrc → BitVec 1
  | .reg _ => 0
  | .imm _ => 1

def xsrcLo : XSrc → BitVec 32
  | .reg sb => sb ++ 0#24
  | .imm v => v

/-- The operand n or g of a K word (R81). -/
def ksrcOf (i : BitVec 1) (sb : BitVec 8) (imm : BitVec 24) : Except DecodeError KSrc :=
  if i = 0 then do zero imm; .ok (.reg sb) else do zero sb; .ok (.imm imm)

def ksrcI : KSrc → BitVec 1
  | .reg _ => 0
  | .imm _ => 1

def ksrcSb : KSrc → BitVec 8
  | .reg sb => sb
  | .imm _ => 0

def ksrcImm : KSrc → BitVec 24
  | .reg _ => 0
  | .imm v => v

/-- The index term of an M word (R77). -/
def indexOf (f : MF) : Except DecodeError (Option Index) :=
  if f.nx = 1 then do zero f.vidx; zero f.sh; .ok none else .ok (some { vidx := f.vidx, sh := f.sh })

def indexNx : Option Index → BitVec 1
  | none => 1
  | some _ => 0

def indexReg : Option Index → BitVec 11
  | none => 0
  | some x => x.vidx

def indexSh : Option Index → BitVec 2
  | none => 0
  | some x => x.sh

/-! ### The shapes -/

def lv0 (f : LvF) : Except DecodeError Lv0 := do
  let t ← tyOf f.ty
  zero f.bk; zero f.va; zero f.b
  .ok { ty := t, mask := f.mask, vd := f.vd }

def lv1 (f : LvF) : Except DecodeError Lv1 := do
  let t ← tyOf f.ty
  zero f.bk; zero f.b
  .ok { ty := t, mask := f.mask, vd := f.vd, va := f.va }

def lv2 (f : LvF) : Except DecodeError Lv2 := do
  let t ← tyOf f.ty
  let b ← bsrcOf f.bk f.b
  .ok { ty := t, mask := f.mask, vd := f.vd, va := f.va, b := b }

def lvMove (f : LvF) : Except DecodeError LvMove := do
  let t ← tyOf f.ty
  let b ← bsrcOf f.bk f.b
  zero f.va
  .ok { ty := t, mask := f.mask, vd := f.vd, b := b }

def lvTwoI (f : LvF) (mk : IMode → Lv2 → Instr) : Except DecodeError Instr := do
  let m ← imodeOf f.rnd; let o ← lv2 f; .ok (mk m o)

def lvTwoR (f : LvF) (mk : Rnd → Lv2 → Instr) : Except DecodeError Instr := do
  let r ← rndOf f.rnd; let o ← lv2 f; .ok (mk r o)

def lvTwo (f : LvF) (mk : Lv2 → Instr) : Except DecodeError Instr := do
  zero f.rnd; let o ← lv2 f; .ok (mk o)

def lvOneI (f : LvF) (mk : IMode → Lv1 → Instr) : Except DecodeError Instr := do
  let m ← imodeOf f.rnd; let o ← lv1 f; .ok (mk m o)

def lvOneR (f : LvF) (mk : Rnd → Lv1 → Instr) : Except DecodeError Instr := do
  let r ← rndOf f.rnd; let o ← lv1 f; .ok (mk r o)

def lvOne (f : LvF) (mk : Lv1 → Instr) : Except DecodeError Instr := do
  zero f.rnd; let o ← lv1 f; .ok (mk o)

/-- The imm32 of VMOVI (R72): the va and b fields together. -/
def vmoviOf (f : LvF) : Except DecodeError Instr := do
  let t ← tyOf f.ty
  zero f.bk; zero f.rnd
  .ok (.vmovi t f.mask f.vd (f.va ++ f.b))

/-- VCVT: the second type stands in the vb field (R70). -/
def vcvtOf (f : LvF) : Except DecodeError Instr := do
  let d ← tyOf f.ty
  let r ← rndOf f.rnd
  zero f.bk; zero (f.b.extractLsb' 0 10); zero (f.b.extractLsb' 14 7)
  let s ← tyOf (f.b.extractLsb' 10 4)
  .ok (.vcvt r d s f.mask f.vd f.va)

/-- VRAND takes N32 only, with a scalar b (R70, R145). -/
def vrandOf (f : LvF) : Except DecodeError Instr := do
  exactly f.ty 5; zero f.rnd; exactly f.bk 1; zero (f.b.extractLsb' 0 13)
  .ok (.vrand f.mask f.vd f.va (f.b.extractLsb' 13 8))

/-- VSCAN: the field [49:47] is a mode for integer types and a rounding for floating types (R150). -/
def vscanOf (f : LvF) : Except DecodeError Instr := do
  let o ← lv1 f
  if o.ty.isInt then do
    let m ← imodeOf f.rnd; .ok (.vscan (.int m) o)
  else do
    let r ← rndOf f.rnd; .ok (.vscan (.fp r) o)

def lsOf (f : LsF) : Except DecodeError Ls := do
  let t ← tyOf f.ty
  let c ← combOf f.comb
  .ok { ty := t, md := f.md, ms := f.ms, comb := c, sel := f.sel, va := f.va }

def lmTyped (f : LmF) (mk : Ty → SReg → MReg → VReg → Instr) : Except DecodeError Instr := do
  let t ← tyOf f.sub
  zero f.md; zero f.mb; zero f.z
  .ok (mk t f.sd f.ma f.va)

def lmCount (f : LmF) (mk : SReg → MReg → Instr) : Except DecodeError Instr := do
  zero f.sub; zero f.md; zero f.mb; zero f.va; zero f.z
  .ok (mk f.sd f.ma)

def lmNone (f : LmF) (i : Instr) : Except DecodeError Instr := do
  zero f.sub; zero f.md; zero f.ma; zero f.mb; zero f.sd; zero f.va; zero f.z
  .ok i

/-- The operation of SETOP (R74): NOT and MOV have one source. -/
def setOpOf (f : LmF) : Except DecodeError SetOp :=
  match f.sub.toNat with
  | 0 => .ok (.and f.ma f.mb)
  | 1 => .ok (.or f.ma f.mb)
  | 2 => .ok (.andn f.ma f.mb)
  | 3 => .ok (.xor f.ma f.mb)
  | 4 => do zero f.mb; .ok (.not f.ma)
  | 5 => do zero f.mb; .ok (.mov f.ma)
  | _ => .error .code

def setOpSub : SetOp → BitVec 4
  | .and _ _ => 0 | .or _ _ => 1 | .andn _ _ => 2 | .xor _ _ => 3 | .not _ => 4 | .mov _ => 5

def setOpA : SetOp → MReg
  | .and a _ | .or a _ | .andn a _ | .xor a _ => a
  | .not a | .mov a => a

def setOpB : SetOp → MReg
  | .and _ b | .or _ b | .andn _ b | .xor _ b => b
  | .not _ | .mov _ => 0

def cNone (f : CF) (i : Instr) : Except DecodeError Instr := do
  zero f.cond; zero f.m; zero f.sa; zero f.sb; zero f.off; .ok i

def cSa (f : CF) (i : SReg → Instr) : Except DecodeError Instr := do
  zero f.cond; zero f.m; zero f.sb; zero f.off; .ok (i f.sa)

def cSaSb (f : CF) (i : SReg → BitVec 8 → Instr) : Except DecodeError Instr := do
  zero f.cond; zero f.m; zero f.off; .ok (i f.sa f.sb)

def cSaOff (f : CF) (i : SReg → BitVec 32 → Instr) : Except DecodeError Instr := do
  zero f.cond; zero f.m; zero f.sb; .ok (i f.sa f.off)

def cOff (f : CF) (i : BitVec 32 → Instr) : Except DecodeError Instr := do
  zero f.cond; zero f.m; zero f.sa; zero f.sb; .ok (i f.off)

def x2 (f : XF) : Except DecodeError X2 := do
  let t ← tyOf f.ty
  let b ← xsrcOf f.i f.lo
  .ok { ty := t, sd := f.sd, sa := f.sa, b := b }

def x1 (f : XF) : Except DecodeError X1 := do
  let t ← tyOf f.ty
  zero f.i; zero f.lo
  .ok { ty := t, sd := f.sd, sa := f.sa }

def x3 (f : XF) : Except DecodeError X3 := do
  let t ← tyOf f.ty
  zero f.i; zero (f.lo.extractLsb' 0 16)
  .ok { ty := t, sd := f.sd, sa := f.sa, sb := f.lo.extractLsb' 24 8, sc := f.lo.extractLsb' 16 8 }

def xInt2 (f : XF) (mk : X2 → Instr) : Except DecodeError Instr := do
  zero f.rnd; let o ← x2 f; .ok (mk o)

def xInt1 (f : XF) (mk : X1 → Instr) : Except DecodeError Instr := do
  zero f.rnd; let o ← x1 f; .ok (mk o)

def xFp2 (f : XF) (mk : Rnd → X2 → Instr) : Except DecodeError Instr := do
  let r ← rndOf f.rnd; let o ← x2 f; .ok (mk r o)

/-- SLI.LO and SLI.HI (R76). -/
def sliOf (f : XF) : Except DecodeError Instr := do
  exactly f.i 1; zero f.rnd; zero f.sa
  match f.ty.toNat with
  | 0 => .ok (.sliLo f.sd f.lo)
  | 1 => .ok (.sliHi f.sd f.lo)
  | _ => .error .code

/-- SFCVT: the source type stands in sc (R76). -/
def sfcvtOf (f : XF) : Except DecodeError Instr := do
  let d ← tyOf f.ty
  let r ← rndOf f.rnd
  zero f.i; zero (f.lo.extractLsb' 0 16); zero (f.lo.extractLsb' 20 12)
  let s ← tyOf (f.lo.extractLsb' 16 4)
  .ok (.sfcvt r d s f.sd f.sa)

def mLane (f : MF) : Except DecodeError MLane := do
  let w ← widthOf f.width
  let sp ← spaceOf f.space
  let sc ← scopeOf f.scope
  let or ← orderOf f.order
  let x ← indexOf f
  .ok { width := w, space := sp, scope := sc, order := or, vdat := f.vdat, sbase := f.sbase, idx := x, imm := f.imm }

def mScalar (f : MF) : Except DecodeError MScalar := do
  let w ← widthOf f.width
  let sp ← spaceOf f.space
  let sc ← scopeOf f.scope
  let or ← orderOf f.order
  exactly f.nx 1; zero f.vidx; zero f.sh; zero (f.vdat.extractLsb' 8 3)
  .ok { width := w, space := sp, scope := sc, order := or, sd := f.vdat.extractLsb' 0 8, sbase := f.sbase, imm := f.imm }

def mAtom (f : MF) : Except DecodeError MAtom := do
  let a ← aopOf (f.imm.extractLsb' 8 5)
  let w ← widthOf f.width
  let sp ← spaceOf f.space
  let sc ← scopeOf f.scope
  let or ← orderOf f.order
  let x ← indexOf f
  .ok { op := a, width := w, space := sp, scope := sc, order := or, vdat := f.vdat, sbase := f.sbase, idx := x,
        imm := f.imm.extractLsb' 0 8 }

def mSatom (f : MF) : Except DecodeError MSatom := do
  let a ← aopOf (f.imm.extractLsb' 8 5)
  let w ← widthOf f.width
  let sp ← spaceOf f.space
  let sc ← scopeOf f.scope
  let or ← orderOf f.order
  exactly f.nx 1; zero f.vidx; zero f.sh; zero (f.vdat.extractLsb' 8 3)
  .ok { op := a, width := w, space := sp, scope := sc, order := or, sd := f.vdat.extractLsb' 0 8, sbase := f.sbase,
        imm := f.imm.extractLsb' 0 8 }

def mPref (f : MF) : Except DecodeError MPref := do
  exactly f.width 0; exactly f.space 0; exactly f.order 0
  let sc ← scopeOf f.scope
  let x ← indexOf f
  zero f.vdat
  .ok { scope := sc, sbase := f.sbase, idx := x, imm := f.imm }

def mRange (f : MF) : Except DecodeError MRange := do
  exactly f.width 0; exactly f.space 0; zero f.scope; zero f.order
  exactly f.nx 1; zero f.vidx; zero f.sh; zero (f.vdat.extractLsb' 8 3)
  .ok { sl := f.vdat.extractLsb' 0 8, sbase := f.sbase, imm := f.imm }

def mSet (f : MF) : Except DecodeError MSet := do
  let w ← widthOf f.width
  exactly f.space 0; exactly f.order 0
  let sc ← scopeOf f.scope
  let x ← indexOf f
  .ok { width := w, scope := sc, vdat := f.vdat, sbase := f.sbase, idx := x, imm := f.imm }

def mPlane (f : MF) : Except DecodeError MPlane := do
  exactly f.width 2; exactly f.space 1; zero f.scope; zero f.order
  exactly f.nx 1; zero f.vidx; zero f.sh
  .ok { vdat := f.vdat, sbase := f.sbase, imm := f.imm }

/-- CPY and CPY2: one scalar, everything else fixed (R223). -/
def mCopy (f : MF) (mk : SReg → Instr) : Except DecodeError Instr := do
  exactly f.nx 1; exactly f.width 0; zero f.space; zero f.scope; zero f.order
  zero f.vdat; zero f.vidx; zero f.sh; zero f.imm
  .ok (mk f.sbase)

def mFence (f : MF) : Except DecodeError Instr := do
  exactly f.nx 1; exactly f.width 0; zero f.space
  let sc ← scopeOf f.scope
  let or ← orderOf f.order
  zero f.vdat; zero f.sbase; zero f.vidx; zero f.sh; zero f.imm
  .ok (.fence sc or)

def mBankcfg (f : MF) : Except DecodeError Instr := do
  exactly f.nx 1
  let r ← roleOf f.width
  zero f.space; zero f.scope; zero f.order; zero f.vdat; zero f.sbase; zero f.vidx; zero f.sh
  zero (f.imm.extractLsb' 5 8)
  .ok (.bankcfg r (f.imm.extractLsb' 0 5))

/-- A format block (R79). -/
def fmtOf (f : PF) : Except DecodeError Fmt := do
  let r ← rndOf (f.imm.extractLsb' 29 3)
  let l ← blkLenOf (f.kc.extractLsb' 1 2)
  zero (f.imm.extractLsb' 0 28)
  .ok { xr := f.xa, xp := f.xb, xs := f.xc, n1 := f.kc.extractLsb' 5 3, sg := f.kc.getLsbD 4, ce := f.kc.getLsbD 3,
        len := l, f32 := f.kc.getLsbD 0, rnd := r, sc := f.imm.getLsbD 28 }

def pfmtOf (f : PF) : Except DecodeError Instr := do
  let b ← fmtOf f
  match f.t.toNat with
  | 0 => .ok (.pfmtA b)
  | 1 => .ok (.pfmtB b)
  | _ => .error .code

def fmtKc (b : Fmt) : BitVec 8 :=
  b.n1 ++ BitVec.ofBool b.sg ++ BitVec.ofBool b.ce ++ blkLenCode b.len ++ BitVec.ofBool b.f32

def fmtImm (b : Fmt) : BitVec 32 := rndCode b.rnd ++ BitVec.ofBool b.sc ++ 0#28

def pXaImm (f : PF) (mk : XReg → BitVec 32 → Instr) : Except DecodeError Instr := do
  zero f.t; zero f.xb; zero f.xc; zero f.kc; .ok (mk f.xa f.imm)

/-- A K word that addresses a rennet word. -/
def kAddr (f : KF) : Except DecodeError KAddr := do
  let sp ← spaceOf f.space
  let sc ← scopeOf f.scope
  zero f.z
  .ok { space := sp, scope := sc, sa := f.sa }

/-- An LV word (R70, R72, R82). -/
def decodeLv (f : LvF) : Except DecodeError Instr :=
  match f.op.toNat with
  | 0x60 => lvTwoI f .vadd
  | 0x61 => lvTwoI f .vsub
  | 0x62 => lvTwoI f .vmul
  | 0x63 => lvTwo f .vmulh
  | 0x64 => lvTwoI f .vmad
  | 0x65 => lvTwo f .vmin
  | 0x66 => lvTwo f .vmax
  | 0x67 => lvOneI f .vabs
  | 0x68 => lvOneI f .vneg
  | 0x69 => lvTwo f .vand
  | 0x6A => lvTwo f .vor
  | 0x6B => lvTwo f .vxor
  | 0x6C => lvTwo f .vandn
  | 0x6D => lvOne f .vnot
  | 0x6E => lvTwoI f .vshl
  | 0x6F => lvTwoI f .vshr
  | 0x70 => lvTwoI f .vsar
  | 0x71 => lvTwoI f .vrot
  | 0x72 => lvOne f .vclz
  | 0x73 => lvOne f .vpopc
  | 0x74 => lvOne f .vbrev
  | 0x75 => lvTwo f .vext
  | 0x76 => lvTwo f .vins
  | 0x77 => lvTwoI f .vsad
  | 0x78 => lvTwo f .vsel
  | 0x79 => do zero f.rnd; let o ← lvMove f; .ok (.vmov o)
  | 0x7A => vmoviOf f
  | 0x7B => do zero f.rnd; let o ← lv0 f; .ok (.vid o)
  | 0x80 => lvTwoR f .vfadd
  | 0x81 => lvTwoR f .vfsub
  | 0x82 => lvTwoR f .vfmul
  | 0x83 => lvTwoR f .vfma
  | 0x84 => lvTwoR f .vfms
  | 0x85 => lvTwoR f .vfnma
  | 0x86 => lvTwo f .vfmin
  | 0x87 => lvTwo f .vfmax
  | 0x88 => lvOne f .vfabs
  | 0x89 => lvOne f .vfneg
  | 0x8A => lvTwoR f .vfdiv
  | 0x8B => lvOneR f .vfsqrt
  | 0x8C => lvOneR f .vfrnd
  | 0x8D => lvTwoR f .vfscale
  | 0x8E => lvOne f .vfclass
  | 0x8F => vcvtOf f
  | 0x90 => lvOne f .vunif
  | 0x91 => vrandOf f
  | 0x92 => lvTwo f .vbcast
  | 0x93 => vscanOf f
  | 0x94 => lvOne f .vcompact
  | 0x95 => lvTwo f .vshfl
  | _ => .error .unassigned

/-- An LS word (R73). -/
def decodeLs (f : LsF) : Except DecodeError Instr := do
  match f.op.toNat with
  | 0x40 => do
    let c ← condOf f.cond; let o ← lsOf f; zero (f.lo.extractLsb' 0 16); .ok (.srch c o (f.lo.extractLsb' 16 8))
  | 0x41 => do let c ← condOf f.cond; let o ← lsOf f; .ok (.srchi c o f.lo)
  | 0x42 => do
    let c ← condOf f.cond; let o ← lsOf f; zero (f.lo.extractLsb' 0 13); .ok (.srchv c o (f.lo.extractLsb' 13 11))
  | 0x43 => do
    exactly f.cond 6; let o ← lsOf f; zero (f.lo.extractLsb' 0 8)
    .ok (.srchm o (f.lo.extractLsb' 16 8) (f.lo.extractLsb' 8 8))
  | 0x44 => do
    exactly f.cond 7; let o ← lsOf f; zero (f.lo.extractLsb' 0 8)
    .ok (.srchr o (f.lo.extractLsb' 16 8) (f.lo.extractLsb' 8 8))
  | _ => .error .unassigned

/-- An LM word (R74). -/
def decodeLm (f : LmF) : Except DecodeError Instr := do
  match f.op.toNat with
  | 0x45 => do let o ← setOpOf f; zero f.sd; zero f.va; zero f.z; .ok (.setop f.md o)
  | 0x46 => do
    zero f.ma; zero f.mb; zero f.sd; zero f.va; zero f.z
    match f.sub.toNat with
    | 0 => .ok (.setc f.md true)
    | 1 => .ok (.setc f.md false)
    | _ => .error .code
  | 0x47 => do zero f.sub; zero f.mb; zero f.sd; zero f.va; zero f.z; .ok (.first f.md f.ma)
  | 0x48 => do zero f.sub; zero f.mb; zero f.va; zero f.z; .ok (.firstk f.md f.ma f.sd)
  | 0x49 => do zero f.sub; zero f.md; zero f.mb; zero f.sd; zero f.va; zero f.z; .ok (.withSet f.ma)
  | 0x4A => lmNone f .elseSet
  | 0x4B => lmNone f .popset
  | 0x4C => lmCount f .rcount
  | 0x4D => lmCount f .rfind
  | 0x4E => lmTyped f .rsum
  | 0x4F => lmTyped f .rmin
  | 0x50 => lmTyped f .rmax
  | 0x51 => do let o ← bitFoldOf f.sub; zero f.md; zero f.mb; zero f.z; .ok (.rbit o f.sd f.ma f.va)
  | 0x52 => do zero f.sub; zero f.ma; zero f.mb; zero f.sd; zero f.z; .ok (.setv f.md f.va)
  | _ => .error .unassigned

/-- A C word (R75). -/
def decodeC (f : CF) : Except DecodeError Instr := do
  match f.op.toNat with
  | 0x00 => cNone f .nop
  | 0x01 => cOff f .bra
  | 0x02 => do let c ← bcondOf f.cond; zero f.m; .ok (.bsc c f.sa f.sb f.off)
  | 0x03 => do let c ← bcondOf f.cond; zero f.m; .ok (.bsi c f.sa f.sb f.off)
  | 0x04 => do let c ← setCondOf f.cond; zero f.sa; zero f.sb; .ok (.bset c f.m f.off)
  | 0x05 => cSaOff f .call
  | 0x06 => cSaSb f .calli
  | 0x07 => cSa f .jmp
  | 0x08 => cSa f .ret
  | 0x09 => cSaOff f .loop
  | 0x0A => cNone f .region
  | 0x0B => cNone f .join
  | 0x0C => cNone f .endCp
  | 0x0D => cSaSb f .succ
  | 0x0E => cOff f .trap
  | 0x0F => cNone f .yield
  | 0x10 => cSaSb f .getc
  | 0x11 => cSaSb f (fun sa n => .putc n sa)
  | 0x12 => cSaSb f .pstart
  | 0x13 => cOff f .brk
  | _ => .error .unassigned

/-- An X word (R76). -/
def decodeX (f : XF) : Except DecodeError Instr := do
  match f.op.toNat with
  | 0x20 => xInt2 f .sadd
  | 0x21 => xInt2 f .ssub
  | 0x22 => xInt2 f .smul
  | 0x23 => xInt2 f .smulh
  | 0x24 => xInt2 f .sdiv
  | 0x25 => xInt2 f .srem
  | 0x26 => xInt2 f .sand
  | 0x27 => xInt2 f .sor
  | 0x28 => xInt2 f .sxor
  | 0x29 => xInt2 f .sshl
  | 0x2A => xInt2 f .sshr
  | 0x2B => xInt2 f .ssar
  | 0x2C => xInt2 f .smin
  | 0x2D => xInt2 f .smax
  | 0x2E => xInt1 f .sclz
  | 0x2F => xInt1 f .spopc
  | 0x30 => do
    let t ← tyOf f.ty; let b ← xsrcOf f.i f.lo; zero f.rnd; zero f.sa; .ok (.smov t f.sd b)
  | 0x31 => sliOf f
  | 0x32 => do let c ← scondOf f.rnd; let o ← x2 f; .ok (.sset c o)
  | 0x33 => do zero f.rnd; let o ← x3 f; .ok (.ssel o)
  | 0x34 => xInt2 f .sext
  | 0x35 => xInt2 f .sins
  | 0x36 => xFp2 f .sfadd
  | 0x37 => xFp2 f .sfmul
  | 0x38 => do let r ← rndOf f.rnd; let o ← x3 f; .ok (.sfma r o)
  | 0x39 => sfcvtOf f
  | 0x3A => xFp2 f .sfdiv
  | 0x3B => do let r ← rndOf f.rnd; let o ← x1 f; .ok (.sfsqrt r o)
  | _ => .error .unassigned

/-- An M word (R77, R222, R223). -/
def decodeM (f : MF) : Except DecodeError Instr := do
  match f.op.toNat with
  | 0xA0 => do let o ← mLane f; .ok (.ld o)
  | 0xA1 => do let o ← mLane f; .ok (.st o)
  | 0xA2 => do let o ← mScalar f; .ok (.lds o)
  | 0xA3 => do let o ← mScalar f; .ok (.sts o)
  | 0xA4 => do let o ← mAtom f; .ok (.atom o)
  | 0xA5 => do let o ← mSatom f; .ok (.satom o)
  | 0xA6 => do let o ← mAtom f; .ok (.red o)
  | 0xA7 => mFence f
  | 0xA8 => do let o ← mPref f; .ok (.pref o)
  | 0xA9 => mCopy f .cpy
  | 0xAA => mCopy f .cpy2
  | 0xAB => do let o ← mRange f; .ok (.inval o)
  | 0xAC => do let o ← mRange f; .ok (.flush o)
  | 0xAD => do let o ← mSet f; .ok (.setld o)
  | 0xAE => do let o ← mSet f; .ok (.setst o)
  | 0xAF => do let o ← mPlane f; .ok (.stpl o)
  | 0xB0 => do let o ← mPlane f; .ok (.ldpl o)
  | 0xB1 => mBankcfg f
  | _ => .error .unassigned

/-- A P word (R78, R79). -/
def decodeP (f : PF) : Except DecodeError Instr := do
  match f.op.toNat with
  | 0xC0 => pfmtOf f
  | 0xC1 => do zero f.xc; zero f.imm; .ok (.pmm f.t f.xa f.xb f.kc)
  | 0xC2 => do zero f.imm; .ok (.pmmg f.t f.xa f.xb f.xc f.kc)
  | 0xC3 => do
    zero f.t; zero f.xa; zero f.xb; zero f.xc; zero f.kc; zero (f.imm.extractLsb' 16 16)
    .ok (.pzero (f.imm.extractLsb' 0 16))
  | 0xC4 => do zero f.xb; zero f.xc; zero f.kc; zero f.imm; .ok (.pld f.t f.xa)
  | 0xC5 => do
    zero f.xb; zero f.xc; zero (f.kc.extractLsb' 0 4); zero f.imm
    let y ← pstTyOf (f.kc.extractLsb' 4 4)
    .ok (.pst y f.t f.xa)
  | 0xC6 => do zero f.t; zero f.xc; zero f.kc; zero f.imm; .ok (.pwait f.xa f.xb)
  | 0xC7 => pXaImm f .parrive
  | 0xC8 => pXaImm f .ploop
  | 0xC9 => pXaImm f .paddx
  | 0xCA => pXaImm f .psetx
  | 0xCB => do zero f.t; zero f.xa; zero f.xb; zero f.xc; zero f.kc; zero f.imm; .ok .pend
  | _ => .error .unassigned

/-- A Q word (R80). -/
def decodeQ (f : QF) : Except DecodeError Instr := do
  zero f.z
  match f.op.toNat with
  | 0xD0 => do
    zero f.m; zero f.v
    match f.sub.toNat with
    | 0 => do zero f.sd; .ok (.qpush f.c f.sa)
    | 1 => .ok (.qpushTry f.sd f.c f.sa)
    | _ => .error .code
  | 0xD1 => do zero f.sub; zero f.m; zero f.sa; zero f.v; .ok (.qpop f.sd f.c)
  | 0xD2 => do zero f.sub; zero f.sd; zero f.sa; .ok (.qpopb f.m f.v f.c)
  | 0xD3 => do zero f.sub; zero f.sd; zero f.sa; .ok (.qins f.m f.c f.v)
  | 0xD4 => do zero f.sub; zero f.m; zero f.sa; zero f.v; .ok (.qstat f.sd f.c)
  | 0xD5 => do zero f.sub; zero f.sd; zero f.sa; exactly (f.c.extractLsb' 5 1) 0; .ok (.fpush f.m (f.c.extractLsb' 0 5) f.v)
  | 0xD6 => do zero f.sub; zero f.sd; zero f.sa; exactly (f.c.extractLsb' 5 1) 0; .ok (.fpop f.m f.v (f.c.extractLsb' 0 5))
  | 0xD7 => do zero f.sub; zero f.m; zero f.sd; zero f.v; zero f.c; .ok (.nput f.sa)
  | 0xD8 => do zero f.sub; zero f.m; zero f.sd; zero f.v; zero f.c; .ok (.nget f.sa)
  | 0xD9 => do zero f.sub; zero f.m; zero f.sd; zero f.v; zero f.c; .ok (.narrive f.sa)
  | _ => .error .unassigned

/-- A K word (R81). -/
def decodeK (f : KF) : Except DecodeError Instr := do
  match f.op.toNat with
  | 0xE0 => do let a ← kAddr f; let n ← ksrcOf f.i f.sb f.imm; .ok (.arrive a f.sd n)
  | 0xE1 => do let a ← kAddr f; let g ← ksrcOf f.i f.sb f.imm; zero f.sd; .ok (.waitr a g)
  | 0xE2 => do let a ← kAddr f; zero f.i; zero f.sd; zero f.imm; .ok (.rwset a f.sb)
  | 0xE3 => do let a ← kAddr f; zero f.i; zero f.sb; zero f.imm; .ok (.rwget a f.sd)
  | 0xE4 => do
    zero f.space; zero f.scope; zero f.z; exactly f.i 1; zero f.sd; zero f.sa; zero f.sb
    zero (f.imm.extractLsb' 6 2); zero (f.imm.extractLsb' 14 10)
    .ok (.waitt (f.imm.extractLsb' 0 6) (f.imm.extractLsb' 8 6))
  | 0xE5 => do
    zero f.space; zero f.scope; zero f.z; exactly f.i 1; zero f.sa; zero f.sb; zero (f.imm.extractLsb' 4 20)
    .ok (.pmcr f.sd (f.imm.extractLsb' 0 4))
  | 0xE6 => do
    zero f.space; zero f.scope; zero f.z; exactly f.i 1; zero f.sd; zero f.sb; zero (f.imm.extractLsb' 4 20)
    .ok (.pmcs (f.imm.extractLsb' 0 4) f.sa)
  | _ => .error .unassigned

/-- The format of an opcode is its range (R83). -/
def decodeFields (w : Word64) : Except DecodeError Instr :=
  let op := (w.extractLsb' 56 8).toNat
  if op < 0x20 then decodeC (cFUnpack w)
  else if op < 0x40 then decodeX (xFUnpack w)
  else if op < 0x45 then decodeLs (lsFUnpack w)
  else if op < 0x60 then decodeLm (lmFUnpack w)
  else if op < 0xA0 then decodeLv (lvFUnpack w)
  else if op < 0xC0 then decodeM (mFUnpack w)
  else if op < 0xD0 then decodeP (pFUnpack w)
  else if op < 0xE0 then decodeQ (qFUnpack w)
  else if op < 0xF0 then decodeK (kFUnpack w)
  else .error .unassigned

/-- Decoding of one 64-bit instruction word, total, with the static checks of R67. -/
def decode (w : Word64) : Except DecodeError Instr :=
  match decodeFields w with
  | .ok i => if Machine.wfInstr i then .ok i else .error .form
  | .error e => .error e

/-- Eight bytes of memory as a word, the least significant byte first (R5). -/
def wordOfBytes : List Byte → Option Word64
  | b0 :: b1 :: b2 :: b3 :: b4 :: b5 :: b6 :: b7 :: _ => some (b7 ++ b6 ++ b5 ++ b4 ++ b3 ++ b2 ++ b1 ++ b0)
  | _ => none

/-- The n least significant bytes of a word, the least significant first (R5). -/
def bytesOf {w : Nat} (n : Nat) (v : BitVec w) : List Byte :=
  (List.range n).map (fun k => v.extractLsb' (8 * k) 8)

/-- Decoding of the bytes at an instruction's address. -/
def decodeBytes (bs : List Byte) : Except DecodeError Instr :=
  match wordOfBytes bs with
  | some w => decode w
  | none => .error .short

/-! ### The encoder -/

def encLv2 (op : BitVec 8) (rnd : BitVec 3) (o : Lv2) : Word64 :=
  lvFPack { op := op, ty := tyCode o.ty, bk := bsrcBk o.b, rnd := rnd, mask := o.mask, vd := o.vd, va := o.va,
            b := bsrcSlot o.b }

def encLv1 (op : BitVec 8) (rnd : BitVec 3) (o : Lv1) : Word64 :=
  lvFPack { op := op, ty := tyCode o.ty, bk := 0, rnd := rnd, mask := o.mask, vd := o.vd, va := o.va, b := 0 }

def encLs (op : BitVec 8) (cond : BitVec 4) (o : Ls) (lo : BitVec 24) : Word64 :=
  lsFPack { op := op, ty := tyCode o.ty, cond := cond, md := o.md, ms := o.ms, comb := combCode o.comb, sel := o.sel,
            va := o.va, lo := lo }

def encLm (op : BitVec 8) (sub : BitVec 4) (md ma mb : MReg) (sd : SReg) (va : VReg) : Word64 :=
  lmFPack { op := op, sub := sub, md := md, ma := ma, mb := mb, sd := sd, va := va, z := 0 }

def encC (op : BitVec 8) (cond m : BitVec 4) (sa sb : BitVec 8) (off : BitVec 32) : Word64 :=
  cFPack { op := op, cond := cond, m := m, sa := sa, sb := sb, off := off }

def encX2 (op : BitVec 8) (rnd : BitVec 3) (o : X2) : Word64 :=
  xFPack { op := op, ty := tyCode o.ty, i := xsrcI o.b, rnd := rnd, sd := o.sd, sa := o.sa, lo := xsrcLo o.b }

def encX1 (op : BitVec 8) (rnd : BitVec 3) (o : X1) : Word64 :=
  xFPack { op := op, ty := tyCode o.ty, i := 0, rnd := rnd, sd := o.sd, sa := o.sa, lo := 0 }

def encX3 (op : BitVec 8) (rnd : BitVec 3) (o : X3) : Word64 :=
  xFPack { op := op, ty := tyCode o.ty, i := 0, rnd := rnd, sd := o.sd, sa := o.sa, lo := o.sb ++ o.sc ++ 0#16 }

def encMLane (op : BitVec 8) (o : MLane) : Word64 :=
  mFPack { op := op, nx := indexNx o.idx, width := widthCode o.width, space := spaceCode o.space,
           scope := scopeCode o.scope, order := orderCode o.order, vdat := o.vdat, sbase := o.sbase,
           vidx := indexReg o.idx, sh := indexSh o.idx, imm := o.imm }

def encMScalar (op : BitVec 8) (o : MScalar) : Word64 :=
  mFPack { op := op, nx := 1, width := widthCode o.width, space := spaceCode o.space, scope := scopeCode o.scope,
           order := orderCode o.order, vdat := 0#3 ++ o.sd, sbase := o.sbase, vidx := 0, sh := 0, imm := o.imm }

def encMAtom (op : BitVec 8) (o : MAtom) : Word64 :=
  mFPack { op := op, nx := indexNx o.idx, width := widthCode o.width, space := spaceCode o.space,
           scope := scopeCode o.scope, order := orderCode o.order, vdat := o.vdat, sbase := o.sbase,
           vidx := indexReg o.idx, sh := indexSh o.idx, imm := aopCode o.op ++ o.imm }

def encMSatom (op : BitVec 8) (o : MSatom) : Word64 :=
  mFPack { op := op, nx := 1, width := widthCode o.width, space := spaceCode o.space, scope := scopeCode o.scope,
           order := orderCode o.order, vdat := 0#3 ++ o.sd, sbase := o.sbase, vidx := 0, sh := 0,
           imm := aopCode o.op ++ o.imm }

/-- An M word of space g, order PLAIN, width b8 and no index, which the other M words refine. -/
def encM (op : BitVec 8) : MF :=
  { op := op, nx := 1, width := 0, space := 0, scope := 0, order := 0, vdat := 0, sbase := 0, vidx := 0, sh := 0, imm := 0 }

def encMRange (op : BitVec 8) (o : MRange) : Word64 :=
  mFPack { encM op with vdat := 0#3 ++ o.sl, sbase := o.sbase, imm := o.imm }

def encMSet (op : BitVec 8) (o : MSet) : Word64 :=
  mFPack { encM op with nx := indexNx o.idx, width := widthCode o.width, scope := scopeCode o.scope, vdat := o.vdat,
                        sbase := o.sbase, vidx := indexReg o.idx, sh := indexSh o.idx, imm := o.imm }

def encMPlane (op : BitVec 8) (o : MPlane) : Word64 :=
  mFPack { encM op with width := 2, space := 1, vdat := o.vdat, sbase := o.sbase, imm := o.imm }

def encP (op : BitVec 8) (t : BitVec 4) (xa xb xc : XReg) (kc : BitVec 8) (imm : BitVec 32) : Word64 :=
  pFPack { op := op, t := t, xa := xa, xb := xb, xc := xc, kc := kc, imm := imm }

def encQ (op : BitVec 8) (sub : BitVec 4) (m : MReg) (sd sa : SReg) (v : VReg) (c : BitVec 6) : Word64 :=
  qFPack { op := op, sub := sub, m := m, sd := sd, sa := sa, v := v, z := 0, c := c }

def encK (op : BitVec 8) (a : KAddr) (i : BitVec 1) (sd sb : SReg) (imm : BitVec 24) : Word64 :=
  kFPack { op := op, space := spaceCode a.space, scope := scopeCode a.scope, z := 0, i := i, sd := sd, sa := a.sa,
           sb := sb, imm := imm }

def encKNone (op : BitVec 8) (sd sa : SReg) (imm : BitVec 24) : Word64 :=
  kFPack { op := op, space := 0, scope := 0, z := 0, i := 1, sd := sd, sa := sa, sb := 0, imm := imm }

def encScanMode : ScanMode → BitVec 3
  | .int m => imodeCode m
  | .fp r => rndCode r

/-- The word of an instruction; an event has none. -/
def encode : Instr → Option Word64
  | .nop => some (encC 0x00 0 0 0 0 0)
  | .bra off => some (encC 0x01 0 0 0 0 off)
  | .bsc cc sa sb off => some (encC 0x02 (bcondCode cc) 0 sa sb off)
  | .bsi cc sa imm off => some (encC 0x03 (bcondCode cc) 0 sa imm off)
  | .bset c ms off => some (encC 0x04 (setCondCode c) ms 0 0 off)
  | .call sd off => some (encC 0x05 0 0 sd 0 off)
  | .calli sa sd => some (encC 0x06 0 0 sa sd 0)
  | .jmp sa => some (encC 0x07 0 0 sa 0 0)
  | .ret sa => some (encC 0x08 0 0 sa 0 0)
  | .loop sa off => some (encC 0x09 0 0 sa 0 off)
  | .region => some (encC 0x0A 0 0 0 0 0)
  | .join => some (encC 0x0B 0 0 0 0 0)
  | .endCp => some (encC 0x0C 0 0 0 0 0)
  | .succ sa sb => some (encC 0x0D 0 0 sa sb 0)
  | .trap code => some (encC 0x0E 0 0 0 0 code)
  | .yield => some (encC 0x0F 0 0 0 0 0)
  | .getc sd n => some (encC 0x10 0 0 sd n 0)
  | .putc n sa => some (encC 0x11 0 0 sa n 0)
  | .pstart sa sb => some (encC 0x12 0 0 sa sb 0)
  | .brk code => some (encC 0x13 0 0 0 0 code)
  | .sadd o => some (encX2 0x20 0 o)
  | .ssub o => some (encX2 0x21 0 o)
  | .smul o => some (encX2 0x22 0 o)
  | .smulh o => some (encX2 0x23 0 o)
  | .sdiv o => some (encX2 0x24 0 o)
  | .srem o => some (encX2 0x25 0 o)
  | .sand o => some (encX2 0x26 0 o)
  | .sor o => some (encX2 0x27 0 o)
  | .sxor o => some (encX2 0x28 0 o)
  | .sshl o => some (encX2 0x29 0 o)
  | .sshr o => some (encX2 0x2A 0 o)
  | .ssar o => some (encX2 0x2B 0 o)
  | .smin o => some (encX2 0x2C 0 o)
  | .smax o => some (encX2 0x2D 0 o)
  | .sclz o => some (encX1 0x2E 0 o)
  | .spopc o => some (encX1 0x2F 0 o)
  | .smov ty sd b => some (xFPack { op := 0x30, ty := tyCode ty, i := xsrcI b, rnd := 0, sd := sd, sa := 0, lo := xsrcLo b })
  | .sliLo sd imm => some (xFPack { op := 0x31, ty := 0, i := 1, rnd := 0, sd := sd, sa := 0, lo := imm })
  | .sliHi sd imm => some (xFPack { op := 0x31, ty := 1, i := 1, rnd := 0, sd := sd, sa := 0, lo := imm })
  | .sset cc o => some (encX2 0x32 (scondCode cc) o)
  | .ssel o => some (encX3 0x33 0 o)
  | .sext o => some (encX2 0x34 0 o)
  | .sins o => some (encX2 0x35 0 o)
  | .sfadd r o => some (encX2 0x36 (rndCode r) o)
  | .sfmul r o => some (encX2 0x37 (rndCode r) o)
  | .sfma r o => some (encX3 0x38 (rndCode r) o)
  | .sfcvt r dst src sd sa => some (xFPack { op := 0x39, ty := tyCode dst, i := 0, rnd := rndCode r, sd := sd, sa := sa, lo := 0#12 ++ tyCode src ++ 0#16 })
  | .sfdiv r o => some (encX2 0x3A (rndCode r) o)
  | .sfsqrt r o => some (encX1 0x3B (rndCode r) o)
  | .srch cc o sk => some (encLs 0x40 (condCode cc) o (sk ++ 0#16))
  | .srchi cc o imm => some (encLs 0x41 (condCode cc) o imm)
  | .srchv cc o vb => some (encLs 0x42 (condCode cc) o (vb ++ 0#13))
  | .srchm o sk sk2 => some (encLs 0x43 6 o (sk ++ sk2 ++ 0#8))
  | .srchr o sk sk2 => some (encLs 0x44 7 o (sk ++ sk2 ++ 0#8))
  | .setop md op => some (encLm 0x45 (setOpSub op) md (setOpA op) (setOpB op) 0 0)
  | .setc md all => some (encLm 0x46 (if all then 0 else 1) md 0 0 0 0)
  | .first md ma => some (encLm 0x47 0 md ma 0 0 0)
  | .firstk md ma sa => some (encLm 0x48 0 md ma 0 sa 0)
  | .withSet ma => some (encLm 0x49 0 0 ma 0 0 0)
  | .elseSet => some (encLm 0x4A 0 0 0 0 0 0)
  | .popset => some (encLm 0x4B 0 0 0 0 0 0)
  | .rcount sd ma => some (encLm 0x4C 0 0 ma 0 sd 0)
  | .rfind sd ma => some (encLm 0x4D 0 0 ma 0 sd 0)
  | .rsum ty sd ma va => some (encLm 0x4E (tyCode ty) 0 ma 0 sd va)
  | .rmin ty sd ma va => some (encLm 0x4F (tyCode ty) 0 ma 0 sd va)
  | .rmax ty sd ma va => some (encLm 0x50 (tyCode ty) 0 ma 0 sd va)
  | .rbit op sd ma va => some (encLm 0x51 (bitFoldCode op) 0 ma 0 sd va)
  | .setv md va => some (encLm 0x52 0 md 0 0 0 va)
  | .vadd m o => some (encLv2 0x60 (imodeCode m) o)
  | .vsub m o => some (encLv2 0x61 (imodeCode m) o)
  | .vmul m o => some (encLv2 0x62 (imodeCode m) o)
  | .vmulh o => some (encLv2 0x63 0 o)
  | .vmad m o => some (encLv2 0x64 (imodeCode m) o)
  | .vmin o => some (encLv2 0x65 0 o)
  | .vmax o => some (encLv2 0x66 0 o)
  | .vabs m o => some (encLv1 0x67 (imodeCode m) o)
  | .vneg m o => some (encLv1 0x68 (imodeCode m) o)
  | .vand o => some (encLv2 0x69 0 o)
  | .vor o => some (encLv2 0x6A 0 o)
  | .vxor o => some (encLv2 0x6B 0 o)
  | .vandn o => some (encLv2 0x6C 0 o)
  | .vnot o => some (encLv1 0x6D 0 o)
  | .vshl m o => some (encLv2 0x6E (imodeCode m) o)
  | .vshr m o => some (encLv2 0x6F (imodeCode m) o)
  | .vsar m o => some (encLv2 0x70 (imodeCode m) o)
  | .vrot m o => some (encLv2 0x71 (imodeCode m) o)
  | .vclz o => some (encLv1 0x72 0 o)
  | .vpopc o => some (encLv1 0x73 0 o)
  | .vbrev o => some (encLv1 0x74 0 o)
  | .vext o => some (encLv2 0x75 0 o)
  | .vins o => some (encLv2 0x76 0 o)
  | .vsad m o => some (encLv2 0x77 (imodeCode m) o)
  | .vsel o => some (encLv2 0x78 0 o)
  | .vmov o => some (encLv2 0x79 0 { ty := o.ty, mask := o.mask, vd := o.vd, va := 0, b := o.b })
  | .vmovi ty mask vd imm =>
    some (lvFPack { op := 0x7A, ty := tyCode ty, bk := 0, rnd := 0, mask := mask, vd := vd, va := imm.extractLsb' 21 11,
                    b := imm.extractLsb' 0 21 })
  | .vid o => some (encLv1 0x7B 0 { ty := o.ty, mask := o.mask, vd := o.vd, va := 0 })
  | .vfadd r o => some (encLv2 0x80 (rndCode r) o)
  | .vfsub r o => some (encLv2 0x81 (rndCode r) o)
  | .vfmul r o => some (encLv2 0x82 (rndCode r) o)
  | .vfma r o => some (encLv2 0x83 (rndCode r) o)
  | .vfms r o => some (encLv2 0x84 (rndCode r) o)
  | .vfnma r o => some (encLv2 0x85 (rndCode r) o)
  | .vfmin o => some (encLv2 0x86 0 o)
  | .vfmax o => some (encLv2 0x87 0 o)
  | .vfabs o => some (encLv1 0x88 0 o)
  | .vfneg o => some (encLv1 0x89 0 o)
  | .vfdiv r o => some (encLv2 0x8A (rndCode r) o)
  | .vfsqrt r o => some (encLv1 0x8B (rndCode r) o)
  | .vfrnd r o => some (encLv1 0x8C (rndCode r) o)
  | .vfscale r o => some (encLv2 0x8D (rndCode r) o)
  | .vfclass o => some (encLv1 0x8E 0 o)
  | .vcvt r dst src mask vd va =>
    some (lvFPack { op := 0x8F, ty := tyCode dst, bk := 0, rnd := rndCode r, mask := mask, vd := vd, va := va,
                    b := 0#7 ++ tyCode src ++ 0#10 })
  | .vunif o => some (encLv1 0x90 0 o)
  | .vrand mask vd va sb => some (encLv2 0x91 0 { ty := .n32, mask := mask, vd := vd, va := va, b := .scalar sb })
  | .vbcast o => some (encLv2 0x92 0 o)
  | .vscan m o => some (encLv1 0x93 (encScanMode m) o)
  | .vcompact o => some (encLv1 0x94 0 o)
  | .vshfl o => some (encLv2 0x95 0 o)
  | .ld o => some (encMLane 0xA0 o)
  | .st o => some (encMLane 0xA1 o)
  | .lds o => some (encMScalar 0xA2 o)
  | .sts o => some (encMScalar 0xA3 o)
  | .atom o => some (encMAtom 0xA4 o)
  | .satom o => some (encMSatom 0xA5 o)
  | .red o => some (encMAtom 0xA6 o)
  | .fence sc or => some (mFPack { encM 0xA7 with scope := scopeCode sc, order := orderCode or })
  | .pref o =>
    some (mFPack { encM 0xA8 with nx := indexNx o.idx, scope := scopeCode o.scope, sbase := o.sbase, vidx := indexReg o.idx,
                                   sh := indexSh o.idx, imm := o.imm })
  | .cpy sb => some (mFPack { encM 0xA9 with sbase := sb })
  | .cpy2 sb => some (mFPack { encM 0xAA with sbase := sb })
  | .inval o => some (encMRange 0xAB o)
  | .flush o => some (encMRange 0xAC o)
  | .setld o => some (encMSet 0xAD o)
  | .setst o => some (encMSet 0xAE o)
  | .stpl o => some (encMPlane 0xAF o)
  | .ldpl o => some (encMPlane 0xB0 o)
  | .bankcfg role bank => some (mFPack { encM 0xB1 with width := roleCode role, imm := 0#8 ++ bank })
  | .pfmtA f => some (encP 0xC0 0 f.xr f.xp f.xs (fmtKc f) (fmtImm f))
  | .pfmtB f => some (encP 0xC0 1 f.xr f.xp f.xs (fmtKc f) (fmtImm f))
  | .pmm t xa xb kc => some (encP 0xC1 t xa xb 0 kc 0)
  | .pmmg t xa xb xc kc => some (encP 0xC2 t xa xb xc kc 0)
  | .pzero mask => some (encP 0xC3 0 0 0 0 0 (0#16 ++ mask))
  | .pld t xa => some (encP 0xC4 t xa 0 0 0 0)
  | .pst ty t xa => some (encP 0xC5 t xa 0 0 (pstTyCode ty ++ 0#4) 0)
  | .pwait xa xb => some (encP 0xC6 0 xa xb 0 0 0)
  | .parrive xa n => some (encP 0xC7 0 xa 0 0 0 n)
  | .ploop xa off => some (encP 0xC8 0 xa 0 0 0 off)
  | .paddx xa imm => some (encP 0xC9 0 xa 0 0 0 imm)
  | .psetx xa imm => some (encP 0xCA 0 xa 0 0 0 imm)
  | .pend => some (encP 0xCB 0 0 0 0 0 0)
  | .qpush c sa => some (encQ 0xD0 0 0 0 sa 0 c)
  | .qpushTry sd c sa => some (encQ 0xD0 1 0 sd sa 0 c)
  | .qpop sd c => some (encQ 0xD1 0 0 sd 0 0 c)
  | .qpopb m vd c => some (encQ 0xD2 0 m 0 0 vd c)
  | .qins m c va => some (encQ 0xD3 0 m 0 0 va c)
  | .qstat sd c => some (encQ 0xD4 0 0 sd 0 0 c)
  | .fpush m bank va => some (encQ 0xD5 0 m 0 0 va (0#1 ++ bank))
  | .fpop m vd bank => some (encQ 0xD6 0 m 0 0 vd (0#1 ++ bank))
  | .nput sa => some (encQ 0xD7 0 0 0 sa 0 0)
  | .nget sa => some (encQ 0xD8 0 0 0 sa 0 0)
  | .narrive sa => some (encQ 0xD9 0 0 0 sa 0 0)
  | .arrive a sd n => some (encK 0xE0 a (ksrcI n) sd (ksrcSb n) (ksrcImm n))
  | .waitr a g => some (encK 0xE1 a (ksrcI g) 0 (ksrcSb g) (ksrcImm g))
  | .rwset a sb => some (encK 0xE2 a 0 0 sb 0)
  | .rwget a sd => some (encK 0xE3 a 0 sd 0 0)
  | .waitt wt wa => some (encKNone 0xE4 0 0 (0#10 ++ wa ++ 0#2 ++ wt))
  | .pmcr sd n => some (encKNone 0xE5 sd 0 (0#20 ++ n))
  | .pmcs n sa => some (encKNone 0xE6 0 sa (0#20 ++ n))
  | .clauseIssue _ _ | .cpPromotion _ | .continuationClause _ _ | .trapResume _ _ | .successorHandover _
  | .loadComplete _ | .storePerform _ | .atomicPerform _ | .redUpdateApply _ _ | .copyComplete _
  | .copyRepairResume _ _ | .flushComplete _ | .setTransferComplete _ | .engineLockProceed _ | .spillRefill _
  | .mpSegmentLink _ _ | .netComplete _ _ _ | .netTimeout _ | .cpWake _ | .streamFetch _ | .pwaitPass _
  | .parrivePerform _ | .tileLockEnter _ | .pressGrant _ | .tileOpComplete _ | .streamCompletion _
  | .distributorTakeup | .pendingPlace _ | .populationRetire _ | .preempt _ | .preemptImage _ | .restore _ _
  | .checkpoint _ _ _ | .checkpointRestore _ _ _ _ | .fragmentReady _ | .fragmentDead _ | .debugHalt _ _ _
  | .debugRead _ _ _ | .debugWrite _ _ _ | .debugStep _ _ | .debugResume _ _ | .debugDetach _
  | .majWriteComplete _ _ | .majWriteback _ | .copyLateReport _ _ | .laggardTimeout _ | .stackFailover _
  | .stackRejoin _ _ _ | .scrubRead _ _ | .wayMaskDrain _ _ | .hostLaunch _ _ _ | .memw _ _ _ _ | .memr _ _ _ _
  | .hostArrive _ _ _ _ | .query _ | .hostHoldResume _ _ | .hostHoldTimeout _ | .rmaWrite _ _ _ | .rmaRead _ _ _
  | .uetAtomic _ _ _ _ _ _ | .uudDrop _ | .vfTableWrite _ _ _ _ _ _ _ | .caveConfigWrite _ _ _ _
  | .wayMaskWrite _ _ _ _ | .majSetWrite _ _ _ | .bankRoleWrite _ _ _ _ | .tlbInvalidate _ _
  | .tlbInvalidateComplete _ | .portConfig _ _ _ | .endpointConfig _ _ _ | .firmwareUpdate _ _ | .testPeriodSet _ _
  | .quarantineLift _ _ | .powerLimitSet _ _ | .coldStart _ | .warmStart _ | .stageAdvance _ | .startTimeout
  | .infieldTest _ _ | .fatalError | .powerThrottle _ | .streamFetchResume _ _ | .clockIncrement | .debugAttach _ _
  | .badMsg _ _ | .mgmtEnteredTest _ | .clusterDisable _ _ => none

/-- The constructors that are instruction words: those with an encoding. -/
def isWord (i : Instr) : Bool := (encode i).isSome

/-- The instruction the decoder reads from a row's bits: the words are 64 bits, laid out as eight bytes, the least
significant first (R5, R67). -/
def decodeTableWord (nbits w : Nat) : Option Instr :=
  match decodeBytes (bytesOf 8 (BitVec.ofNat 64 (w % 2 ^ nbits))) with
  | .ok i => some i
  | .error _ => none

end Sys2Proof
end

