-- ==== Sys2Proof/Machine/Ops.lean ====
section
/-! DEFINITION. Named operations over the state: populations, control programs, registers, sets, clause progress, the region
that a JOIN closes, and taking a precise trap. -/

namespace Sys2Proof.Machine

/-- What a meaning answers. -/
abbrev Result := Host.Outcome State Fault Refusal

/-! ### Free choices and serial numbers -/

/-- One of n choices, drawn at the model's tick; a single choice draws nothing. -/
def State.pick (s : State) (n : Nat) : Nat × State :=
  if n ≤ 1 then (0, s) else (Config.pick s.tick % n, { s with tick := s.tick + 1 })

/-- A new serial number. -/
def State.fresh (s : State) : Nat × State := (s.serial, { s with serial := s.serial + 1 })

/-! ### Populations and control programs -/

def State.pop (s : State) (pid : Nat) : Option Pop := Tab.find s.pops pid

def State.setPop (s : State) (pid : Nat) (p : Pop) : State := { s with pops := Tab.insert s.pops pid p }

def State.updPop (s : State) (pid : Nat) (f : Pop → Pop) : State :=
  match s.pop pid with
  | some p => s.setPop pid (f p)
  | none => s

def Pop.cp (p : Pop) (cid : Nat) : Option Cp := Tab.find p.cps cid

def Pop.setCp (p : Pop) (cid : Nat) (c : Cp) : Pop := { p with cps := Tab.insert p.cps cid c }

def Pop.updCp (p : Pop) (cid : Nat) (f : Cp → Cp) : Pop :=
  match p.cp cid with
  | some c => p.setCp cid (f c)
  | none => p

/-- The CP that a reference names, with its population. -/
def State.cpOf (s : State) (r : CpRef) : Option (Pop × Cp) :=
  match s.pop r.pid with
  | some p => match p.cp r.cid with
    | some c => some (p, c)
    | none => none
  | none => none

def State.setCp (s : State) (r : CpRef) (c : Cp) : State := s.updPop r.pid (fun p => p.setCp r.cid c)

def State.updCp (s : State) (r : CpRef) (f : Cp → Cp) : State := s.updPop r.pid (fun p => p.updCp r.cid f)

def State.setIssuer (s : State) (i : Issuer) : State := { s with issuer := i }

/-- The home core of a population (R14). -/
def Pop.home (p : Pop) : Nat := p.groups.headD 0

/-- Window bytes (R157). -/
def Pop.win (p : Pop) : Nat := 524288 * p.banks

/-! ### Scalars, modes and flags -/

def Cp.getS (c : Cp) (r : SReg) : Word64 := Tab.get 0 c.s r.toNat

def Cp.setS (c : Cp) (r : SReg) (v : Word64) : Cp := { c with s := Tab.put 0 c.s r.toNat v }

/-- The scalar n places after r. -/
def Cp.getSn (c : Cp) (r : SReg) (n : Nat) : Word64 := Tab.get 0 c.s (r.toNat + n)

def Cp.setSn (c : Cp) (r : SReg) (n : Nat) (v : Word64) : Cp := { c with s := Tab.put 0 c.s (r.toNat + n) v }

def Cp.setBlock (c : Cp) (r : SReg) (vs : List Word64) : Cp := { c with s := Tab.putAll 0 c.s r.toNat vs }

/-- The fields of the mode register (R158). -/
def Cp.rm (c : Cp) : BitVec 3 := c.mode.extractLsb' 0 3
def Cp.ftz (c : Cp) : Bool := c.mode.getLsbD 3
def Cp.daz (c : Cp) : Bool := c.mode.getLsbD 4
def Cp.det (c : Cp) : Bool := c.mode.getLsbD 5
def Cp.fatalP (c : Cp) : Bool := c.mode.getLsbD 11

/-- The trap enables IVE, DZE, OFE, UFE, IXE in the places of the flags (R158, R159); SAT has none. -/
def Cp.enables (c : Cp) : BitVec 6 := 0#1 ++ c.mode.extractLsb' 6 5

def Cp.raise (c : Cp) (f : BitVec 6) : Cp := { c with flags := c.flags ||| f }

/-! ### Lanes and sets -/

/-- The launched lanes 0…T−1 (R9). -/
def launched (t : Nat) : LaneSet := BitVec.ofNat 16384 (2 ^ t - 1)

def laneBit (i : Nat) : LaneSet := BitVec.ofNat 16384 (2 ^ i)

def Pop.statusOf (p : Pop) (i : Nat) : LaneStatus := Tab.get LaneStatus.zero p.status i

/-- Launched lanes with a property of their status word. -/
def Pop.lanesWith (p : Pop) (f : LaneStatus → Bool) : LaneSet :=
  p.status.foldl (fun acc e => if f e.2 then acc ||| laneBit e.1 else acc) 0

/-- L: the launched lanes whose parked and dead bits are both 0 (R21). -/
def Pop.live (p : Pop) : LaneSet := launched p.lanes &&& ~~~(p.lanesWith (fun x => x.dead || x.parked))

/-- The numbers of a set's lanes, ascending. -/
def lanesOf (t : Nat) (a : LaneSet) : List Nat := (List.range t).filter (fun i => a.getLsbD i)

def Pop.laneList (p : Pop) (a : LaneSet) : List Nat := lanesOf p.lanes a

/-- The number of a set's lanes among the launched ones. -/
def Pop.card (p : Pop) (a : LaneSet) : Nat := (p.laneList a).length

/-- A set from its lane numbers. -/
def setOf (l : List Nat) : LaneSet := l.foldl (fun acc i => acc ||| laneBit i) 0

def Cp.getM (c : Cp) (r : MReg) : LaneSet := Tab.get 0 c.m r.toNat

def Cp.setM (c : Cp) (r : MReg) (v : LaneSet) : Cp := { c with m := Tab.put 0 c.m r.toNat v }

def Cp.depth (c : Cp) : Nat := c.stack.length

/-- L as the lane words of a clause see it: with the lanes that a memory word of the same clause has just parked (R135; DEDUCED,
notes/assumptions/62.md). -/
def Pop.shown (p : Pop) (c : Cp) : LaneSet :=
  p.live ||| (c.late &&& launched p.lanes &&& p.lanesWith (·.parked))

/-- A = m0 ∧ mk ∧ L (R21). -/
def acting (p : Pop) (c : Cp) (mk : MReg) : LaneSet := c.getM 0 &&& c.getM mk &&& p.shown c

/-- The count of lanes with dead = 1, and with parked = 1 (R157, R335). -/
def Pop.deadCount (p : Pop) : Nat := p.card (p.lanesWith (·.dead))
def Pop.parkedCount (p : Pop) : Nat := p.card (p.lanesWith (·.parked))

def Pop.getV (p : Pop) (lane reg : Nat) : Word32 := Tab.get 0 p.v (2048 * lane + reg)

def Pop.setV (p : Pop) (lane reg : Nat) (x : Word32) : Pop := { p with v := Tab.put 0 p.v (2048 * lane + reg) x }

/-- A 64-bit value of an even-odd pair: the even register holds the low half (R115). -/
def Pop.getPair (p : Pop) (lane reg : Nat) : Word64 := p.getV lane (reg + 1) ++ p.getV lane reg

def Pop.setPair (p : Pop) (lane reg : Nat) (x : Word64) : Pop :=
  (p.setV lane reg (x.extractLsb' 0 32)).setV lane (reg + 1) (x.extractLsb' 32 32)

/-! ### Tiles (R254, R255) -/

/-- The tiles of a mask. -/
def tileList (m : BitVec 16) : List Nat := (List.range 16).filter (fun t => m.getLsbD t)

/-- Tiles are zeroed where a population takes or frees them; their poison stays (R15, R255, R276). -/
def State.zeroTiles (s : State) (cluster : Nat) (m : BitVec 16) : State :=
  (tileList m).foldl (fun s t => { s with tiles := Tab.clear s.tiles (262144 * cluster + 16384 * t) 16384 }) s

/-- PZERO: tiles are zeroed and their poison cleared (R264, R270). -/
def State.clearTiles (s : State) (cluster : Nat) (m : BitVec 16) : State :=
  (tileList m).foldl (fun s t => { s with tilePoison := Tab.erase s.tilePoison (16 * cluster + t) }) (s.zeroTiles cluster m)

/-! ### Performance counters -/

/-- Adds n to every counter of the core that selects the event code for this population (R337). -/
def State.count (s : State) (core pid code n : Nat) : State :=
  { s with pmc := s.pmcSel.foldl (fun t e =>
      if e.1 / 16 = core ∧ e.2.code = code ∧ (e.2.only = none ∨ e.2.only = some pid)
      then Tab.put 0 t e.1 (Tab.get 0 t e.1 + BitVec.ofNat 64 n) else t) s.pmc }

/-- The core that holds a lane (R14). -/
def Pop.coreOf (p : Pop) (lane : Nat) : Nat := p.groups.getD (lane / 256) p.home

/-- Counts some lanes of a population at the cores that hold them (R14, R337). -/
def State.countLanes (s : State) (pid : Nat) (p : Pop) (code : Nat) (lanes : List Nat) : State :=
  (p.home :: p.groups).eraseDups.foldl (fun s k => s.count k pid code (lanes.filter (fun i => p.coreOf i == k)).length) s

/-- The population's groups on a core with no lane in a set (R337). -/
def Pop.skippedOn (p : Pop) (core : Nat) (lanes : List Nat) : Nat :=
  ((List.range ((p.lanes + 255) / 256)).filter (fun g => p.coreOf (256 * g) == core && lanes.all (fun i => i / 256 != g))).length

/-- Counts the groups that a word skips, with no lane in the set it works on, at their cores (R201, R337). -/
def State.countSkipped (s : State) (pid : Nat) (p : Pop) (lanes : List Nat) : State :=
  (p.home :: p.groups).eraseDups.foldl (fun s k => s.count k pid 0x005 (p.skippedOn k lanes)) s

/-- The event codes whose counts caches and miss registers decide: L2 accesses and merged misses (R215, R337). -/
def hiddenCodes : List Nat := [0x00A, 0x00B]

/-- An access of a core to global memory adds to the counters of those codes what no rule fixes: a free count (R215, R337; DESIGN CHOICE,
notes/assumptions/40.md). -/
def State.countHidden (s : State) (core pid : Nat) : State :=
  hiddenCodes.foldl (fun s code =>
    if s.pmcSel.any (fun e => e.1 / 16 == core && e.2.code == code) then
      ({ s with tick := s.tick + 1 }).count core pid code (Config.hidden s.tick).toNat
    else s) s

/-! ### Progress of a clause -/

/-- The address of the word at the program counter (R155). -/
def Cp.wordAddr (c : Cp) : Word64 := c.hdr + 8 + 8 * BitVec.ofNat 64 c.widx

/-- The clause that follows the one under way (R64). -/
def Cp.nextHdr (c : Cp) : Word64 := c.hdr + 8 * BitVec.ofNat 64 (c.clause.length + 1)

/-- The CP at a clause boundary with this next clause; its readiness age restarts (R18). A region stays fresh until a clause begins
in it (R172). -/
def Cp.atHdr (c : Cp) (clock target : Word64) : Cp :=
  { c with hdr := target, widx := 0, clause := [], issuing := false, readySince := clock, promoted := false }

/-- The CP past the word at its program counter, on a way that is not an end of its turn (R314: the next word). -/
def Cp.pastWord (c : Cp) (clock : Word64) : Cp :=
  if c.widx + 1 < c.clause.length then { c with widx := c.widx + 1 } else c.atHdr clock c.nextHdr

/-- A halt that is due comes at a clause boundary; a step halts after its clause (R321, R322). -/
def Cp.boundary (c : Cp) : Cp :=
  if c.haltDue || c.stepping then { c with halted := true, haltDue := false, stepping := false } else c

/-- A halt that is due comes where the CP parks, traps or begins a replay pass (R321). -/
def Cp.haltNow (c : Cp) : Cp := if c.haltDue then { c with halted := true, haltDue := false } else c

/-! ### Knowledge (R217, R344) -/

/-- The later of two serial numbers, byte by byte. -/
def mergeSeen (a b : Tab Nat) : Tab Nat := b.foldl (fun t e => Tab.put 0 t e.1 (max (Tab.get 0 t e.1) e.2)) a

/-- What two agents know together. -/
def Know.merge (a b : Know) : Know := { mark := max a.mark b.mark, seen := mergeSeen a.seen b.seen }

/-- The n bytes from a physical address on, in these versions, have been read or written. -/
def Know.see (k : Know) (pa n : Nat) (version : Nat → Nat) : Know :=
  { k with seen := mergeSeen k.seen ((List.range n).map (fun i => (pa + i, version i))) }

/-- What stands for a channel that keeps no record: no line held until now (R217). -/
def Know.bar (serial : Nat) : Know := { mark := serial, seen := [] }

/-- What a control program's releases pass on (R342, R344). -/
def Cp.passes (c : Cp) : Know := c.know.merge c.carried

/-- A control program acquires what a release has passed on (R343, R344). -/
def Cp.learn (k : Know) (c : Cp) : Cp := { c with know := c.know.merge k, learned := c.learned.merge k }

/-! ### Precise traps -/

/-- The code of a precise trap (R314). -/
def Trap.code : Trap → Nat
  | .illegal => 0x01 | .clause => 0x02 | .clauseCrc => 0x03 | .setStack => 0x04 | .rangeLock => 0x05 | .scope => 0x06
  | .fragFull => 0x07 | .rciFault => 0x08 | .permission => 0x09 | .fpTrap => 0x0A | .shape => 0x0B | .software => 0x0C
  | .brk => 0x0D | .priv => 0x0E | .queue => 0x0F | .bankRole => 0x10 | .align => 0x11 | .window => 0x12 | .detViol => 0x13

/-- The code of a lane cause (R315). -/
def LaneCause.code : LaneCause → BitVec 3
  | .notPresent => 1 | .permission => 2 | .uncorrectable => 3 | .majority => 4 | .poison => 5

/-- What RESUME does after a trap (R161, R314): wait for firmware, restart at once, or act as ABORT. -/
inductive ResumeKind where
  | repair | atOnce | asAbort
  deriving DecidableEq, Repr

def Trap.resumeKind (t : Trap) (notPresent : Bool) : ResumeKind :=
  match t with
  | .clause | .rciFault => if notPresent then .repair else .asAbort
  | .clauseCrc | .rangeLock | .fragFull | .fpTrap | .software | .brk | .priv | .queue | .bankRole => .atOnce
  | .illegal | .setStack | .scope | .permission | .shape | .align | .window | .detViol => .asAbort

/-- Stops every CP of a population and clears its wait entries (R316 step 1). -/
def Pop.abort (p : Pop) : Pop :=
  { p with aborted := true, cps := p.cps.map (fun e => (e.1, { e.2 with wait := none })) }

/-- Delivers a trap that holds a CP under the population's policy (R161, R174, R317): ABORT ends the population, RESUME leaves
the CP held until it restarts, VECTOR sets the program counter to the handler with the region still open. Where a region has just
opened, the handler's clause is the next one the CP runs, so it is the region's entry (R172; DEDUCED, notes/assumptions/64.md). -/
def deliver (s : State) (r : CpRef) : State :=
  s.updPop r.pid (fun p =>
    match p.cp r.cid with
    | none => p
    | some c =>
      match c.held with
      | none => p
      | some h =>
        let kind := h.code.resumeKind h.repairable
        match p.policy with
        | .abort => p.abort
        | .resume => if kind = .asAbort then p.abort else p
        | .vector =>
          if h.code = .permission ∨ c.save.isSome then p.abort
          else
            let c' := { c with held := none, entry := if c.fresh then p.handler else c.entry }
            p.setCp r.cid (c'.atHdr s.clock p.handler))

/-- tcause [10:8]: the lane cause of lane tlane, 0 where no lane is concerned (R157). -/
def laneCauseOf (t : Trap) (tlane : Word64) (cause : BitVec 3) : BitVec 3 :=
  if tlane = allOnes64 then 0
  else
    match t with
    | .fragFull => LaneCause.notPresent.code
    | .permission => LaneCause.permission.code
    | .illegal | .clause | .clauseCrc | .setStack | .rangeLock | .scope | .rciFault | .fpTrap | .shape | .software | .brk
    | .priv | .queue | .bankRole | .align | .window | .detViol => cause

/-- Taking a precise trap (R161): tpc, tcause, taddr and tlane are written together, the CP leaves its partition with its
program counter at the RESUME point of R314, and a debugger's halt or the trap policy follows. -/
def takeTrap (s : State) (r : CpRef) (t : Trap) (tpc taddr tlane : Word64) (cause : BitVec 3) (notPresent : Bool)
    (restart : Cp → Cp) : State :=
  let s := match s.pop r.pid with
    | some p => s.count p.home r.pid 0x010 1
    | none => s
  let s := (s.updCp r (fun c =>
    let c := restart c
    { c with tpc := tpc, tcause := 0#53 ++ laneCauseOf t tlane cause ++ BitVec.ofNat 8 t.code, taddr := taddr, tlane := tlane,
             issuing := false, wait := none, held := some { code := t, repairable := notPresent },
             halted := c.halted || c.attached || c.haltDue || c.stepping, haltDue := false, stepping := false })).setIssuer .none
  match s.cpOf r with
  | some (_, c) => if c.halted then s else deliver s r
  | none => s

/-- A trap at the word, which has not performed: RESUME issues the word again (R314). -/
def trapWord (s : State) (r : CpRef) (c : Cp) (t : Trap) (taddr tlane : Word64) : State :=
  takeTrap s r t c.wordAddr taddr tlane 0 false (fun c => c)

/-- A trap at the word with a lane cause (R157: tcause [10:8]). -/
def trapCause (s : State) (r : CpRef) (c : Cp) (t : Trap) (taddr tlane : Word64) (cause : LaneCause) : State :=
  takeTrap s r t c.wordAddr taddr tlane cause.code (cause == .notPresent) (fun c => c)

/-- A trap after the word, which has done all it will: RESUME goes on at the next word or clause (R314). -/
def trapAfter (s : State) (r : CpRef) (c : Cp) (t : Trap) (taddr tlane : Word64) : State :=
  takeTrap s r t c.wordAddr taddr tlane 0 false (fun c => c.pastWord s.clock)

/-- ILLEGAL at the word (R67). -/
def illegal (s : State) (r : CpRef) (c : Cp) : State := trapWord s r c .illegal 0 allOnes64

/-! ### Completion of a word -/

/-- The end of a clause: a pending SCOPE trap is taken now (R219), else the CP is at the boundary before its next clause. -/
def endClause (s : State) (r : CpRef) (target : Word64) : State :=
  match s.cpOf r with
  | none => s
  | some (_, c) =>
    match c.scopeTrap with
    | some t =>
      takeTrap s r .scope t.tpc t.taddr t.tlane 0 false
        (fun c => { c.atHdr s.clock target with scopeTrap := none })
    | none => (s.updCp r (fun c => (c.atHdr s.clock target).boundary)).setIssuer .none

/-- The word has completed: the CP's next word follows, or its clause ends (R63, R64). -/
def advance (s : State) (r : CpRef) : State :=
  match s.cpOf r with
  | none => s
  | some (_, c) =>
    if c.widx + 1 < c.clause.length then (s.updCp r (fun c => { c with widx := c.widx + 1 })).setIssuer .none
    else endClause s r c.nextHdr

/-- A relative target: the header of the clause plus 8 times the signed word offset (R64). -/
def Cp.target (c : Cp) (off : BitVec 32) : Word64 := c.hdr + 8 * off.signExtend 64

/-- The CP parks at its word, which is issued again when the condition is met (R20). -/
def parkAt (s : State) (r : CpRef) (w : Wait) : State :=
  (s.updCp r (fun c => { c with wait := some w, waitWord := c.wordAddr, issuing := false }.haltNow)).setIssuer .none

/-- The CP parks after its word (R63). -/
def parkAfter (s : State) (r : CpRef) (w : Wait) : State :=
  (s.updCp r (fun c =>
    let a := c.wordAddr
    { (c.pastWord s.clock) with wait := some w, waitWord := a, issuing := false }.haltNow)).setIssuer .none

/-- The word has performed and raised these flags: they are ORed in, and an enabled one gives FPTRAP after the word, with the
lowest lane that raised one (R98, R118, R157, R162). -/
def finish (s : State) (r : CpRef) (flags : BitVec 6) (tlane : Word64) : State :=
  let s := s.updCp r (fun c => c.raise flags)
  match s.cpOf r with
  | none => s
  | some (_, c) => if flags &&& c.enables = 0 then advance s r else trapAfter s r c .fpTrap 0 tlane

/-! ### The checks every word obeys -/

/-- The lane registers a word names, each as first register and number of registers (R67). -/
def laneRegs : Instr → List (Nat × Nat)
  | .srch _ o _ | .srchi _ o _ | .srchm o _ _ | .srchr o _ _ => [(o.va.toNat, o.ty.regs)]
  | .srchv _ o vb => [(o.va.toNat, o.ty.regs), (vb.toNat, o.ty.regs)]
  | .rsum ty _ _ va | .rmin ty _ _ va | .rmax ty _ _ va => [(va.toNat, ty.regs)]
  | .rbit _ _ _ va | .setv _ va => [(va.toNat, 1)]
  | .vadd _ o | .vsub _ o | .vmul _ o | .vmad _ o | .vshl _ o | .vshr _ o | .vsar _ o | .vrot _ o
  | .vmulh o | .vmin o | .vmax o | .vand o | .vor o | .vxor o | .vandn o | .vsel o | .vext o | .vins o | .vsad _ o
  | .vfadd _ o | .vfsub _ o | .vfmul _ o | .vfma _ o | .vfms _ o | .vfnma _ o | .vfdiv _ o | .vfmin o | .vfmax o
  | .vfscale _ o | .vbcast o =>
    (o.vd.toNat, o.ty.regs) :: (o.va.toNat, o.ty.regs) :: (match o.b with | .reg vb => [(vb.toNat, o.ty.regs)] | _ => [])
  | .vshfl o =>
    (o.vd.toNat, o.ty.regs) :: (o.va.toNat, o.ty.regs) :: (match o.b with | .reg vb => [(vb.toNat, 1)] | _ => [])
  | .vabs _ o | .vneg _ o | .vnot o | .vclz o | .vpopc o | .vbrev o | .vfabs o | .vfneg o | .vfclass o | .vfsqrt _ o
  | .vfrnd _ o | .vunif o | .vscan _ o | .vcompact o => [(o.vd.toNat, o.ty.regs), (o.va.toNat, o.ty.regs)]
  | .vmov o => (o.vd.toNat, o.ty.regs) :: (match o.b with | .reg vb => [(vb.toNat, o.ty.regs)] | _ => [])
  | .vmovi ty _ vd _ => [(vd.toNat, ty.regs)]
  | .vid o => [(o.vd.toNat, o.ty.regs)]
  | .vcvt _ dst src _ vd va =>
    let k := max dst.elems src.elems
    [(vd.toNat, k / dst.elems * dst.regs), (va.toNat, k / src.elems * src.regs)]
  | .vrand _ vd va _ => [(vd.toNat, 4), (va.toNat, 4)]
  | .ld o | .st o => (o.vdat.toNat, o.width.regs) :: (match o.idx with | some x => [(x.vidx.toNat, 1)] | none => [])
  | .atom o =>
    (o.vdat.toNat, (if o.op = .cas then 2 else 1) * o.width.regs)
      :: (match o.idx with | some x => [(x.vidx.toNat, 1)] | none => [])
  | .red o => (o.vdat.toNat, o.width.regs) :: (match o.idx with | some x => [(x.vidx.toNat, 1)] | none => [])
  | .pref o => (match o.idx with | some x => [(x.vidx.toNat, 1)] | none => [])
  | .setld o | .setst o => (o.vdat.toNat, 1) :: (match o.idx with | some x => [(x.vidx.toNat, 1)] | none => [])
  | .stpl o | .ldpl o => [(o.vdat.toNat, 1)]
  | .qpopb _ vd _ => [(vd.toNat, 1)]
  | .qins _ _ va => [(va.toNat, 1)]
  | .fpush _ _ va => [(va.toNat, 1)]
  | .fpop _ vd _ => [(vd.toNat, 1)]
  | _ => []

/-- The checks of R67 that need the population's register count, with the static ones; no register lies above v2047 (R7). -/
def wordOk (regs : Nat) (i : Instr) : Bool :=
  wfInstr i && (laneRegs i).all (fun x => decide (x.1 + x.2 ≤ min regs 2048))

/-- The words that a pending SCOPE trap discards: M-format words, the rennet-word words and QSTAT (R219). -/
def discarded : Instr → Bool
  | .ld _ | .st _ | .lds _ | .sts _ | .atom _ | .satom _ | .red _ | .fence _ _ | .pref _ | .cpy _ | .cpy2 _ | .inval _
  | .flush _ | .setld _ | .setst _ | .stpl _ | .ldpl _ | .bankcfg _ _
  | .arrive _ _ _ | .waitr _ _ | .rwset _ _ | .rwget _ _ | .qstat _ _ => true
  | _ => false

/-- An instruction word of the CP that issues: the checks of R67, the discarding of R219, then its own effect. -/
def onCp (mnemonic : String) (i : Instr) (s : State) (f : CpRef → Pop → Cp → State → State) : Result :=
  match s.issuer with
  | .cp r =>
    match s.cpOf r with
    | some (p, c) =>
      let s := s.count p.home r.pid 0x003 1
      .next (if wordOk p.regs i then
               if c.scopeTrap.isSome && discarded i then advance s r else f r p c s
             else illegal s r c)
    | none => .refused (.noIssuer mnemonic)
  | .none | .stream _ => .refused (.noIssuer mnemonic)

/-! ### Fragments and JOIN -/

def State.frag (s : State) (core idx : Nat) : Frag := Tab.get Frag.empty s.frags (256 * core + idx)

def State.setFrag (s : State) (core idx : Nat) (f : Frag) : State :=
  { s with frags := Tab.put Frag.empty s.frags (256 * core + idx) f }

def State.ovf (s : State) (core ctx : Nat) : Frag := Tab.get Frag.empty s.ovfs (64 * core + ctx)

def State.setOvf (s : State) (core ctx : Nat) (f : Frag) : State :=
  { s with ovfs := Tab.put Frag.empty s.ovfs (64 * core + ctx) f }

/-- The live fragment entries of a context, with their indices. -/
def State.fragsOf (s : State) (core ctx : Nat) : List (Nat × Frag) :=
  (s.frags.filter (fun e => e.1 / 256 = core ∧ e.2.state ≠ .free ∧ e.2.ctx = ctx)).map (fun e => (e.1 % 256, e.2))

/-- The lanes whose status word places them in an entry, or in a context's overflow slot (R10). -/
def Pop.lanesIn (p : Pop) (ovf : Bool) (idx : Nat) : LaneSet :=
  p.lanesWith (fun x => x.parked && x.ovf == ovf && decide (x.frag.toNat = idx))

/-- Lanes become dead (R11, R154): parked, ovf and frag clear, cause is kept or written. -/
def Pop.kill (p : Pop) (a : LaneSet) (cause : Option LaneCause) : Pop :=
  { p with status := (p.laneList a).foldl (fun t i =>
      let x := Tab.get LaneStatus.zero t i
      Tab.put LaneStatus.zero t i
        { ovf := false, dead := true, parked := false, frag := 0,
          cause := match cause with | some c => c.code | none => x.cause }) p.status }

/-- Lanes leave their fragments for a replay (R154, R173). -/
def Pop.unpark (p : Pop) (a : LaneSet) : Pop :=
  { p with status := (p.laneList a).foldl (fun t i =>
      let x := Tab.get LaneStatus.zero t i
      Tab.put LaneStatus.zero t i { x with ovf := false, parked := false, frag := 0 }) p.status }

/-- Lanes become dead, parked ones leaving their entries (R11, R303). -/
def State.killLanes (s : State) (pid : Nat) (a : LaneSet) (cause : Option LaneCause) : State :=
  match s.pop pid with
  | none => s
  | some p =>
    let core := p.home
    let s := (p.laneList a).foldl (fun s i =>
      let x := p.statusOf i
      if !x.parked then s
      else if x.ovf then
        let f := s.ovf core x.frag.toNat
        s.setOvf core x.frag.toNat { f with lanes := f.lanes - 1 }
      else
        let f := s.frag core x.frag.toNat
        s.setFrag core x.frag.toNat { f with lanes := f.lanes - 1 }) s
    (s.countLanes pid p 0x00D (p.laneList (a &&& ~~~(p.lanesWith (·.dead))))).setPop pid (p.kill a cause)

/-- Load tickets outstanding (R59, R333). -/
def Cp.loadTickets (c : Cp) : Nat := (c.pend.filter (·.ticket)).length

/-- A store of a CP-level word that met a data cause when it performed (R221; notes/assumptions/24.md). -/
def Cp.storeFault (c : Cp) : Option Access := c.pend.find? (fun a => !a.ticket && a.fault.isSome)

/-- A load ticket with a known data cause among those that a bound requires to be complete (R221), or such a store. -/
def Cp.faultWithin (c : Cp) (bound : Nat) : Option Access :=
  match c.storeFault with
  | some a => some a
  | none =>
    let ts := c.pend.filter (·.ticket)
    (ts.take (ts.length - bound)).find? (fun a => a.fault.isSome)

/-- RCIFAULT for a data cause of a ticketed CP-level word, taken where the CP would wait for the ticket; the access is gone
(R221). -/
def takeDataFault (s : State) (r : CpRef) (a : Access) : State :=
  let cause := (a.fault.getD .poison).code
  let addr := (a.items.head?.map (·.addr)).getD 0
  let s := s.updCp r (fun c => { c with pend := c.pend.filter (fun b => b.serial != a.serial) })
  takeTrap s r .rciFault a.word addr allOnes64 cause false (fun c => c)

/-- A JOIN opens a new region at the next clause; of a region-closing word it is the next one that the CP runs, which a trap can still
make the handler (R172; DEDUCED, notes/assumptions/64.md). -/
def openRegion (s : State) (r : CpRef) : State :=
  s.updCp r (fun c => { c with entry := c.nextHdr, d0 := c.depth, fresh := true, replayF := 0 })

/-- The sets and scalars after a replay pass (R173): every set merges the replayed lanes of F into the saved value. -/
def mergeSets (f : LaneSet) (saved now : LaneSet) : LaneSet := (saved &&& ~~~f) ||| (now &&& f)

/-- The end of a replay pass: the merge of R173, with the program counter back at the word that began the JOIN. -/
def mergeReplay (s : State) (r : CpRef) (c : Cp) (v : SaveArea) : State :=
  if c.depth ≠ v.stack.length then trapWord s r c .setStack 0 allOnes64
  else
    (s.updCp r (fun c =>
      { c with
        m := (List.range 16).foldl (fun t k =>
          Tab.put 0 t k (mergeSets c.replayF (Tab.get 0 v.m k) (Tab.get 0 c.m k))) [],
        stack := (v.stack.zip c.stack).zipIdx.map (fun e =>
          if e.2 < c.d0 then e.1.1 else mergeSets c.replayF e.1.1 e.1.2),
        s := v.s, hdr := v.hdr, widx := v.widx, clause := v.clause, save := none, replayF := 0 })).setIssuer .none

/-- The start of a replay pass (R173): the state is saved, m0 and level d0 become F, the lanes of F are unparked, their entries
are freed, and the CP runs from the region's entry. -/
def startReplay (s : State) (r : CpRef) (p : Pop) (f : LaneSet) : State :=
  let s := s.count p.home r.pid 0x00E 1
  let s := (s.updPop r.pid (fun p => (p.unpark f).updCp r.cid (fun c =>
    { c with
      save := some { s := c.s, m := c.m, stack := c.stack, hdr := c.hdr, widx := c.widx, clause := c.clause },
      replayF := f,
      stack := (c.stack.take c.d0).zipIdx.map (fun e => if e.2 + 1 = c.d0 then f else e.1),
      m := Tab.put 0 c.m 0 f })))
  (s.updCp r (fun c => (c.atHdr s.clock c.entry).haltNow)).setIssuer .none

/-- One turn of the JOIN of R173 for a CP that is not in a replay pass, or the merge for one that is; k is what follows the
completed JOIN: the effect of the region-closing word. -/
def joinThen (s : State) (r : CpRef) (p : Pop) (c : Cp) (k : State → State) : State :=
  match c.save with
  | some v => mergeReplay s r c v
  | none =>
    if c.depth < c.d0 then trapWord s r c .setStack 0 allOnes64
    else
      match c.faultWithin 0 with
      | some a => takeDataFault s r a
      | none =>
        if c.loadTickets ≠ 0 then parkAt s r { kind := .join, space := .g, addr := 0, value := 0, aux := 0 }
        else
          let core := p.home
          let fs := s.fragsOf core c.ctx
          let o := s.ovf core c.ctx
          if fs.any (fun e => e.2.state == .pending && e.2.lanes != 0) || (o.state == .pending && o.lanes != 0) then
            parkAt s r { kind := .join, space := .g, addr := 0, value := 0, aux := 0 }
          else
            let lanesBy := fun (st : FragState) =>
              (fs.filter (fun e => e.2.state == st)).foldl (fun acc e => acc ||| p.lanesIn false e.1)
                (if o.state == st then p.lanesIn true c.ctx else 0)
            let deadSet := lanesBy .dead
            let readySet := lanesBy .ready
            let s := fs.foldl (fun s e => s.setFrag core e.1 Frag.empty) s
            let s := s.setOvf core c.ctx Frag.empty
            let s := s.updPop r.pid (fun p => p.kill deadSet none)
            let s := s.countLanes r.pid p 0x00D (p.laneList deadSet)
            if readySet = 0 then k (openRegion s r) else startReplay s r p readySet

/-- A region-closing word: a JOIN first, then its own effect in the new state (R25). -/
def onRci (mnemonic : String) (i : Instr) (s : State) (f : CpRef → Pop → Cp → State → State) : Result :=
  onCp mnemonic i s (fun r p c s =>
    joinThen s r p c (fun s => match s.cpOf r with
      | some (p, c) => f r p c s
      | none => s))

/-- A taken transfer of a region-closing word opens the region at its target (R172). -/
def jumpRci (s : State) (r : CpRef) (target : Word64) : State :=
  endClause (s.updCp r (fun c => { c with entry := target })) r target

/-! ### Management messages (R364, R371, R372) -/

/-- The type of a header, and its length field (R364). -/
def hdrType (ws : List Word64) : BitVec 8 := (ws.getD 0 0).extractLsb' 56 8
def hdrLength (ws : List Word64) : Nat := ((ws.getD 1 0).extractLsb' 0 32).toNat

/-- The tag of a header, which the answer echoes (R364). -/
def hdrTag (ws : List Word64) : Word32 := (ws.getD 0 0).extractLsb' 0 32

/-- The greatest body and read length of a message (R364). -/
def maxBody : Nat := 1048576

/-- A header with version 1, its reserved bits 0, and a length that agrees with its body; MEMR's names the bytes to read (R364). -/
def hdrGood (ws : List Word64) (len : Nat) : Bool :=
  let w0 := ws.getD 0 0
  let w1 := ws.getD 1 0
  ws.length == 4 && w0.extractLsb' 48 8 == 1 && w0.extractLsb' 32 16 == 0 && w1.extractLsb' 56 8 == 0 && w1.extractLsb' 32 12 == 0
    && (ws.getD 3 0).extractLsb' 8 24 == 0
    && (if hdrType ws = 3 then len == 0 else len == hdrLength ws && decide (len ≤ maxBody))

/-- The authentication of a MGMT message (R371). -/
def authOf : Instr → Option Auth
  | .checkpoint a _ _ | .checkpointRestore a _ _ _ | .debugHalt a _ _ | .debugRead a _ _ | .debugWrite a _ _ | .debugStep a _
  | .debugResume a _ | .debugDetach a | .debugAttach a _ | .stackRejoin a _ _ | .vfTableWrite a _ _ _ _ _ _ | .caveConfigWrite a _ _ _
  | .wayMaskWrite a _ _ _ | .majSetWrite a _ _ | .bankRoleWrite a _ _ _ | .tlbInvalidate a _ | .portConfig a _ _
  | .endpointConfig a _ _ | .firmwareUpdate a _ | .testPeriodSet a _ | .quarantineLift a _ | .powerLimitSet a _ | .mgmtEnteredTest a
  | .clusterDisable a _ => some a
  | _ => none

/-- A MGMT message. -/
def isMgmt (i : Instr) : Bool := (authOf i).isSome

/-- An answer on the management endpoint to a message with this tag (R364). -/
def State.mgmtReply (s : State) (tag : Word32) (st : Status) (body : List Byte) : State :=
  { s with outbox := s.outbox ++ [.mgmt 0x86 tag st body] }

/-- The number of the management endpoint (R361). -/
def mgmtEndpoint : Nat := 16

/-- The configuration of an endpoint (R361). -/
def State.endpoint (s : State) (ep : Nat) : EndpointCfg := Tab.get EndpointCfg.zero s.endpoints ep

/-- The management endpoint takes a message: not in stage 0, on a port of its mask, and never without security (R360, R361, R372). -/
def State.hears (s : State) (a : Auth) : Bool :=
  s.sys.stage != 0 && a.secured && (s.endpoint mgmtEndpoint).ports.getLsbD a.port.toNat

/-- The tag of a MGMT message. -/
def authTag (a : Auth) : Word32 := hdrTag a.words

/-- A MGMT message that RUDI does not carry and whose header is good (R360, R364). -/
def authFormed (a : Auth) : Bool := a.delivery != .rudi && hdrGood a.words a.len && hdrType a.words == 6

/-- A MGMT message: dropped where the endpoint does not take it, refused with BADMSG where it comes over RUDI or its header is bad, and
with BADSIG unless both signatures verify and its sequence number exceeds that of the last accepted one (R360, R364, R371). -/
def mgmt (a : Auth) (s : State) (k : State → State) : State :=
  if !s.hears a then s
  else if !authFormed a then s.mgmtReply (authTag a) .badMsg []
  else if !a.sigOk || a.seq.ule s.mgmtSeq then s.mgmtReply (authTag a) .badSig []
  else k { s with mgmtSeq := a.seq }

/-- A MGMT message that is dropped or refused at once, whatever it asks for. -/
def authFails (a : Auth) (s : State) : Bool := !s.hears a || !authFormed a || !a.sigOk || a.seq.ule s.mgmtSeq

/-- A MGMT message that configures something: OK where it may, else BADMSG with nothing changed (R364, R371). -/
def mgmtSet (a : Auth) (s : State) (ok : State → Bool) (k : State → State) : State :=
  mgmt a s (fun s => if ok s then (k s).mgmtReply (authTag a) .ok [] else s.mgmtReply (authTag a) .badMsg [])

end Sys2Proof.Machine
end

