-- ==== Sys2Proof/Machine/Operands.lean ====
section
/-! DEFINITION. Operand forms: lane patterns and their elements (R85, R115), the b operand of an LV word (R71, R119), scalar
operands of the X format (R162), comparands of a search (R188), and writing a result into the lanes of A. -/

namespace Sys2Proof.Machine

/-- The pattern of a lane operand: the register, or the pair for a 64-bit type (R85). -/
def Pop.pat (p : Pop) (lane : Nat) (t : Ty) (reg : Nat) : Nat :=
  if t.wide then (p.getPair lane reg).toNat else (p.getV lane reg).toNat

/-- Writing a pattern to a register or pair. -/
def Pop.putPat (p : Pop) (lane : Nat) (t : Ty) (reg x : Nat) : Pop :=
  if t.wide then p.setPair lane reg (BitVec.ofNat 64 x) else p.setV lane reg (BitVec.ofNat 32 x)

/-- Element k of a pattern (R85). -/
def elemOf (t : Ty) (x k : Nat) : Nat := x / 2 ^ (t.bits * k) % 2 ^ t.bits

/-- The same element value in every place of a register. -/
def splat (t : Ty) (x : Nat) : Nat :=
  (List.range t.elems).foldl (fun acc k => acc + x % 2 ^ t.bits * 2 ^ (t.bits * k)) 0

/-- The pattern that the imm21 of an LV word stands for (R71). -/
def immPat (t : Ty) (v : BitVec 21) : Nat :=
  match t with
  | .f32 => v.toNat * 2 ^ 11 % 2 ^ 32
  | .f64 => widenF32 (v.toNat * 2 ^ 11 % 2 ^ 32)
  | .f16 | .b16 => splat t (v.toNat % 2 ^ 16)
  | .s8 | .n8 | .s16 | .n16 | .s32 | .n32 | .s64 | .n64 | .nb8 => splat t (patOf t.bits v.toInt)

/-- The b operand of an LV word as a pattern (R119). -/
def bPat (p : Pop) (c : Cp) (lane : Nat) (t : Ty) : BSrc → Nat
  | .reg vb => p.pat lane t vb.toNat
  | .scalar sb => if t.wide then (c.getS sb).toNat else (c.getS sb).toNat % 2 ^ 32
  | .imm v => immPat t v

/-- One function on every element of a, b and c, with the flags ORed together (R90, R118). -/
def mapElems (t : Ty) (f : Nat → Nat → Nat → Nat × Flags) (a b c : Nat) : Nat × Flags :=
  (List.range t.elems).foldl (fun acc k =>
    let r := f (elemOf t a k) (elemOf t b k) (elemOf t c k)
    (acc.1 + r.1 % 2 ^ t.bits * 2 ^ (t.bits * k), acc.2 ||| r.2)) (0, 0)

/-- The lowest lane of a list that raised a flag whose enable is 1, or all ones (R157). -/
def firstRaised (en : Flags) (rs : List (Nat × Flags)) : Word64 :=
  match rs.find? (fun e => e.2 &&& en != 0) with
  | some e => BitVec.ofNat 64 e.1
  | none => allOnes64

/-- Writes every lane's register patterns; rs holds a lane, its registers' patterns in ascending number, and its flags. -/
def putLanes (p : Pop) (t : Ty) (vd : Nat) (rs : List (Nat × Nat × Flags)) : Pop :=
  rs.foldl (fun p e => p.putPat e.1 t vd e.2.1) p

/-- Counts the lanes a lane instruction acts on and the groups it skips (R337). -/
def State.countActing (s : State) (r : CpRef) (p : Pop) (lanes : List Nat) : State :=
  (s.countLanes r.pid p 0x004 lanes).countSkipped r.pid p lanes

/-- A lane instruction on the lanes of A (R118, R136): every lane's new pattern from the state before, flags ORed into the CP's,
FPTRAP for an enabled flag. -/
def laneWord (s : State) (r : CpRef) (p : Pop) (c : Cp) (mk : MReg) (t : Ty) (vd : VReg) (f : Nat → Nat × Flags) : State :=
  let lanes := p.laneList (acting p c mk)
  let rs := lanes.map (fun i => (i, f i))
  let fl := rs.foldl (fun acc e => acc ||| e.2.2) 0
  let s := s.countActing r p lanes
  let s := s.updPop r.pid (fun p => putLanes p t vd.toNat rs)
  finish s r fl (firstRaised c.enables (rs.map (fun e => (e.1, e.2.2))))

/-- A two-source or accumulating LV word element by element. -/
def laneTwo (s : State) (r : CpRef) (p : Pop) (c : Cp) (o : Lv2) (f : Nat → Nat → Nat → Nat × Flags) : State :=
  laneWord s r p c o.mask o.ty o.vd (fun i =>
    mapElems o.ty f (p.pat i o.ty o.va.toNat) (bPat p c i o.ty o.b) (p.pat i o.ty o.vd.toNat))

/-- A one-source LV word element by element. -/
def laneOne (s : State) (r : CpRef) (p : Pop) (c : Cp) (o : Lv1) (f : Nat → Nat × Flags) : State :=
  laneWord s r p c o.mask o.ty o.vd (fun i => mapElems o.ty (fun a _ _ => f a) (p.pat i o.ty o.va.toNat) 0 0)

/-- The integer an element stands for in the type's sense. -/
def sense (t : Ty) (x : Nat) : Int := senseOf t.isSigned t.bits x

/-- What floating arithmetic takes from the acting CP and the word's rounding. -/
def envOf (c : Cp) (r : Rnd) : FpEnv := { dir := rndDir r c.rm, ftz := c.ftz, daz := c.daz }

/-! ### Scalar operands -/

/-- The width of an X type (R163). -/
def xw (t : Ty) : Nat := t.bits

/-- The last operand of an X word as 64 bits: a scalar, or imm32 sign-extended for an integer type and an F32 pattern, widened
for F64, for a floating one (R162). -/
def xsrc (c : Cp) (t : Ty) : XSrc → Word64
  | .reg sb => c.getS sb
  | .imm v =>
    match t with
    | .f32 => v.zeroExtend 64
    | .f64 => BitVec.ofNat 64 (widenF32 v.toNat)
    | .s8 | .n8 | .s16 | .n16 | .s32 | .n32 | .s64 | .n64 | .f16 | .b16 | .nb8 => v.signExtend 64

/-- ext of R164: the low w bits, extended into the register by the type. -/
def ext (t : Ty) (x : Nat) : Word64 :=
  if t.wide then BitVec.ofNat 64 x
  else if t.isSigned then (BitVec.ofNat 32 x).signExtend 64
  else (BitVec.ofNat 32 x).zeroExtend 64

/-- The w-bit pattern an X instruction reads of a scalar (R162). -/
def xpat (t : Ty) (v : Word64) : Nat := v.toNat % 2 ^ t.bits

/-- An X word writes its destination and completes. -/
def scalarDone (s : State) (r : CpRef) (sd : SReg) (v : Word64) (fl : Flags) : State :=
  finish (s.updCp r (fun c => c.setS sd v)) r fl allOnes64

/-! ### Comparands of a search -/

/-- The comparand pattern of an imm24 (R73). -/
def imm24Pat (t : Ty) (v : BitVec 24) : Nat :=
  match t with
  | .f32 => v.toNat * 2 ^ 8 % 2 ^ 32
  | .f64 => widenF32 (v.toNat * 2 ^ 8 % 2 ^ 32)
  | .f16 | .b16 => v.toNat % 2 ^ 16
  | .s8 | .s16 | .s32 | .s64 => patOf t.bits v.toInt
  | .n8 | .n16 | .n32 | .n64 | .nb8 => v.toNat % 2 ^ t.bits

/-- EQ to GE on two w-bit patterns in the type's sense, values as stored (R189). -/
def compareAs (t : Ty) (cc : Cond) (a b : Nat) : Bool :=
  if t.isFloat then condFp cc (unpack (fpOf t) false a) (unpack (fpOf t) false b)
  else condInt cc (sense t a) (sense t b)

/-! ### Writing set registers -/

/-- The cut of R185: while depth ≥ 1 a value written to m0 is intersected with the top level. -/
def Cp.cut (c : Cp) (md : MReg) (v : LaneSet) : LaneSet :=
  match c.stack.getLast? with
  | some top => if md = 0 then v &&& top else v
  | none => v

/-- Writing a set register with the cut of R185. -/
def Cp.writeM (c : Cp) (md : MReg) (v : LaneSet) : Cp := c.setM md (c.cut md v)

/-- A set word writes md and completes. -/
def setDone (s : State) (r : CpRef) (md : MReg) (v : LaneSet) : State :=
  advance (s.updCp r (fun c => c.writeM md v)) r

end Sys2Proof.Machine
end

