-- ==== Sys2Proof/Machine/Press.lean ====
section
/-! DEFINITION. The arithmetic of the press: NB8 planes (R99, R100), block scales (R101), accumulation (R102, R103, R105) and the
conversions of PST (R271). -/

namespace Sys2Proof.Machine

def blkCount : BlkLen → Nat
  | .l32 => 32
  | .l64 => 64
  | .l128 => 128
  | .l256 => 256

/-- The planes a block reads: 1 to 8. -/
def planesOf (f : Fmt) : Nat := f.n1.toNat + 1

/-- The weights of the planes read, plane 0 the most significant (R100). -/
def planeWeights (f : Fmt) : List Int :=
  (List.range (planesOf f)).map (fun j =>
    let w : Int := 2 ^ (planesOf f - 1 - j)
    if j = 0 ∧ f.sg then -w else w)

/-- One block of a row or column: the nonzero planes with their weights, the sum of its elements, and its scale. -/
structure Block where
  terms : List (Int × Nat)
  total : Int
  scale : FVal
  deriving DecidableEq, Repr

/-- The number of ones below 2^n. -/
def ones (x n : Nat) : Int := (popCount n x : Int)

/-- The blocks of a row from its planes, each a number whose bit k is element k, in blocks of l elements (R99, R100). -/
def blocksOf (f : Fmt) (planes : List Nat) (scales : List FVal) (l : Nat) : List Block :=
  scales.zipIdx.map (fun e =>
    let terms := ((planeWeights f).zip planes).map (fun x => (x.1, x.2 / 2 ^ (l * e.2) % 2 ^ l))
    { terms := terms.filter (fun x => x.2 != 0), total := terms.foldl (fun acc x => acc + x.1 * ones x.2 l) 0, scale := e.1 })

/-- Four times the partial sum of a block's products, which is exact (R105): Σ(u + ½ca)(w + ½cb). -/
def partial4 (fa fb : Fmt) (l : Nat) (a b : Block) : Int :=
  let s := a.terms.foldl (fun acc x => b.terms.foldl (fun acc y => acc + x.1 * y.1 * ones (x.2 &&& y.2) l) acc) (0 : Int)
  4 * s + (if fa.ce then 2 * b.total else 0) + (if fb.ce then 2 * a.total else 0) + (if fa.ce ∧ fb.ce then (l : Int) else 0)

def isFinite : FVal → Bool
  | .fin _ _ _ => true
  | .nan _ | .inf _ => false

/-- A block's term added in ACC mode: the exact product rounded to a multiple of 2^−8, then a saturating addition (R102). -/
def accStep (d : Dir) (x : Nat) (p4 : Int) (sa sb : FVal) : Nat × Flags :=
  match sa, sb with
  | .fin na ma ea, .fin nb mb eb =>
    let m := p4.natAbs * ma * mb
    let neg := (decide (p4 < 0) != na) != nb
    let (t, inexact) := roundAt d neg m (ea + eb - 2) false (-8)
    let v := senseOf true 64 x + (if neg then -(t : Int) else t)
    let r := clamp (loBound true 64) (hiBound true 64) v
    (patOf 64 r.1, r.2 ||| flagIf inexact fIX)
  | _, _ => (x, fIV)

/-- A block's term added in F32 mode with one rounding: acc ← round(acc + partial·sa·sb) (R103, R105). -/
def f32Step (env : FpEnv) (x : Nat) (p4 : Int) (sa sb : FVal) : Nat × Flags :=
  let acc := unpack fpF32 env.daz (x % 2 ^ 32)
  let scale := mulVals sa sb
  let badScale := isNan sa || isNan sb
  let term := match scale with
    | none => none
    | some v => mulVals (.fin (decide (p4 < 0)) p4.natAbs (-2)) v
  match acc with
  | .nan p => (quiet fpF32 p, flagIf (isSnan fpF32 acc || badScale || term.isNone) fIV)
  | .inf _ | .fin _ _ _ =>
    if badScale then (genNan fpF32 3, fIV)
    else match term with
      | none => (genNan fpF32 2, fIV)
      | some v => addVals fpF32 env acc v

/-- An element of a tile through all the blocks of its row and column, in ascending K (R105). -/
def elemSteps (fa fb : Fmt) (env : FpEnv) (l : Nat) (x : Nat) (as bs : List Block) : Nat × Flags :=
  (as.zip bs).foldl (fun acc e =>
    let p := partial4 fa fb l e.1 e.2
    let r := if fa.f32 then f32Step env acc.1 p e.1.scale e.2.scale else accStep env.dir acc.1 p e.1.scale e.2.scale
    (r.1, acc.2 ||| r.2)) (x, 0)

/-- A tile of 128 × 128 elements after a pass; a row without blocks (an empty gathered row) stays as it is (R268, R269). -/
def passTile (fa fb : Fmt) (env : FpEnv) (l : Nat) (tile : List Word64) (rows : List (Option (List Block))) (cols : List (List Block)) :
    List Word64 × Flags :=
  let out : List (List Word64 × Flags) := rows.zipIdx.map (fun e =>
    let old := (tile.drop (128 * e.2)).take 128
    match e.1 with
    | none => (old, (0 : Flags))
    | some as =>
      let rs : List (Nat × Flags) := (old.zip cols).map (fun x => elemSteps fa fb env l x.1.toNat as x.2)
      (rs.map (fun x => BitVec.ofNat 64 x.1), rs.foldl (fun acc x => acc ||| x.2) 0))
  (out.flatMap (fun x => x.1), out.foldl (fun acc x => acc ||| x.2) 0)

/-! ### PST (R271) -/

/-- The bytes of an element; NB8 elements are converted as 8-bit integers. -/
def pstSize : PstTy → Nat
  | .f32 | .s32 => 4
  | .f16 | .b16 | .s16 => 2
  | .s8 | .nb8 => 1

/-- The integer types of PST: signedness and width; none for a floating one. -/
def pstInt (sg : Bool) : PstTy → Option (Bool × Nat)
  | .s8 => some (true, 8)
  | .s16 => some (true, 16)
  | .s32 => some (true, 32)
  | .nb8 => some (sg, 8)
  | .f32 | .f16 | .b16 => none

def pstFp : PstTy → FpFmt
  | .f16 => fpF16
  | .b16 => fpB16
  | .f32 | .s8 | .s16 | .s32 | .nb8 => fpF32

/-- One element converted (R271): ACC mode reads pattern / 256, F32 mode the F32 pattern of bits [31:0]. -/
def pstElem (f : Fmt) (env : FpEnv) (ty : PstTy) (x : Nat) : Nat × Flags :=
  if f.f32 then
    match pstInt f.sg ty with
    | some (sg, w) =>
      let r := fToInt fpF32 env sg w (x % 2 ^ 32)
      (patOf w r.1, r.2)
    | none => if ty = .f32 then (x % 2 ^ 32, 0) else fConv fpF32 (pstFp ty) env (x % 2 ^ 32)
  else
    let v := senseOf true 64 x
    match pstInt f.sg ty with
    | some (sg, w) =>
      let (k, inexact) := roundInt env.dir (decide (v < 0)) v.natAbs (-8)
      let r := clamp (loBound sg w) (hiBound sg w) (if v < 0 then -(k : Int) else k)
      (patOf w r.1, r.2 ||| flagIf inexact fIX)
    | none => if v = 0 then (0, 0) else roundPack (pstFp ty) env (decide (v < 0)) v.natAbs (-8) false

/-- Plane j of a row of 128 converted elements: 16 bytes, element n at bit n & 7 of byte n >> 3 (R99, R271). -/
def planeBytes (row : List Nat) (j : Nat) : List Byte :=
  bytesOf 16 (BitVec.ofNat 128 (row.zipIdx.foldl (fun acc e => acc + e.1 / 2 ^ (7 - j) % 2 * 2 ^ e.2) 0))

/-- The rounding of a stream: the A block's rnd, 000 taking the captured RM, with the captured FTZ and DAZ (R104, R268). -/
def streamEnv (f : Fmt) (rm : BitVec 3) (ftz daz : Bool) : FpEnv := { dir := rndDir f.rnd rm, ftz := ftz, daz := daz }

end Sys2Proof.Machine
end

