-- ==== Sys2Proof/Machine/Mem.lean ====
section
/-! DEFINITION. Memory behind the spaces: lines and their poison, L2 over HBM, the cluster cache, majority lines, translation,
stamps, and the read and write of the bytes at a place (R203 to R219, R240 to R248, R305 to R308). -/

namespace Sys2Proof.Machine

/-- What a memory operation answers beside the state it leaves: a value, or the lane cause it met (R315). -/
abbrev Met (α : Type) := State × Except LaneCause α

/-! ### Lines of HBM and of the cluster store -/

/-- The end of HBM and of one stack (R208). -/
def hbmBytes : Nat := 576 * 2 ^ 30
def stackBytes : Nat := 48 * 2 ^ 30

/-- The home slice of an interleaved line (R208). -/
def sliceOf (line : Nat) : Nat := 8 * (line % 12) + line / 12 % 8

/-- The way mask of a function in a slice (R214). -/
def State.mask (s : State) (slice vf : Nat) : BitVec 16 := Tab.get 0xFFFF#16 s.wayMask (16 * slice + vf)

/-- A line that its function may hold in L2: not an uncached page, and a way is allowed (R213, R214). -/
def State.inL2 (s : State) (vf : Nat) (cache : BitVec 2) (line : Nat) : Bool :=
  cache != 2#2 && s.mask (sliceOf line) vf != 0

/-- The byte at a physical address: a dirty L2 line stands over HBM (R214). -/
def State.physByte (s : State) (pa : Nat) : Byte :=
  match Tab.find s.l2 (pa / 128) with
  | some l => (Tab.find l.bytes (pa % 128)).getD (Tab.get 0 s.hbm pa)
  | none => Tab.get 0 s.hbm pa

def State.physBytes (s : State) (pa n : Nat) : List Byte := (List.range n).map (fun k => s.physByte (pa + k))

/-- The ways a mask allows. -/
def waysOf (m : BitVec 16) : List Nat := (List.range 16).filter (fun w => m.getLsbD w)

/-- Listing consecutive values. -/
def insertAll {α : Type} : Tab α → Nat → List α → Tab α
  | t, _, [] => t
  | t, k, v :: vs => insertAll (Tab.insert t k v) (k + 1) vs

/-- The 8-byte words that n bytes at an address meet. -/
def wordsMet (pa n : Nat) : List Nat := (List.range ((pa + n + 7) / 8 - pa / 8)).map (fun k => pa / 8 + k)

/-- The version of a byte (R344; DESIGN CHOICE, notes/assumptions/61.md). -/
def State.verOf (s : State) (pa : Nat) : Nat := Tab.get 0 s.vers pa

/-- Bytes of one line come to a new version where a cluster holds the line: the held bytes are older from now on (R213, R344). -/
def State.newVersions (s : State) (pa n : Nat) : State :=
  if s.ccache.any (fun c => c.line == pa / 128) then
    { s with serial := s.serial + 1, vers := Tab.putAll 0 s.vers pa (List.replicate n s.serial) }
  else s

/-- Words that change, from a place on, are kept in the form that a running population may still fetch (R65). -/
def State.keepOld (s : State) (ws : List (Nat × Word64)) : State :=
  { s with olds := if s.pops = [] then [] else s.olds ++ ws.map (fun x => ({ serial := s.serial, place := x.1, word := x.2 } : OldWord)) }

/-- Before bytes of one line change: their words are kept in their old form (R65), a table word is no longer as the hypervisor wrote it
(R306), and the bytes come to a new version. -/
def State.beforeWrite (s : State) (pa n : Nat) : State :=
  let s := s.keepOld ((wordsMet pa n).map (fun k => (8 * k, (wordOfBytes (s.physBytes (8 * k) 8)).getD 0)))
  ({ s with hvWords := Tab.clear s.hvWords (pa / 8) ((pa + n + 7) / 8 - pa / 8) }).newVersions pa n

/-- The lines that a way of a slice holds: 1.5 MiB in 16 ways of 128-byte lines (R1, R214). -/
def wayLines : Nat := 768

/-- The dirty lines in a way of a slice. -/
def State.dirtyIn (s : State) (slice way : Nat) : List Nat :=
  (s.l2.filter (fun e => sliceOf e.1 == slice && e.2.way == way)).map (fun e => e.1)

/-- A dirty line written back to HBM and, where it is dropped, no longer held (R214, R234). -/
def State.writeBack (s : State) (line : Nat) : State :=
  match Tab.find s.l2 line with
  | some l =>
    { s with l2 := Tab.erase s.l2 line,
             hbm := l.bytes.foldl (fun t e => Tab.put 0 t (128 * line + e.1) e.2) s.hbm }
  | none => s

/-- A line is allocated in a way that its function's mask allows; a full way loses one of its lines to HBM (R1, R214). -/
def State.allocate (s : State) (vf line : Nat) (bytes : Tab Byte) : State :=
  let slice := sliceOf line
  let ways := waysOf (s.mask slice vf)
  let (k, s) := s.pick ways.length
  let way := ways.getD k 0
  let held := s.dirtyIn slice way
  let s := if held.length < wayLines then s
    else
      let (j, s) := s.pick held.length
      s.writeBack (held.getD j 0)
  { s with l2 := Tab.insert s.l2 line { vf := vf, way := way, bytes := bytes } }

/-- Writing bytes of one line at its home slice: into a dirty L2 line, or straight to HBM (R213, R214). -/
def State.writePhys (s : State) (vf : Nat) (cache : BitVec 2) (pa : Nat) (bs : List Byte) : State :=
  let line := pa / 128
  let bs := bs.take (128 - pa % 128)
  let s := s.beforeWrite pa bs.length
  if s.inL2 vf cache line then
    match Tab.find s.l2 line with
    | some l => { s with l2 := Tab.insert s.l2 line { l with bytes := insertAll l.bytes (pa % 128) bs } }
    | none => s.allocate vf line (insertAll [] (pa % 128) bs)
  else
    let hbm := Tab.putAll 0 s.hbm pa bs
    match Tab.find s.l2 line with
    | some l =>
      let left := Tab.clear l.bytes (pa % 128) bs.length
      { s with hbm := hbm, l2 := if left = [] then Tab.erase s.l2 line else Tab.insert s.l2 line { l with bytes := left } }
    | none => { s with hbm := hbm }

/-- The line a place lies in, as a key: cluster-store lines and physical lines apart (R211). -/
def State.lineState (s : State) : Loc → LineState
  | .store k a => Tab.get LineState.clean s.cline (131072 * k + a / 128)
  | .hbm pa _ => Tab.get LineState.clean s.hline (pa / 128)
  | .maj _ _ => LineState.clean

def State.setLineState (s : State) (x : LineState) : Loc → State
  | .store k a => { s with cline := Tab.put LineState.clean s.cline (131072 * k + a / 128) x }
  | .hbm pa _ => { s with hline := Tab.put LineState.clean s.hline (pa / 128) x }
  | .maj _ _ => s

/-- Two places in one 128-byte line. -/
def sameLine : Loc → Loc → Bool
  | .store k a, .store k' a' => k == k' && a / 128 == a' / 128
  | .hbm p _, .hbm p' _ => p / 128 == p' / 128
  | .maj t o, .maj t' o' => t == t' && o / 128 == o' / 128
  | .store _ _, _ | .hbm _ _, _ | .maj _ _, _ => false

/-- The same place. -/
def samePlace : Loc → Loc → Bool
  | .store k a, .store k' a' => k == k' && a == a'
  | .hbm p _, .hbm p' _ => p == p'
  | .maj t o, .maj t' o' => t == t' && o == o'
  | .store _ _, _ | .hbm _ _, _ | .maj _ _, _ => false

/-- The place n bytes further on. -/
def Loc.plus : Loc → Nat → Loc
  | .store k a, n => .store k (a + n)
  | .hbm pa c, n => .hbm (pa + n) c
  | .maj t o, n => .maj t (o + n)

/-- Two ranges of bytes that meet (R216). -/
def meet (l : Loc) (n : Nat) (l' : Loc) (n' : Nat) : Bool :=
  match l, l' with
  | .store k a, .store k' a' => k == k' && decide (a < a' + n') && decide (a' < a + n)
  | .hbm p _, .hbm p' _ => decide (p < p' + n') && decide (p' < p + n)
  | .maj t o, .maj t' o' => t == t' && decide (o < o' + n') && decide (o' < o + n)
  | .store _ _, _ | .hbm _ _, _ | .maj _ _, _ => false

/-- A unit signals the wait tables: each parked WAITR with a word at these places tests again (R311). -/
def State.signal (s : State) (at_ : Loc → Bool) : State :=
  { s with pops := s.pops.map (fun e => (e.1, { e.2 with cps := e.2.cps.map (fun x => (x.1,
      match x.2.wait, x.2.waitLoc with
      | some w, some l => if w.kind = .waitr ∧ at_ l then { x.2 with waitDue := true } else x.2
      | _, _ => x.2)) })) }

/-- A place's offset in its line. -/
def Loc.inLine : Loc → Nat
  | .store _ a => a % 128
  | .hbm pa _ => pa % 128
  | .maj _ o => o % 128

/-- A line's poison and errors as a read of n bytes at an offset meets them: SECDED covers each 8 bytes (R211). -/
def LineState.cause (x : LineState) (off n : Nat) : Option LaneCause :=
  if (List.range 16).any (fun w => x.bad.getLsbD w && decide (8 * w < off + n) && decide (off < 8 * w + 8)) then some .uncorrectable
  else if x.poison then some .poison
  else none

/-- A read of n bytes of a line: an uncorrectable error poisons the line, poison is met as such (R211). -/
def State.touch (s : State) (loc : Loc) (n : Nat) : Met Unit :=
  match (s.lineState loc).cause loc.inLine n with
  | none => (s, .ok ())
  | some .uncorrectable => ((s.setLineState .poisoned loc).signal (sameLine loc), .error .uncorrectable)
  | some e => (s, .error e)

/-- A store that covers less than a line reads all of it (R211). -/
def State.touchLine (s : State) (loc : Loc) : Met Unit :=
  s.touch (match loc with | .store k a => .store k (a / 128 * 128) | .hbm pa c => .hbm (pa / 128 * 128) c | .maj t o => .maj t o) 128

/-! ### Majority lines (R240 to R252) -/

def State.majEntry (s : State) (set : Nat) : Word64 := Tab.get 0 s.majSet set

/-- The fields of an entry (R240). -/
def majValid (e : Word64) : Bool := e.getLsbD 0
def majLost (e : Word64) : Bool := e.getLsbD 2
def majCopies (e : Word64) : Nat := if e.getLsbD 1 then 5 else 3
def majQ (e : Word64) : Nat := (majCopies e + 1) / 2
def majStack (e : Word64) (j : Nat) : Nat := (e.extractLsb' (20 + 4 * j) 4).toNat
def majFailed (e : Word64) (j : Nat) : Bool := e.getLsbD (48 + j)
def majHome (e : Word64) : Nat := (e.extractLsb' 45 3).toNat
def majEpoch (e : Word64) : Nat := (e.extractLsb' 56 8).toNat

/-- The copies whose stack has not failed. -/
def majLive (e : Word64) : List Nat := (List.range (majCopies e)).filter (fun j => !majFailed e j)

/-- Copy j of stack-local line y as an interleaved line (R208). -/
def copyLine (e : Word64) (j y : Nat) : Nat := 12 * y + majStack e j

/-- The home slice of a majority line (R241). -/
def majSlice (e : Word64) (y : Nat) : Nat := 8 * majStack e (majHome e) + y % 8

/-- The entry with another epoch. -/
def setEpoch (e : Word64) (n : Nat) : Word64 :=
  (e &&& 0x00FFFFFFFFFFFFFF#64) ||| (BitVec.ofNat 64 n <<< 56)

/-- A copy as it answers a read: tag, data, poison; none when its line is uncorrectable (R246). A line that another mapping holds dirty
in L2 reads as it stands there (R208). -/
def State.copyView (s : State) (line : Nat) : Option (Word64 × List Byte × Bool) :=
  let x := Tab.get LineState.clean s.hline line
  if x.bad != 0 then none else some (Tab.get 0 s.majTag line, s.physBytes (128 * line) 128, x.poison)

/-- A line with its tag and poison written to a copy's stack, which now holds a line of the set; it stands over what another mapping holds
of it (R208). -/
def State.putCopy (s : State) (set line : Nat) (tag : Word64) (data : List Byte) (poison : Bool) : State :=
  let s := s.beforeWrite (128 * line) 128
  { s with hbm := Tab.putAll 0 s.hbm (128 * line) data, l2 := Tab.erase s.l2 line, majTag := Tab.put 0 s.majTag line tag,
           majOwn := Tab.put 16 s.majOwn line set,
           hline := Tab.put LineState.clean s.hline line { poison := poison, bad := 0 } }

/-- A copy accepts a write whose tag exceeds its own, and any write when its line is uncorrectable (R245 step 3). -/
def State.offer (s : State) (set line : Nat) (tag : Word64) (data : List Byte) (poison : Bool) : State × Bool :=
  match s.copyView line with
  | none => (s.putCopy set line tag data poison, true)
  | some v => if v.1.ult tag then (s.putCopy set line tag data poison, true) else (s, false)

/-- The copies of a mask take a write in turn; the answer is the mask of those that accepted. -/
def State.offerAll (s : State) (e : Word64) (w : MajWrite) (js : List Nat) : State × BitVec 5 :=
  js.foldl (fun acc j =>
    let r := acc.1.offer w.set (copyLine e j w.line) w.tag w.data w.poison
    (r.1, if r.2 then acc.2 ||| BitVec.ofNat 5 (2 ^ j) else acc.2)) (s, 0)

def State.majWrite (s : State) (serial : Nat) : Option MajWrite := s.majWrites.find? (fun w => w.serial == serial)

def State.setMajWrite (s : State) (w : MajWrite) : State :=
  { s with majWrites := s.majWrites.map (fun v => if v.serial = w.serial then w else v) }

def countBits (m : BitVec 5) : Nat := ((List.range 5).filter (fun j => m.getLsbD j)).length

/-- A write is sent to some of the copies that have not accepted it: it completes with the q-th acceptance (R245 steps 3 and 4). -/
def State.sendTo (s : State) (w : MajWrite) (js : List Nat) : State :=
  let e := s.majEntry w.set
  let r := s.offerAll e w (js.filter (fun j => !w.accepted.getLsbD j))
  let got := w.accepted ||| r.2
  if !w.complete && decide (majQ e ≤ countBits got) then r.1.setMajWrite { w with accepted := got, complete := true, since := s.clock }
  else r.1.setMajWrite { w with accepted := got }

/-- Every write and write-back in flight to a set reaches all its live copies (R249 step 2): those that are complete are done. -/
def State.majSettle (s : State) (set : Nat) : State :=
  let e := s.majEntry set
  let live := majLive e
  let s := (s.majWrites.filter (fun w => w.set == set)).foldl (fun s w => s.sendTo w live) s
  let s := (s.majBacks.filter (fun b => b.set == set && live.contains b.copy)).foldl (fun s b =>
    (s.offer set (copyLine e b.copy b.line) b.tag b.data b.poison).1) s
  { s with majWrites := s.majWrites.filter (fun w => w.set != set || !w.complete), majBacks := s.majBacks.filter (fun b => b.set != set) }

/-- Lists of n members, in order. -/
def choose {α : Type} : Nat → List α → List (List α)
  | 0, _ => [[]]
  | _ + 1, [] => []
  | n + 1, a :: l => (choose n l).map (a :: ·) ++ choose (n + 1) l

/-- What q answers give: the data of the greatest tag, none when two hold it with unequal data (R246). -/
def newest (g : List (Word64 × List Byte × Bool)) : Option (Word64 × List Byte × Bool) :=
  match g with
  | [] => none
  | a :: l =>
    let top := l.foldl (fun b c => if b.1.ult c.1 then c else b) a
    if g.all (fun c => c.1 != top.1 || c == top) then some top else none

/-- The load rule on the copies of a line: the answers that q copies can give, each once; a choice among them is the order in
which copies answer (R246). -/
def State.majAnswer (s : State) (e : Word64) (y : Nat) : State × Option (Word64 × List Byte × Bool) :=
  let good := (majLive e).filterMap (fun j => s.copyView (copyLine e j y))
  let rs := ((choose (majQ e) good).map newest).eraseDups
  let (k, s) := s.pick rs.length
  (s, (rs[k]?).getD none)

/-- The physical lines that hold a line of a set. -/
def State.majHeld (s : State) (set : Nat) : List Nat := (s.majOwn.filter (fun x => x.2 == set)).map (fun x => x.1)

/-- The stack-local lines of a set that its live copies hold: the lines a rebase rewrites and the scrubber reads (R244, R251). -/
def State.majLines (s : State) (set : Nat) : List Nat :=
  let e := s.majEntry set
  let used := (majLive e).map (majStack e)
  (((s.majHeld set).filter (fun l => used.contains (l % 12))).map (fun l => l / 12)).eraseDups

/-- The copies that a rebase does not reach, which its epoch would leave with the greater tags: those of a failed stack are
uncorrectable until a write-back repairs them, and those of a stack that is none of the entry's have an empty tag (R243, R250;
DESIGN CHOICE, notes/assumptions/19.md). -/
def State.majForget (s : State) (set : Nat) : State :=
  let e := s.majEntry set
  let live := (majLive e).map (majStack e)
  let listed := (List.range (majCopies e)).map (majStack e)
  (s.majHeld set).foldl (fun s l =>
    if live.contains (l % 12) then s
    else if listed.contains (l % 12) then { s with hline := Tab.put LineState.clean s.hline l { poison := false, bad := 0xFFFF } }
    else { s with majTag := Tab.erase s.majTag l, majOwn := Tab.erase s.majOwn l }) s

/-- The write of a line that its home has served and the copies have not accepted. -/
def State.majFlight (s : State) (set y : Nat) : Option MajWrite :=
  (s.majWrites.filter (fun w => w.set == set && w.line == y && !w.complete)).getLast?

/-- A rebase: every line's newest copy, or the write of it still in flight, is written to every live copy with epoch 0 and version 0; the
epoch becomes 1 (R244). A line whose load rule fails has no newest copy: its copies take zeros with poison, as after a failed access (R248; DESIGN CHOICE,
notes/assumptions/66.md). -/
def State.majRebase (s : State) (set : Nat) : State :=
  let s := s.majSettle set
  let e := s.majEntry set
  let flights := (s.majWrites.filter (fun w => w.set == set)).map (fun w => w.line)
  let s := ((s.majLines set ++ flights).eraseDups).foldl (fun s y =>
    let r := match s.majFlight set y with
      | some w => (s, some (w.tag, w.data, w.poison))
      | none => s.majAnswer e y
    let tag := BitVec.ofNat 64 (majSlice e y)
    (majLive e).foldl (fun s j =>
      match r.2 with
      | some v => s.putCopy set (copyLine e j y) tag v.2.1 v.2.2
      | none => s.putCopy set (copyLine e j y) tag (List.replicate 128 0) true) r.1) s
  let s := s.majForget set
  { s with majSet := Tab.put 0 s.majSet set (setEpoch (s.majEntry set) 1), majDue := Tab.erase s.majDue set,
           majWrites := s.majWrites.filter (fun w => w.set != set) }

/-- A rebase can choose the newest copies: the set is not lost, and q copies live (R244, R246, R249). -/
def majWhole (e : Word64) : Bool := !majLost e && decide (majQ e ≤ (majLive e).length)

/-- An epoch increment, which at 255 is a rebase instead; that of a lost set, whose copies are not written, waits until the entry is valid
anew (R243, R244, R249, R250; DESIGN CHOICE, notes/assumptions/66.md). -/
def State.bumpEpoch (s : State) (set : Nat) : State :=
  let e := s.majEntry set
  if 255 ≤ majEpoch e + 1 then (if majWhole e then s.majRebase set else { s with majDue := Tab.put false s.majDue set true })
  else { s with majSet := Tab.put 0 s.majSet set (setEpoch e (majEpoch e + 1)) }

/-- The sets whose homes lie on a stack. -/
def State.setsHomedOn (s : State) (stack : Nat) : List Nat :=
  (List.range 16).filter (fun k => let e := s.majEntry k; majStack e (majHome e) == stack)

/-- The next version of a home slice, with the wrap of R243. -/
def State.nextVersion (s : State) (slice : Nat) : State × Nat :=
  let v := Tab.get 0 s.version slice + 1
  if v < 2 ^ 48 then ({ s with version := Tab.put 0 s.version slice v }, v)
  else ((s.setsHomedOn (slice / 8)).foldl (fun s k => s.bumpEpoch k) { s with version := Tab.put 0 s.version slice 0 }, 0)

/-- A line's data as it stands: that of the write in flight, or the newest of the copies. -/
def State.majNow (s : State) (set y : Nat) : Option (List Byte) :=
  let e := s.majEntry set
  match s.majFlight set y with
  | some w => some w.data
  | none => (newest ((majLive e).filterMap (fun j => s.copyView (copyLine e j y)))).map (fun v => v.2.1)

/-- The place of a byte of a set among the old forms of words (R65). -/
def majPlace (set off : Nat) : Nat := hbmBytes + stackBytes * set + off

/-- A home sends a line to the copies under a new tag (R245 step 2), its words kept in their old form (R65); the answer is the write's
serial number. -/
def State.majBegin (s : State) (set y : Nat) (data : List Byte) (poison : Bool) : State × Nat :=
  let s := if s.pops = [] then s
    else match s.majNow set y with
      | some d => s.keepOld ((List.range 16).map (fun k =>
          (majPlace set (128 * y + 8 * k), (wordOfBytes ((d.drop (8 * k)).take 8)).getD 0)))
      | none => s
  let slice := majSlice (s.majEntry set) y
  let (s, v) := s.nextVersion slice
  let tag := BitVec.ofNat 64 (majEpoch (s.majEntry set) * 2 ^ 56 + v * 2 ^ 8 + slice)
  let (n, s) := s.fresh
  let w : MajWrite :=
    { serial := n, set := set, line := y, tag := tag, data := data, poison := poison, accepted := 0, reported := 0,
      complete := false, sent := s.clock, since := s.clock }
  ({ s with majWrites := s.majWrites ++ [w] }, n)

/-- Counts MAJORITY failures of a set (R251). -/
def State.countFails (s : State) (set n : Nat) : State :=
  { s with majFails := Tab.put 0 s.majFails set (Tab.get 0 s.majFails set + n) }

/-- Counts a MAJORITY failure and poisons the line under a new tag (R248, R251). -/
def State.majFail (s : State) (set y : Nat) : State :=
  let s := s.countFails set 1
  (s.majBegin set y (List.replicate 128 0) true).1.signal (sameLine (.maj set (128 * y)))

/-- A home reads a majority line (R246), with its write-backs left due; a failure poisons the line (R248). -/
def State.majRead (s : State) (set y : Nat) : Met (List Byte) :=
  let e := s.majEntry set
  if majLost e then (s.countFails set 1, .error .majority)
  else
    match s.majFlight set y with
    | some w => (s, if w.poison then .error .poison else .ok w.data)
    | none =>
      match s.majAnswer e y with
      | (s, none) => (s.majFail set y, .error .majority)
      | (s, some v) =>
        let due := (majLive e).filter (fun j =>
          match s.copyView (copyLine e j y) with
          | none => true
          | some c => c.1.ult v.1)
        let s := due.foldl (fun s j =>
          let (n, s) := s.fresh
          let b : MajBack :=
            { serial := n, set := set, line := y, copy := j, tag := v.1, data := v.2.1, poison := v.2.2 }
          { s with majBacks := s.majBacks ++ [b] }) s
        (s, if v.2.2 then .error .poison else .ok v.2.1)

/-! ### Reading and writing at a place -/

/-- Bytes k … k+n−1 of a line with new ones in their places. -/
def patch (line : List Byte) (k : Nat) (bs : List Byte) : List Byte := line.take k ++ bs ++ line.drop (k + bs.length)

/-- The n bytes at a place, all in one line (R205, R211, R246). -/
def State.readLoc (s : State) (loc : Loc) (n : Nat) : Met (List Byte) :=
  match loc with
  | .maj set off =>
    match s.majRead set (off / 128) with
    | (s, .ok d) => (s, .ok ((d.drop (off % 128)).take n))
    | (s, .error e) => (s, .error e)
  | .store k a =>
    match s.touch loc n with
    | (s, .ok _) => (s, .ok (Tab.getAll 0 s.cstore (16777216 * k + a) n))
    | (s, .error e) => (s, .error e)
  | .hbm pa _ =>
    match s.touch loc n with
    | (s, .ok _) => (s, .ok (s.physBytes pa n))
    | (s, .error e) => (s, .error e)

/-- A release's bytes that lie in a range take a note: hidden by a plain store, or in view again (R343). -/
def RelRec.mark (x : RelRec) (loc : Loc) (n : Nat) (hide : Bool) : RelRec :=
  if meet x.loc x.size loc n then
    { x with hidden := (List.range x.size).foldl (fun t i =>
        if meet (x.loc.plus i) 1 loc n then Tab.put false t i hide else t) x.hidden }
  else x

/-- A plain write of these bytes: a read of them observes no release that stood there (R343). -/
def State.overwrite (s : State) (loc : Loc) (n : Nat) : State :=
  { s with rels := s.rels.map (fun x => x.mark loc n true) }

/-- Bytes of one line written at a place (R211): a whole line clears poison, less than a line reads it first and writes nothing
where that read fails. The answer is the serial number of the majority write it sends, if it sends one (R245). -/
def State.writeLoc (s : State) (vf : Nat) (loc : Loc) (bs : List Byte) : Met (List Nat) :=
  let s := s.overwrite loc bs.length
  match loc with
  | .maj set off =>
    if majLost (s.majEntry set) then (s.countFails set 1, .error .majority)
    else if bs.length = 128 then
      let r := s.majBegin set (off / 128) bs false
      (r.1, .ok [r.2])
    else
      match s.majRead set (off / 128) with
      | (s, .error e) => (s, .error e)
      | (s, .ok d) =>
        let r := s.majBegin set (off / 128) (patch d (off % 128) bs) false
        (r.1, .ok [r.2])
  | .store k a =>
    let put := fun s : State => { s with cstore := Tab.putAll 0 s.cstore (16777216 * k + a) bs }
    if bs.length = 128 then (put (s.setLineState LineState.clean loc), .ok [])
    else
      match s.touchLine loc with
      | (s, .ok _) => (put s, .ok [])
      | (s, .error e) => (s, .error e)
  | .hbm pa cache =>
    if bs.length = 128 then ((s.setLineState LineState.clean loc).writePhys vf cache pa bs, .ok [])
    else
      match s.touchLine loc with
      | (s, .ok _) => (s.writePhys vf cache pa bs, .ok [])
      | (s, .error e) => (s, .error e)

/-- A place is poisoned by a copy that writes a poisoned line; the answer is the majority writes it sends (R233). -/
def State.poisonLoc (s : State) (loc : Loc) : State × List Nat :=
  match loc with
  | .maj set off =>
    if majLost (s.majEntry set) then (s.countFails set 1, [])
    else
      let r := s.majBegin set (off / 128) (List.replicate 128 0) true
      (r.1.signal (sameLine loc), [r.2])
  | .store _ _ | .hbm _ _ => ((s.setLineState .poisoned loc).signal (sameLine loc), [])

/-- Majority writes that must have completed before an operation counts as accepted (R245). -/
def State.majBusy (s : State) (serials : List Nat) : Bool :=
  s.majWrites.any (fun w => !w.complete && serials.contains w.serial)

/-- The sets of live copies that can make a write complete. -/
def quorums (e : Word64) : List (List Nat) :=
  (List.range (majCopies e + 1)).flatMap (fun n => if majQ e ≤ n then choose n (majLive e) else [])

/-- An earlier write of the same line has not completed: a home serves a line's accesses one at a time (R245). -/
def State.majBehind (s : State) (w : MajWrite) : Bool :=
  s.majWrites.any (fun v => v.set == w.set && v.line == w.line && !v.complete && decide (v.serial < w.serial))

/-- A write completes at once for an issuer that waits for it inside its own step, after the earlier writes of its line; which copies
accept it is a choice. Where fewer than q copies live, or an earlier write cannot complete, it stays on its way (R245). -/
def State.majFinish (s : State) (serial : Nat) : State :=
  match s.majWrite serial with
  | none => s
  | some w =>
    let e := s.majEntry w.set
    let qs := quorums e
    if qs = [] then s
    else
      let before := s.majWrites.filter (fun v => v.set == w.set && v.line == w.line && !v.complete && decide (v.serial < serial))
      let s := before.foldl (fun s v => s.sendTo v (majLive e)) s
      if s.majBehind w then s
      else
        let (k, s) := s.pick qs.length
        s.sendTo w (qs.getD k [])

/-- A step has sent a majority write of data that too few copies live to complete (R245); what a failed access poisons, nothing waits for
(R248). -/
def State.stuck (s t : State) : Bool :=
  t.majWrites.any (fun w => !w.complete && !w.poison && decide (s.serial ≤ w.serial))

def State.majFinishAll (s : State) (serials : List Nat) : State := serials.foldl (fun s n => s.majFinish n) s

/-! ### The cluster cache (R209, R213, R230, R234) -/

/-- The banks of a cluster with a role. -/
def State.banksIn (s : State) (cluster : Nat) (role : BankRole) : List Nat :=
  (List.range 32).filter (fun b => s.roleOf cluster b == role)

/-- A line that a cluster cache may hold: a page of cache field 00, and a way mask that is not 0 (R213, R214). -/
def State.inCache (s : State) (vf : Nat) (cache : BitVec 2) (line : Nat) : Bool :=
  cache == 0#2 && s.mask (sliceOf line) vf != 0

/-- The releases that stand in a line. -/
def lineRels (rels : List RelRec) (line : Nat) : List RelRec := rels.filter (fun x => meet x.loc x.size (.hbm (128 * line) 0) 128)

/-- A line is filled into one of the cluster's CACHE banks, in place of the line of its set there, with the versions of its bytes and the
releases that stand in it; its set is its number modulo 4,096 (R209, R213; DESIGN CHOICE, notes/assumptions/17.md). -/
def State.fill (s : State) (cluster vf line : Nat) : State :=
  let banks := s.banksIn cluster .cache
  if banks = [] ∨ Tab.get LineState.clean s.hline line ≠ LineState.clean then s
  else
    let (k, s) := s.pick banks.length
    let bank := banks.getD k 0
    let (n, s) := s.fresh
    { s with ccache := { cluster := cluster, vf := vf, line := line, bank := bank, age := n,
                         bytes := s.physBytes (128 * line) 128,
                         vers := Tab.putAll 0 [] 0 ((List.range 128).map (fun i => s.verOf (128 * line + i))),
                         rels := lineRels s.rels line }
               :: s.ccache.filter (fun c => !(c.cluster == cluster
                    && (c.line == line || (c.bank == bank && c.line % 4096 == line % 4096)))) }

/-- The cluster holds a line. -/
def State.cacheHolds (s : State) (cluster line : Nat) : Bool := s.ccache.any (fun c => c.cluster == cluster && c.line == line)

/-- The line of a place that a cluster holds, changed. -/
def State.updLine (s : State) (cluster : Nat) (loc : Loc) (f : CacheLine → CacheLine) : State :=
  match loc with
  | .hbm pa _ =>
    if s.cacheHolds cluster (pa / 128) then
      { s with ccache := s.ccache.map (fun c => if c.cluster = cluster ∧ c.line = pa / 128 then f c else c) }
    else s
  | .store _ _ | .maj _ _ => s

/-- A held line after a store has updated it, its bytes in the versions they have at home (R213). -/
def CacheLine.stored (c : CacheLine) (loc : Loc) (version : Nat → Nat) (bs : List Byte) : CacheLine :=
  { c with bytes := patch c.bytes loc.inLine bs,
           vers := Tab.putAll 0 c.vers loc.inLine ((List.range bs.length).map version),
           rels := c.rels.map (fun x => x.mark loc bs.length true) }

/-- A store updates the line where the issuing cluster holds it (R213). -/
def State.through (s : State) (cluster : Nat) (loc : Loc) (bs : List Byte) : State :=
  s.updLine cluster loc (fun c => c.stored loc (fun i => s.verOf (128 * c.line + loc.inLine + i)) bs)

/-- The held line that a POP or CLU read of n bytes may use: none filled before the reader's bar or mark, and no byte that it has seen in
a later version (R213, R217, R344). -/
def State.heldLine (s : State) (cluster bar : Nat) (k : Know) (pa n : Nat) : Option CacheLine :=
  s.ccache.find? (fun c => c.cluster == cluster && c.line == pa / 128 && decide (max bar k.mark ≤ c.age)
    && (List.range n).all (fun i => decide (Tab.get 0 k.seen (pa + i) ≤ Tab.get 0 c.vers (pa % 128 + i))))

/-- An agent that accesses memory: its cluster and function, and the control program whose knowledge bears on its reads. -/
structure Agent where
  cluster : Nat
  vf : Nat
  cp : CpRef
  deriving DecidableEq, Repr

/-- A control program has read or written these bytes in these versions; version 0 says nothing (R344). -/
def State.see (s : State) (r : CpRef) (pa n : Nat) (version : Nat → Nat) : State :=
  if (List.range n).all (fun i => version i == 0) then s
  else s.updCp r (fun c => { c with know := c.know.see pa n version })

/-- It has read or written the bytes of a place as their home holds them (R344, R346). -/
def State.seeHome (s : State) (r : CpRef) (loc : Loc) (n : Nat) : State :=
  match loc with
  | .hbm pa _ => s.see r pa n (fun i => s.verOf (pa + i))
  | .store _ _ | .maj _ _ => s

/-- Where a read takes its bytes: from a line that the reader's cluster holds and its scope, page and knowledge let it use, or from their
home, which is a choice (R213, R345). -/
def State.source (s : State) (g : Agent) (viaCache : Bool) (loc : Loc) (n : Nat) : State × Option CacheLine :=
  match loc, s.cpOf g.cp with
  | .hbm pa cache, some (_, c) =>
    if viaCache && s.inCache g.vf cache (pa / 128) then
      match s.heldLine g.cluster c.bar c.know pa n with
      | none => (s, none)
      | some l => let (k, s) := s.pick 2; (s, if k = 0 then some l else none)
    else (s, none)
  | _, _ => (s, none)

/-- A read of n bytes from its source; a load's read from home fills the line where its cluster may hold it (R213). -/
def State.readFrom (s : State) (g : Agent) (fills : Bool) (src : Option CacheLine) (loc : Loc) (n : Nat) : Met (List Byte) :=
  match src with
  | some c =>
    (s.see g.cp (128 * c.line + loc.inLine) n (fun i => Tab.get 0 c.vers (loc.inLine + i)), .ok ((c.bytes.drop loc.inLine).take n))
  | none =>
    match s.readLoc loc n with
    | (s, .error e) => (s, .error e)
    | (s, .ok bs) =>
      let s := s.seeHome g.cp loc n
      (match loc with
        | .hbm pa cache => if fills && s.inCache g.vf cache (pa / 128) then s.fill g.cluster g.vf (pa / 128) else s
        | .store _ _ | .maj _ _ => s, .ok bs)

/-- A read at the home slice. -/
def State.readHome (s : State) (g : Agent) (loc : Loc) (n : Nat) : Met (List Byte) := s.readFrom g false none loc n

/-- A write of an agent in a cluster: at its home, and through the cluster's own cache (R213). -/
def State.writeAt (s : State) (cluster vf : Nat) (loc : Loc) (bs : List Byte) : Met (List Nat) :=
  match s.writeLoc vf loc bs with
  | (s, .ok ns) => (s.through cluster loc bs, .ok ns)
  | (s, .error e) => (s, .error e)

/-- A write of a control program, which knows what it has written (R344 step 1). -/
def State.writeBy (s : State) (g : Agent) (loc : Loc) (bs : List Byte) : Met (List Nat) :=
  match s.writeAt g.cluster g.vf loc bs with
  | (s, .ok ns) => (s.seeHome g.cp loc bs.length, .ok ns)
  | (s, .error e) => (s, .error e)

/-! ### Releases and acquires (R342 to R344) -/

/-- A scope, as an agent names it, that includes another agent. -/
def reaches (scope : Scope) (pid cluster pid' cluster' : Nat) : Bool :=
  match scope with
  | .pop => pid == pid'
  | .clu => cluster == cluster'
  | .dev | .sys => true

/-- The same release, whichever of its bytes are hidden. -/
def RelRec.same (a b : RelRec) : Bool := { a with hidden := [] } == { b with hidden := [] }

/-- A list of releases with one more, seen whole. -/
def putRel (x : RelRec) (xs : List RelRec) : List RelRec := x :: xs.filter (fun y => !x.same y)

/-- A release stands at the bytes it wrote or arrived at, with what its agent passes on; its cluster's held line has them too. -/
def State.stand (s : State) (loc : Loc) (n : Nat) (scope : Scope) (pid cluster : Nat) (arrival : Bool) (k : Know) : State :=
  let x : RelRec :=
    { loc := loc, size := n, scope := scope, popid := pid, cluster := cluster, arrival := arrival, know := k, hidden := [] }
  ({ s with rels := putRel x s.rels }).updLine cluster loc (fun c => { c with rels := putRel x c.rels })

/-- A release at home as a held line comes to have it that takes n of its bytes: the others as the line had them. -/
def RelRec.takenBy (old : List RelRec) (loc : Loc) (n : Nat) (x : RelRec) : RelRec :=
  let was := match old.find? (fun y => x.same y) with
    | some y => y.hidden
    | none => Tab.putAll false [] 0 (List.replicate x.size true)
  { x with hidden := was }.mark loc n false

/-- Bytes that an atomic or an arrival has written: a read of them observes every release that stood there, at home and in the cluster's
held line (R343). -/
def State.revive (s : State) (cluster : Nat) (loc : Loc) (n : Nat) : State :=
  let s : State := { s with rels := s.rels.map (fun x => x.mark loc n false) }
  let mine := s.rels.filter (fun x => meet x.loc x.size loc n)
  s.updLine cluster loc (fun c =>
    { c with rels := mine.map (RelRec.takenBy c.rels loc n) ++ c.rels.filter (fun y => !mine.any (fun x => x.same y)) })

/-- A read of these bytes takes the release's value, or one that an atomic or arrival has written since (R343). -/
def RelRec.shows (x : RelRec) (loc : Loc) (n : Nat) : Bool :=
  (List.range x.size).any (fun i => !Tab.get false x.hidden i && meet (x.loc.plus i) 1 loc n)

/-- The releases that a read of n bytes observes where it takes them: a WAITR, PWAIT or RWGET observes every arrival that its word's
unit has served (R343). -/
def State.observed (s : State) (src : Option CacheLine) (waits : Bool) (loc : Loc) (n : Nat) : List RelRec :=
  (match src with | some c => c.rels | none => s.rels).filter (fun x =>
    x.shows loc n || (waits && x.arrival && meet x.loc x.size loc n))

/-- The release synchronises with an acquire of this scope that observes it (R343). -/
def RelRec.syncs (x : RelRec) (scope : Scope) (pid cluster : Nat) : Bool :=
  reaches x.scope x.popid x.cluster pid cluster && reaches scope pid cluster x.popid x.cluster

/-- What some releases pass on. -/
def passedOn (xs : List RelRec) : Know := xs.foldl (fun k x => k.merge x.know) Know.zero

/-- A control program learns; nothing is no news. -/
def State.teach (s : State) (r : CpRef) (k : Know) : State := if k = Know.zero then s else s.updCp r (Cp.learn k)

/-- An acquire that observes these releases: the control program learns what those that synchronise with it pass on. At DEV and SYS it
learns what handed-over populations had released, and its later loads use no line that its cluster holds now. Where no release
synchronises the spec both forbids and allows such a line (R217, R349), so the model leaves it open (R33, R343, R344; DESIGN CHOICE,
notes/assumptions/61.md). -/
def State.acquireAt (s : State) (r : CpRef) (pid cluster : Nat) (scope : Scope) (xs : List RelRec) : State :=
  let ys := xs.filter (fun x => x.syncs scope pid cluster)
  let s := s.teach r (passedOn ys)
  match scope with
  | .pop | .clu => s
  | .dev | .sys =>
    let s := s.teach r s.handed
    let bar := fun s : State => s.updCp r (fun c => { c with bar := s.serial })
    if ys = [] ∧ s.ccache.any (fun l => l.cluster == cluster) then
      let (k, s) := s.pick 2
      if k = 0 then bar s else s
    else bar s

/-- Under which key an acquire fence finds what a plain read has observed: its population's releases, those of others of its cluster, and
those of other agents (R230, R339). -/
def RelRec.nearness (x : RelRec) (pid cluster : Nat) : Nat := if x.popid = pid then 0 else if x.cluster = cluster then 1 else 2

/-- A plain read that observes these releases leaves those that reach it for a later acquire fence (R230, R342). -/
def State.notice (s : State) (r : CpRef) (pid cluster : Nat) (xs : List RelRec) : State :=
  let ys := xs.filter (fun x => reaches x.scope x.popid x.cluster pid cluster)
  if ys = [] then s
  else s.updCp r (fun c => { c with observed := ys.foldl (fun t x =>
    let key := x.nearness pid cluster
    Tab.put Know.zero t key ((Tab.get Know.zero t key).merge x.know)) c.observed })

/-! ### Translation (R207, R208, R306 to R308) -/

/-- What an access needs of its leaf (R207): an atomic needs read, write and atomic; an arrival reads and writes. -/
inductive Need where
  | read | write | both | atomic
  deriving DecidableEq, Repr

/-- The page size of a leaf at a level (R207). -/
def pageBytes : Nat → Nat
  | 2 => 2 ^ 36
  | 3 => 2 ^ 26
  | _ => 2 ^ 16

/-- The frame of an entry as a byte address (R306). -/
def frameOf (e : Word64) : Nat := 65536 * (e.extractLsb' 16 36).toNat

/-- A table entry read at its home slice (R307): a bad or poisoned line gives its cause, and bits outside the fields give
PERMISSION (R306). -/
def State.entryAt (s : State) (pa : Nat) : Except LaneCause Word64 :=
  if hbmBytes ≤ pa then .error .permission
  else
    match (s.lineState (.hbm pa 0)).cause (pa % 128) 8 with
    | some e => .error e
    | none => .ok ((wordOfBytes (s.physBytes pa 8)).getD 0)

/-- MAJ in a leaf that the hypervisor did not write for the function's tables is refused (R306). -/
def State.majRefused (s : State) (vf pa : Nat) (e : Word64) : Bool := e.getLsbD 8 && Tab.get 0 s.hvWords (pa / 8) != vf + 1

/-- The walk from a table of a level: the leaf with its level (R207). -/
def State.walkFrom (s : State) (vf va : Nat) : Nat → Nat → Except LaneCause (Nat × Word64)
  | 0, _ => .error .permission
  | fuel + 1, table =>
    let level := 4 - fuel
    let pa := table + 8 * (va / 2 ^ (16 + 10 * fuel) % 1024)
    match s.entryAt pa with
    | .error e => .error e
    | .ok e =>
      if !e.getLsbD 0 || e.extractLsb' 52 12 != 0 || e.extractLsb' 14 2 != 0 then .error .permission
      else if e.getLsbD 5 then (if level = 1 ∨ s.majRefused vf pa e = true then .error .permission else .ok (level, e))
      else s.walkFrom vf va fuel (frameOf e)

/-- The entries that a walk from a table reads. -/
def State.walkReads (s : State) (va : Nat) : Nat → Nat → List Nat
  | 0, _ => []
  | fuel + 1, table =>
    let pa := table + 8 * (va / 2 ^ (16 + 10 * fuel) % 1024)
    pa :: (match s.entryAt pa with
      | .error _ => []
      | .ok e => if e.getLsbD 0 && !e.getLsbD 5 then s.walkReads va fuel (frameOf e) else [])

/-- The walk of a global address from the asid directory (R207, R307). -/
def State.walk (s : State) (vf : Nat) (asid : BitVec 12) (va : Nat) : Except LaneCause (Nat × Word64) :=
  match s.entryAt (frameOf (s.vfWord vf 1) + 8 * asid.toNat) with
  | .error e => .error e
  | .ok d => if d.getLsbD 0 then s.walkFrom vf va 4 (frameOf d) else .error .permission

/-- The directory entry of an asid. -/
def State.dirAddr (s : State) (vf : Nat) (asid : BitVec 12) : Nat := frameOf (s.vfWord vf 1) + 8 * asid.toNat

/-- A walk that meets an uncorrectable error poisons the line it met it in, as every read does (R211, R238). -/
def State.walkPoisons (s : State) (vf : Nat) (asid : BitVec 12) (va : Nat) : State :=
  let reads := match s.entryAt (s.dirAddr vf asid) with
    | .error _ => []
    | .ok d => if d.getLsbD 0 then s.walkReads va 4 (frameOf d) else []
  (s.dirAddr vf asid :: reads).foldl (fun s pa => (s.touch (.hbm pa 0) 8).1) s

/-- The place a leaf gives an address, or the first cause in the order of R207. -/
def State.leafLoc (s : State) (level : Nat) (e : Word64) (va : Nat) (need : Need) : Except LaneCause Loc :=
  let size := pageBytes level
  let pa := frameOf e / size * size + va % size
  let maj := e.getLsbD 8
  let set := (e.extractLsb' 9 4).toNat
  if e.extractLsb' 6 2 = 3#2 ∨ (if maj then stackBytes else hbmBytes) ≤ pa ∨ (maj ∧ !majValid (s.majEntry set)) then
    .error .permission
  else if !e.getLsbD 1 then .error .notPresent
  else if (match need with
      | .read => !e.getLsbD 2
      | .write => !e.getLsbD 3
      | .both => !(e.getLsbD 2 && e.getLsbD 3)
      | .atomic => !(e.getLsbD 2 && e.getLsbD 3 && e.getLsbD 4)) then .error .permission
  else if e.getLsbD 13 then .error .poison
  else .ok (if maj then .maj set pa else .hbm pa (e.extractLsb' 6 2))

/-- The TLB entry of a unit for an address (R308). -/
def State.tlbHit (s : State) (units : List Nat) (vf : Nat) (asid : BitVec 12) (va : Nat) : Option TlbEntry :=
  s.tlb.find? (fun t => units.contains t.unit && t.vf == vf && t.asid == asid && t.page == va / pageBytes t.level)

/-- The entries of a TLB: 512 of a core, 8,192 of a cluster (R207). -/
def tlbSize (unit : Nat) : Nat := if unit < 96 then 512 else 8192

/-- A leaf enters the TLBs of its units in place of an entry for the same page; a full TLB loses its oldest entry. -/
def State.tlbFill (s : State) (units : List Nat) (vf : Nat) (asid : BitVec 12) (va level : Nat) (leaf : Word64) : State :=
  units.foldl (fun s u =>
    let rest := s.tlb.filter (fun t => !(t.unit == u && t.vf == vf && t.asid == asid && t.page == va / pageBytes t.level))
    let mine := rest.filter (fun t => t.unit == u)
    let rest := if tlbSize u ≤ mine.length then rest.filter (fun t => some t != mine.getLast?) else rest
    { s with tlb := { unit := u, vf := vf, asid := asid, level := level, page := va / pageBytes level, leaf := leaf } :: rest }) s

/-- Translation of a global address for an access (R204, R207, R308): an address with a bit of [63:56] set has no page; a TLB
entry that no longer agrees with the tables may still be used until its invalidation completes. -/
def State.translate (s : State) (units : List Nat) (vf : Nat) (asid : BitVec 12) (ea : Word64) (need : Need) : Met Loc :=
  if ea.extractLsb' 56 8 ≠ 0 then (s, .error .permission)
  else
    let va := ea.toNat
    let walked := fun s : State =>
      match s.walk vf asid va with
      | .error e => (if e = .uncorrectable then s.walkPoisons vf asid va else s, .error e)
      | .ok (level, leaf) =>
        match s.leafLoc level leaf va need with
        | .ok l => (s.tlbFill units vf asid va level leaf, .ok l)
        | .error e => (s, .error e)
    match s.tlbHit units vf asid va with
    | none => walked s
    | some t =>
      if (match s.walk vf asid va with
          | .ok w => w == (t.level, t.leaf)
          | .error _ => false) then (s, s.leafLoc t.level t.leaf va need)
      else
        let (k, s) := s.pick 2
        if k = 0 then (s, s.leafLoc t.level t.leaf va need) else walked s

/-- The TLBs of a lane's accesses, and of the CP's (R207). -/
def Pop.laneUnits (p : Pop) (lane : Nat) : List Nat := [p.coreOf lane, 96 + p.cluster]

def Pop.cpUnits (p : Pop) : List Nat := [p.home, 96 + p.cluster]

/-- The cluster-store byte of a window offset (R211). -/
def Pop.winLoc (p : Pop) (off : Nat) : Loc := .store p.cluster (524288 * p.base + off)

/-- The leaves that map the pages of a range, each with its first address, its size and its place for a read (R234): a page that
gives any cause is left out. -/
def State.leavesFrom (s : State) (vf lo hi : Nat) : Nat → Nat → Nat → List (Nat × Nat × Loc)
  | 0, _, _ => []
  | fuel + 1, va, table =>
    let level := 4 - fuel
    let size := 2 ^ (16 + 10 * fuel)
    (List.range 1024).flatMap (fun k =>
      let base := va + k * size
      if base < hi ∧ lo < base + size then
        match s.entryAt (table + 8 * k) with
        | .error _ => []
        | .ok e =>
          if !e.getLsbD 0 || e.extractLsb' 52 12 != 0 || e.extractLsb' 14 2 != 0 then []
          else if e.getLsbD 5 then
            if level = 1 ∨ s.majRefused vf (table + 8 * k) e = true then []
            else match s.leafLoc level e base .read with
              | .ok l => [(base, size, l)]
              | .error _ => []
          else s.leavesFrom vf lo hi fuel base (frameOf e)
      else [])

def State.leaves (s : State) (vf : Nat) (asid : BitVec 12) (lo hi : Nat) : List (Nat × Nat × Loc) :=
  match s.entryAt (frameOf (s.vfWord vf 1) + 8 * asid.toNat) with
  | .error _ => []
  | .ok d => if d.getLsbD 0 then s.leavesFrom vf lo hi 4 0 (frameOf d) else []

/-- A physical line that overlaps a range of addresses through one of its leaves. -/
def lineInRange (leaves : List (Nat × Nat × Loc)) (lo hi line : Nat) : Bool :=
  leaves.any (fun x => match x.2.2 with
    | .hbm pa _ =>
      decide (pa ≤ 128 * line) && decide (128 * line < pa + x.2.1)
        && decide (x.1 + (128 * line - pa) < hi) && decide (lo < x.1 + (128 * line - pa) + 128)
    | .store _ _ | .maj _ _ => false)

/-- The entry that maps a page, as the address of its leaf (R207). -/
def State.leafAddr (s : State) (va : Nat) : Nat → Nat → Option Nat
  | 0, _ => none
  | fuel + 1, table =>
    let pa := table + 8 * (va / 2 ^ (16 + 10 * fuel) % 1024)
    match s.entryAt pa with
    | .error _ => none
    | .ok e => if !e.getLsbD 0 then none else if e.getLsbD 5 then some pa else s.leafAddr va fuel (frameOf e)

/-- Firmware makes the page of an address present: it sets the present bit of the leaf, which keeps its frame
(R303, R306; DESIGN CHOICE, notes/assumptions/7.md). -/
def State.makePresent (s : State) (vf : Nat) (asid : BitVec 12) (ea : Word64) : State :=
  match s.entryAt (frameOf (s.vfWord vf 1) + 8 * asid.toNat) with
  | .error _ => s
  | .ok d =>
    if !d.getLsbD 0 then s
    else
      match s.leafAddr ea.toNat 4 (frameOf d) with
      | none => s
      | some pa =>
        let kept := Tab.get 0 s.hvWords (pa / 8)
        let s := s.writePhys vf 0 pa [s.physByte pa ||| 2#8]
        { s with hvWords := Tab.put 0 s.hvWords (pa / 8) kept }

/-- The page of an address is not present: firmware has something to repair. -/
def State.missing (s : State) (vf : Nat) (asid : BitVec 12) (ea : Word64) : Bool :=
  match s.walk vf asid ea.toNat with
  | .ok (level, leaf) =>
    (match s.leafLoc level leaf ea.toNat .read with | .error .notPresent => true | .error _ | .ok _ => false)
  | .error _ => false

/-- The page of an address is present: a walk reaches a leaf that says so. -/
def State.present (s : State) (vf : Nat) (asid : BitVec 12) (ea : Word64) : Bool :=
  match s.walk vf asid ea.toNat with
  | .ok (_, leaf) => leaf.getLsbD 1
  | .error _ => false

/-! ### Stamps (R219, R305) -/

/-- The line and home slice by which a global place is stamped; a majority line counts by its home copy. -/
def State.stampLine (s : State) : Loc → Option (Nat × Nat)
  | .hbm pa _ => some (sliceOf (pa / 128), pa / 128)
  | .maj set off =>
    let e := s.majEntry set
    some (majSlice e (off / 128), copyLine e (majHome e) (off / 128))
  | .store _ _ => none

/-- An access from population pid in a cluster is outside a stamp's instance, and its scope does not include the stamped agent
(R305). -/
def refused (t : Stamp) (pid cluster : Nat) (scope : Scope) : Bool :=
  (match t.scope with
    | .pop => pid != t.popid
    | .clu => cluster != t.clu
    | .dev | .sys => false)
  && (match scope with
    | .pop => pid != t.popid
    | .clu => cluster != t.clu
    | .dev | .sys => false)

/-- Writes a stamp, in place or into the least recently stamped entry of a full table (R305). -/
def State.putStamp (s : State) (slice line pid cluster : Nat) (scope : Scope) : State :=
  let (n, s) := s.fresh
  let rest := s.stamps.filter (fun t => !(t.slice == slice && t.line == line))
  let mine := rest.filter (fun t => t.slice == slice)
  let rest := if 2048 ≤ mine.length then rest.filter (fun t => some t != mine.getLast?) else rest
  { s with stamps := { slice := slice, scope := scope, popid := pid, clu := cluster, line := line, age := n } :: rest }

/-- A synchronising access at a place is refused by the stamp held there (R219, R305). -/
def State.stampRefuses (s : State) (pid cluster : Nat) (scope : Scope) (loc : Loc) : Bool :=
  match s.stampLine loc with
  | none => false
  | some (slice, line) =>
    match s.stamps.find? (fun t => t.slice == slice && t.line == line) with
    | some t => refused t pid cluster scope
    | none => false

/-- A synchronising access that its home serves: refused, or stamped (R219, R305). -/
def State.stampCheck (s : State) (pid cluster : Nat) (scope : Scope) (loc : Loc) : State × Bool :=
  match s.stampLine loc with
  | none => (s, false)
  | some (slice, line) =>
    match s.stamps.find? (fun t => t.slice == slice && t.line == line) with
    | some t => if refused t pid cluster scope then (s, true) else (s.putStamp slice line pid cluster scope, false)
    | none => (s.putStamp slice line pid cluster scope, false)

/-- The identity of a host or peer in a stamp (R305). -/
def hostPopid : Nat := 0x3FFF
def hostCluster : Nat := 31

/-! ### Rennet words (R324 to R326) -/

/-- arrive(n) of R326 on the 16 bytes of a word: the new word and the prior generation. -/
def arriveWord (w : BitVec 128) (n : Word32) (bits : Word32) : BitVec 128 × Word32 :=
  let target := (w.extractLsb' 0 32).toNat
  let c := (w.extractLsb' 32 32).toNat + n.toNat
  let gen := w.extractLsb' 64 32
  let status := w.extractLsb' 96 32 ||| bits
  if target = 0 then (status ++ gen ++ BitVec.ofNat 32 c ++ w.extractLsb' 0 32, gen)
  else (status ++ (gen + BitVec.ofNat 32 (c / target)) ++ BitVec.ofNat 32 (c % target) ++ w.extractLsb' 0 32, gen)

/-- A value from its bytes, the least significant first (R5). -/
def natOfBytes : List Byte → Nat
  | [] => 0
  | b :: l => b.toNat + 256 * natOfBytes l

def word128 (bs : List Byte) : BitVec 128 := BitVec.ofNat 128 (natOfBytes bs)

/-- The generation of a rennet word. -/
def genOf (w : BitVec 128) : Word32 := w.extractLsb' 64 32

/-- A WAITR passes when the generation has moved past g by less than 2^31 turns (R330). -/
def turned (gen g : Word32) : Bool := let d := (gen - g).toNat; decide (1 ≤ d) && decide (d < 2 ^ 31)

/-- An arrival at the unit of a rennet word: the prior generation, the turns it made and the majority writes it sent; a word
that cannot be read takes no arrival (R326, R401). -/
def State.arrive (s : State) (cluster vf : Nat) (loc : Loc) (n bits : Word32) : Met (Word32 × Word32 × List Nat) :=
  match s.readLoc loc 16 with
  | (s, .error e) => (s, .error e)
  | (s, .ok bs) =>
    let r := arriveWord (word128 bs) n bits
    match s.writeAt cluster vf loc (bytesOf 16 r.1) with
    | (s, .error e) => (s, .error e)
    | (s, .ok ns) =>
      let s := s.revive cluster loc 16
      (if genOf r.1 = r.2 then s else s.signal (samePlace loc), .ok (r.2, genOf r.1 - r.2, ns))

/-- A lost arrival for a population: firmware's record and the errors counter (R335, R401). -/
def State.lostArrival (s : State) (pid vf : Nat) (addr : Word64) (agent : Nat) : State :=
  { s.updPop pid (fun p => { p with errors := if p.errors = BitVec.allOnes 32 then p.errors else p.errors + 1 }) with
    errRecords := s.errRecords ++ [{ vf := vf, popid := pid, addr := addr, code := agent }] }

/-- An arrival of an engine of a population on a window word, which releases what the engine knows (R327, R342, R401); after a fatal error none is made (R377). -/
def State.engineArrive (s : State) (pid : Nat) (off : Nat) (n bits : Word32) (agent : Nat) (k : Know) : State :=
  match (if s.sys.recovery then none else s.pop pid) with
  | none => s
  | some p =>
    match s.arrive p.cluster p.vf (p.winLoc off) n bits with
    | (s, .ok _) => s.stand (p.winLoc off) 16 .pop pid p.cluster true k
    | (s, .error _) => s.lostArrival pid p.vf (BitVec.ofNat 64 off) agent

end Sys2Proof.Machine
end

