-- ==== Sys2Proof/Machine/Pipe.lean ====
section
/-! DEFINITION. The memory pipeline of a CP: the checks of R206, lane faults (R28, R29, R221), entering an access, when an access
may perform (R216, R217), and performing it (R224 to R229, R236, R326). -/

namespace Sys2Proof.Machine

/-! ### The checks of R206 -/

/-- One access that a word asks for: its lane (none for a CP-level word), its address and size, and whether it writes. -/
structure Want where
  space : Space
  lane : Option Nat
  ea : Word64
  size : Nat
  write : Bool
  deriving DecidableEq, Repr

def laneWord64 : Option Nat → Word64
  | some i => BitVec.ofNat 64 i
  | none => allOnes64

/-- The bytes of a window access as cluster-store addresses. -/
def Want.first (p : Pop) (w : Want) : Nat := 524288 * p.base + w.ea.toNat

/-- The role a space needs (R206 step 3). -/
def roleNeeded : Space → BankRole
  | .f => .fifo
  | .g | .w => .scratch

/-- The lowest window offset at which an access meets a lock that refuses it (R206 step 4, R220). -/
def State.lockHit (s : State) (p : Pop) (first size : Nat) (write : Bool) : Option Nat :=
  let hits := s.locks.filter (fun l => l.cluster == p.cluster && (write || l.write)
    && decide (l.first < first + size) && decide (first ≤ l.last))
  match hits with
  | [] => none
  | l :: ls => some (ls.foldl (fun m x => min m (max first x.first)) (max first l.first) - 524288 * p.base)

/-- Steps 1 to 4 of R206 over all accesses of a word: the first that fails, with taddr and tlane of R314. -/
def State.checkWants (s : State) (p : Pop) (ws : List Want) : Option (Trap × Word64 × Word64) :=
  let win := ws.filter (fun w => w.space != .g)
  match ws.find? (fun w => w.ea.toNat % w.size != 0) with
  | some w => some (.align, w.ea, laneWord64 w.lane)
  | none =>
    match win.find? (fun w => decide (p.win < w.ea.toNat + w.size)) with
    | some w => some (.window, w.ea, laneWord64 w.lane)
    | none =>
      match win.find? (fun w => s.roleOf p.cluster (p.base + w.ea.toNat / 524288) != roleNeeded w.space) with
      | some w => some (.bankRole, w.ea, laneWord64 w.lane)
      | none =>
        match win.find? (fun w => (s.lockHit p (w.first p) w.size w.write).isSome) with
        | some w => some (.rangeLock, BitVec.ofNat 64 ((s.lockHit p (w.first p) w.size w.write).getD 0), laneWord64 w.lane)
        | none => none

/-- The place of one access: translated for a lane on its core or for the CP on the home core (R207). -/
def State.place (s : State) (p : Pop) (w : Want) (need : Need) : Met Loc :=
  match w.space with
  | .w | .f => (s, .ok (p.winLoc w.ea.toNat))
  | .g => s.translate (match w.lane with | some i => p.laneUnits i | none => p.cpUnits) p.vf p.asid w.ea need

/-- The places of all accesses, or the first lane cause (R206 step 5). -/
def State.placeAll (s : State) (p : Pop) (need : Need) : List Want → State × Except (Want × LaneCause) (List Loc)
  | [] => (s, .ok [])
  | w :: ws =>
    match s.place p w need with
    | (s, .error e) => (s, .error (w, e))
    | (s, .ok l) =>
      match s.placeAll p need ws with
      | (s, .ok ls) => (s, .ok (l :: ls))
      | (s, .error e) => (s, .error e)

/-- The place or the cause of each access on its own (R221). -/
def State.placeEach (s : State) (p : Pop) (need : Need) : List Want → State × List (Want × Except LaneCause Loc)
  | [] => (s, [])
  | w :: ws =>
    let a := s.place p w need
    let b := a.1.placeEach p need ws
    (b.1, (w, a.2) :: b.2)

/-! ### Parking lanes (R28, R29) -/

/-- The fragment page of an address (R302). -/
def pageOf (ea : Word64) : BitVec 40 := ea.extractLsb' 16 40

/-- Lanes become parked in an entry or an overflow slot (R154). -/
def Pop.park (p : Pop) (lanes : List Nat) (ovf : Bool) (frag : Nat) : Pop :=
  { p with status := lanes.foldl (fun t i =>
      Tab.put LaneStatus.zero t i
        { ovf := ovf, dead := false, parked := true, frag := BitVec.ofNat 8 frag, cause := LaneCause.notPresent.code }) p.status }

/-- A saturating 32-bit count (R335). -/
def addSat (c : Word32) (n : Nat) : Word32 := BitVec.ofNat 32 (min (2 ^ 32 - 1) (c.toNat + n))

/-- More lanes join an entry at a word; it is then PENDING (R28, R303). -/
def Frag.join (f : Frag) (ls : List (Nat × Word64)) (word : Word64) : Frag :=
  { f with state := .pending, lanes := f.lanes + ls.length, more := f.more || ls.any (fun e => pageOf e.2 != f.page),
           late := ls.foldl (fun t e => Tab.put f.wordaddr t e.1 word) f.late }

/-- A new PENDING entry (R302). -/
def Frag.made (ctx : Nat) (ls : List (Nat × Word64)) (word : Word64) (born : Nat) : Frag :=
  let page := pageOf ((ls.head?.map (fun e => e.2)).getD 0)
  { state := .pending, ctx := ctx, lanes := ls.length, more := ls.any (fun e => pageOf e.2 != page), page := page,
    wordaddr := word, born := born, late := [] }

/-- Lanes go to the overflow slot of their CP's context (R28, R29). -/
def State.parkOverflow (s : State) (r : CpRef) (core ctx : Nat) (ls : List (Nat × Word64)) (word : Word64) : State :=
  let o := s.ovf core ctx
  let (n, s) := s.fresh
  let s := if o.state = .dead then
      match s.pop r.pid with
      | some p =>
        let old := p.lanesIn true ctx
        (s.countLanes r.pid p 0x00D (p.laneList old)).setPop r.pid (p.kill old none)
      | none => s
    else s
  let f := match o.state with
    | .pending | .ready => o.join ls word
    | .free | .dead => Frag.made ctx ls word n
  (s.setOvf core ctx f).updPop r.pid (fun p => p.park (ls.map (fun e => e.1)) true ctx)

/-- The NOTPRESENT lanes of a region-internal word park; the answer says whether FRAGFULL is due (R28, R29). -/
def State.parkLanes (s : State) (r : CpRef) (p : Pop) (c : Cp) (ls : List (Nat × Word64)) : State × Bool :=
  if ls = [] then (s, false)
  else
    let core := p.home
    let lanes := ls.map (fun e => e.1)
    let s := s.updPop r.pid (fun p => { p with faults := addSat p.faults ls.length })
    let s := s.updCp r (fun c => { c with late := c.late ||| setOf lanes })
    let live := s.fragsOf core c.ctx
    if live.length < 4 then
      let free := (List.range 256).filter (fun i => (s.frag core i).state == .free)
      if free = [] then (s.parkOverflow r core c.ctx ls c.wordAddr, true)
      else
        let (k, s) := s.pick free.length
        let i := free.getD k 0
        let (n, s) := s.fresh
        let s := (s.setFrag core i (Frag.made c.ctx ls c.wordAddr n)).count core r.pid 0x00C 1
        (s.updPop r.pid (fun p => p.park lanes false i), false)
    else
      let open_ := live.filter (fun e => e.2.state == .pending || e.2.state == .ready)
      match open_ with
      | [] => (s.parkOverflow r core c.ctx ls c.wordAddr, false)
      | e :: es =>
        let (i, f) := es.foldl (fun b x => if b.2.born < x.2.born then x else b) e
        ((s.setFrag core i (f.join ls c.wordAddr)).updPop r.pid (fun p => p.park lanes false i), false)

/-! ### Entering an access -/

/-- Complete accesses leave: a ticket only after every older ticket (R333). -/
def retire : Bool → List Access → List Access
  | _, [] => []
  | held, a :: l =>
    if a.complete && !(a.ticket && held) then retire held l else a :: retire (held || a.ticket) l

/-- Complete asynchronous operations leave, the oldest first (R333). -/
def retireAsync (l : List AsyncOp) : List AsyncOp := l.dropWhile (fun a => a.complete)

/-- An access with no items yet. -/
def newAccess (serial : Nat) (c : Cp) (op : AccOp) (scope : Scope) (order : MOrder) (ticket : Bool) (items : List Item) : Access :=
  { serial := serial, word := c.wordAddr, op := op, scope := scope, order := order, ticket := ticket, items := items,
    performed := false, complete := false, mode := c.mode, flags := 0, majWait := [], fault := none }

/-- The access enters the pipeline of its CP; one that performs no lane is complete at once (R23, R333). -/
def State.enter (s : State) (r : CpRef) (c : Cp) (op : AccOp) (scope : Scope) (order : MOrder) (ticket : Bool)
    (items : List Item) : State :=
  let (n, s) := s.fresh
  let s := if ticket then (match s.pop r.pid with | some p => s.count p.home r.pid 0x007 1 | none => s) else s
  let a := newAccess n c op scope order ticket items
  let a := match op with
    | .fence | .tryPush _ _ _ _ => a
    | .scalars _ => { a with performed := true }
    | .lanes _ => { a with performed := true, complete := items = [] }
    | _ => if items = [] then { a with performed := true, complete := true } else a
  s.updCp r (fun c => { c with pend := retire false (c.pend ++ [a]) })

/-! ### What an access is -/

def releases (o : MOrder) : Bool := o == .rel || o == .ar
def acquires (o : MOrder) : Bool := o == .acq || o == .ar

def overlap (xs ys : List Item) : Bool := xs.any (fun x => ys.any (fun y => meet x.loc x.size y.loc y.size))

/-- An access that writes no memory. -/
def readsOnly : AccOp → Bool
  | .ld _ _ | .lds _ | .ldpl _ | .rwget _ | .scalars _ | .lanes _ => true
  | .st | .sts | .atom _ _ _ | .satom _ _ _ | .red _ _ | .stpl | .fence | .arrive _ _ | .rwset _ | .tryPush _ _ _ _ => false

/-- An access that returns what it read, and so observes a release (R343). -/
def returns : AccOp → Bool
  | .ld _ _ | .lds _ | .ldpl _ | .rwget _ | .atom _ _ _ | .satom _ _ _ => true
  | .st | .sts | .red _ _ | .stpl | .fence | .arrive _ _ | .rwset _ | .scalars _ | .lanes _ | .tryPush _ _ _ _ => false

def isRed : AccOp → Bool
  | .red _ _ => true
  | _ => false

def isArrive : AccOp → Bool
  | .arrive _ _ => true
  | _ => false

/-- A synchronising access: an order, an atomic, or a rennet word (R219); the window holds no stamps. -/
def Access.syncs (a : Access) : Bool :=
  a.order != .plain || (match a.op with
    | .atom _ _ _ | .satom _ _ _ | .red _ _ | .arrive _ _ | .rwget _ | .rwset _ => true
    | .ld _ _ | .lds _ | .st | .sts | .stpl | .ldpl _ | .fence | .scalars _ | .lanes _ | .tryPush _ _ _ _ => false)

/-! ### When an access may perform (R216, R217) -/

/-- Performed, with every majority write it sent complete (R245). -/
def State.settled (s : State) (a : Access) : Bool := a.performed && !s.majBusy a.majWait

/-- A lane transfer whose accesses have not all performed: they are accesses of its CP (R216, R235). -/
def transferring (x : AsyncOp) : Bool :=
  match x.kind with
  | .setTransfer _ _ => !x.complete
  | .copy _ | .flush _ _ _ | .net _ => false

/-- A lane transfer that touches these bytes and has not moved (R216, R235). -/
def transferMeets (p : Pop) (items : List Item) (x : AsyncOp) : Bool :=
  match x.kind with
  | .setTransfer _ ts =>
    !x.complete && ts.any (fun t => items.any (fun i => meet i.loc i.size t.loc t.size || meet i.loc i.size (p.winLoc t.off) t.size))
  | .copy _ | .flush _ _ _ | .net _ => false

/-- An access of a CP may perform: no earlier access to one of its bytes is unperformed (REDs among themselves apart, R229), no
earlier acquire is incomplete, a pending release fence holds later writes, and a release waits for every earlier access. -/
def State.mayPerform (s : State) (p : Pop) (c : Cp) (a : Access) : Bool :=
  let earlier := c.pend.filter (fun b => b.serial < a.serial)
  earlier.all (fun b =>
    (b.performed || !overlap a.items b.items || (isRed a.op && isRed b.op))
      && (!acquires b.order || b.complete)
      && (b.op != .fence || b.complete || readsOnly a.op)
      && (!releases a.order || s.settled b))
    && c.asyncs.all (fun x => !(decide (x.serial < a.serial) && (transferMeets p a.items x || (releases a.order && transferring x))))

/-- A fence is complete when the earlier accesses it orders have performed: reads for an acquire, all for a release (R217, R230). -/
def State.fenceDone (s : State) (xs : List AsyncOp) (earlier : List Access) (a : Access) : Bool :=
  earlier.all (fun b =>
    (b.op != .fence || b.complete)
      && (if releases a.order then s.settled b
          else (b.performed || (match b.op with | .st | .sts | .stpl | .red _ _ | .rwset _ => true | _ => false))))
    && xs.all (fun x => !(decide (x.serial < a.serial) && transferring x))

/-- Accesses without a ticket that have performed leave, and fences that are done (R217, R230, R245); a store that met a cause waits
for its trap (R221). -/
def State.settleList (s : State) (xs : List AsyncOp) : List Access → List Access → List Access
  | _, [] => []
  | done, a :: l =>
    let a :=
      if a.op = .fence then (if s.fenceDone xs done a then { a with performed := true, complete := true } else a)
      else if !a.ticket && s.settled a && a.fault.isNone then { a with complete := true } else a
    a :: s.settleList xs (done ++ [a]) l

/-- The keys under which a scope's acquire fence finds what plain reads have observed (R230, R339). -/
def fenceKeys : Scope → List Nat
  | .pop => [0]
  | .clu => [0, 1]
  | .dev | .sys => [0, 1, 2]

/-- What a completed fence leaves with its CP: an acquire brings in what earlier reads have observed, and at DEV and SYS what handed-over
populations had released, and bars every line held before it; a release is carried by later stores (R33, R217, R230, R342). -/
def Cp.fenceEffect (serial : Nat) (handed : Know) (c : Cp) (a : Access) : Cp :=
  let c := if acquires a.order then
      let c := (fenceKeys a.scope).foldl (fun c k => c.learn (Tab.get Know.zero c.observed k)) c
      match a.scope with
      | .pop | .clu => c
      | .dev | .sys => { c.learn handed with bar := serial }
    else c
  if releases a.order then { c with fenced := (a.scope, c.passes) :: c.fenced.filter (fun f => f.1 != a.scope) } else c

/-- The pipeline of a CP after something in it has performed. -/
def State.settle (s : State) (r : CpRef) : State :=
  s.updCp r (fun c =>
    let l := s.settleList c.asyncs [] c.pend
    let fences := l.filter (fun a => a.op == .fence && a.complete && c.pend.any (fun b => b.serial == a.serial && !b.complete))
    fences.foldl (Cp.fenceEffect s.serial s.handed) { c with pend := retire false l })

/-- Every CP's pipeline after a majority write has completed (R245). -/
def State.settleAll (s : State) : State :=
  s.pops.foldl (fun s e => e.2.cps.foldl (fun s x => s.settle { pid := e.1, cid := x.1 }) s) s

/-- Writing an access back into its CP's pipeline. -/
def State.setAccess (s : State) (r : CpRef) (a : Access) : State :=
  s.updCp r (fun c => { c with pend := c.pend.map (fun b => if b.serial = a.serial then a else b) })

/-- An access of a CP by its serial number. -/
def Cp.access (c : Cp) (serial : Nat) : Option Access := c.pend.find? (fun a => a.serial == serial)

def Cp.async (c : Cp) (serial : Nat) : Option AsyncOp := c.asyncs.find? (fun a => a.serial == serial)

def State.updAsync (s : State) (r : CpRef) (serial : Nat) (f : AsyncOp → AsyncOp) : State :=
  s.updCp r (fun c => { c with asyncs := retireAsync (c.asyncs.map (fun b => if b.serial = serial then f b else b)) })

/-! ### Refusals (R219) -/

/-- The first refusal of a clause is the SCOPE trap due at its end, with the lowest refused lane of its word (R219). -/
def State.refuse (s : State) (r : CpRef) (tpc taddr tlane : Word64) : State :=
  s.updCp r (fun d => match d.scopeTrap with
    | some t => if t.tpc = tpc ∧ tlane.ult t.tlane then { d with scopeTrap := some { tpc := tpc, taddr := taddr, tlane := tlane } } else d
    | none => { d with scopeTrap := some { tpc := tpc, taddr := taddr, tlane := tlane } })

/-- An access of a later word with what has not performed discarded (R219). -/
def Access.discard (a : Access) : Access :=
  match a.op with
  | .scalars _ | .lanes _ | .tryPush _ _ _ _ => a
  | _ =>
    if a.performed then a
    else
      let items := a.items.filter (fun it => it.done)
      { a with items := items, performed := true, complete := !a.ticket || items = [] }

/-- An engine operation of a later word, discarded where it has not begun (R219). -/
def AsyncOp.discard (x : AsyncOp) : AsyncOp :=
  match x.kind with
  | .copy _ | .flush _ _ _ => if x.moved = 0 && x.held.isNone then { x with complete := true } else x
  | .setTransfer load _ => { x with kind := .setTransfer load [], complete := true }
  | .net _ => x

/-- The later words of a CP whose access has been refused: what they have not performed is discarded, and a later WAITR parks no more
(R219). -/
def State.discardAfter (s : State) (r : CpRef) (serial : Nat) : State :=
  match s.cpOf r with
  | none => s
  | some (_, c) =>
    let later := fun (x : AsyncOp) => decide (serial < x.serial) && !x.complete
    let gone := (c.asyncs.filter (fun x => later x && x.discard.complete)).map (fun x => x.serial)
    ({ s with locks := s.locks.filter (fun l => !gone.contains l.owner) } : State).updCp r (fun (c : Cp) =>
      { c with pend := c.pend.map (fun b => if serial < b.serial then b.discard else b),
               asyncs := retireAsync (c.asyncs.map (fun x => if later x then x.discard else x)),
               wait := c.wait.filter (fun w => w.kind != .waitr) })

/-- A synchronising item that its home can serve at its issue is refused there; one that something holds meets its stamp when it
performs (R219). -/
def State.refusedNow (s : State) (r : CpRef) (p : Pop) (c : Cp) (a : Access) (it : Item) : Bool :=
  a.syncs && s.mayPerform p c { a with items := [it] } && s.stampRefuses r.pid p.cluster a.scope it.loc

/-- The items of a word at its issue: refused ones are left out, and the lowest gives the trap (R219). -/
def State.stampPeek (s : State) (r : CpRef) (p : Pop) (c : Cp) (a : Access) : List Item → State × List Item
  | [] => (s, [])
  | it :: l =>
    if s.refusedNow r p c a it then
      State.stampPeek (s.refuse r c.wordAddr it.addr (laneWord64 it.lanes.head?)) r p c a l
    else
      let b := State.stampPeek s r p c a l
      (b.1, it :: b.2)

/-- A synchronising access enters its CP's pipeline without the items that stamps refuse (R219). -/
def State.enterSync (s : State) (r : CpRef) (p : Pop) (c : Cp) (op : AccOp) (scope : Scope) (order : MOrder) (ticket : Bool)
    (items : List Item) : State :=
  let b := s.stampPeek r p c (newAccess s.serial c op scope order ticket []) items
  b.1.enter r c op scope order ticket b.2

/-! ### Lane faults (R28, R221) -/

/-- The end of a region-internal lane word (R28, R221): PERMISSION lanes are dead or abort the population, NOTPRESENT lanes park,
poisoned leaves make lanes dead; then FRAGFULL, with the page and number of the lowest lane that overflowed, or the next word. -/
def State.laneFaults (s : State) (r : CpRef) (p : Pop) (c : Cp) (es : List (Nat × Word64 × LaneCause)) : State :=
  let of := fun (k : LaneCause) => (es.filter (fun e => e.2.2 == k)).map (fun e => (e.1, e.2.1))
  let kill := fun (s : State) (k : LaneCause) => s.killLanes r.pid (setOf ((of k).map (fun e => e.1))) (some k)
  let s := [LaneCause.uncorrectable, .majority, .poison].foldl kill s
  let s := if c.fatalP then s else kill s .permission
  let (s, full) := s.parkLanes r p c (of .notPresent)
  match c.fatalP, of .permission, full, of .notPresent with
  | true, x :: _, _, _ => trapAfter s r c .permission x.2 (BitVec.ofNat 64 x.1)
  | _, _, true, x :: _ => trapAfter s r c .fragFull ((pageOf x.2).zeroExtend 64) (BitVec.ofNat 64 x.1)
  | _, _, _, _ => advance s r

/-! ### Performing -/

/-- new of R226 and the flags, from the old value o and the operands v and v2 as patterns of w bits. -/
def atomicNew (op : AOp) (w : Nat) (env : FpEnv) (o v v2 : Nat) : Nat × Flags :=
  let f := if w = 64 then fpF64 else fpF32
  match op with
  | .swap => (v, 0)
  | .cas => (if o = v then v2 else o, 0)
  | .add => ((o + v) % 2 ^ w, 0)
  | .and => (o &&& v, 0)
  | .or => (o ||| v, 0)
  | .xor => (o ^^^ v, 0)
  | .min => (if senseOf true w v < senseOf true w o then v else o, 0)
  | .max => (if senseOf true w o < senseOf true w v then v else o, 0)
  | .minn => (min o v, 0)
  | .maxn => (max o v, 0)
  | .fadd => fAdd f env o v
  | .fmin => fMinMax f env false o v
  | .fmax => fMinMax f env true o v

/-- The rounding environment of a captured mode register (R226). -/
def envOfMode (m : Word64) : FpEnv :=
  { dir := dirOfRm (m.extractLsb' 0 3), ftz := m.getLsbD 3, daz := m.getLsbD 4 }

/-- An ATOM, SATOM or RED. -/
def isRmw : AccOp → Bool
  | .atom _ _ _ | .satom _ _ _ | .red _ _ => true
  | .ld _ _ | .lds _ | .st | .sts | .stpl | .ldpl _ | .fence | .arrive _ _ | .rwget _ | .rwset _ | .scalars _ | .lanes _
  | .tryPush _ _ _ _ => false

/-- The part is an atomic that its cluster's atomic unit executes, whose read and write accesses of other units may come between
(R218, R345; notes/assumptions/67.md). -/
def atUnit (a : Access) (it : Item) : Bool :=
  isRmw a.op && (match it.loc with
    | .hbm _ _ => a.scope == .pop || a.scope == .clu
    | .store _ _ => a.scope == .clu
    | .maj _ _ => false)

/-- The part has read its old value and not written its new one (R218). -/
def Item.half (it : Item) : Bool := it.res.isSome && !it.done

/-- The old value of an atomic: the one its read half has taken, or its word's where it is read now (R226). -/
def State.atomicRead (s : State) (g : Agent) (src : Option CacheLine) (w : Width) (it : Item) : Met (BitVec 128) :=
  match it.res with
  | some o => (s, .ok o)
  | none =>
    match s.readFrom g false src it.loc w.size with
    | (s, .error e) => (s, .error e)
    | (s, .ok bs) => (s, .ok (word128 bs))

/-- One atomic at its unit: the old value, the flags and the majority writes (R218, R226, R227); it continues the releases of its bytes
(R343). -/
def State.atomicAt (s : State) (g : Agent) (src : Option CacheLine) (a : Access) (op : AOp) (w : Width) (it : Item) :
    Met (BitVec 128 × Flags × List Nat) :=
  match s.atomicRead g src w it with
  | (s, .error e) => (s, .error e)
  | (s, .ok o) =>
    let r := atomicNew op (8 * w.size) (envOfMode a.mode) o.toNat it.data.toNat it.data2.toNat
    match s.writeBy g it.loc (bytesOf w.size (BitVec.ofNat 64 r.1)) with
    | (s, .error e) => (s, .error e)
    | (s, .ok ns) => (s.revive g.cluster it.loc w.size, .ok (o, r.2, ns))

/-- A store of an item: a plane store changes only its bits (R236). -/
def State.storeItem (s : State) (g : Agent) (it : Item) : Met (List Nat) :=
  if it.bits = BitVec.allOnes 128 then s.writeBy g it.loc (bytesOf it.size it.data)
  else
    match s.readLoc it.loc it.size with
    | (s, .error e) => (s, .error e)
    | (s, .ok bs) =>
      s.writeBy g it.loc (bytesOf it.size ((word128 bs &&& ~~~it.bits) ||| (it.data &&& it.bits)))

/-- The new word of RWSET: target written, count and status clear, generation kept (R331). -/
def rwsetWord (w : BitVec 128) (t : Word32) : BitVec 128 := 0#32 ++ genOf w ++ 0#32 ++ t

/-- An access whose reads may take a held line: a plain load at POP or CLU, and an atomic at its cluster's atomic unit (R213, R218). -/
def viaCache (a : Access) : Bool :=
  (a.scope == .pop || a.scope == .clu) && (match a.op with
    | .ld _ _ | .lds _ => a.order == .plain
    | .atom _ _ _ | .satom _ _ _ | .red _ _ => true
    | .st | .sts | .stpl | .ldpl _ | .fence | .arrive _ _ | .rwget _ | .rwset _ | .scalars _ | .lanes _ | .tryPush _ _ _ _ => false)

/-- One item of an access performs, its bytes read from their source. -/
def State.performItem (s : State) (g : Agent) (a : Access) (src : Option CacheLine) (it : Item) :
    Met (Option (BitVec 128) × Flags × List Nat) :=
  match a.op with
  | .ld _ _ | .lds _ | .ldpl _ | .rwget _ =>
    match s.readFrom g (viaCache a) src it.loc it.size with
    | (s, .error e) => (s, .error e)
    | (s, .ok bs) => (s, .ok (some (word128 bs), 0, []))
  | .st | .sts | .stpl =>
    match s.storeItem g it with
    | (s, .error e) => (s, .error e)
    | (s, .ok ns) => (s, .ok (none, 0, ns))
  | .atom op _ w | .satom op _ w =>
    match s.atomicAt g src a op w it with
    | (s, .error e) => (s, .error e)
    | (s, .ok (o, fl, ns)) => (s, .ok (some o, fl, ns))
  | .red op w =>
    match s.atomicAt g src a op w it with
    | (s, .error e) => (s, .error e)
    | (s, .ok (_, _, ns)) => (s, .ok (none, 0, ns))
  | .arrive _ n =>
    match s.arrive g.cluster g.vf it.loc n 0 with
    | (s, .error e) => (s, .error e)
    | (s, .ok (prior, turns, ns)) => (s.seeHome g.cp it.loc 16, .ok (some (turns.zeroExtend 64 ++ prior.zeroExtend 64), 0, ns))
  | .rwset t =>
    match s.readLoc it.loc 16 with
    | (s, .error e) => (s, .error e)
    | (s, .ok bs) =>
      match s.writeBy g it.loc (bytesOf 16 (rwsetWord (word128 bs) t)) with
      | (s, .error e) => (s, .error e)
      | (s, .ok ns) => (s, .ok (none, 0, ns))
  | .fence | .scalars _ | .lanes _ | .tryPush _ _ _ _ => (s, .ok (none, 0, []))

/-- What an item whose read has observed some releases acquires, its own read with it, or leaves for a fence (R342, R343, R344). -/
def State.takeUp (s : State) (g : Agent) (a : Access) (src : Option CacheLine) (it : Item) (xs : List RelRec) : State :=
  if acquires a.order then
    let own := match it.loc, src with
      | .hbm pa _, some l => Know.zero.see pa it.size (fun i => Tab.get 0 l.vers (pa % 128 + i))
      | .hbm pa _, none => Know.zero.see pa it.size (fun i => s.verOf (pa + i))
      | .store _ _, _ | .maj _ _, _ => Know.zero
    (s.acquireAt g.cp g.cp.pid g.cluster a.scope xs).teach g.cp own
  else if returns a.op then s.notice g.cp g.cp.pid g.cluster xs else s

/-- What a control program's releases pass on now (R342, R344). -/
def State.passesOf (s : State) (r : CpRef) : Know := match s.cpOf r with | some (_, c) => c.passes | none => Know.zero

/-- What an item that has written leaves at its bytes (R342). -/
def State.leave (s : State) (g : Agent) (a : Access) (it : Item) : State :=
  let stand := fun (s : State) (scope : Scope) (k : Know) => s.stand it.loc it.size scope g.cp.pid g.cluster (isArrive a.op) k
  let fences : List (Scope × Know) := match s.cpOf g.cp with | some (_, c) => c.fenced | none => []
  let s := if readsOnly a.op then s else fences.foldl (fun s f => stand s f.1 f.2) s
  if releases a.order then stand s a.scope (s.passesOf g.cp) else s

/-- Lanes that a data cause makes dead. -/
def State.laneCause (s : State) (pid : Nat) (it : Item) (e : LaneCause) : State :=
  s.killLanes pid (setOf it.lanes) (some e)

/-- The counters of a core for a global access of a lane, or of the CP: a hit of its cluster's cache is no L2 access (R337). -/
def State.countAccess (s : State) (pid : Nat) (lane : Option Nat) (hit : Bool) (loc : Loc) : State :=
  match loc, s.pop pid with
  | .store _ _, _ | _, none => s
  | .hbm _ _, some p | .maj _ _, some p =>
    let core := match lane with | some i => p.coreOf i | none => p.home
    if hit then s.count core pid 0x009 1 else s.countHidden core pid

/-- A load of global memory: what the count of cluster-cache hits counts (R337). -/
def isLoad : AccOp → Bool
  | .ld _ _ | .lds _ => true
  | .st | .sts | .atom _ _ _ | .satom _ _ _ | .red _ _ | .stpl | .ldpl _ | .fence | .arrive _ _ | .rwget _ | .rwset _ | .scalars _
  | .lanes _ | .tryPush _ _ _ _ => false

/-- An item that its stamp refuses: the SCOPE trap is due, and what is later is discarded (R219). -/
def State.refuseItem (s : State) (g : Agent) (a : Access) (it : Item) : State :=
  (s.refuse g.cp a.word it.addr (laneWord64 it.lanes.head?)).discardAfter g.cp a.serial

/-- A cause that an item meets makes its lanes dead, or is kept in the access of a CP-level word (R221). -/
def State.failItem (s : State) (g : Agent) (a : Access) (it : Item) (e : LaneCause) : State × Access × Item :=
  (s.laneCause g.cp.pid it e, if it.lanes = [] then { a with fault := some e } else a, { it with done := true })

/-- What comes before an item's data moves, unless its read half has done it: the counters, the stamp, which answers whether it refuses
the item, the source of its bytes and the releases that a read of it observes (R213, R219, R337, R343). -/
def State.approach (s : State) (g : Agent) (a : Access) (it : Item) : State × Bool × Option CacheLine × List RelRec :=
  if it.half then (s, false, none, [])
  else
    let (s, src) := s.source g (viaCache a) it.loc it.size
    let s := s.countAccess g.cp.pid it.lanes.head? (src.isSome && isLoad a.op) it.loc
    let check := if a.syncs then s.stampCheck g.cp.pid g.cluster a.scope it.loc else (s, false)
    (check.1, check.2, src, s.observed src (match a.op with | .rwget _ => true | _ => false) it.loc it.size)

/-- One item of an access at its unit: a stamp may refuse it (R219), a cause may end it (R221); else it performs, or what its read half
has left of it, its result kept in it. -/
def State.performOne (s : State) (g : Agent) (a : Access) (it : Item) : State × Access × Item :=
  let x := s.approach g a it
  if x.2.1 then (x.1.refuseItem g a it, a, { it with done := true, res := none })
  else
    match x.1.performItem g a x.2.2.1 it with
    | (s, .error e) => s.failItem g a { it with res := none } e
    | (s, .ok (res, fl, ns)) =>
      let s := if it.half then s else s.takeUp g a x.2.2.1 it x.2.2.2
      (s.leave g a it, { a with flags := a.flags ||| fl, majWait := a.majWait ++ ns }, { it with done := true, res := res, maj := ns })

/-- The read half of an atomic at its cluster's atomic unit (R218, R345). -/
def State.readHalf (s : State) (g : Agent) (a : Access) (it : Item) : State × Access × Item :=
  let x := s.approach g a it
  if x.2.1 then (x.1.refuseItem g a it, a, { it with done := true })
  else
    match x.1.readFrom g false x.2.2.1 it.loc it.size with
    | (s, .error e) => s.failItem g a it e
    | (s, .ok bs) => (s.takeUp g a x.2.2.1 it x.2.2.2, a, { it with res := some (word128 bs) })

/-- The parts of an access that meet an atomic's bytes at one cluster's atomic unit and have read their old values. -/
def halvesMet (a : Access) (loc : Loc) (n : Nat) : List Nat :=
  (List.range a.items.length).filter (fun k => match a.items[k]? with
    | some it => it.half && atUnit a it && meet it.loc it.size loc n
    | none => false)

/-- The write half of a part of an access of a control program. -/
def State.finishHalf (s : State) (r : CpRef) (serial k : Nat) : State :=
  match s.cpOf r with
  | none => s
  | some (p, c) =>
    match c.access serial with
    | none => s
    | some a =>
      match a.items[k]? with
      | none => s
      | some it =>
        let x := s.performOne { cluster := p.cluster, vf := p.vf, cp := r } a it
        let items := a.items.set k x.2.2
        (x.1.setAccess r { x.2.1 with items := items, performed := items.all (fun y => y.done) }).settle r

/-- Before a cluster's atomic unit takes up an atomic, those that it has read the same bytes for write them: it serves one at a time
(R218). -/
def State.finishHalves (s : State) (r : CpRef) (p : Pop) (a : Access) (it : Item) : State :=
  if !atUnit a it then s
  else
    s.pops.foldl (fun s e => if e.2.cluster != p.cluster then s else
      e.2.cps.foldl (fun s x => x.2.pend.foldl (fun s b =>
        let q : CpRef := { pid := e.1, cid := x.1 }
        if q = r ∧ b.serial = a.serial then s
        else (halvesMet b it.loc it.size).foldl (fun s k => s.finishHalf q b.serial k) s) s) s) s

/-- The items of an access that have not performed, in turn. -/
def State.performItems (s : State) (g : Agent) (a : Access) : List Item → State × Access
  | [] => (s, a)
  | it :: l =>
    if it.done then
      let b := State.performItems s g a l
      (b.1, { b.2 with items := it :: b.2.items })
    else
      let x := s.performOne g a it
      let b := State.performItems x.1 g x.2.1 l
      (b.1, { b.2 with items := x.2.2 :: b.2.items })

/-- An order of a list drawn by choices. -/
def State.shuffle {α : Type} (s : State) : Nat → List α → State × List α
  | 0, l => (s, l)
  | n + 1, l =>
    let (k, s) := s.pick l.length
    match l[k]? with
    | none => (s, l)
    | some x =>
      let b := State.shuffle s n (l.eraseIdx k)
      (b.1, x :: b.2)

/-- The order in which the lanes of an ATOM perform: ascending under DET or where no two meet, else a choice (R112, R227). -/
def State.atomOrder (s : State) (a : Access) : State × List Item :=
  let clash := (List.range a.items.length).any (fun i => (List.range i).any (fun j =>
    overlap ((a.items[i]?).toList) ((a.items[j]?).toList)))
  match a.op with
  | .atom _ _ _ => if a.mode.getLsbD 5 || !clash then (s, a.items) else State.shuffle s a.items.length a.items
  | _ => (s, a.items)

/-- The lines that a plane store covers whole, which it clears of poison (R211, R236). -/
def wholeLines (items : List Item) : List Loc :=
  (items.filter (fun x => x.bits == BitVec.allOnes 128)).filterMap (fun x =>
    match x.loc with
    | .store k a =>
      let base := a / 128 * 128
      if (List.range 128).all (fun o => items.any (fun y => y.bits == BitVec.allOnes 128
          && meet y.loc y.size (.store k (base + o)) 1)) then some (.store k base) else none
    | .hbm _ _ | .maj _ _ => none)

/-- The agent that a CP's access is. -/
def Pop.agent (p : Pop) (r : CpRef) : Agent := { cluster := p.cluster, vf := p.vf, cp := r }

/-- What is left of an access of a CP performs, first the parts that have read their old values: the state and the access after it. -/
def State.perform (s : State) (r : CpRef) (p : Pop) (a : Access) : State × Access :=
  let s := if isRmw a.op then a.items.foldl (fun s it => if it.done then s else s.finishHalves r p a it) s else s
  let s := if a.op = .stpl then (wholeLines a.items).foldl (fun s l => s.setLineState LineState.clean l) s else s
  let (s, items) := s.atomOrder a
  let items := if isRmw a.op then items.filter Item.half ++ items.filter (fun it => !it.half) else items
  let b := s.performItems (p.agent r) { a with items := [] } items
  (b.1, { b.2 with performed := true })

/-- One item may perform before the rest of its access: no earlier item of it that meets its bytes is left, since the highest lane's
write stands, unless an atomic's unit chooses its order (R216, R227, R236); a line that a plane store covers whole is written whole. -/
def State.mayPart (s : State) (a : Access) (k : Nat) (it : Item) : Bool :=
  !it.done
    && (isRed a.op || (match a.op with | .atom _ _ _ => !a.mode.getLsbD 5 | _ => false)
      || !overlap [it] ((a.items.take k).filter (fun x => !x.done)))
    && (a.op != .stpl || s.lineState it.loc == LineState.clean)
    && (!atUnit a it || (halvesMet a it.loc it.size).all (fun j => j == k))

/-- Item k of an access performs on its own, or only its read half does (R345). -/
def State.performPart (s : State) (r : CpRef) (p : Pop) (a : Access) (k : Nat) (it : Item) (readOnly : Bool) : State × Access :=
  let s := s.finishHalves r p a it
  let x := if readOnly then s.readHalf (p.agent r) a it else s.performOne (p.agent r) a it
  let items := a.items.set k x.2.2
  (x.1, { x.2.1 with items := items, performed := items.all (fun y => y.done) })

/-- What the other control programs of a population have acquired, and what lane registers have carried to them (R344 step 3). -/
def Pop.carries (p : Pop) (cid : Nat) : Know :=
  p.cps.foldl (fun k e => if e.1 = cid then k else (k.merge e.2.learned).merge e.2.carried) Know.zero

/-- An access to lane registers enters population order after those of the other control programs: what these had acquired comes to its
control program's releases with it (R344 step 3; DEDUCED, notes/assumptions/61.md). -/
def State.carry (s : State) (r : CpRef) : State :=
  match s.pop r.pid with
  | none => s
  | some p =>
    let k := p.carries r.cid
    if k = Know.zero then s else s.updCp r (fun c => { c with carried := c.carried.merge k })

/-- No CP of the population is inside a clause: the places where a load's data write can enter population order (R22, R23). -/
def Pop.quiet (p : Pop) : Bool := p.cps.all (fun e => !e.2.issuing)

/-- The registers that a lane load fills from its bytes (R205). -/
def Pop.putData (p : Pop) (lane vd n : Nat) (x : BitVec 128) : Pop :=
  (List.range n).foldl (fun p k => p.setV lane (vd + k) (x.extractLsb' (32 * k) 32)) p

/-- The data of a lane's registers, the lowest first (R205). -/
def Pop.laneData (p : Pop) (lane vd n : Nat) : BitVec 128 :=
  (List.range n).foldl (fun acc k => acc ||| ((p.getV lane (vd + k)).zeroExtend 128 <<< (32 * k))) 0

/-- Which bits of a lane's byte a part of a plane holds: its group, half of the group, plane and byte (R236). -/
def planeKey (g h j k : Nat) : Word64 := BitVec.ofNat 64 (64 * g + 32 * h + 4 * j + k)

/-- The four bytes of a lane gathered from the planes that an LDPL has read (R236). -/
def gatherPlanes (items : List Item) (lane : Nat) : Word32 :=
  let g := lane / 256
  let h := lane % 256 / 128
  (List.range 32).foldl (fun acc b =>
    let j := b % 8
    let k := b / 8
    match items.find? (fun it => it.data2 == planeKey g h j k) with
    | some it => if (it.res.getD 0).getLsbD (lane % 128) then acc ||| (1#32 <<< (8 * k + (7 - j))) else acc
    | none => acc) 0

/-- The data write of a completed access (R23, R205, R227 to R229, R329, R332): lanes that are parked or dead are not written
(R153), and an abort discards every write (R333). The flags of a SATOM are raised here and, like those of an ATOM, never trap (R98, R227,
R228; DESIGN CHOICE, notes/assumptions/24.md). -/
def Pop.deliver (p : Pop) (cid : Nat) (a : Access) : Pop :=
  let lanes := fun (vd n : Nat) =>
    a.items.foldl (fun q it =>
      match it.res with
      | some x => (it.lanes.filter (fun i => p.live.getLsbD i)).foldl (fun q i => q.putData i vd n x) q
      | none => q) p
  let first := (a.items.head?.bind (fun it => it.res)).getD 0
  let some? := a.items.any (fun it => it.res.isSome)
  if p.aborted then p
  else
    match a.op with
    | .ld vd w => lanes vd.toNat w.regs
    | .atom _ vd w => (lanes vd.toNat w.regs).updCp cid (fun c => c.raise a.flags)
    | .ldpl vd =>
      ((a.items.flatMap (fun it => it.lanes)).eraseDups.filter (fun i => p.live.getLsbD i)).foldl
        (fun q i => q.setV i vd.toNat (gatherPlanes a.items i)) p
    | .lanes vd => lanes vd.toNat 1
    | .lds sd => if some? then p.updCp cid (fun c => c.setS sd (first.extractLsb' 0 64)) else p
    | .satom _ sd _ => if some? then p.updCp cid (fun c => (c.setS sd (first.extractLsb' 0 64)).raise a.flags) else p
    | .arrive sd _ => if some? then p.updCp cid (fun c => c.setS sd (first.extractLsb' 0 64)) else p
    | .rwget sd =>
      if some? then p.updCp cid (fun c => (c.setS sd (first.extractLsb' 0 64)).setSn sd 1 (first.extractLsb' 64 64)) else p
    | .scalars ws => p.updCp cid (fun c => ws.foldl (fun c e => c.setS e.1 e.2) c)
    | .st | .sts | .red _ _ | .stpl | .fence | .rwset _ | .tryPush _ _ _ _ => p

/-! ### Lane transfers (R235) -/

/-- The bytes of a lane of a SETLD or SETST, read now or before (R235, R337, R345). -/
def State.readItem (s : State) (r : CpRef) (p : Pop) (load : Bool) (t : SetItem) : Met (List Byte) :=
  match t.got with
  | some bs => (s, .ok bs)
  | none =>
    (s.countAccess r.pid (some t.lane) false t.loc).readHome (p.agent r) (if load then t.loc else p.winLoc t.off) t.size

/-- One lane of a SETLD or SETST moves; a data cause makes it dead (R221, R235). The answer is the majority writes it sends, with its
lane. -/
def State.moveItem (s : State) (r : CpRef) (p : Pop) (load : Bool) (t : SetItem) : State × List (Nat × Nat) :=
  let dst := if load then p.winLoc t.off else t.loc
  let dead := fun (s : State) e => (s.killLanes r.pid (setOf [t.lane]) (some e), [])
  match s.readItem r p load t with
  | (s, .error e) => dead s e
  | (s, .ok bs) =>
    match s.writeBy (p.agent r) dst bs with
    | (s, .ok ns) => (s, ns.map (fun n => (n, t.lane)))
    | (s, .error e) => dead s e

/-- The lanes of a transfer move in turn. -/
def State.moveItems (s : State) (r : CpRef) (p : Pop) (load : Bool) (ts : List SetItem) : State × List (Nat × Nat) :=
  ts.foldl (fun acc t => let x := acc.1.moveItem r p load t; (x.1, acc.2 ++ x.2)) (s, [])

/-- What is left of a CP's lane transfers older than a serial number moves. -/
def State.moveBefore (s : State) (r : CpRef) (bound : Nat) : State :=
  match s.cpOf r with
  | none => s
  | some (p, c) =>
    (c.asyncs.filter (fun x => decide (x.serial < bound) && transferring x)).foldl (fun s x =>
      match x.kind with
      | .setTransfer load ts =>
        let m := s.moveItems r p load ts
        (m.1.majFinishAll (m.2.map (fun x => x.1))).updAsync r x.serial (fun x => { x with kind := .setTransfer load [], complete := true })
      | .copy _ | .flush _ _ _ | .net _ => s) s

/-- Everything of the CP's pipeline that has not performed performs, in program order, and its majority writes complete: what a
release inside a word waits for (R216, R217, R285). -/
def State.drain (s : State) (r : CpRef) : State :=
  match s.cpOf r with
  | none => s
  | some (_, c) =>
    let s := c.pend.foldl (fun s a =>
      let s := s.moveBefore r a.serial
      match s.cpOf r with
      | none => s
      | some (p, c) =>
        match c.access a.serial with
        | none => s
        | some a =>
          if a.performed then (s.majFinishAll a.majWait).settle r
          else match a.op with
            | .fence | .tryPush _ _ _ _ => s.settle r
            | _ =>
              let b := s.perform r p a
              ((b.1.majFinishAll b.2.majWait).setAccess r b.2).settle r) s
    (s.moveBefore r s.serial).settle r

/-- An acquire at DEV that observes a release which passes this on: the CP's later loads use no line held before it (R217, R286). -/
def State.acquireDev (s : State) (r : CpRef) (k : Know) : State := ((s.teach r k).teach r s.handed).updCp r (fun c => { c with bar := s.serial })

end Sys2Proof.Machine
end

