-- ==== Sys2Proof/Machine/Memory.lean ====
section
/-! DEFINITION. The memory instructions 0xA0 to 0xB1 (R222 to R237). -/

namespace Sys2Proof.Machine

/-! ### Addresses and items -/

/-- ea(i) of R204. -/
def laneEa (p : Pop) (c : Cp) (sbase : SReg) (idx : Option Index) (imm : Word64) (lane : Nat) : Word64 :=
  c.getS sbase + (match idx with
    | some x => (p.getV lane x.vidx.toNat).zeroExtend 64 <<< x.sh.toNat
    | none => 0) + imm

/-- A part of an access that has not performed. -/
def item (lanes : List Nat) (ea : Word64) (loc : Loc) (size : Nat) (data : BitVec 128) (data2 : Word64) : Item :=
  { lanes := lanes, addr := ea, loc := loc, size := size, data := data, data2 := data2, bits := BitVec.allOnes 128, res := none,
    done := false, maj := [] }

/-- The lanes of m0 ∧ L as accesses of one word. -/
def laneWants (p : Pop) (c : Cp) (space : Space) (size : Nat) (write : Bool) (ea : Nat → Word64) : List Want :=
  (p.laneList (c.getM 0 &&& p.live)).map (fun i => { space := space, lane := some i, ea := ea i, size := size, write := write })

/-- The accesses that have a place, and the lanes that met a cause. -/
def placed (rs : List (Want × Except LaneCause Loc)) : List (Want × Loc) :=
  rs.filterMap (fun x => match x.2 with | .ok l => some (x.1, l) | .error _ => none)

def missed (rs : List (Want × Except LaneCause Loc)) : List (Nat × Word64 × LaneCause) :=
  rs.filterMap (fun x => match x.2 with | .ok _ => none | .error e => some (x.1.lane.getD 0, x.1.ea, e))

/-- A region-internal lane word (R206, R221, R224): its checks, the places of its lanes, the access of the performing lanes, and its
faults. -/
def laneAccess (s : State) (r : CpRef) (p : Pop) (c : Cp) (scope : Scope) (order : MOrder) (ws : List Want)
    (need : Need) (op : AccOp) (ticket : Bool) (data : Nat → BitVec 128) : State :=
  match s.checkWants p ws with
  | some t => trapWord s r c t.1 t.2.1 t.2.2
  | none =>
    let (s, rs) := s.placeEach p need ws
    let items := (placed rs).map (fun x => let i := x.1.lane.getD 0; item [i] x.1.ea x.2 x.1.size (data i) 0)
    (s.enterSync r p c op scope order ticket items).laneFaults r p c (missed rs)

def execLd (o : MLane) (s : State) : Result :=
  onCp "LD" (.ld o) s (fun r p c s =>
    let ws := laneWants p c o.space o.width.size false (laneEa p c o.sbase o.idx (o.imm.signExtend 64))
    laneAccess s r p c o.scope o.order ws .read (.ld o.vdat o.width) true (fun _ => 0))

def execSt (o : MLane) (s : State) : Result :=
  onCp "ST" (.st o) s (fun r p c s =>
    let ws := laneWants p c o.space o.width.size true (laneEa p c o.sbase o.idx (o.imm.signExtend 64))
    laneAccess s r p c o.scope o.order ws .write .st false (fun i => p.laneData i o.vdat.toNat o.width.regs))

/-! ### CP-level words (R221, R225, R228) -/

/-- A CP-level word without a ticket (R206, R221): its checks and its translation, whose causes are met at the word; k goes on at its
place. -/
def cpAccess (s : State) (r : CpRef) (p : Pop) (c : Cp) (w : Want) (need : Need) (k : State → Loc → State) : State :=
  match s.checkWants p [w] with
  | some t => trapWord s r c t.1 t.2.1 t.2.2
  | none =>
    match s.place p w need with
    | (s, .error e) => trapCause s r c .rciFault w.ea allOnes64 e
    | (s, .ok l) => k s l

/-- An access whose walk met a data cause: it takes its ticket, which never completes, with the cause known (R221). -/
def State.enterFault (s : State) (r : CpRef) (c : Cp) (op : AccOp) (scope : Scope) (order : MOrder) (w : Want) (e : LaneCause) : State :=
  let (n, s) := s.fresh
  let s := match s.pop r.pid with | some p => s.count p.home r.pid 0x007 1 | none => s
  let a := newAccess n c op scope order true [{ item [] w.ea (.store 0 0) 0 0 0 with done := true }]
  s.updCp r (fun c => { c with pend := c.pend ++ [{ a with performed := true, fault := some e }] })

/-- A CP-level word with a load ticket (R206, R221): NOTPRESENT and PERMISSION are met at the word, a data cause of its walk with its
ticket. -/
def cpTicket (s : State) (r : CpRef) (p : Pop) (c : Cp) (w : Want) (need : Need) (op : AccOp) (scope : Scope) (order : MOrder)
    (data : BitVec 128) (data2 : Word64) : State :=
  match s.checkWants p [w] with
  | some t => trapWord s r c t.1 t.2.1 t.2.2
  | none =>
    match s.place p w need with
    | (s, .error .notPresent) => trapCause s r c .rciFault w.ea allOnes64 .notPresent
    | (s, .error .permission) => trapCause s r c .rciFault w.ea allOnes64 .permission
    | (s, .error e) => advance (s.enterFault r c op scope order w e) r
    | (s, .ok l) => advance (s.enterSync r p c op scope order true [item [] w.ea l w.size data data2]) r

/-- What a store that covers less than a line, or the read half of a rennet word, meets at a place (R211, R246). -/
def State.lineCheck (s : State) (l : Loc) (n : Nat) : Met Unit :=
  match l with
  | .maj _ _ => (match s.readLoc l n with | (s, .ok _) => (s, .ok ()) | (s, .error e) => (s, .error e))
  | .store _ _ | .hbm _ _ => s.touchLine l

/-- A word that takes no ticket meets its data causes at the word (R221), as the CP's earlier accesses to its line leave it (R216): it
then enters its access. -/
def cpStore (s : State) (r : CpRef) (p : Pop) (c : Cp) (w : Want) (op : AccOp) (scope : Scope) (order : MOrder) (data : BitVec 128) :
    State :=
  cpAccess s r p c w .write (fun s l =>
    let it := item [] w.ea l w.size data 0
    let go := fun (s : State) => advance (s.enterSync r p c op scope order false [it]) r
    if s.refusedNow r p c (newAccess s.serial c op scope order false []) it then go s
    else
      match s.lineCheck l w.size with
      | (s, .ok _) => go s
      | (t, .error e) =>
        if c.pend.any (fun b => !b.performed && b.items.any (fun i => sameLine i.loc l)) then
          match (s.drain r).lineCheck l w.size with
          | (s, .ok _) => go s
          | (s, .error e) => trapCause s r c .rciFault w.ea allOnes64 e
        else trapCause t r c .rciFault w.ea allOnes64 e)

def execLds (o : MScalar) (s : State) : Result :=
  onCp "LDS" (.lds o) s (fun r p c s =>
    let w : Want := { space := o.space, lane := none, ea := c.getS o.sbase + o.imm.signExtend 64, size := o.width.size, write := false }
    cpTicket s r p c w .read (.lds o.sd) o.scope o.order 0 0)

def execSts (o : MScalar) (s : State) : Result :=
  onRci "STS" (.sts o) s (fun r p c s =>
    let w : Want := { space := o.space, lane := none, ea := c.getS o.sbase + o.imm.signExtend 64, size := o.width.size, write := true }
    cpStore s r p c w .sts o.scope o.order ((c.getS o.sd).zeroExtend 128))

def execSatom (o : MSatom) (s : State) : Result :=
  onRci "SATOM" (.satom o) s (fun r p c s =>
    let w : Want := { space := o.space, lane := none, ea := c.getS o.sbase + o.imm.signExtend 64, size := o.width.size, write := true }
    let m := 2 ^ (8 * o.width.size)
    let v := BitVec.ofNat 128 ((c.getS o.sd).toNat % m)
    let v2 := BitVec.ofNat 64 ((c.getSn o.sd 1).toNat % m)
    cpTicket s r p c w .atomic (.satom o.op o.sd o.width) o.scope o.order v v2)

/-! ### Lane atomics (R227, R229) -/

/-- The checks of a lane RCI: NOTPRESENT or PERMISSION of any lane is RCIFAULT, with no lane performed (R206 step 5); k goes on with the
places, and with the lanes whose walk met a data cause. -/
def laneRci (s : State) (r : CpRef) (p : Pop) (c : Cp) (ws : List Want) (need : Need)
    (k : State → List (Want × Loc) → List (Nat × Word64 × LaneCause) → State) : State :=
  match s.checkWants p ws with
  | some t => trapWord s r c t.1 t.2.1 t.2.2
  | none =>
    let (s, rs) := s.placeEach p need ws
    match (missed rs).find? (fun e => e.2.2 == .notPresent || e.2.2 == .permission) with
    | some e => trapCause s r c .rciFault e.2.1 (BitVec.ofNat 64 e.1) e.2.2
    | none => k s (placed rs) (missed rs)

/-- The lanes of an RCI that met a data cause are dead (R221). -/
def State.killMissed (s : State) (pid : Nat) (es : List (Nat × Word64 × LaneCause)) : State :=
  es.foldl (fun s e => s.killLanes pid (laneBit e.1) (some e.2.2)) s

/-- The operands of an ATOM of a lane: v, and v2 for CAS (R227). -/
def atomData (p : Pop) (o : MAtom) (i : Nat) : BitVec 128 × Word64 :=
  let n := o.width.regs
  (p.laneData i o.vdat.toNat n, if o.op = .cas then (p.laneData i (o.vdat.toNat + n) n).extractLsb' 0 64 else 0)

def execAtom (o : MAtom) (s : State) : Result :=
  onRci "ATOM" (.atom o) s (fun r p c s =>
    let ws := laneWants p c o.space o.width.size true (laneEa p c o.sbase o.idx (o.imm.signExtend 64))
    laneRci s r p c ws .atomic (fun s ok bad =>
      let items := ok.map (fun x =>
        let i := x.1.lane.getD 0
        let d := atomData p o i
        item [i] x.1.ea x.2 o.width.size d.1 d.2)
      advance ((s.killMissed r.pid bad).enterSync r p c (.atom o.op o.vdat o.width) o.scope o.order true items) r))

/-- One update of a RED: the lanes of a group with one address, their values folded in ascending lane (R229). -/
def redItem (p : Pop) (c : Cp) (o : MAtom) (xs : List (Want × Loc)) : List Item :=
  match xs with
  | [] => []
  | x :: l =>
    let v := fun (y : Want × Loc) => (p.laneData (y.1.lane.getD 0) o.vdat.toNat o.width.regs).toNat
    let u := l.foldl (fun acc y => (atomicNew o.op (8 * o.width.size) (envOfMode c.mode) acc (v y) 0).1) (v x)
    [item (xs.map (fun y => y.1.lane.getD 0)) x.1.ea x.2 o.width.size (BitVec.ofNat 128 u) 0]

/-- The updates of a RED: per group, per distinct address (R229). -/
def redItems (p : Pop) (c : Cp) (o : MAtom) (ok : List (Want × Loc)) : List Item :=
  (List.range 64).flatMap (fun g =>
    let mine := ok.filter (fun x => x.1.lane.getD 0 / 256 == g)
    ((mine.map (fun x => x.1.ea)).eraseDups).flatMap (fun ea => redItem p c o (mine.filter (fun x => x.1.ea == ea))))

def isFloatOp : AOp → Bool
  | .fadd | .fmin | .fmax => true
  | .swap | .cas | .add | .and | .or | .xor | .min | .max | .minn | .maxn => false

def execRed (o : MAtom) (s : State) : Result :=
  onRci "RED" (.red o) s (fun r p c s =>
    let ws := laneWants p c o.space o.width.size true (laneEa p c o.sbase o.idx (o.imm.signExtend 64))
    laneRci s r p c ws .atomic (fun s ok bad =>
      if c.det && isFloatOp o.op then
        match ws with
        | w :: _ => trapWord s r c .detViol w.ea (laneWord64 w.lane)
        | [] => trapWord s r c .detViol 0 allOnes64
      else
        advance ((s.killMissed r.pid bad).enterSync r p c (.red o.op o.width) o.scope o.order false (redItems p c o ok)) r))

/-- FENCE orders the accesses before and after it and never parks (R230). -/
def execFence (scope : Scope) (order : MOrder) (s : State) : Result :=
  onCp "FENCE" (.fence scope order) s (fun r _ c s =>
    advance ((s.enter r c .fence scope order false []).settle r) r)

/-- PREF fills the cluster cache at POP and CLU; a line that L2 alone may hold has no state here, but its access counts (R231, R337). -/
def execPref (o : MPref) (s : State) : Result :=
  onCp "PREF" (.pref o) s (fun r p c s =>
    let ws := laneWants p c .g 1 false (laneEa p c o.sbase o.idx (o.imm.signExtend 64))
    let (s, rs) := s.placeEach p .read ws
    let s := (placed rs).foldl (fun s x => s.countAccess r.pid x.1.lane false x.2) s
    let s := if o.scope = .dev then s
      else (placed rs).foldl (fun s x => match x.2 with
        | .hbm pa cache => if s.inCache p.vf cache (pa / 128) then s.fill p.cluster p.vf (pa / 128) else s
        | .store _ _ | .maj _ _ => s) s
    advance s r)

/-! ### Copies and lane transfers (R232, R233, R235) -/

/-- An asynchronous operation takes its ticket (R333); the answer is its serial number. -/
def State.enterAsync (s : State) (r : CpRef) (kind : AsyncKind) (waiting : Bool) (done : Bool) : Nat × State :=
  let (n, s) := s.fresh
  let s := match s.pop r.pid with | some p => s.count p.home r.pid 0x008 1 | none => s
  let a : AsyncOp :=
    { serial := n, kind := kind, moved := 0, waiting := waiting, held := none, status := 0, complete := done, since := s.clock,
      majWait := [], majLanes := [], know := Know.zero, acked := false, got := none }
  (n, s.updCp r (fun c => { c with asyncs := retireAsync (c.asyncs ++ [a]) }))

/-- The span of one side of a copy, from its lowest byte to the byte after its highest (R232). -/
def spanOf (base : Word64) (stride : Word64) (rows len : Nat) : Int × Int :=
  let far := stride.toInt * (rows - 1 : Nat)
  ((base.toNat : Int) + min 0 far, (base.toNat : Int) + max 0 far + len)

/-- The range locks of a copy entered at a clk: a read lock of a window source, a write lock of a window destination (R220). -/
def copyLocks (p : Pop) (d : CopyDesc) (serial : Nat) (clock : Word64) : List Lock :=
  let mk := fun (w : Bool) (sp : Int × Int) =>
    { cluster := p.cluster, write := w, engine := .copy, first := 524288 * p.base + sp.1.toNat,
      last := 524288 * p.base + sp.2.toNat - 1, owner := serial, entered := clock : Lock }
  (if d.srcW then [mk false (spanOf d.src d.srcStride d.rows d.len)] else [])
    ++ (if d.dstW then [mk true (spanOf d.dst d.dstStride d.rows d.len)] else [])

def locksMeet (a b : Lock) : Bool := a.cluster == b.cluster && decide (a.first ≤ b.last) && decide (b.first ≤ a.last)

/-- The operations of a stream, as owners of locks. -/
def Stream.owners (x : Stream) : List Nat := x.ops.map (fun o => o.serial)

/-- The ranges of an operation meet a lock of another one entered before its own; those of its own stream never count (R220, R259). -/
def State.blocked (s : State) (kin : List Nat) (owner : Nat) : Bool :=
  let mine := s.locks.filter (fun l => l.owner == owner)
  (s.locks.takeWhile (fun l => l.owner != owner)).any (fun l => !kin.contains l.owner && mine.any (locksMeet l))

/-- The order of the engines among entries of one clk (R220). -/
def Engine.rank : Engine → Nat
  | .copy => 0
  | .press => 1
  | .ladle => 2

/-- The place of an operation among those of one clk: that of its foremost entry, by engine and then by lowest byte (R220; DEDUCED,
notes/assumptions/29.md). -/
def lockKey (ls : List Lock) : Nat :=
  match ls with
  | [] => 0
  | l :: ls => ls.foldl (fun m x => min m (2 ^ 32 * x.engine.rank + x.first)) (2 ^ 32 * l.engine.rank + l.first)

/-- The owner's operation has begun in its engine: nothing is entered before it any more (R220). -/
def State.engineBegun (s : State) (owner : Nat) : Bool :=
  s.pops.any (fun e =>
    e.2.cps.any (fun x => x.2.asyncs.any (fun a => a.serial == owner && (a.moved != 0 || a.held.isSome || a.got.isSome)))
      || (match e.2.stream with
        | some x => x.ops.any (fun o => o.serial == owner && o.granted)
        | none => false))

/-- Operations wait in their engines where a lock now stands before their own (R220). -/
def State.lookAgain (s : State) (owners : List Nat) : State :=
  { s with pops := s.pops.map (fun e => (e.1, { e.2 with
      cps := e.2.cps.map (fun x => (x.1, { x.2 with asyncs := x.2.asyncs.map (fun a =>
        if owners.contains a.serial then { a with waiting := a.waiting || s.blocked [] a.serial } else a) })),
      stream := e.2.stream.map (fun x => { x with ops := x.ops.map (fun o =>
        if owners.contains o.serial then { o with waiting := o.waiting || s.blocked x.owners o.serial } else o) }) })) }

/-- The locks of an operation are entered together: after every other, but before operations of its clk and cluster that come after it in
the order of their engines and bytes, are not of its own stream and have not begun (R220, R259). -/
def State.enterLocks (s : State) (kin : List Nat) (new : List Lock) : State :=
  let after := fun (l : Lock) => new.all (fun n => n.cluster != l.cluster)
    || (!kin.contains l.owner && l.entered == s.clock && decide (lockKey new < lockKey (s.locks.filter (fun m => m.owner == l.owner))) && !s.engineBegun l.owner)
  let behind := (s.locks.reverse.takeWhile after).reverse
  if behind.all (fun l => new.all (fun n => n.cluster != l.cluster)) then { s with locks := s.locks ++ new }
  else
    ({ s with locks := s.locks.take (s.locks.length - behind.length) ++ new ++ behind }).lookAgain (behind.map Lock.owner)

/-- A checked window access of the population that some of these locks would have refused has yet to perform: the engine's own accesses
come after it (R206, R220, R355; notes/assumptions/29.md). -/
def Pop.windowBusy (p : Pop) (locks : List Lock) : Bool :=
  let hits := fun (loc : Loc) (n : Nat) (write : Bool) => match loc with
    | .store k a => locks.any (fun l => l.cluster == k && (write || l.write) && decide (l.first < a + n) && decide (a ≤ l.last))
    | .hbm _ _ | .maj _ _ => false
  p.cps.any (fun e =>
    e.2.pend.any (fun a => a.items.any (fun it => !it.done && hits it.loc it.size (!readsOnly a.op)))
      || e.2.asyncs.any (fun a => match a.kind with
        | .setTransfer load ts => !a.complete && ts.any (fun t => hits (p.winLoc t.off) t.size load)
        | .copy _ | .flush _ _ _ | .net _ => false))

/-- The lock entries of a cluster (R301). -/
def lockEntries : Nat := 64

/-- The lowest window offset of a span in a bank that is not SCRATCH (R232). -/
def State.badBank (s : State) (p : Pop) (sp : Int × Int) : Option Nat :=
  let lo := sp.1.toNat
  let hi := sp.2.toNat
  ((List.range p.banks).find? (fun b => decide (524288 * b < hi) && decide (lo < 524288 * (b + 1))
    && s.roleOf p.cluster (p.base + b) != .scratch)).map (fun b => max lo (524288 * b))

/-- A copy descriptor that CPY and CPY2 read (R232): a length above 16,777,216 or more than 65,536 rows is refused as 0 is, and of several
sides that fail a check the source is reported before the destination and the rennet word (DEDUCED, notes/assumptions/68.md). -/
def copyWord (mn : String) (i : Instr) (sb : SReg) (two : Bool) (s : State) : Result :=
  onCp mn i s (fun r p c s =>
    let x := c.getSn sb 2
    let rw := c.getSn sb 3
    let y := if two then c.getSn sb 4 else 1
    let d : CopyDesc :=
      { dst := c.getSn sb 0, src := c.getSn sb 1, len := (x.extractLsb' 0 32).toNat, rows := (y.extractLsb' 0 32).toNat,
        dstW := x.getLsbD 32, srcW := x.getLsbD 33, dstStride := if two then c.getSn sb 5 else 0,
        srcStride := if two then c.getSn sb 6 else 0, cw := if rw = allOnes64 then none else some rw.toNat }
    if d.len = 0 ∨ 16777216 < d.len ∨ d.rows = 0 ∨ 65536 < d.rows ∨ x.extractLsb' 34 30 ≠ 0 ∨ y.extractLsb' 32 32 ≠ 0 then
      illegal s r c
    else if d.cw.isSome ∧ rw.toNat % 16 ≠ 0 then trapWord s r c .align rw allOnes64
    else
      let sides := (if d.srcW then [spanOf d.src d.srcStride d.rows d.len] else [])
        ++ (if d.dstW then [spanOf d.dst d.dstStride d.rows d.len] else [])
        ++ (match d.cw with | some o => [((o : Int), (o : Int) + 16)] | none => [])
      match sides.find? (fun sp => decide (sp.1 < 0) || decide ((p.win : Int) < sp.2)) with
      | some sp => trapWord s r c .window (BitVec.ofInt 64 sp.1) allOnes64
      | none =>
        match sides.filterMap (s.badBank p) with
        | o :: _ => trapWord s r c .bankRole (BitVec.ofNat 64 o) allOnes64
        | [] =>
          let need := (copyLocks p d 0 s.clock).length
          if lockEntries < (s.locks.filter (fun l => l.cluster == p.cluster)).length + need then
            trapWord s r c .rangeLock allOnes64 allOnes64
          else
            let n := s.serial
            let s := s.enterLocks [] (copyLocks p d n s.clock)
            advance (s.enterAsync r (.copy d) (s.blocked [] n) false).2 r)

def execCpy (sb : SReg) (s : State) : Result := copyWord "CPY" (.cpy sb) sb false s
def execCpy2 (sb : SReg) (s : State) : Result := copyWord "CPY2" (.cpy2 sb) sb true s

/-- SETLD and SETST: window offsets and global addresses checked together, global causes per lane (R235); of one lane whose two addresses
both fail, the window offset is reported (DEDUCED, notes/assumptions/68.md). -/
def setWord (mn : String) (i : Instr) (o : MSet) (load : Bool) (s : State) : Result :=
  onCp mn i s (fun r p c s =>
    let lanes := p.laneList (c.getM 0 &&& p.live)
    let off := fun i => (p.getV i o.vdat.toNat).zeroExtend 64
    let gs := laneWants p c .g o.width.size (!load) (laneEa p c o.sbase o.idx (o.imm.signExtend 64))
    let ws := lanes.map (fun i => { space := .w, lane := some i, ea := off i, size := o.width.size, write := load : Want })
    match s.checkWants p ((ws.zip gs).flatMap (fun x => [x.1, x.2])) with
    | some t => trapWord s r c t.1 t.2.1 t.2.2
    | none =>
      let (s, rs) := s.placeEach p (if load then .read else .write) gs
      let items := (placed rs).map (fun x =>
        let i := x.1.lane.getD 0
        { lane := i, off := (off i).toNat, addr := x.1.ea, loc := x.2, size := o.width.size, got := none : SetItem })
      (s.enterAsync r (.setTransfer load items) false (items = [])).2.laneFaults r p c (missed rs))

def execSetld (o : MSet) (s : State) : Result := setWord "SETLD" (.setld o) o true s
def execSetst (o : MSet) (s : State) : Result := setWord "SETST" (.setst o) o false s

/-! ### INVAL and FLUSH (R234) -/

/-- The range of INVAL and FLUSH: first address and length, 0 for every line of the function. -/
def rangeOf (c : Cp) (o : MRange) : Nat × Nat := ((c.getS o.sbase + o.imm.signExtend 64).toNat, (c.getS o.sl).toNat)

def execInval (o : MRange) (s : State) : Result :=
  onCp "INVAL" (.inval o) s (fun r p c s =>
    let (lo, n) := rangeOf c o
    let ls := if n = 0 then [] else s.leaves p.vf p.asid lo (lo + n)
    advance { s with ccache := s.ccache.filter (fun l =>
      !(l.cluster == p.cluster && l.vf == p.vf && (n == 0 || lineInRange ls lo (lo + n) l.line))) } r)

def execFlush (o : MRange) (s : State) : Result :=
  onCp "FLUSH" (.flush o) s (fun r _ c s =>
    let (lo, n) := rangeOf c o
    advance (s.enterAsync r (.flush lo n (n == 0)) false false).2 r)

/-! ### Planes (R236) -/

/-- The parts of the planes that the lanes of A need: plane, byte, group, half of a group (R236). -/
def planeParts (lanes : List Nat) : List (Nat × Nat × Nat × Nat) :=
  let gs := (lanes.map (fun i => i / 256)).eraseDups
  (List.range 8).flatMap (fun j => (List.range 4).flatMap (fun k => gs.flatMap (fun g => [(j, k, g, 0), (j, k, g, 1)])))

/-- The window offset of a part (R236). -/
def planeOff (base ps rs : Word64) (x : Nat × Nat × Nat × Nat) : Word64 :=
  base + BitVec.ofNat 64 x.1 * ps + BitVec.ofNat 64 x.2.1 * rs + BitVec.ofNat 64 (32 * x.2.2.1 + 16 * x.2.2.2)

/-- The bits of a part that stand for lanes with a property. -/
def planeBits (lanes : List Nat) (x : Nat × Nat × Nat × Nat) (f : Nat → Bool) : BitVec 128 :=
  (lanes.filter (fun i => i / 256 == x.2.2.1 && i % 256 / 128 == x.2.2.2 && f i)).foldl
    (fun acc i => acc ||| BitVec.ofNat 128 (2 ^ (i % 128))) 0

/-- A plane part as an item: every lane of A in its group depends on it (R236). -/
def planeItem (p : Pop) (lanes : List Nat) (vd : Nat) (store : Bool) (x : Nat × Nat × Nat × Nat) (off : Word64) : Item :=
  let mine := lanes.filter (fun i => i / 256 == x.2.2.1)
  let it := item mine off (p.winLoc off.toNat) 16
    (if store then planeBits lanes x (fun i => (p.getV i vd).getLsbD (8 * x.2.1 + (7 - x.1))) else 0)
    (planeKey x.2.2.1 x.2.2.2 x.1 x.2.1)
  if store then { it with bits := planeBits lanes x (fun _ => true) } else it

/-- STPL and LDPL: alignment of base, PS and RS, then the checks of a window access over every part (R206, R236). ALIGN reports the first
of the three that is misaligned, with the lowest lane of A (DEDUCED, notes/assumptions/68.md). -/
def planeWord (mn : String) (i : Instr) (o : MPlane) (store : Bool) (s : State) : Result :=
  onCp mn i s (fun r p c s =>
    let base := c.getSn o.sbase 0 + o.imm.signExtend 64
    let ps := c.getSn o.sbase 1
    let rs := c.getSn o.sbase 2
    let lanes := p.laneList (c.getM 0 &&& p.live)
    let tlane := laneWord64 lanes.head?
    match [base, ps, rs].find? (fun x => x.toNat % 32 != 0) with
    | some x => trapWord s r c .align x tlane
    | none =>
      let parts := planeParts lanes
      let ws := ((lanes.map (fun i => i / 256)).eraseDups).flatMap (fun g =>
        (parts.filter (fun x => x.2.2.1 == g)).map (fun x =>
          { space := .w, lane := lanes.find? (fun i => i / 256 == g), ea := planeOff base ps rs x, size := 16,
            write := store : Want }))
      match s.checkWants p ws with
      | some t => trapWord s r c t.1 t.2.1 t.2.2
      | none =>
        let items := parts.map (fun x => planeItem p lanes o.vdat.toNat store x (planeOff base ps rs x))
        let items := if store then items.filter (fun it => it.bits != 0) else items
        advance (s.enter r c (if store then .stpl else .ldpl o.vdat) .pop .plain (!store) items) r)

def execStpl (o : MPlane) (s : State) : Result := planeWord "STPL" (.stpl o) o true s
def execLdpl (o : MPlane) (s : State) : Result := planeWord "LDPL" (.ldpl o) o false s

/-! ### BANKCFG (R237) -/

/-- A bank's bytes and poison are zeroed, with the releases that stood there, and its FIFO is empty (R210, R237). -/
def State.zeroBank (s : State) (cluster bank : Nat) : State :=
  { s with cstore := Tab.clear s.cstore (16777216 * cluster + 524288 * bank) 524288,
           cline := Tab.clear s.cline (131072 * cluster + 4096 * bank) 4096,
           rels := s.rels.filter (fun x => match x.loc with
             | .store k a => !(k == cluster && a / 524288 == bank)
             | .hbm _ _ | .maj _ _ => true),
           fifos := Tab.erase s.fifos (32 * cluster + bank) }

def State.setRole (s : State) (cluster bank : Nat) (x : BankRole) : State :=
  { s with role := Tab.put (coldRole bank) s.role (32 * cluster + bank) x }

def State.fifo (s : State) (cluster bank : Nat) : Fifo := Tab.get Fifo.empty s.fifos (32 * cluster + bank)

def roleOfCfg : CfgRole → BankRole
  | .scratch => .scratch
  | .fifo => .fifo

def execBankcfg (role : CfgRole) (bank : BitVec 5) (s : State) : Result :=
  onCp "BANKCFG" (.bankcfg role bank) s (fun r p c s =>
    let n := bank.toNat
    let off := BitVec.ofNat 64 (524288 * n)
    let b := p.base + n
    if p.banks ≤ n then trapWord s r c .window off allOnes64
    else if s.roleOf p.cluster b = roleOfCfg role then advance s r
    else if (s.lockHit p (524288 * b) 524288 true).isSome ∨ (s.fifo p.cluster b).waiters ≠ [] then
      trapWord s r c .bankRole off allOnes64
    else advance (((s.drain r).zeroBank p.cluster b).setRole p.cluster b (roleOfCfg role)) r)

end Sys2Proof.Machine
end

