-- ==== Sys2Proof/Machine/Issue.lean ====
section
/-! DEFINITION. Fetch and check of clauses, the choice of a partition, continuation clauses, promotion and the restart after a
trap (R17, R18, R55, R57 to R65, R161, R174, R314). -/

namespace Sys2Proof.Machine

/-! ### CRC-32C (R55) -/

/-- One bit of the reflected CRC. -/
def crcBit (x : Word32) : Word32 := if x.getLsbD 0 then (x >>> 1) ^^^ 0x82F63B41#32 else x >>> 1

def crcByte (x : Word32) (b : Byte) : Word32 :=
  (List.range 8).foldl (fun y _ => crcBit y) (x ^^^ b.zeroExtend 32)

/-- The CRC-32C of a list of bytes. -/
def crc32c (bs : List Byte) : Word32 := bs.foldl crcByte 0xFFFFFFFF#32 ^^^ 0xFFFFFFFF#32

/-! ### Headers (R57, R58, R61, R62) -/

/-- The number of words of a header's clause. -/
def hdrWords (h : Word64) : Nat := (h.extractLsb' 52 4).toNat + 1

def hdrWt (h : Word64) : Nat := (h.extractLsb' 46 6).toNat
def hdrWa (h : Word64) : Nat := (h.extractLsb' 40 6).toNat

/-- The class of an assigned opcode (R83); none for the unassigned. -/
def opClass (op : Nat) : Option Nat :=
  if op ≤ 0x13 ∨ (0x20 ≤ op ∧ op ≤ 0x3B) then some 0
  else if (0x40 ≤ op ∧ op ≤ 0x52) ∨ (0x60 ≤ op ∧ op ≤ 0x7B) ∨ (0x80 ≤ op ∧ op ≤ 0x95) then some 1
  else if (0xA0 ≤ op ∧ op ≤ 0xB1) ∨ (0xE0 ≤ op ∧ op ≤ 0xE6) then some 2
  else if 0xC0 ≤ op ∧ op ≤ 0xCB then some 3
  else if 0xD0 ≤ op ∧ op ≤ 0xD9 then some 4
  else none

def opOf (w : Word64) : Nat := (w.extractLsb' 56 8).toNat

/-- A closing word, by its opcode (R26, R62). -/
def closing (op : Nat) : Bool :=
  decide (1 ≤ op ∧ op ≤ 0x0F) || op == 0x12 || op == 0x13
    || [0x47, 0x48, 0x4C, 0x4D, 0x4E, 0x4F, 0x50, 0x51, 0x92, 0x93, 0x94, 0x95, 0xA3, 0xA4, 0xA5, 0xA6, 0xC8, 0xCB, 0xD0, 0xD1,
        0xD2, 0xD3, 0xD5, 0xD6, 0xD7, 0xD8, 0xD9, 0xE0].contains op

/-- The reserved bits of a header (R57). -/
def hdrReserved (h : Word64) : Bool := h.extractLsb' 37 3 != 0 || h.extractLsb' 32 4 != 0

/-- The CRC of a clause agrees with its header. -/
def crcOk (h : Word64) (ws : List Word64) : Bool :=
  !h.getLsbD 36 || h.extractLsb' 0 32 == crc32c (ws.flatMap (fun w => bytesOf 8 w))

/-- Steps 2 to 5 of R61 for a control program: the trap of the first that fails. -/
def clauseCheck (h : Word64) (ws : List Word64) : Option Trap :=
  let ec := (h.extractLsb' 56 4).toNat
  if !([0, 1, 2, 4, 15].contains ec) || hdrReserved h || (!h.getLsbD 36 && h.extractLsb' 0 32 != 0) then some .illegal
  else if !crcOk h ws then some .clauseCrc
  else if ws.any (fun w => match opClass (opOf w) with
      | some k => k == 3 || (ec != 15 && k != ec)
      | none => false) then some .illegal
  else if ws.dropLast.any (fun w => closing (opOf w)) then some .illegal
  else none

/-! ### Fetch (R60, R64, R65) -/

/-- The forms in which a word may be fetched: as it stands, as the population fetched it before, and as it stood at any time since the
population began (R65). -/
def State.fetchForms (s : State) (pid : Nat) (addr : Word64) (l : Loc) (w : Word64) : List Word64 :=
  match s.pop pid with
  | none => [w]
  | some p =>
    let at_ := match l with
      | .hbm pa _ => some pa
      | .maj set off => some (majPlace set off)
      | .store _ _ => none
    let old := (s.olds.filter (fun x => some x.place == at_ && decide (p.since ≤ x.serial))).map (fun x => x.word)
    (w :: (Tab.find p.code addr.toNat).toList ++ old).eraseDups

/-- An instruction word at an address: read through the home core's translation; a word that has been rewritten since the population
began comes in an old or its new form (R65). -/
def State.fetchWord (s : State) (pid : Nat) (p : Pop) (asid : BitVec 12) (addr : Word64) : Met Word64 :=
  match (s.countHidden p.home pid).translate p.cpUnits p.vf asid addr .read with
  | (s, .error e) => (s, .error e)
  | (s, .ok l) =>
    match s.readLoc l 8 with
    | (s, .error e) => (s, .error e)
    | (s, .ok bs) =>
      let w := (wordOfBytes bs).getD 0
      let forms := s.fetchForms pid addr l w
      let (k, s) := s.pick forms.length
      let w := forms.getD k w
      (s.updPop pid (fun q => { q with code := Tab.insert q.code addr.toNat w }), .ok w)

/-- Consecutive words, or the address and cause of the first that fails. -/
def State.fetchWords (s : State) (pid : Nat) (p : Pop) (addr : Word64) : Nat → State × Except (Word64 × LaneCause) (List Word64)
  | 0 => (s, .ok [])
  | n + 1 =>
    match s.fetchWord pid p p.asid addr with
    | (s, .error e) => (s, .error (addr, e))
    | (s, .ok w) =>
      match State.fetchWords s pid p (addr + 8) n with
      | (s, .ok ws) => (s, .ok (w :: ws))
      | (s, .error e) => (s, .error e)

/-- Why a clause cannot be fetched: the failing address and its cause, none for a word that is no header or an address that can
hold none (R64). -/
structure FetchFail where
  addr : Word64
  cause : Option LaneCause
  deriving DecidableEq, Repr

/-- A clause fetched whole: its header and words (R60, R64). -/
def State.fetchClause (s : State) (pid : Nat) (p : Pop) (hdr : Word64) : State × Except FetchFail (Word64 × List Word64) :=
  if hdr.extractLsb' 0 3 ≠ 0 ∨ hdr.extractLsb' 56 8 ≠ 0 then (s, .error { addr := hdr, cause := none })
  else
    match s.fetchWord pid p p.asid hdr with
    | (s, .error e) => (s, .error { addr := hdr, cause := some e })
    | (s, .ok h) =>
      if h.extractLsb' 60 4 ≠ 15#4 then (s, .error { addr := hdr, cause := none })
      else
        match s.fetchWords pid p (hdr + 8) (hdrWords h) with
        | (s, .ok ws) => (s, .ok (h, ws))
        | (s, .error e) => (s, .error { addr := e.1, cause := some e.2 })

/-! ### Tickets and the waits of a header (R59) -/

/-- The words that take a load ticket, and an async ticket (R333). -/
def takesLoad : Instr → Bool
  | .ld _ | .lds _ | .ldpl _ | .atom _ | .satom _ | .qpop _ _ | .qpopb _ _ _ | .qpushTry _ _ _ | .qstat _ _ | .arrive _ _ _
  | .rwget _ _ => true
  | _ => false

def takesAsync : Instr → Bool
  | .cpy _ | .cpy2 _ | .flush _ | .setld _ | .setst _ | .nput _ | .nget _ | .narrive _ => true
  | _ => false

def countWords (f : Instr → Bool) (ws : List Word64) : Nat :=
  (ws.filter (fun w => match decode w with | .ok i => f i | .error _ => false)).length

/-- The greatest numbers of outstanding tickets with which a clause may begin (R59). -/
def ticketBound (bound n : Nat) : Nat := min (if bound = 63 then 64 else bound) (64 - n)

def Cp.asyncTickets (c : Cp) : Nat := c.asyncs.length

/-! ### The choice of a partition (R17, R18) -/

/-- A CP that can issue: not parked, held, halted or ended, in a population that runs (R17). -/
def Cp.ready (p : Pop) (c : Cp) : Bool :=
  c.wait.isNone && c.held.isNone && !c.halted && !c.ended && !c.issuing && !p.aborted && !p.preempting

/-- The bounds on its load and async tickets with which a clause may begin (R59). -/
def loadBound (h : Word64) (ws : List Word64) : Nat := ticketBound (hdrWt h) (countWords takesLoad ws)
def asyncBound (h : Word64) (ws : List Word64) : Nat := ticketBound (hdrWa h) (countWords takesAsync ws)

/-- The wait entry of a CP whose next header's waits are not met (R310; notes/assumptions/28.md). -/
def headerWait (h : Word64) (ws : List Word64) : Wait :=
  { kind := .header, space := .g, addr := 0, value := BitVec.ofNat 32 (loadBound h ws + 256 * asyncBound h ws),
    aux := BitVec.ofNat 32 (hdrWt h + 256 * hdrWa h) }

/-- The wait of a CP at a clause boundary whose next header's wait fields are not satisfied (R17, R59); none where they are, or where a
trap is due there instead. -/
def State.headerUnmet (s : State) (pid : Nat) (p : Pop) (c : Cp) : Option Wait :=
  if c.clause ≠ [] ∨ c.scopeTrap.isSome = true ∨ c.storeFault.isSome = true then none
  else
    match (s.fetchClause pid p c.hdr).2 with
    | .error _ => none
    | .ok (h, ws) =>
      if (clauseCheck h ws).isSome = true ∨ (c.faultWithin (loadBound h ws)).isSome = true
          ∨ (c.loadTickets ≤ loadBound h ws ∧ c.asyncTickets ≤ asyncBound h ws) then none
      else some (headerWait h ws)

/-- The ready CPs of a partition (R17). -/
def State.readyIn (s : State) (core part : Nat) : List (CpRef × Pop × Cp) :=
  s.pops.flatMap (fun e =>
    if e.2.home = core then
      (e.2.cps.filter (fun x => x.2.ctx % 8 == part && x.2.ready e.2 && (s.headerUnmet e.1 e.2 x.2).isNone)).map (fun x =>
        ({ pid := e.1, cid := x.1 }, e.2, x.2))
    else [])

/-- A CP that comes to a header whose waits are not met parks there at once and leaves its partition (R20). -/
def State.parkHeaders (s : State) : State :=
  s.pops.foldl (fun s e => e.2.cps.foldl (fun s x =>
    if x.2.ready e.2 then
      match s.headerUnmet e.1 e.2 x.2 with
      | some w => s.updCp { pid := e.1, cid := x.1 } (fun c => { c with wait := some w, waitWord := c.wordAddr })
      | none => s
    else s) s) s

/-- The clocks a CP has been ready. -/
def State.readyFor (s : State) (c : Cp) : Nat := (s.clock - c.readySince).toNat

/-- Promoted: ready for 48 clocks without beginning a clause (R18). -/
def State.isPromoted (s : State) (c : Cp) : Bool := c.promoted || decide (48 ≤ s.readyFor c)

/-- a is chosen before b (R18). -/
def State.before (s : State) (a b : CpRef × Pop × Cp) : Bool :=
  let age := fun (_ : Unit) =>
    decide (s.readyFor b.2.2 < s.readyFor a.2.2) || (s.readyFor a.2.2 == s.readyFor b.2.2 && decide (a.2.2.ctx < b.2.2.ctx))
  match s.isPromoted a.2.2, s.isPromoted b.2.2 with
  | true, false => true
  | false, true => false
  | true, true => age ()
  | false, false => decide (b.2.1.prio < a.2.1.prio) || (a.2.1.prio == b.2.1.prio && age ())

/-- The CP that a partition chooses, unless a clause of it is under way. -/
def State.chosen (s : State) (core part : Nat) : Option (CpRef × Pop × Cp) :=
  if s.pops.any (fun e => e.2.home == core && e.2.cps.any (fun x => x.2.issuing && x.2.ctx % 8 == part)) then none
  else
    match s.readyIn core part with
    | [] => none
    | x :: l => some (l.foldl (fun a b => if s.before b a then b else a) x)

/-- A trap at a header: nothing of the clause has performed (R61, R64). -/
def trapHeader (s : State) (r : CpRef) (c : Cp) (t : Trap) (taddr : Word64) (notPresent : Bool) : State :=
  takeTrap s r t c.hdr taddr allOnes64 0 notPresent (fun c => c)

/-- The rest of a clause accesses lane registers (R344 step 3). -/
def touchesLanes (ws : List Word64) : Bool :=
  ws.any (fun w => match decode w with
    | .ok i => laneRegs i != []
    | .error _ => false)

/-- A CP begins a clause or a continuation of one: it enters population order, and the lanes parked before no longer act (R18, R22,
R135, R344). -/
def State.startIssue (s : State) (r : CpRef) (f : Cp → Cp) : State :=
  let s := s.updPop r.pid (fun p =>
    { p.updCp r.cid (fun c => { f c with issuing := true, readySince := s.clock, promoted := false, late := 0 }) with lastCp := r.cid })
  match s.cpOf r with
  | some (_, c) => if touchesLanes (c.clause.drop c.widx) then s.carry r else s
  | none => s

/-- The chosen CP at its clause boundary: a SCOPE trap or the cause of a store that is due is taken; else its clause is fetched and
checked whole, its header's waits are tried, and it begins (R59, R60, R61, R219, R221). -/
def beginClause (s : State) (r : CpRef) (p : Pop) (c : Cp) : State :=
  match c.scopeTrap, c.storeFault with
  | some t, _ => takeTrap s r .scope t.tpc t.taddr t.tlane 0 false (fun c => { c with scopeTrap := none })
  | none, some a => takeDataFault s r a
  | none, none =>
    match s.fetchClause r.pid p c.hdr with
    | (s, .error f) => trapHeader s r c .clause f.addr (f.cause == some .notPresent)
    | (s, .ok (h, ws)) =>
      match clauseCheck h ws with
      | some t => trapHeader s r c t 0 false
      | none =>
        match c.faultWithin (loadBound h ws) with
        | some a => takeDataFault s r a
        | none =>
          if c.loadTickets ≤ loadBound h ws ∧ c.asyncTickets ≤ asyncBound h ws then
            (s.count p.home r.pid 0x002 1).startIssue r (fun c => { c with clause := ws, widx := 0, fresh := false })
          else parkAt s r (headerWait h ws)

/-- How far a CP index stands behind the CP that entered population order last (R22). -/
def Pop.turn (p : Pop) (cid : Nat) : Nat := (cid + 7 - p.lastCp) % 8

/-- The CPs of a population that their partitions choose now. -/
def State.chosenOf (s : State) (pid : Nat) (p : Pop) : List Nat :=
  (List.range 8).filterMap (fun part => match s.chosen p.home part with
    | some (r, _, _) => if r.pid = pid then some r.cid else none
    | none => none)

/-- The CP's clause may enter population order now: no other CP of its population is inside a clause, and of those that are ready to
enter it comes first, by CP index after the one that entered last (R22). -/
def State.enters (s : State) (r : CpRef) (p : Pop) : Bool :=
  p.quiet && (s.chosenOf r.pid p).all (fun k => decide (p.turn r.cid ≤ p.turn k))

/-- CLAUSE_ISSUE: the partition's chosen CP begins its next clause, whole and in its turn (R18, R22, R60). -/
def execClauseIssue (core part : Nat) (s : State) : Result :=
  match s.chosen core part with
  | some (r, p, c) =>
    if c.clause = [] ∧ s.enters r p then .next (beginClause s r p c) else .refused (.notEnabled "CLAUSE_ISSUE")
  | none => .refused (.notEnabled "CLAUSE_ISSUE")

/-- CP_PROMOTION (R18). -/
def execCpPromotion (cp : CpRef) (s : State) : Result :=
  match s.cpOf cp with
  | some (p, c) =>
    if c.ready p && (s.headerUnmet cp.pid p c).isNone && !c.promoted && decide (48 ≤ s.readyFor c) then
      .next (s.updCp cp (fun c => { c with promoted := true }))
    else .refused (.notEnabled "CP_PROMOTION")
  | none => .refused (.notEnabled "CP_PROMOTION")

/-- CONTINUATION_CLAUSE: the chosen CP goes on inside its clause, without a new header check (R63). -/
def execContinuationClause (core part : Nat) (s : State) : Result :=
  match s.chosen core part with
  | some (r, p, c) =>
    if c.clause ≠ [] ∧ s.enters r p then .next (s.startIssue r (fun c => c)) else .refused (.notEnabled "CONTINUATION_CLAUSE")
  | none => .refused (.notEnabled "CONTINUATION_CLAUSE")

/-- The CP is ready again where its trap left it; its age starts now (R18, R161). -/
def restart (s : State) (r : CpRef) : State :=
  s.updCp r (fun c => { c with held := none, readySince := s.clock, promoted := false })

/-- TRAP_RESUME: under RESUME a held CP restarts where R314 says, at once or once firmware has made the page present; where it
cannot, RESUME acts as ABORT (R161, R314, R316). -/
def execTrapResume (cp : CpRef) (repaired : Bool) (s : State) : Result :=
  match s.cpOf cp with
  | none => .refused (.notEnabled "TRAP_RESUME")
  | some (p, c) =>
    match c.held with
    | none => .refused (.notEnabled "TRAP_RESUME")
    | some h =>
      if p.policy = .resume ∧ c.halted = false ∧ p.aborted = false then
        match h.code.resumeKind h.repairable with
        | .atOnce => .next (restart s cp)
        | .repair =>
          let t := s.makePresent p.vf p.asid c.taddr
          if repaired && t.present p.vf p.asid c.taddr then .next (restart t cp)
          else .next (s.updPop cp.pid (fun p => p.abort))
        | .asAbort => .next (s.updPop cp.pid (fun p => p.abort))
      else .refused (.notEnabled "TRAP_RESUME")

end Sys2Proof.Machine
end

