-- ==== Sys2Proof/Machine/Queue.lean ====
section
/-! DEFINITION. Caves and their spill segments (R277 to R283), and the queue instructions QPUSH to FPOP (R284 to R291). -/

namespace Sys2Proof.Machine

/-! ### Caves (R277, R278, R280, R281) -/

def State.cave (s : State) (k : Nat) : Cave := Tab.get Cave.empty s.caves k

/-- A valid function, and its weight (R309). -/
def State.vfValid (s : State) (vf : Nat) : Bool := (s.vfWord vf 0).getLsbD 63
def State.vfWeight (s : State) (vf : Nat) : Nat := ((s.vfWord vf 0).extractLsb' 56 6).toNat

/-- The enabled launch caves of a function that hold entries. -/
def State.launchCaves (s : State) (vf : Nat) : List (Nat × Cave) :=
  s.caves.filter (fun e => e.2.enable && e.2.launch && !e.2.set && e.2.vf == vf && e.2.entries != [])

/-- A function with something to take up and no task in the way (R294). -/
def State.canServe (s : State) (vf : Nat) : Bool :=
  s.vfValid vf && (Tab.find s.pending vf).isNone && s.launchCaves vf != []

/-- A visit that has come to its end early: the function holds nothing more to take up, or a task of it is not yet wholly placed (R294). -/
def State.visitEnd (s : State) : State := if s.canServe s.lastVf then s else { s with taken := 63 }

/-- A cave changes; the distributor's visit ends where it empties the last cave of the function (R294). -/
def State.setCave (s : State) (k : Nat) (v : Cave) : State := ({ s with caves := Tab.put Cave.empty s.caves k v }).visitEnd

/-- The capacity C of a cave (R278). -/
def Cave.capacity (v : Cave) : Nat := 512 + 4096 * v.segs.length

/-- The reserved slot of a depth is free (R278). -/
def Cave.slotFree (v : Cave) (d : Nat) : Bool := decide (1 ≤ d) && decide (d ≤ 8) && v.entries.all (fun e => e.slot != d)

def Cave.freeSlots (v : Cave) : Nat := ((List.range 9).filter (fun d => v.slotFree d)).length

/-- Where a push of a depth fits: slot 0 is a general place (R278). -/
def Cave.room (v : Cave) (depth : Nat) : Option Nat :=
  if v.set then (if v.entries.length < v.capacity then some 0 else none)
  else if v.entries.length + v.freeSlots < v.capacity then some 0
  else if v.slotFree depth then some depth else none

/-- W (R277). -/
def Cave.window (v : Cave) : Nat :=
  match v.wcode with
  | 0 => 1
  | 1 => 4
  | 2 => 16
  | _ => 64

/-- The head's places in use (R283). -/
def Cave.headUse (v : Cave) : Nat := (v.entries.filter (fun e => e.place == .head)).length

/-- A free place of a linked segment: the first segment and the lowest place (R283). -/
def Cave.freeSeg (v : Cave) : Option (Nat × Nat) :=
  v.segs.findSome? (fun f =>
    let used := v.entries.filterMap (fun e => match e.place with | .seg g k => if g = f then some k else none | .head => none)
    ((List.range 4096).find? (fun k => !used.contains k)).map (fun k => (f, k)))

/-- A segment from the pool is linked: its first 8 bytes name the next free one (R278, R283). -/
def State.linkSegment (s : State) (k : Nat) : Option State :=
  let v := s.cave k
  if v.npool = 0 ∨ 255 ≤ v.segs.length then none
  else
    let next := frameOf ((wordOfBytes (s.physBytes (65536 * v.pool) 8)).getD 0) / 65536
    some (s.setCave k { v with segs := v.segs ++ [v.pool], pool := next, npool := v.npool - 1 })

/-- Segments are linked one at a time until a test holds or no more can be linked (R278). -/
def State.linkUntil (k : Nat) (ok : Cave → Bool) : Nat → State → State
  | 0, s => s
  | n + 1, s =>
    if ok (s.cave k) then s
    else
      match s.linkSegment k with
      | some s => State.linkUntil k ok n s
      | none => s

/-- A segment returns to the pool, as its first free one (R283; DESIGN CHOICE, notes/assumptions/38.md). -/
def State.unlink (s : State) (k frame : Nat) : State :=
  let v := s.cave k
  let s := s.setCave k { v with segs := v.segs.filter (fun f => f != frame), pool := frame, npool := v.npool + 1 }
  s.writePhys v.vf 1 (65536 * frame) (bytesOf 8 (BitVec.ofNat 64 (65536 * v.pool)))

/-- Segments that hold no entry return to the pool, when a pop or a refill has moved entries (R283; a segment linked for an entry that the
head then took stays linked until then: DESIGN CHOICE, notes/assumptions/38.md). -/
def State.returnEmpty (s : State) (k : Nat) : State :=
  let v := s.cave k
  (v.segs.filter (fun f => v.entries.all (fun e => match e.place with | .seg g _ => g != f | .head => true))).foldl
    (fun s f => s.unlink k f) s

/-- The address of a place in a segment (R283). -/
def segAddr (frame slot : Nat) : Nat := 65536 * frame + 144 * slot

/-- Bytes of any span written as L2-only lines (R283). -/
def State.writeSpan (s : State) (vf : Nat) : Nat → List Byte → State
  | pa, bs => ((List.range (bs.length + 127)).map (fun i => i)).foldl (fun s i =>
      if i < bs.length then s.writePhys vf 1 (pa + i) (bs.drop i |>.take 1) else s) s

/-- An entry takes its place: the head while it has one free, else a segment in HBM, which is linked when none is free; the list stays
in the order of R280 or R281 (R283). -/
def State.addEntry (s : State) (k : Nat) (words : List Word64) (key : Word32) (slot : Nat) (know : Know) : State × Word32 :=
  let (n, s) := s.fresh
  let s := if (s.cave k).headUse < 512 ∨ (s.cave k).freeSeg.isSome = true then s else (s.linkSegment k).getD s
  let v := s.cave k
  let place := if v.headUse < 512 then Place.head
    else match v.freeSeg with
      | some (f, j) => .seg f j
      | none => .head
  let words := match words with
    | w :: ws => (v.seq ++ w.extractLsb' 0 32) :: ws
    | [] => []
  let e : CaveEntry := { words := words, key := key, seq := v.seq, slot := slot, place := place, born := n, know := know }
  let entries := if v.set then v.entries ++ [e]
    else v.entries.takeWhile (fun x => decide (x.key.toNat ≤ key.toNat)) ++ e
      :: v.entries.dropWhile (fun x => decide (x.key.toNat ≤ key.toNat))
  let s := s.setCave k { v with entries := entries, seq := v.seq + 1 }
  let s := match place with
    | .seg f j =>
      let ws := if v.set then (v.seq ++ key) :: List.replicate 17 0 else words
      s.writeSpan v.vf (segAddr f j) (ws.flatMap (fun w => bytesOf 8 w))
    | .head => s
  (s, v.seq)

/-- An entry of 18 words is pushed if it fits, its src and depth filled in, with what its push has released (R278, R279, R342). -/
def State.cavePush (s : State) (k : Nat) (words : List Word64) (depth src : Nat) (know : Know) : Option (State × Word32) :=
  let s := State.linkUntil k (fun v => (v.room depth).isSome) 256 s
  match (s.cave k).room depth with
  | none => none
  | some slot =>
    let w2 := (words.getD 2 0 &&& 0x0000_0000_FFF0_FFFF#64) ||| BitVec.ofNat 64 (2 ^ 32 * (src % 65536) + 65536 * depth)
    some (s.addEntry k (words.set 2 w2) ((words.getD 0 0).extractLsb' 0 32) slot know)

/-- Removing an entry; a segment left empty returns to the pool (R283). -/
def State.removeEntry (s : State) (k : Nat) (e : CaveEntry) : State :=
  let v := s.cave k
  (s.setCave k { v with entries := v.entries.filter (fun x => x.born != e.born) }).returnEmpty k

/-- A pop of an ordered cave: an entry of rank at most W, of rank 1 under DET (R280). -/
def State.cavePop (s : State) (k : Nat) (det : Bool) : Option (State × CaveEntry) :=
  let v := s.cave k
  let w := min (if det then 1 else v.window) v.entries.length
  let (i, s) := s.pick w
  match v.entries[i]? with
  | none => none
  | some e => some (s.removeEntry k e, e)

/-- Leaves n members of a list out, each a choice. -/
def State.dropSome {α : Type} : Nat → State → List α → State × List α
  | 0, s, l => (s, l)
  | n + 1, s, l =>
    let (i, s) := s.pick l.length
    State.dropSome n s (l.eraseIdx i)

/-- A pop of k keys of a set cave, each of rank at most k + W − 1, in push order (R281). -/
def State.popKeys (s : State) (k n : Nat) (det : Bool) : State × List CaveEntry :=
  let v := s.cave k
  let n := min n v.entries.length
  let cand := v.entries.take (n + (if det then 1 else v.window) - 1)
  let (s, es) := State.dropSome (cand.length - n) s cand
  (es.foldl (fun s e => s.removeEntry k e) s, es)

/-- SPILL_REFILL: spilled entries move into free places of the head in push order; an unreadable one is dropped, counted and
recorded (R283). -/
def State.refillOne (s : State) (k : Nat) : State :=
  let v := s.cave k
  let spilled := v.entries.filter (fun e => e.place != .head)
  match spilled with
  | [] => s
  | e :: l =>
    let e := l.foldl (fun a b => if b.born < a.born then b else a) e
    match e.place with
    | .head => s
    | .seg f j =>
      let lines := (List.range 3).map (fun i => Loc.hbm (min (segAddr f j + 64 * i) (segAddr f j + 143)) 1)
      let bad := lines.find? (fun l => s.lineState l != LineState.clean)
      match bad with
      | some l =>
        let s := (s.touchLine l).1
        let s := s.removeEntry k e
        let v := s.cave k
        { s.setCave k { v with lost := if v.lost = BitVec.allOnes 16 then v.lost else v.lost + 1 } with
          errRecords := s.errRecords ++ [{ vf := v.vf, popid := 0x3FFF, addr := BitVec.ofNat 64 (segAddr f j), code := 2 }] }
      | none =>
        (s.setCave k { v with entries := v.entries.map (fun x => if x.born = e.born then { x with place := .head } else x) }).returnEmpty k

def State.refill (k : Nat) : Nat → State → State
  | 0, s => s
  | n + 1, s => if (s.cave k).headUse < 512 then State.refill k n (s.refillOne k) else s

def execSpillRefill (cave : Nat) (s : State) : Result :=
  let v := s.cave cave
  if v.headUse < 512 ∧ v.headUse < v.entries.length then .next (State.refill cave v.entries.length s)
  else .refused (.notEnabled "SPILL_REFILL")

/-! ### The checks of R284 -/

/-- The modes in which a push that does not fit is held for the management processor (R283, R372). -/
def State.mpServes (s : State) : Bool := decide (s.sys.stage < 2) || s.sys.testMode || s.sys.recovery

/-- Reasons 1 and 2 (R284). -/
def Cave.reason (v : Cave) (vf : Nat) (set : Option Bool) : Option Nat :=
  if !v.enable || v.vf != vf then some 1
  else match set with
    | some b => if v.set != b then some 2 else none
    | none => none

/-- Reason 4: an entry field is invalid (R284). -/
def badEntry (ws : List Word64) : Bool :=
  let w := ws.getD 2 0
  w.extractLsb' 0 16 == 0 || w.extractLsb' 48 16 != 0 || w.extractLsb' 23 9 != 0 || w.getLsbD 22
    || (w.getLsbD 21 && (ws.getD 17 0).extractLsb' 0 4 != 0)

/-- The trap QUEUE with its reason (R284). -/
def queueTrap (s : State) (r : CpRef) (c : Cp) (reason : Nat) : State :=
  trapWord s r c .queue (BitVec.ofNat 64 reason) allOnes64

/-- The reason for which a push of a CP is refused (R284). -/
def State.pushReason (s : State) (p : Pop) (cave : Nat) (ws : List Word64) : Option Nat :=
  match (s.cave cave).reason p.vf (some false) with
  | some x => some x
  | none => if p.nest = 8 then some 3 else if badEntry ws then some 4 else none

/-- The scalars of an entry. -/
def Cp.block (c : Cp) (r : SReg) (n : Nat) : List Word64 := (List.range n).map (fun i => c.getSn r i)

/-- A queue word's wait (R310). -/
def queueWait (kind : WaitKind) (addr : Nat) (value aux : Nat) : Wait :=
  { kind := kind, space := .g, addr := BitVec.ofNat 64 addr, value := BitVec.ofNat 32 value, aux := BitVec.ofNat 32 aux }

/-- The end of a QPUSH.try: a result under a load ticket (R285). -/
def tryDone (s : State) (r : CpRef) (c : Cp) (sd : SReg) (v : Word64) : State :=
  advance (s.enter r c (.scalars [(sd, v)]) .dev .plain true []) r

/-- QPUSH, at its word or when its held push is tested again (R285): a reason of R284 traps; the release at DEV comes first; an
entry that does not fit parks the CP. -/
def pushNow (s : State) (r : CpRef) (p : Pop) (c : Cp) (cave : Nat) (sa : SReg) : State :=
  let ws := c.block sa 18
  match s.pushReason p cave ws with
  | some x => queueTrap s r c x
  | none =>
    match (s.drain r).cavePush cave ws (p.nest + 1) 0 ((s.drain r).passesOf r) with
    | some (s, _) => advance s r
    | none => parkAt s r (queueWait .qpush cave 0 sa.toNat)

def execQpush (cave : BitVec 6) (sa : SReg) (s : State) : Result :=
  onRci "QPUSH" (.qpush cave sa) s (fun r p c s => pushNow s r p c cave.toNat sa)

/-- QPUSH.try never parks (R285): a push that does not fit answers 1, or in the modes of R283 keeps its ticket until the management
processor has served it. -/
def execQpushTry (sd : SReg) (cave : BitVec 6) (sa : SReg) (s : State) : Result :=
  onRci "QPUSH_TRY" (.qpushTry sd cave sa) s (fun r p c s =>
    let ws := c.block sa 18
    match s.pushReason p cave.toNat ws with
    | some x => queueTrap s r c x
    | none =>
      match (s.drain r).cavePush cave.toNat ws (p.nest + 1) 0 ((s.drain r).passesOf r) with
      | some (s, n) => tryDone s r c sd (n ++ 0#32)
      | none =>
        if s.mpServes then
          advance ((s.drain r).enter r c (.tryPush sd cave.toNat (p.nest + 1) ws) .dev .plain true []) r
        else tryDone (s.drain r) r c sd 1)

/-- QPOP: a DEV acquire; an empty cave gives zeros (R286). -/
def execQpop (sd : SReg) (cave : BitVec 6) (s : State) : Result :=
  onRci "QPOP" (.qpop sd cave) s (fun r p c s =>
    match (s.cave cave.toNat).reason p.vf (some false) with
    | some x => queueTrap s r c x
    | none =>
      let done := fun (s : State) (ws : List Word64) (k : Know) =>
        advance ((s.acquireDev r k).enter r c (.scalars (ws.zipIdx.map (fun e => (sd + BitVec.ofNat 8 e.2, e.1))))
          .dev .plain true []) r
      match s.cavePop cave.toNat c.det with
      | some (s, e) => done s e.words e.know
      | none => done s (List.replicate 18 0) Know.zero)

/-- The lanes of a queue word: m0 ∧ m ∧ L (R284). -/
def queueLanes (p : Pop) (c : Cp) (mask : MReg) : List Nat := p.laneList (c.getM 0 &&& c.getM mask &&& p.live)

/-- QPOPB: keys to the lanes of A in ascending index, all ones beyond the last key (R288). -/
def execQpopb (mask : MReg) (vd : VReg) (cave : BitVec 6) (s : State) : Result :=
  onRci "QPOPB" (.qpopb mask vd cave) s (fun r p c s =>
    match (s.cave cave.toNat).reason p.vf (some true) with
    | some x => queueTrap s r c x
    | none =>
      let lanes := queueLanes p c mask
      let (s, es) := s.popKeys cave.toNat lanes.length c.det
      let keys := es.map (fun e => e.key)
      let items := lanes.zipIdx.map (fun e =>
        { item [e.1] 0 (.store 0 0) 4 0 0 with
          res := some ((keys.getD e.2 0xFFFFFFFF#32).zeroExtend 128), done := true })
      let k := es.foldl (fun k e => k.merge e.know) Know.zero
      advance ((s.acquireDev r k).enter r c (.lanes vd) .dev .plain true items) r)

/-- The keys a QINS inserts: ascending lanes, each key once, none already present, never all ones (R281, R287). -/
def newKeys (v : Cave) (ks : List Word32) : List Word32 :=
  ks.foldl (fun acc k =>
    if k = 0xFFFFFFFF#32 ∨ acc.contains k ∨ v.entries.any (fun e => e.key == k) then acc else acc ++ [k]) []

/-- QINS: a release at DEV, then the whole batch, or reason 6 where its new keys do not fit; it never parks (R287). -/
def execQins (mask : MReg) (cave : BitVec 6) (va : VReg) (s : State) : Result :=
  onRci "QINS" (.qins mask cave va) s (fun r p c s =>
    match (s.cave cave.toNat).reason p.vf (some true) with
    | some x => queueTrap s r c x
    | none =>
      let ks := newKeys (s.cave cave.toNat) ((queueLanes p c mask).map (fun i => p.getV i va.toNat))
      let fits := fun (v : Cave) => decide (v.entries.length + ks.length ≤ v.capacity)
      let s := State.linkUntil cave.toNat fits 256 s
      if fits (s.cave cave.toNat) then
        let s := s.drain r
        let know := s.passesOf r
        advance (ks.foldl (fun s k => (s.addEntry cave.toNat [] k 0 know).1) s) r
      else queueTrap (s.returnEmpty cave.toNat) r c 6)

/-- The depths whose reserved slots are occupied (R277). -/
def Cave.rsv (v : Cave) : Nat := v.entries.foldl (fun acc e => if e.slot = 0 then acc else acc + 2 ^ (e.slot - 1)) 0

/-- The value of QSTAT (R289). -/
def Cave.stat (v : Cave) : Word64 :=
  BitVec.ofNat 64 (2 ^ 53 * min v.npool 2047 + 2 ^ 51 * v.wcode + 2 ^ 50 * v.enable.toNat + 2 ^ 49 * v.launch.toNat
    + 2 ^ 48 * v.set.toNat + 2 ^ 40 * v.segs.length + 2 ^ 32 * v.rsv + v.entries.length)

def execQstat (sd : SReg) (cave : BitVec 6) (s : State) : Result :=
  onCp "QSTAT" (.qstat sd cave) s (fun r p c s =>
    match (s.cave cave.toNat).reason p.vf none with
    | some x => queueTrap s r c x
    | none => advance (s.enter r c (.scalars [(sd, (s.cave cave.toNat).stat)]) .dev .plain true []) r)

/-! ### FIFO banks (R290, R291) -/

def State.setFifo (s : State) (cluster bank : Nat) (f : Fifo) : State :=
  { s with fifos := Tab.put Fifo.empty s.fifos (32 * cluster + bank) f }

/-- The words of a FIFO bank. -/
def fifoWords : Nat := 131072

/-- The fill of a FIFO (R290). -/
def Fifo.fill (f : Fifo) : Nat := (f.tail - f.head).toNat

/-- Where ring position p of a bank lies (R290). -/
def fifoLoc (cluster bank : Nat) (pos : Word32) : Loc := .store cluster (524288 * bank + 4 * (pos.toNat % fifoWords))

/-- A CP leaves or joins the waiters of a FIFO. -/
def Fifo.leave (f : Fifo) (r : CpRef) : Fifo := { f with waiters := f.waiters.filter (fun x => x != r) }
def Fifo.wait (f : Fifo) (r : CpRef) : Fifo := if f.waiters.contains r then f else { f with waiters := f.waiters ++ [r] }

/-- The checks of a FIFO word (R284 step 1, step 2 reason 5). -/
def fifoCheck (s : State) (r : CpRef) (p : Pop) (c : Cp) (bank n : Nat) (k : Unit → State) : State :=
  let off := BitVec.ofNat 64 (524288 * bank)
  if p.banks ≤ bank then trapWord s r c .window off allOnes64
  else if s.roleOf p.cluster (p.base + bank) ≠ .fifo then trapWord s r c .bankRole off allOnes64
  else if fifoWords < n then queueTrap s r c 5
  else k ()

/-- A batch pushed whole: after a release at POP, ascending lanes at ascending positions (R291). -/
def fifoPush (s : State) (r : CpRef) (p : Pop) (bank : Nat) (lanes : List Nat) (va : VReg) : State :=
  let s := s.drain r
  let b := p.base + bank
  let f := s.fifo p.cluster b
  let s := lanes.zipIdx.foldl (fun s e =>
    match s.writeLoc p.vf (fifoLoc p.cluster b (f.tail + BitVec.ofNat 32 e.2)) (bytesOf 4 (p.getV e.1 va.toNat)) with
    | (s, .ok _) => s
    | (s, .error x) => s.killLanes r.pid (laneBit e.1) (some x)) s
  let s := s.setFifo p.cluster b
    { f.leave r with tail := f.tail + BitVec.ofNat 32 lanes.length, know := f.know.merge (s.passesOf r) }
  advance s r

/-- A batch popped whole into the lanes of A, an acquire at POP; an unreadable word makes its lane dead (R291). -/
def fifoPop (s : State) (r : CpRef) (p : Pop) (bank : Nat) (lanes : List Nat) (vd : VReg) : State :=
  let b := p.base + bank
  let f := s.fifo p.cluster b
  let s := lanes.zipIdx.foldl (fun s e =>
    match s.readLoc (fifoLoc p.cluster b (f.head + BitVec.ofNat 32 e.2)) 4 with
    | (s, .ok bs) => s.updPop r.pid (fun q => q.setV e.1 vd.toNat (BitVec.ofNat 32 (natOfBytes bs)))
    | (s, .error x) => s.killLanes r.pid (laneBit e.1) (some x)) s
  let s := s.setFifo p.cluster b { f.leave r with head := f.head + BitVec.ofNat 32 lanes.length }
  advance (s.teach r f.know) r

/-- A FIFO word performs when no CP waits before it and its batch fits, else it parks behind the waiters (R291). -/
def fifoTurn (s : State) (r : CpRef) (p : Pop) (bank n : Nat) (fits : Bool) (kind : WaitKind) (k : State → State) : State :=
  let b := p.base + bank
  let f := s.fifo p.cluster b
  if n = 0 then advance (s.setFifo p.cluster b (f.leave r)) r
  else if fits ∧ (f.waiters = [] ∨ f.waiters.head? = some r) then k s
  else parkAt (s.setFifo p.cluster b (f.wait r)) r (queueWait kind bank n 0)

def pushTurn (s : State) (r : CpRef) (p : Pop) (c : Cp) (mask : MReg) (bank : Nat) (va : VReg) : State :=
  let lanes := queueLanes p c mask
  fifoCheck s r p c bank lanes.length (fun _ =>
    fifoTurn s r p bank lanes.length
      (decide ((s.fifo p.cluster (p.base + bank)).fill + lanes.length ≤ fifoWords)) .fpush
      (fun s => fifoPush s r p bank lanes va))

def popTurn (s : State) (r : CpRef) (p : Pop) (c : Cp) (mask : MReg) (vd : VReg) (bank : Nat) : State :=
  let lanes := queueLanes p c mask
  fifoCheck s r p c bank lanes.length (fun _ =>
    fifoTurn s r p bank lanes.length
      (decide (lanes.length ≤ (s.fifo p.cluster (p.base + bank)).fill)) .fpop
      (fun s => fifoPop s r p bank lanes vd))

def execFpush (mask : MReg) (bank : BitVec 5) (va : VReg) (s : State) : Result :=
  onRci "FPUSH" (.fpush mask bank va) s (fun r p c s => pushTurn s r p c mask bank.toNat va)

def execFpop (mask : MReg) (vd : VReg) (bank : BitVec 5) (s : State) : Result :=
  onRci "FPOP" (.fpop mask vd bank) s (fun r p c s => popTurn s r p c mask vd bank.toNat)

end Sys2Proof.Machine
end

