-- ==== Sys2Proof/Machine/Sync.lean ====
section
/-! DEFINITION. Rennet-word instructions, ticket waits and performance counters (R324 to R337), and the waking of parked CPs
(R20, R310, R311). -/

namespace Sys2Proof.Machine

/-! ### Rennet words (R328 to R332) -/

/-- The operand n or g of a K word. -/
def ksrc (c : Cp) : KSrc → Word32
  | .reg sb => (c.getS sb).extractLsb' 0 32
  | .imm v => v.zeroExtend 32

/-- The 16-byte access of a rennet-word instruction. -/
def rennetWant (c : Cp) (a : KAddr) (write : Bool) : Want :=
  { space := a.space, lane := none, ea := c.getS a.sa, size := 16, write := write }

/-- ARRIVE (R329): a release at its scope, under a load ticket. -/
def execArrive (a : KAddr) (sd : SReg) (n : KSrc) (s : State) : Result :=
  onRci "ARRIVE" (.arrive a sd n) s (fun r p c s =>
    cpTicket s r p c (rennetWant c a true) .both (.arrive sd (ksrc c n)) a.scope .rel 0 0)

/-- RWSET (R221, R328, R331): it performs at its word, after the accesses of its CP that stand before it, and meets a data cause there;
one that a majority write delays stays in the pipeline for the releases after it (R245; notes/assumptions/24.md). -/
def execRwset (a : KAddr) (sb : SReg) (s : State) : Result :=
  onCp "RWSET" (.rwset a sb) s (fun r p c s =>
    let w := rennetWant c a true
    cpAccess s r p c w .write (fun s l =>
      let (n, s) := s.fresh
      let it := item [] w.ea l 16 0 0
      let x := newAccess n c (.rwset ((c.getS sb).extractLsb' 0 32)) a.scope .plain false [it]
      let s := if s.mayPerform p c x then s else s.drain r
      let y := s.performOne (p.agent r) x it
      match y.2.1.fault with
      | some e => trapCause y.1 r c .rciFault w.ea allOnes64 e
      | none =>
        if y.2.1.majWait = [] then advance y.1 r
        else
          let x := { y.2.1 with items := [y.2.2], performed := true }
          advance ((y.1.updCp r (fun c => { c with pend := c.pend ++ [x] })).settle r) r))

/-- RWGET (R332): an acquire at its scope, under a load ticket. -/
def execRwget (a : KAddr) (sd : SReg) (s : State) : Result :=
  onCp "RWGET" (.rwget a sd) s (fun r p c s =>
    cpTicket s r p c (rennetWant c a false) .read (.rwget sd) a.scope .acq 0 0)

/-- A passing WAITR on a completion word brings the flags of the CP's finished streams in, once per stream (R262). -/
def takeFlags (s : State) (r : CpRef) (space : Space) (addr : Word64) : State :=
  match space with
  | .w =>
    s.updPop r.pid (fun p =>
      let mine := fun (d : FlagsDue) => d.starter == r.cid && d.cw == addr.toNat
      let fl := (p.flagsDue.filter mine).foldl (fun acc d => acc ||| d.flags) 0
      { (p.updCp r.cid (fun c => c.raise fl)) with flagsDue := p.flagsDue.filter (fun d => !mine d) })
  | .g | .f => s

/-- No acquire of the CP is incomplete: a later access may perform (R217). -/
def Cp.acquired (c : Cp) : Bool := c.pend.all (fun a => !acquires a.order || a.complete)

/-- The wait entry of a WAITR (R310). -/
def waitrEntry (a : KAddr) (addr : Word64) (g : Word32) : Wait :=
  { kind := .waitr, space := a.space, addr := addr, value := g, aux := 0 }

/-- A WAITR that has passed acquires, and may bring a stream's flags in (R262, R330). -/
def passWaitr (s : State) (r : CpRef) (p : Pop) (space : Space) (addr : Word64) (scope : Scope) (loc : Loc) : State :=
  takeFlags (s.acquireAt r r.pid p.cluster scope (s.observed none true loc 16)) r space addr

/-- A WAITR reads its word at the word's unit: the word's access is one of its core's, and its CP has seen it (R330, R337, R344). -/
def State.readRennet (s : State) (r : CpRef) (p : Pop) (loc : Loc) : Met (BitVec 128) :=
  match (s.countAccess r.pid none false loc).readHome (p.agent r) loc 16 with
  | (s, .error e) => (s, .error e)
  | (s, .ok bs) => (s, .ok (word128 bs))

/-- WAITR (R330): it reads the generation after the CP's earlier accesses to the word, passes as an acquire, or parks after the
word; while an earlier acquire is incomplete its first test is still due. A stamp may refuse it (R219). -/
def execWaitr (a : KAddr) (g : KSrc) (s : State) : Result :=
  onCp "WAITR" (.waitr a g) s (fun r p c s =>
    let w := rennetWant c a false
    cpAccess s r p c w .read (fun s loc =>
      let gen := ksrc c g
      let park := fun (s : State) (due : Bool) =>
        (parkAfter s r (waitrEntry a w.ea gen)).updCp r (fun c => { c with waitLoc := some loc, waitDue := due, waitScope := a.scope })
      let s := if c.pend.any (fun b => !b.performed && b.items.any (fun i => meet i.loc i.size loc 16)) then s.drain r else s
      if !c.acquired then park s true
      else
        match s.stampCheck r.pid p.cluster a.scope loc with
        | (s, true) => advance (s.refuse r c.wordAddr w.ea allOnes64) r
        | (s, false) =>
          match s.readRennet r p loc with
          | (s, .error e) => trapCause s r c .rciFault w.ea allOnes64 e
          | (s, .ok x) =>
            if turned (genOf x) gen then advance (passWaitr s r p a.space w.ea a.scope loc) r else park s false))

/-! ### WAITT (R334) -/

/-- The load and async counts are within the bounds, 63 being no bound (R334). -/
def ticketsWithin (c : Cp) (wt wa : Nat) : Bool :=
  (wt == 63 || decide (c.loadTickets ≤ wt)) && (wa == 63 || decide (c.asyncTickets ≤ wa))

def execWaitt (wt wa : BitVec 6) (s : State) : Result :=
  onCp "WAITT" (.waitt wt wa) s (fun r _ c s =>
    match c.faultWithin (if wt = 63 then 64 else wt.toNat) with
    | some a => takeDataFault s r a
    | none =>
      if ticketsWithin c wt.toNat wa.toNat then advance s r
      else parkAfter s r { kind := .waitt, space := .g, addr := 0, value := 0,
                           aux := wt.zeroExtend 32 ||| (wa.zeroExtend 32 <<< 8) })

/-! ### Performance counters (R337) -/

/-- PMCR: the counter's value at issue. -/
def execPmcr (sd : SReg) (n : BitVec 4) (s : State) : Result :=
  onCp "PMCR" (.pmcr sd n) s (fun r p _ s =>
    advance (s.updCp r (fun c => c.setS sd (Tab.get 0 s.pmc (16 * p.home + n.toNat)))) r)

/-- PMCS: the selector is set and the counter cleared; a refused selector raises ILLEGAL. -/
def execPmcs (n : BitVec 4) (sa : SReg) (s : State) : Result :=
  onCp "PMCS" (.pmcs n sa) s (fun r p c s =>
    let v := c.getS sa
    let code := (v.extractLsb' 0 12).toNat
    if v.extractLsb' 13 51 ≠ 0 ∨ 0x012 < code then illegal s r c
    else
      let key := 16 * p.home + n.toNat
      let sel : PmcSel := { code := code, only := if v.getLsbD 12 then some r.pid else none }
      advance { s with pmcSel := Tab.put PmcSel.zero s.pmcSel key sel, pmc := Tab.erase s.pmc key } r)

/-! ### Waking (R20, R310, R311) -/

/-- The CP is ready; its readiness age starts now (R20). -/
def wake (s : State) (r : CpRef) : State :=
  s.updCp r (fun c => { c with wait := none, waitLoc := none, waitDue := false, readySince := s.clock, promoted := false })

/-- The park of a WAITR or WAITT ends. Where it was its clause's last word the clause is over: a SCOPE trap that is due is taken, and a
step or a halt that is due halts the CP (R219, R321, R322). -/
def wakeAfter (s : State) (r : CpRef) : State :=
  let s := wake s r
  match s.cpOf r with
  | none => s
  | some (_, c) =>
    if c.clause ≠ [] then s
    else
      match c.scopeTrap with
      | some t => takeTrap s r .scope t.tpc t.taddr t.tlane 0 false (fun c => { c with scopeTrap := none })
      | none => s.updCp r (fun c => c.boundary)

/-- A parked WAITR that its unit has signalled tests again (R311, R330); a stamp refuses it as it does an issuing one (R219). -/
def wakeWaitr (s : State) (r : CpRef) (p : Pop) (c : Cp) (w : Wait) (loc : Loc) : State :=
  match s.stampCheck r.pid p.cluster c.waitScope loc with
  | (s, true) => wakeAfter (s.refuse r c.waitWord w.addr allOnes64) r
  | (s, false) =>
    match s.readRennet r p loc with
    | (s, .error e) =>
      takeTrap (s.updCp r (fun c => { c with waitLoc := none, waitDue := false })) r .rciFault c.waitWord w.addr allOnes64 e.code
        false (fun c => c)
    | (s, .ok x) =>
      if turned (genOf x) w.value then wakeAfter (passWaitr s r p w.space w.addr c.waitScope loc) r
      else s.updCp r (fun c => { c with waitDue := false })

/-- A parked WAITR finds the place of its word anew, its page made present, and tests it once; a translation that fails is its fault
(R308, R311, R319; DESIGN CHOICE, notes/assumptions/28.md). -/
def State.rewait (s : State) (r : CpRef) (p : Pop) (c : Cp) (w : Wait) : State :=
  match w.space with
  | .w | .f => s.updCp r (fun c => { c with waitLoc := some (p.winLoc w.addr.toNat), waitDue := true })
  | .g =>
    let s := if s.missing p.vf p.asid w.addr then s.makePresent p.vf p.asid w.addr else s
    match s.translate p.cpUnits p.vf p.asid w.addr .read with
    | (s, .ok l) => s.updCp r (fun c => { c with waitLoc := some l, waitDue := true })
    | (s, .error x) => takeTrap s r .rciFault c.waitWord w.addr allOnes64 x.code false (fun c => c)

/-- A parked CP whose tickets reach their bounds wakes; a data cause among them is taken instead (R221, R334). -/
def wakeTickets (s : State) (r : CpRef) (c : Cp) (bound : Nat) (ok : Bool) (k : State → CpRef → State) : Option State :=
  match c.faultWithin bound with
  | some a => some (takeDataFault (wake s r) r a)
  | none => if ok then some (k s r) else none

/-- A JOIN may go on: every load ticket is complete and no live entry of its context is PENDING with lanes (R173). -/
def joinReady (s : State) (p : Pop) (c : Cp) : Bool :=
  c.loadTickets == 0
    && (s.fragsOf p.home c.ctx).all (fun e => e.2.state != .pending || e.2.lanes == 0)
    && ((s.ovf p.home c.ctx).state != .pending || (s.ovf p.home c.ctx).lanes == 0)

/-- A parked push has an answer: a reason to be refused, or a place (R284, R285). -/
def pushAnswers (s : State) (p : Pop) (c : Cp) (cave : Nat) (sa : SReg) : Bool :=
  let fits := fun (v : Cave) => (v.room (p.nest + 1)).isSome
  (s.pushReason p cave (c.block sa 18)).isSome || fits ((State.linkUntil cave fits 256 s).cave cave)

/-- A parked push tests again: it is refused, or performs once it fits (R284, R285); where a debugger has moved the program counter, the
wait of the entry ends on its own (R310, R322, R323). -/
def wakePush (s : State) (r : CpRef) (p : Pop) (c : Cp) (w : Wait) : Option State :=
  match (c.clause[c.widx]?).map decode with
  | some (.ok (.qpush cave sa)) =>
    if pushAnswers s p c cave.toNat sa then some (pushNow (wake s r) r p c cave.toNat sa) else none
  | _ => if pushAnswers s p c (w.addr.toNat % 64) (BitVec.ofNat 8 w.aux.toNat) then some (wake s r) else none

/-- A parked FIFO word tests again: only the waiter at the head of its bank may perform (R291); where a debugger has moved the program
counter, the wait of the entry ends on its own (R310, R322, R323). -/
def wakeFifo (s : State) (r : CpRef) (p : Pop) (c : Cp) (w : Wait) : Option State :=
  let head := fun (bank : BitVec 5) (fits : Fifo → Nat → Bool) (n : Nat) =>
    let b := p.base + bank.toNat
    s.roleOf p.cluster b != .fifo
      || ((s.fifo p.cluster b).waiters.head? == some r && (fits (s.fifo p.cluster b) n))
  match (c.clause[c.widx]?).map decode with
  | some (.ok (.fpush mask bank va)) =>
    if head bank (fun f n => decide (f.fill + n ≤ fifoWords)) (queueLanes p c mask).length then
      some (pushTurn (wake s r) r p c mask bank.toNat va)
    else none
  | some (.ok (.fpop mask vd bank)) =>
    if head bank (fun f n => decide (n ≤ f.fill)) (queueLanes p c mask).length then
      some (popTurn (wake s r) r p c mask vd bank.toNat)
    else none
  | _ =>
    let b := p.base + w.addr.toNat % 32
    let f := s.fifo p.cluster b
    let n := w.value.toNat
    if s.roleOf p.cluster b != .fifo
      || (f.waiters.head? == some r && (if w.kind = .fpush then decide (f.fill + n ≤ fifoWords) else decide (n ≤ f.fill))) then
      some (wake (s.setFifo p.cluster b (f.leave r)) r)
    else none

/-- The population's loads, asynchronous operations and stream are complete (R32 step 3). -/
def Pop.idle (p : Pop) : Bool :=
  p.cps.all (fun e => e.2.asyncs == [] && e.2.pend.all (fun a => !a.ticket || a.complete)) && p.stream.isNone

/-- What a wake-up does to a parked CP; none where its condition does not hold (R20, R310, R311). -/
def wakeCp (s : State) (r : CpRef) (p : Pop) (c : Cp) (w : Wait) : Option State :=
  match w.kind with
  | .waitr =>
    match c.waitLoc with
    | some loc => if c.waitDue && c.acquired then some (wakeWaitr s r p c w loc) else none
    | none => none
  | .waitt =>
    let wt := w.aux.toNat % 64
    wakeTickets s r c (if wt = 63 then 64 else wt) (ticketsWithin c wt (w.aux.toNat / 256 % 64)) wakeAfter
  | .header =>
    wakeTickets s r c (w.value.toNat % 256)
      (decide (c.loadTickets ≤ w.value.toNat % 256) && decide (c.asyncTickets ≤ w.value.toNat / 256)) wake
  | .join => wakeTickets s r c 0 (joinReady s p c) wake
  | .qpush => if p.quiet then wakePush s r p c w else none
  | .fpush | .fpop => if p.quiet then wakeFifo s r p c w else none
  | .succ2 =>
    if p.cps.all (fun e => e.1 == r.cid || e.2.ended) then
      if c.succ.isSome then some (s.updCp r (fun c => { c with wait := some { w with kind := .succ3 } })) else some (wake s r)
    else none
  | .succ3 => if c.succ.isNone && p.idle then some (wake s r) else none

/-- CP_WAKE: a parked CP tests again and becomes ready if its condition holds (R311); a pre-empted CP stays where it is (R34). -/
def execCpWake (cp : CpRef) (s : State) : Result :=
  match s.cpOf cp with
  | none => .refused (.notEnabled "CP_WAKE")
  | some (p, c) =>
    match c.wait with
    | none => .refused (.notEnabled "CP_WAKE")
    | some w =>
      if p.preempting || p.aborted || c.halted then .refused (.notEnabled "CP_WAKE")
      else
        match wakeCp s cp p c w with
        | some s => .next s
        | none => .refused (.notEnabled "CP_WAKE")

end Sys2Proof.Machine
end

