-- ==== Sys2Proof/Machine/Stream.lean ====
section
/-! DEFINITION. Matrix streams (R181, R254 to R275): PSTART, the stream words 0xC0 to 0xCB, fetch, range locks, the arbiter, tile
operations and the completion arrival. -/

namespace Sys2Proof.Machine

/-! ### PSTART (R181) -/

/-- A stream as PSTART enters it (R181, R254). -/
def newStream (c : Cp) (hdr : Word64) (cw starter : Nat) : Stream :=
  { hdr := hdr, widx := 0, clause := [], started := false, x := [], fa := Fmt.zero, fb := Fmt.zero, flags := 0, err := false,
    poison := false, code := 0, rm := c.rm, ftz := c.ftz, daz := c.daz, cw := cw, starter := starter, pwait := false,
    parrive := none, lockWait := false, held := none, ops := [], stopped := false, granted := 0, know := c.know }

/-- PSTART: its checks in order, the release of window writes, and the stream in the reservation table. -/
def execPstart (sa sb : SReg) (s : State) : Result :=
  onRci "PSTART" (.pstart sa sb) s (fun r p c s =>
    let a := c.getS sa
    let w := c.getS sb
    if a.extractLsb' 0 3 ≠ 0 then trapWord s r c .align a allOnes64
    else if w.extractLsb' 0 4 ≠ 0 then trapWord s r c .align w allOnes64
    else if p.win < w.toNat + 16 then trapWord s r c .window w allOnes64
    else if p.stream.isSome then trapWord s r c .shape 13 allOnes64
    else if p.tiles = 0 then trapWord s r c .shape 14 allOnes64
    else
      let s := s.drain r
      let st := { newStream c a w.toNat r.cid with know := s.passesOf r }
      advance (s.updPop r.pid (fun p => { p with stream := some st })) r)

/-! ### Stream state -/

def State.updStream (s : State) (pid : Nat) (f : Stream → Stream) : State :=
  s.updPop pid (fun p => match p.stream with | some x => { p with stream := some (f x) } | none => p)

def Stream.reg (x : Stream) (r : XReg) : Word32 := Tab.get 0 x.x r.toNat

def Stream.setReg (x : Stream) (r : XReg) (v : Word32) : Stream := { x with x := Tab.put 0 x.x r.toNat v }

/-- The address of the word at the stream's position. -/
def Stream.wordAddr (x : Stream) : Word64 := x.hdr + 8 + 8 * BitVec.ofNat 64 x.widx

/-- The stream at a clause header. -/
def Stream.atHdr (x : Stream) (target : Word64) : Stream := { x with hdr := target, widx := 0, clause := [] }

/-- The position past the word: the next word, or the clause that follows (R64). -/
def Stream.past (x : Stream) : Stream :=
  if x.widx + 1 < x.clause.length then { x with widx := x.widx + 1 }
  else x.atHdr (x.hdr + 8 * BitVec.ofNat 64 (x.clause.length + 1))

/-- A stream error stops the stream at a word, which firmware records (R263). -/
def State.streamError (s : State) (pid : Nat) (addr : Word64) (code : Nat) : State :=
  let s := s.updStream pid (fun x =>
    { x with err := true, code := if x.code = 0 then BitVec.ofNat 3 code else x.code, stopped := true, pwait := false,
             parrive := none, lockWait := false, held := none })
  match s.pop pid with
  | some p => { s with errRecords := s.errRecords ++ [{ vf := p.vf, popid := pid, addr := addr, code := code }], issuer := .none }
  | none => s

/-- The stream goes on past its word. -/
def State.streamNext (s : State) (pid : Nat) : State := (s.updStream pid (fun x => x.past)).setIssuer .none

/-- A stream word: a word that breaks R67 is a stream error of code 2 (R66, R263). -/
def onStream (mnemonic : String) (i : Instr) (s : State) (f : Nat → Pop → Stream → State → State) : Result :=
  match s.issuer with
  | .stream pid =>
    match s.pop pid with
    | some p =>
      match p.stream with
      | some x => .next (if wfInstr i then f pid p x s else s.streamError pid x.wordAddr 2)
      | none => .refused (.noIssuer mnemonic)
    | none => .refused (.noIssuer mnemonic)
  | .none | .cp _ => .refused (.noIssuer mnemonic)

/-! ### Fetch (R258) -/

/-- The checks of R61 that a stream clause must pass (R66). -/
def streamClauseOk (h : Word64) (ws : List Word64) : Bool :=
  h.extractLsb' 56 4 == 3#4 && hdrWt h == 63 && hdrWa h == 63 && !hdrReserved h && (h.getLsbD 36 || h.extractLsb' 0 32 == 0)
    && crcOk h ws
    && ws.all (fun w => match opClass (opOf w) with | some k => k == 3 | none => true)
    && ws.dropLast.all (fun w => !closing (opOf w))

/-- The sequencer fetches the clause at the stream's position, is held on a page that is not present, or stops (R258). -/
def State.streamFetch (s : State) (pid : Nat) (p : Pop) (x : Stream) : State :=
  match s.fetchClause pid p x.hdr with
  | (s, .error f) =>
    match f.cause with
    | some .notPresent => s.updStream pid (fun x => { x with held := some f.addr })
    | some _ => s.streamError pid f.addr 1
    | none => s.streamError pid f.addr (if x.started && x.hdr.extractLsb' 56 8 == 0 && x.hdr.extractLsb' 0 3 == 0 then 2 else 1)
  | (s, .ok (h, ws)) =>
    if streamClauseOk h ws then s.updStream pid (fun x => { x with clause := ws, started := true })
    else s.streamError pid x.hdr 1

/-- The sequencer runs: the stream has not stopped and its population is neither aborted nor pre-empted (R34, R316). -/
def Pop.sequencing (p : Pop) (x : Stream) : Bool :=
  !p.aborted && !p.preempting && !x.stopped && !x.pwait && x.parrive.isNone && !x.lockWait && x.held.isNone

/-- STREAM_FETCH (R257, R258). -/
def execStreamFetch (pid : Nat) (s : State) : Result :=
  match s.pop pid with
  | none => .refused (.notEnabled "STREAM_FETCH")
  | some p =>
    match p.stream with
    | none => .refused (.notEnabled "STREAM_FETCH")
    | some x =>
      if p.sequencing x && x.clause == [] then .next (s.streamFetch pid p x) else .refused (.notEnabled "STREAM_FETCH")

/-- STREAM_FETCH_RESUME: firmware has made the page present, or the stream stops with code 1 (R258). -/
def execStreamFetchResume (pid : Nat) (repaired : Bool) (s : State) : Result :=
  match s.pop pid with
  | none => .refused (.notEnabled "STREAM_FETCH_RESUME")
  | some p =>
    match p.stream with
    | none => .refused (.notEnabled "STREAM_FETCH_RESUME")
    | some x =>
      match x.held with
      | none => .refused (.notEnabled "STREAM_FETCH_RESUME")
      | some a =>
        if p.aborted then .refused (.notEnabled "STREAM_FETCH_RESUME")
        else if repaired then .next ((s.makePresent p.vf p.asid a).updStream pid (fun x => { x with held := none }))
        else .next (s.streamError pid a 1)

/-! ### Register, format and loop words (R266, R267) -/

def execPfmtA (f : Fmt) (s : State) : Result :=
  onStream "PFMT_A" (.pfmtA f) s (fun pid _ _ s => (s.updStream pid (fun x => { x with fa := f })).streamNext pid)

def execPfmtB (f : Fmt) (s : State) : Result :=
  onStream "PFMT_B" (.pfmtB f) s (fun pid _ _ s => (s.updStream pid (fun x => { x with fb := f })).streamNext pid)

def execPsetx (xa : XReg) (imm : BitVec 32) (s : State) : Result :=
  onStream "PSETX" (.psetx xa imm) s (fun pid _ _ s => (s.updStream pid (fun x => x.setReg xa imm)).streamNext pid)

def execPaddx (xa : XReg) (imm : BitVec 32) (s : State) : Result :=
  onStream "PADDX" (.paddx xa imm) s (fun pid _ _ s =>
    (s.updStream pid (fun x => x.setReg xa (x.reg xa + imm))).streamNext pid)

/-- PLOOP decrements its counter and goes to its target while the counter is not 0. -/
def execPloop (xa : XReg) (off : BitVec 32) (s : State) : Result :=
  onStream "PLOOP" (.ploop xa off) s (fun pid _ x s =>
    let v := x.reg xa - 1
    let s := s.updStream pid (fun x => x.setReg xa v)
    if v = 0 then s.streamNext pid
    else (s.updStream pid (fun x => x.atHdr (x.hdr + 8 * off.signExtend 64))).setIssuer .none)

/-! ### Ranges (R259, R263, R265) -/

/-- A range of a word: the runs of bytes it names, whether its alignments hold, whether it is written, and the engine that locks
it. -/
structure Range where
  runs : List (Nat × Nat)
  aligned : Bool
  write : Bool
  engine : Engine
  deriving DecidableEq, Repr

/-- The error code of a range: alignment, then the window, then the roles of its banks (R263). -/
def State.rangeCode (s : State) (p : Pop) (g : Range) : Option Nat :=
  if !g.aligned then some 4
  else if g.runs.any (fun x => decide (p.win < x.1 + x.2)) then some 3
  else if g.runs.any (fun x => s.roleOf p.cluster (p.base + x.1 / 524288) != .scratch
      || s.roleOf p.cluster (p.base + (x.1 + x.2 - 1) / 524288) != .scratch) then some 6
  else none

/-- The lowest and highest byte of some runs. -/
def extent (runs : List (Nat × Nat)) : Option (Nat × Nat) :=
  match runs with
  | [] => none
  | x :: l => some (l.foldl (fun m y => min m y.1) x.1, l.foldl (fun m y => max m (y.1 + y.2 - 1)) (x.1 + x.2 - 1))

/-- The range locks of an operation entered at a clk (R259). -/
def rangeLocks (p : Pop) (owner : Nat) (clock : Word64) (gs : List Range) : List Lock :=
  gs.filterMap (fun g => (extent g.runs).map (fun e =>
    { cluster := p.cluster, write := g.write, engine := g.engine, first := 524288 * p.base + e.1, last := 524288 * p.base + e.2,
      owner := owner, entered := clock : Lock }))

/-- An offset modulo 2^32 (R265). -/
def off32 (n : Nat) : Nat := n % 2 ^ 32

/-- The plane bytes of some rows: for each plane and row, kc chunks in a run (R99, R268). -/
def planeRange (o : Operand) (kc : Nat) (rows : List Nat) (e : Engine) : Range :=
  { runs := (List.range (planesOf o.fmt)).flatMap (fun j => rows.map (fun r => (off32 (o.base + j * o.ps + r * o.rs), 32 * kc))),
    aligned := o.base % 32 = 0 ∧ o.rs % 32 = 0 ∧ o.ps % 32 = 0, write := false, engine := e }

/-- The scales a row has along K (R101, R268). -/
def scaleCount (f : Fmt) (kc : Nat) : Nat := 256 * kc / blkCount f.len

/-- The scale bytes of some rows; none without scales. -/
def scaleRange (o : Operand) (kc : Nat) (rows : List Nat) (e : Engine) : List Range :=
  let n := scaleCount o.fmt kc
  if o.fmt.sc then
    [{ runs := rows.map (fun r => (off32 (o.sc + 2 * r * n), 2 * n)), aligned := o.sc % 2 = 0, write := false, engine := e }]
  else []

/-- All rows or columns of a tile. -/
def allRows : List Nat := List.range 128

/-- The ranges of a tile operation in the order of its checks, without a gathered pass's rows. -/
def tileRanges : TileKind → List Range
  | .gather _ _ b kc _ => planeRange b kc allRows .press :: scaleRange b kc allRows .press
  | .pmm _ a b kc none _ =>
    [planeRange a kc allRows .press, planeRange b kc allRows .press] ++ scaleRange a kc allRows .press
      ++ scaleRange b kc allRows .press
  | .pmm _ _ b kc (some _) _ => planeRange b kc allRows .press :: scaleRange b kc allRows .press
  | .pzero _ => []
  | .pld _ base => [{ runs := [(base, 131072)], aligned := base % 128 = 0, write := false, engine := .press }]
  | .pst ty _ a =>
    match ty with
    | .nb8 =>
      [{ runs := (List.range 8).flatMap (fun j => allRows.map (fun r => (off32 (a.base + j * a.ps + r * a.rs), 16))),
         aligned := a.base % 128 = 0 ∧ a.rs % 16 = 0 ∧ a.ps % 16 = 0, write := true, engine := .press }]
    | .f32 | .f16 | .b16 | .s8 | .s16 | .s32 =>
      [{ runs := [(a.base, 16384 * pstSize ty)], aligned := a.base % 128 = 0, write := true, engine := .press }]

/-- The tiles an operation names. -/
def tilesNamed : TileKind → BitVec 16
  | .pmm t _ _ _ _ _ | .gather t _ _ _ _ | .pld t _ | .pst _ t _ => BitVec.ofNat 16 (2 ^ t)
  | .pzero m => m

/-- The word that a tile operation was, as the place pre-emption returns to. -/
def Stream.mark (x : Stream) : StreamMark :=
  { hdr := x.hdr, widx := x.widx, clause := x.clause, x := x.x, fa := x.fa, fb := x.fb }

/-- The operation waits in the sequencer, holding no lock (R259). -/
def State.streamHold (s : State) (pid : Nat) : State := (s.updStream pid (fun x => { x with lockWait := true })).setIssuer .none

/-- The locks of an operation fit the cluster's table. -/
def State.locksFit (s : State) (p : Pop) (n : Nat) : Bool :=
  decide ((s.locks.filter (fun l => l.cluster == p.cluster)).length + n ≤ lockEntries)

/-- An operation as it issues (R259). -/
def State.newOp (s : State) (x : Stream) (n : Nat) (kind : TileKind) (waiting : Bool) : TileOp :=
  { serial := n, kind := kind, waiting := waiting, granted := false, issued := s.clock, flags := 0, poison := false, mark := x.mark,
    parts := [], got := [] }

/-- A checked operation enters all its ranges at once and goes to the press, or waits in the sequencer: for room, or for the accesses that
were checked before its locks (R259, R355); the locks of ranges it has read already count for the table's room and are released at
once. -/
def State.enterTile (s : State) (pid : Nat) (p : Pop) (x : Stream) (kind : TileKind) (rs gs : List Range) : State :=
  let (n, s) := s.fresh
  let locks := rangeLocks p n s.clock gs
  if x.ops.length < 2 ∧ s.locksFit p ((rangeLocks p n s.clock rs).length + locks.length) ∧ !p.windowBusy locks then
    let s := s.enterLocks x.owners locks
    let o := s.newOp x n kind (s.blocked x.owners n)
    (s.updStream pid (fun x => { x with ops := x.ops ++ [o], lockWait := false })).streamNext pid
  else s.streamHold pid

/-- A tile operation that is no gathered pass is checked and entered (R259, R263). -/
def State.issueTile (s : State) (pid : Nat) (p : Pop) (x : Stream) (kind : TileKind) : State :=
  if tilesNamed kind &&& ~~~p.tiles ≠ 0 then s.streamError pid x.wordAddr 5
  else
    let gs := tileRanges kind
    match gs.filterMap (s.rangeCode p) with
    | n :: _ => s.streamError pid x.wordAddr n
    | [] => s.enterTile pid p x kind [] gs

/-- An operand as the word names it (R259, R267). -/
def Stream.operand (x : Stream) (f : Fmt) (base : XReg) : Operand :=
  { fmt := f, base := (x.reg base).toNat, rs := (x.reg f.xr).toNat, ps := (x.reg f.xp).toNat, sc := (x.reg f.xs).toNat }

/-- The index vector of a gathered pass (R269). -/
def indexRange (base : Nat) : Range := { runs := [(base, 256)], aligned := base % 2 = 0, write := false, engine := .ladle }

/-- The rows an index vector names: 0xFFFF names none. -/
def namedRows (rows : List Nat) : List Nat := rows.filter (fun r => r != 0xFFFF)

/-- Bytes the spec gives no value, each of them free: what a tile operation takes from an unreadable line, and what a line holds once
firmware has repaired it (R211, R264; DESIGN CHOICE, notes/assumptions/2.md). -/
def State.openBytes (s : State) (n : Nat) : State × List Byte :=
  ({ s with tick := s.tick + (n + 7) / 8 },
    (List.range n).map (fun k => (Config.hidden (s.tick + k / 8)).extractLsb' (8 * (k % 8)) 8))

/-- Window bytes that lie in one line, and whether they were unreadable. -/
def State.readTile (s : State) (p : Pop) (off n : Nat) : State × List Byte × Bool :=
  match s.readLoc (p.winLoc off) n with
  | (s, .ok bs) => (s, bs, false)
  | (s, .error _) => let r := s.openBytes n; (r.1, r.2, true)

/-- Window bytes in pieces of k bytes, none of which crosses a line. -/
def State.readRun (p : Pop) (k : Nat) : Nat → State → Nat → State × List Byte × Bool
  | 0, s, _ => (s, [], false)
  | n + 1, s, off =>
    let a := s.readTile p off k
    let b := State.readRun p k n a.1 (off + k)
    (b.1, a.2.1 ++ b.2.1, a.2.2 || b.2.2)

/-- A gathered pass reads its index vector, then checks every named row in ascending r, then B: the pass with the ranges it enters, or the
error code (R263, R269). -/
def State.gatherRows (s : State) (p : Pop) (t : Nat) (a b : Operand) (kc base : Nat) : State × Except Nat (TileKind × List Range) :=
  let (s, bs, unread) := State.readRun p 2 128 s base
  let rows := if unread then List.replicate 128 0xFFFF
    else (List.range 128).map (fun r => (bs.getD (2 * r) 0).toNat + 256 * (bs.getD (2 * r + 1) 0).toNat)
  let kind := TileKind.pmm t a b kc (some rows) unread
  let checks := (namedRows rows).flatMap (fun r => planeRange a kc [r] .ladle :: scaleRange a kc [r] .ladle)
  match (checks ++ tileRanges kind).filterMap (s.rangeCode p) with
  | n :: _ => (s, .error n)
  | [] =>
    let span := planeRange a kc (namedRows rows) .ladle :: scaleRange a kc (namedRows rows) .ladle
    (s, .ok (kind, span ++ tileRanges kind))

/-- The index vector meets a lock of these that lets its owner write it. -/
def indexLocked (p : Pop) (base : Nat) (locks : List Lock) : Bool :=
  locks.any (fun l => l.cluster == p.cluster && l.write && decide (l.first < 524288 * p.base + base + 256)
    && decide (524288 * p.base + base ≤ l.last))

/-- The table entries that a gathered pass holds for the rows it has yet to learn: they meet no byte (R259). -/
def rowPlaces (p : Pop) (owner : Nat) (clock : Word64) (a : Operand) : List Lock :=
  List.replicate (if a.fmt.sc then 2 else 1)
    { cluster := p.cluster, write := false, engine := .ladle, first := 2 ^ 24, last := 0, owner := owner, entered := clock }

/-- A gathered pass whose index vector is locked for writing enters its ranges, those of the rows it has yet to learn among them, and waits
with its locks held (R259, R269; notes/assumptions/41.md). -/
def State.enterGather (s : State) (pid : Nat) (p : Pop) (x : Stream) (t : Nat) (a b : Operand) (kc base : Nat) : State :=
  let (n, s) := s.fresh
  let kind := TileKind.gather t a b kc base
  let locks := rangeLocks p n s.clock [indexRange base] ++ rowPlaces p n s.clock a ++ rangeLocks p n s.clock (tileRanges kind)
  if s.locksFit p locks.length ∧ !p.windowBusy locks then
    let s := s.enterLocks x.owners locks
    (s.updStream pid (fun y => { y with ops := y.ops ++ [s.newOp x n kind true] })).streamHold pid
  else s.streamHold pid

/-- A gathered pass: the index vector is checked, and read once no operation entered before may still write it (R263, R269). -/
def State.issueGather (s : State) (pid : Nat) (p : Pop) (x : Stream) (t : Nat) (a b : Operand) (kc base : Nat) : State :=
  let index := indexRange base
  if BitVec.ofNat 16 (2 ^ t) &&& ~~~p.tiles ≠ 0 then s.streamError pid x.wordAddr 5
  else
    match s.rangeCode p index with
    | some n => s.streamError pid x.wordAddr n
    | none =>
      if 2 ≤ x.ops.length then s.streamHold pid
      else if indexLocked p base s.locks then s.enterGather pid p x t a b kc base
      else if p.windowBusy (rangeLocks p 0 s.clock [index]) then s.streamHold pid
      else
        match s.gatherRows p t a b kc base with
        | (s, .error n) => s.streamError pid x.wordAddr n
        | (s, .ok (kind, gs)) => s.enterTile pid p x kind [index] gs

/-- A gathered pass that has waited for its index vector reads it: its rows take the places it holds, or it is gone with its locks and the
stream stops (R259, R269). -/
def State.resumeGather (s : State) (pid : Nat) (p : Pop) (x : Stream) (o : TileOp) (t : Nat) (a b : Operand) (kc base : Nat) : State :=
  let before := s.locks.takeWhile (fun l => l.owner != o.serial)
  let after := (s.locks.dropWhile (fun l => l.owner != o.serial)).filter (fun l => l.owner != o.serial)
  if indexLocked p base before then s
  else
    match s.gatherRows p t a b kc base with
    | (s, .error n) =>
      let s := { s with locks := before ++ after }.updStream pid (fun x => { x with ops := x.ops.filter (fun q => q.serial != o.serial) })
      s.streamError pid x.wordAddr n
    | (s, .ok (kind, gs)) =>
      let locks := rangeLocks p o.serial o.issued gs
      if p.windowBusy locks then s
      else
      let s := { s with locks := before ++ locks ++ after }
      let s := s.lookAgain ((after.map Lock.owner).filter (fun n => !s.engineBegun n))
      let o := { o with kind := kind, waiting := s.blocked x.owners o.serial }
      (s.updStream pid (fun x =>
        { x with ops := x.ops.map (fun q => if q.serial = o.serial then o else q), lockWait := false })).streamNext pid

/-- A gathered pass that has yet to read its index vector. -/
def TileOp.unread (o : TileOp) : Bool :=
  match o.kind with
  | .gather _ _ _ _ _ => true
  | .pmm _ _ _ _ _ _ | .pzero _ | .pld _ _ | .pst _ _ _ => false

/-- The gathered pass of a stream that waits for its index vector. -/
def Stream.unread (x : Stream) : Option (TileOp × Nat × Operand × Operand × Nat × Nat) :=
  x.ops.findSome? (fun o => match o.kind with
    | .gather t a b kc base => some (o, t, a, b, kc, base)
    | .pmm _ _ _ _ _ _ | .pzero _ | .pld _ _ | .pst _ _ _ => none)

def execPmm (t : TReg) (xa xb : XReg) (kc : BitVec 8) (s : State) : Result :=
  onStream "PMM" (.pmm t xa xb kc) s (fun pid p x s =>
    s.issueTile pid p x (.pmm t.toNat (x.operand x.fa xa) (x.operand x.fb xb) kc.toNat none false))

def execPmmg (t : TReg) (xa xb xc : XReg) (kc : BitVec 8) (s : State) : Result :=
  onStream "PMMG" (.pmmg t xa xb xc kc) s (fun pid p x s =>
    s.issueGather pid p x t.toNat (x.operand x.fa xa) (x.operand x.fb xb) kc.toNat (x.reg xc).toNat)

def execPzero (mask : BitVec 16) (s : State) : Result :=
  onStream "PZERO" (.pzero mask) s (fun pid p x s => s.issueTile pid p x (.pzero mask))

def execPld (t : TReg) (xa : XReg) (s : State) : Result :=
  onStream "PLD" (.pld t xa) s (fun pid p x s => s.issueTile pid p x (.pld t.toNat (x.reg xa).toNat))

def execPst (ty : PstTy) (t : TReg) (xa : XReg) (s : State) : Result :=
  onStream "PST" (.pst ty t xa) s (fun pid p x s => s.issueTile pid p x (.pst ty t.toNat (x.operand x.fa xa)))

/-- TILE_LOCK_ENTER: the tile operation that waits in the sequencer is tried again, once there is room for it or its index vector is
free (R259, R269). -/
def execTileLockEnter (pid : Nat) (s : State) : Result :=
  match s.pop pid with
  | none => .refused (.notEnabled "TILE_LOCK_ENTER")
  | some p =>
    match p.stream with
    | none => .refused (.notEnabled "TILE_LOCK_ENTER")
    | some x =>
      if !x.lockWait || x.stopped || p.aborted || p.preempting then .refused (.notEnabled "TILE_LOCK_ENTER")
      else
        let s' := match x.unread with
          | some (o, t, a, b, kc, base) => s.resumeGather pid p x o t a b kc base
          | none => match (x.clause[x.widx]?).map decode with
          | some (.ok (.pmm t xa xb kc)) =>
            s.issueTile pid p x (.pmm t.toNat (x.operand x.fa xa) (x.operand x.fb xb) kc.toNat none false)
          | some (.ok (.pmmg t xa xb xc kc)) =>
            s.issueGather pid p x t.toNat (x.operand x.fa xa) (x.operand x.fb xb) kc.toNat (x.reg xc).toNat
          | some (.ok (.pzero mask)) => s.issueTile pid p x (.pzero mask)
          | some (.ok (.pld t xa)) => s.issueTile pid p x (.pld t.toNat (x.reg xa).toNat)
          | some (.ok (.pst ty t xa)) => s.issueTile pid p x (.pst ty t.toNat (x.operand x.fa xa))
          | _ => s
        match s'.pop pid with
        | some q => match q.stream with
          | some y => if y.lockWait then .refused (.notEnabled "TILE_LOCK_ENTER") else .next s'
          | none => .refused (.notEnabled "TILE_LOCK_ENTER")
        | none => .refused (.notEnabled "TILE_LOCK_ENTER")

/-- ENGINE_LOCK_PROCEED: the locks entered before the operation's own are released (R220, R259). -/
def execEngineLockProceed (e : EngineRef) (s : State) : Result :=
  match e with
  | .copy op =>
    match s.cpOf { pid := op.pid, cid := op.cid } with
    | none => .refused (.notEnabled "ENGINE_LOCK_PROCEED")
    | some (_, c) =>
      if c.asyncs.any (fun a => a.serial == op.serial && a.waiting) && !s.blocked [] op.serial then
        .next (s.updCp { pid := op.pid, cid := op.cid } (fun c =>
          { c with asyncs := c.asyncs.map (fun a => if a.serial = op.serial then { a with waiting := false } else a) }))
      else .refused (.notEnabled "ENGINE_LOCK_PROCEED")
  | .tile pid =>
    match s.pop pid with
    | none => .refused (.notEnabled "ENGINE_LOCK_PROCEED")
    | some p =>
      match p.stream with
      | none => .refused (.notEnabled "ENGINE_LOCK_PROCEED")
      | some x =>
        match x.ops.find? (fun o => o.waiting && !o.unread && !s.blocked x.owners o.serial) with
        | none => .refused (.notEnabled "ENGINE_LOCK_PROCEED")
        | some o =>
          .next (s.updStream pid (fun x =>
            { x with ops := x.ops.map (fun q => if q.serial = o.serial then { q with waiting := false } else q) }))

/-! ### Rennet words of a stream (R272) -/

/-- The 16 bytes of a rennet word as a range. -/
def rennetRange (off : Nat) (write : Bool) : Range :=
  { runs := [(off, 16)], aligned := off % 16 = 0, write := write, engine := .press }

/-- The generation a PWAIT tests has moved; an unreadable word never passes. -/
def State.pwaitPasses (s : State) (p : Pop) (off : Nat) (g : Word32) : State × Bool :=
  match s.readLoc (p.winLoc off) 16 with
  | (s, .ok bs) => (s, turned (genOf (word128 bs)) g)
  | (s, .error _) => (s, false)

/-- A PWAIT that passes acquires for the press what the arrivals it observes pass on (R272, R342). -/
def State.pwaitAcquire (s : State) (pid : Nat) (p : Pop) (off : Nat) : State :=
  let xs := (s.observed none true (p.winLoc off) 16).filter (fun x => x.syncs .pop pid p.cluster)
  if xs = [] then s else s.updStream pid (fun x => { x with know := x.know.merge (passedOn xs) })

/-- PWAIT passes at once, or stops the sequencer. -/
def execPwait (xa xb : XReg) (s : State) : Result :=
  onStream "PWAIT" (.pwait xa xb) s (fun pid p x s =>
    let off := (x.reg xa).toNat
    match s.rangeCode p (rennetRange off false) with
    | some n => s.streamError pid x.wordAddr n
    | none =>
      match s.pwaitPasses p off (x.reg xb) with
      | (s, true) => (s.pwaitAcquire pid p off).streamNext pid
      | (s, false) => (s.updStream pid (fun x => { x with pwait := true })).setIssuer .none)

/-- PWAIT_PASS: the generation has moved; the stream goes on (R272). -/
def execPwaitPass (pid : Nat) (s : State) : Result :=
  match s.pop pid with
  | none => .refused (.notEnabled "PWAIT_PASS")
  | some p =>
    match p.stream with
    | none => .refused (.notEnabled "PWAIT_PASS")
    | some x =>
      if !x.pwait || x.stopped || p.aborted || p.preempting then .refused (.notEnabled "PWAIT_PASS")
      else
        match (x.clause[x.widx]?).map decode with
        | some (.ok (.pwait xa xb)) =>
          match s.pwaitPasses p (x.reg xa).toNat (x.reg xb) with
          | (s, true) => .next ((s.pwaitAcquire pid p (x.reg xa).toNat).updStream pid (fun x => { x.past with pwait := false }))
          | (_, false) => .refused (.notEnabled "PWAIT_PASS")
        | _ => .refused (.notEnabled "PWAIT_PASS")

/-- PARRIVE is checked and waits for the stream's earlier tile operations. -/
def execParrive (xa : XReg) (n : BitVec 32) (s : State) : Result :=
  onStream "PARRIVE" (.parrive xa n) s (fun pid p x s =>
    let off := (x.reg xa).toNat
    match s.rangeCode p (rennetRange off true) with
    | some k => s.streamError pid x.wordAddr k
    | none => (s.updStream pid (fun x => { x with parrive := some (off, n) })).setIssuer .none)

/-- PARRIVE_PERFORM: every earlier tile operation is complete; the release, and the arrival (R272). -/
def execParrivePerform (pid : Nat) (s : State) : Result :=
  match s.pop pid with
  | none => .refused (.notEnabled "PARRIVE_PERFORM")
  | some p =>
    match p.stream with
    | none => .refused (.notEnabled "PARRIVE_PERFORM")
    | some x =>
      match x.parrive with
      | none => .refused (.notEnabled "PARRIVE_PERFORM")
      | some (off, n) =>
        if x.ops == [] && !p.aborted && !p.preempting then
          .next ((s.engineArrive pid off n 0 2 x.know).updStream pid (fun x => { x.past with parrive := none }))
        else .refused (.notEnabled "PARRIVE_PERFORM")

/-- PEND stops the stream; its completion follows (R273). -/
def execPend (s : State) : Result :=
  onStream "PEND" .pend s (fun pid _ _ s => (s.updStream pid (fun x => { x with stopped := true })).setIssuer .none)

/-- The status bits of a completion arrival (R261). -/
def Stream.statusBits (x : Stream) : Word32 :=
  BitVec.ofNat 32 (65536 * x.code.toNat + 256 * x.flags.toNat + 2 * x.poison.toNat + x.err.toNat)

/-- STREAM_COMPLETION: the completion arrival ends the stream's life; its flags await a WAITR of the CP that started it, unless that
CP has ended (R261, R262, R263, R273). -/
def execStreamCompletion (pid : Nat) (s : State) : Result :=
  match s.pop pid with
  | none => .refused (.notEnabled "STREAM_COMPLETION")
  | some p =>
    match p.stream with
    | none => .refused (.notEnabled "STREAM_COMPLETION")
    | some x =>
      if x.stopped && x.ops == [] && !p.aborted then
        let s := s.engineArrive pid x.cw 1 x.statusBits 3 x.know
        let ended := match p.cp x.starter with | some c => c.ended | none => true
        let due : List FlagsDue := if ended then [] else [{ starter := x.starter, cw := x.cw, flags := x.flags }]
        .next (s.updPop pid (fun p => { p with stream := none, flagsDue := p.flagsDue ++ due }))
      else .refused (.notEnabled "STREAM_COMPLETION")

/-! ### Tile operations at the press (R264, R268 to R271) -/

/-- The place of a chunk of a pass in its operand (0 or 1): row of the tile, plane (8 for the scales), and its number in the run. -/
def chunkKey (opnd row plane k : Nat) : Nat := ((opnd * 128 + row) * 16 + plane) * 4096 + k

/-- The stored row that gives each row of an operand: 0xFFFF for an empty gathered row (R269). -/
def storedRows (rows : Option (List Nat)) : List Nat := rows.getD allRows

/-- The chunks of an operand that a pass reads, the plane bytes of its rows by 32 and the scales by 2, each once for each row that names
them (R99, R101, R268, R269). -/
def operandParts (opnd : Nat) (o : Operand) (kc : Nat) (rows : List Nat) : List TilePart :=
  rows.zipIdx.flatMap (fun e =>
    if e.1 = 0xFFFF then []
    else
      let planes := (List.range (planesOf o.fmt)).flatMap (fun j => (List.range kc).map (fun k =>
        TilePart.read (chunkKey opnd e.2 j k) (off32 (o.base + j * o.ps + e.1 * o.rs) + 32 * k) 32))
      let n := scaleCount o.fmt kc
      let scales := if o.fmt.sc then (List.range n).map (fun k =>
        TilePart.read (chunkKey opnd e.2 8 k) (off32 (o.sc + 2 * e.1 * n) + 2 * k) 2) else []
      planes ++ scales)

/-- The bytes an operation has read at a place. -/
def TileOp.bytes (o : TileOp) (key : Nat) : List Byte := Tab.get [] o.got key

/-- The planes of a row, each with bit k for element k (R99). -/
def TileOp.planes (q : TileOp) (opnd row : Nat) (o : Operand) (kc : Nat) : List Nat :=
  (List.range (planesOf o.fmt)).map (fun j => natOfBytes ((List.range kc).flatMap (fun k => q.bytes (chunkKey opnd row j k))))

/-- The scales of a row, one per block of l elements (R101, R268). -/
def TileOp.scales (q : TileOp) (opnd row : Nat) (o : Operand) (kc l : Nat) (daz : Bool) : List FVal :=
  (List.range (256 * kc / l)).map (fun b =>
    if o.fmt.sc then unpack fpB16 daz (natOfBytes (q.bytes (chunkKey opnd row 8 (b * l / blkCount o.fmt.len))))
    else .fin false 1 0)

/-- A row's blocks. -/
def TileOp.blocks (q : TileOp) (opnd row : Nat) (o : Operand) (kc l : Nat) (daz : Bool) : List Block :=
  blocksOf o.fmt (q.planes opnd row o kc) (q.scales opnd row o kc l daz) l

def State.tile (s : State) (cluster t : Nat) : List Word64 := Tab.slice 0 s.tiles (262144 * cluster + 16384 * t) 16384

def State.setTile (s : State) (cluster t : Nat) (vs : List Word64) : State :=
  { s with tiles := Tab.splice 0 s.tiles (262144 * cluster + 16384 * t) vs }

def State.poisonTile (s : State) (cluster t : Nat) (b : Bool) : State :=
  { s with tilePoison := Tab.put false s.tilePoison (16 * cluster + t) b }

def State.tileBad (s : State) (cluster t : Nat) : Bool := Tab.get false s.tilePoison (16 * cluster + t)

/-- The end of a pass (R268, R269): the tile, and the flags. -/
def State.runPmm (s : State) (p : Pop) (x : Stream) (q : TileOp) (t : Nat) (a b : Operand) (kc : Nat) (rows : Option (List Nat)) :
    State × Flags :=
  let l := min (blkCount a.fmt.len) (blkCount b.fmt.len)
  let daz := a.fmt.f32 && x.daz
  let as : List (Option (List Block)) := (storedRows rows).zipIdx.map (fun e =>
    if e.1 = 0xFFFF then none else some (q.blocks 0 e.2 a kc l daz))
  let out := passTile a.fmt b.fmt (streamEnv a.fmt x.rm x.ftz x.daz) l (s.tile p.cluster t) as
    (allRows.map (fun r => q.blocks 1 r b kc l daz))
  let s := s.setTile p.cluster t out.1
  (if q.poison then s.poisonTile p.cluster t true else s, out.2)

/-- The end of PLD: the tile's 64-bit patterns; clean lines clear its poison (R264, R270). -/
def State.runPld (s : State) (p : Pop) (q : TileOp) (t : Nat) : State :=
  let vs := (List.range 1024).flatMap (fun k =>
    let bs := q.bytes k
    (List.range 16).map (fun n => (wordOfBytes ((bs.drop (8 * n)).take 8)).getD 0))
  (s.setTile p.cluster t vs).poisonTile p.cluster t q.poison

/-- The bytes of a converted tile, as pieces with their offsets: whole lines, or the 16 bytes of a plane of a row (R271). -/
def pstPieces (ty : PstTy) (a : Operand) (vs : List Nat) : List (Nat × List Byte) :=
  match ty with
  | .nb8 =>
    allRows.flatMap (fun r => (List.range 8).map (fun j =>
      (off32 (a.base + j * a.ps + r * a.rs), planeBytes ((vs.drop (128 * r)).take 128) j)))
  | .f32 | .f16 | .b16 | .s8 | .s16 | .s32 =>
    let n := pstSize ty
    (List.range (128 * n)).map (fun k =>
      (a.base + 128 * k, ((vs.drop (128 / n * k)).take (128 / n)).flatMap (fun v => bytesOf n (BitVec.ofNat 64 v))))

/-- One line of a PST: written whole where it is covered, else piece by piece (R211). The answer says whether a piece met an
unreadable line. -/
def State.writeLine (s : State) (p : Pop) (line : Nat) (pieces : List (Nat × List Byte)) : State × Bool :=
  let mine := pieces.filter (fun e => e.1 / 128 == line)
  let find := fun (o : Nat) => (mine.findRev? (fun e => decide (e.1 % 128 ≤ o) && decide (o < e.1 % 128 + e.2.length))).map
    (fun e => e.2.getD (o - e.1 % 128) 0)
  if (List.range 128).all (fun o => (find o).isSome) then
    match s.writeAt p.cluster p.vf (p.winLoc (128 * line)) ((List.range 128).map (fun o => (find o).getD 0)) with
    | (s, .ok _) => (s, false)
    | (s, .error _) => (s, true)
  else
    mine.foldl (fun acc e =>
      match acc.1.writeAt p.cluster p.vf (p.winLoc e.1) e.2 with
      | (s, .ok _) => (s, acc.2)
      | (s, .error _) => (s, true)) (s, false)

/-- PST: every element converted, with the lines to write and the flags; a poisoned tile writes poisoned lines (R264, R271). -/
def State.pstParts (s : State) (p : Pop) (x : Stream) (ty : PstTy) (t : Nat) (a : Operand) : List TilePart × Flags :=
  let env := streamEnv a.fmt x.rm x.ftz x.daz
  let rs := (s.tile p.cluster t).map (fun v => pstElem a.fmt env ty v.toNat)
  let pieces := pstPieces ty a (rs.map (fun e => e.1))
  let lines := (pieces.map (fun e => e.1 / 128)).eraseDups
  (lines.map (fun l => .write l (if s.tileBad p.cluster t then [] else pieces.filter (fun e => e.1 / 128 == l))),
    rs.foldl (fun acc (e : Nat × Flags) => acc ||| e.2) 0)

/-- The press is granted to an operation: the accesses it is to make; a PST has its elements converted (R260, R271). -/
def State.grantTile (s : State) (p : Pop) (x : Stream) (o : TileOp) : TileOp :=
  let o := { o with granted := true }
  match o.kind with
  | .pmm _ a b kc rows bad => { o with parts := operandParts 0 a kc (storedRows rows) ++ operandParts 1 b kc allRows, poison := bad }
  | .pzero _ | .gather _ _ _ _ _ => o
  | .pld _ base => { o with parts := (List.range 1024).map (fun k => .read k (base + 128 * k) 128) }
  | .pst ty t a =>
    let r := s.pstParts p x ty t a
    { o with parts := r.1, flags := r.2, poison := s.tileBad p.cluster t }

/-- One access of a granted operation (R264, R268 to R271); a poisoned line written counts in the population's errors. -/
def State.tilePart (s : State) (pid : Nat) (p : Pop) (o : TileOp) (x : TilePart) : State × TileOp :=
  match x with
  | .read key off n =>
    let a := s.readTile p off n
    (a.1, { o with got := Tab.put [] o.got key a.2.1, poison := o.poison || a.2.2 })
  | .write line [] =>
    ((s.poisonLoc (p.winLoc (128 * line))).1.updPop pid (fun p => { p with errors := addSat p.errors 1 }), o)
  | .write line pieces =>
    let a := s.writeLine p line pieces
    (a.1, { o with poison := o.poison || a.2 })

/-- The bytes of the cluster store that an access meets. -/
def TilePart.span (p : Pop) : TilePart → Nat × Nat
  | .read _ off n => (524288 * p.base + off, n)
  | .write line _ => (524288 * p.base + 128 * line, 128)

/-- A lock stays while its operation has an access to make in its range (R259). -/
def stillHeld (p : Pop) (o : TileOp) (l : Lock) : Bool :=
  l.owner != o.serial || o.parts.any (fun x => decide (l.first < (x.span p).1 + (x.span p).2) && decide ((x.span p).1 ≤ l.last))

/-- Access k of a granted operation performs; its locks with no access left go (R259). -/
def State.runPart (s : State) (pid : Nat) (p : Pop) (o : TileOp) (k : Nat) : State :=
  match o.parts[k]? with
  | none => s
  | some x =>
    let a := s.tilePart pid p o x
    let o := { a.2 with parts := o.parts.eraseIdx k }
    ({ a.1 with locks := a.1.locks.filter (stillHeld p o) } : State).updStream pid (fun x =>
      { x with ops := x.ops.map (fun q => if q.serial = o.serial then o else q) })

/-- What an operation leaves at its end (R264, R268 to R270): its state and flags. -/
def State.finishTile (s : State) (p : Pop) (x : Stream) (o : TileOp) : State × Flags :=
  match o.kind with
  | .pmm t a b kc rows _ => s.runPmm p x o t a b kc rows
  | .gather _ _ _ _ _ => (s, 0)
  | .pzero m => (s.clearTiles p.cluster m, 0)
  | .pld t _ => (s.runPld p o t, 0)
  | .pst _ _ _ => (s, o.flags)

/-- The press time of an operation (R274). -/
def tileTime : TileKind → Nat
  | .pmm _ a b kc _ _ => kc * planesOf a.fmt * planesOf b.fmt
  | .gather _ _ _ _ _ => 0
  | .pzero m => ((List.range 16).filter (fun t => m.getLsbD t)).length
  | .pld _ _ => 256
  | .pst ty _ _ => 32 * pstSize ty

/-- The next tile operation of a stream that the press has not been granted to. -/
def Stream.nextOp (x : Stream) : Option TileOp := x.ops.find? (fun o => !o.granted)

/-- The reservation entries of a cluster whose next operation can perform: a pre-empted population's stream performs no further
operation, unless a stream error has stopped it, whose earlier operations complete (R34, R263, R275; notes/assumptions/43.md). -/
def State.pressReady (s : State) (cluster : Nat) : List (Nat × Pop × Stream × TileOp) :=
  s.pops.filterMap (fun e =>
    if e.2.cluster = cluster ∧ !e.2.aborted then
      match e.2.stream with
      | some x => match x.nextOp with
        | some o => if o.waiting || (e.2.preempting && !x.err) then none else some (e.1, e.2, x, o)
        | none => none
      | none => none
    else none)

/-- The press of a cluster performs an operation that has not completed (R260). -/
def State.pressBusy (s : State) (cluster : Nat) : Bool :=
  s.pops.any (fun e => e.2.cluster == cluster && (match e.2.stream with
    | some x => x.ops.any (fun o => o.granted)
    | none => false))

/-- The clk an operation has waited since it was issued. -/
def State.waited (s : State) (o : TileOp) : Nat := (s.clock - o.issued).toNat

/-- a comes before b at the arbiter (R260). -/
def State.pressBefore (s : State) (a b : Nat × Pop × Stream × TileOp) : Bool :=
  let wa := s.waited a.2.2.2
  let wb := s.waited b.2.2.2
  match decide (4096 ≤ wa), decide (4096 ≤ wb) with
  | true, false => true
  | false, true => false
  | true, true => decide (wb < wa)
  | false, false => decide (b.2.1.prio < a.2.1.prio) || (a.2.1.prio == b.2.1.prio && decide (wb < wa))

/-- PRESS_GRANT: the free press is granted to the entry that comes first; entries that tie are a choice (R260, R312). -/
def execPressGrant (cluster : Nat) (s : State) : Result :=
  let cs := s.pressReady cluster
  let top := cs.filter (fun a => !cs.any (fun b => s.pressBefore b a))
  if s.pressBusy cluster then .refused (.notEnabled "PRESS_GRANT")
  else
    let (k, s) := s.pick top.length
    match top[k]? with
    | none => .refused (.notEnabled "PRESS_GRANT")
    | some (pid, p, x, o) =>
      let g := s.grantTile p x o
      .next ((s.count p.home pid 0x011 (tileTime o.kind)).updStream pid (fun x =>
        { x with granted := s.clock, ops := x.ops.map (fun q => if q.serial = o.serial then g else q) }))

/-- The rest of a granted operation's accesses perform. -/
def State.runParts (pid : Nat) (serial : Nat) : Nat → State → State
  | 0, s => s
  | n + 1, s =>
    match s.pop pid with
    | none => s
    | some p =>
      match p.stream.bind (fun x => x.ops.find? (fun o => o.serial == serial)) with
      | none => s
      | some o => State.runParts pid serial n (s.runPart pid p o 0)

/-- The operation leaves the press: its locks are released, its flags and poison reach the stream (R259, R264). -/
def State.leavePress (s : State) (pid : Nat) (p : Pop) (x : Stream) (o : TileOp) : State :=
  let r := s.finishTile p x o
  ({ r.1 with locks := r.1.locks.filter (fun k => k.owner != o.serial) } : State).updStream pid (fun x =>
    { x with ops := x.ops.filter (fun q => q.serial != o.serial), flags := x.flags ||| r.2, poison := x.poison || o.poison })

/-- TILE_OP_COMPLETE: one access of the operation at the press performs on its own, or the rest does and the operation leaves the press
(R259, R264, R345). -/
def execTileOpComplete (e : PressPart) (s : State) : Result :=
  let pid := e.pid
  match s.pop pid with
  | none => .refused (.notEnabled "TILE_OP_COMPLETE")
  | some p =>
    match p.stream with
    | none => .refused (.notEnabled "TILE_OP_COMPLETE")
    | some x =>
      match x.ops with
      | o :: _ =>
        if !o.granted then .refused (.notEnabled "TILE_OP_COMPLETE")
        else
          match e.part with
          | some k => if k < o.parts.length then .next (s.runPart pid p o k) else .refused (.notEnabled "TILE_OP_COMPLETE")
          | none =>
            let s := State.runParts pid o.serial o.parts.length s
            match s.pop pid with
            | none => .next s
            | some p =>
              match p.stream with
              | none => .next s
              | some x =>
                match x.ops with
                | o :: _ => .next (s.leavePress pid p x o)
                | [] => .next s
      | [] => .refused (.notEnabled "TILE_OP_COMPLETE")

end Sys2Proof.Machine
end

