-- ==== Sys2Proof/Machine/Control.lean ====
section
/-! DEFINITION. The control instructions 0x00 to 0x13 but SUCC and PSTART (R156 to R161, R168 to R175). -/

namespace Sys2Proof.Machine

/-- A virtual function whose configuration forces DET (R111, R309). -/
def State.forcesDet (s : State) (vf : Nat) : Bool := (s.vfWord vf 0).getLsbD 62

/-- The mode a CP runs with: a function may force DET (R111, R158). -/
def startMode (forced : Bool) (mode : Word64) : Word64 := if forced then mode ||| 0x20#64 else mode

/-- Every CP of a population runs with DET where its function forces it (R111). -/
def Pop.forceDet (forced : Bool) (p : Pop) : Pop :=
  { p with cps := p.cps.map (fun e => (e.1, { e.2 with mode := startMode forced e.2.mode })) }

/-- The value of a control register at the GETC's place (R157). -/
def controlReg (s : State) (r : CpRef) (p : Pop) (c : Cp) (n : Nat) : Word64 :=
  match n with
  | 0 => c.mode
  | 1 => c.flags.zeroExtend 64
  | 2 => BitVec.ofNat 64 r.cid
  | 3 => BitVec.ofNat 64 p.ncp
  | 4 => BitVec.ofNat 64 p.popix
  | 5 => BitVec.ofNat 64 p.npop
  | 6 => BitVec.ofNat 64 p.lanes
  | 7 => BitVec.ofNat 64 p.regs
  | 8 => BitVec.ofNat 64 p.win
  | 9 => BitVec.ofNat 64 p.coreid
  | 10 => BitVec.ofNat 64 p.cluid
  | 11 => BitVec.ofNat 64 p.vf
  | 12 => s.clock
  | 13 => BitVec.ofNat 64 p.deadCount
  | 14 => BitVec.ofNat 64 p.parkedCount
  | 15 => BitVec.ofNat 64 c.depth
  | 16 => c.tpc
  | 17 => c.tcause
  | 18 => c.taddr
  | 19 => c.tlane
  | 20 => c.gen
  | 21 => p.key.zeroExtend 64
  | _ => BitVec.ofNat 64 p.nest

/-- The value PUTC 0 leaves in mode: the writable fields, with a forced DET bit kept at 1 (R158, R160). -/
def putMode (v : Word64) (forced : Bool) : Word64 :=
  (v &&& 0xFFF#64) ||| (if forced then 0x20#64 else 0)

/-- The branch conditions of R75: EQ to GE signed, LTN to GEN natural. -/
def branchTest (cc : BCond) (a b : Word64) : Bool :=
  match cc with
  | .eq => a == b
  | .ne => a != b
  | .lt => a.slt b
  | .le => a.sle b
  | .gt => b.slt a
  | .ge => b.sle a
  | .ltn => a.ult b
  | .len => a.ule b
  | .gtn => b.ult a
  | .gen => b.ule a

/-- A conditional branch: the target when taken, else the next clause; the word ends its clause either way (R62, R64). -/
def branch (s : State) (r : CpRef) (c : Cp) (taken : Bool) (off : BitVec 32) : State :=
  endClause s r (if taken then c.target off else c.nextHdr)

def execNop (s : State) : Result := onCp "NOP" .nop s (fun r _ _ s => advance s r)

def execBra (off : BitVec 32) (s : State) : Result := onCp "BRA" (.bra off) s (fun r _ c s => branch s r c true off)

def execBsc (cc : BCond) (sa sb : SReg) (off : BitVec 32) (s : State) : Result :=
  onCp "BSC" (.bsc cc sa sb off) s (fun r _ c s => branch s r c (branchTest cc (c.getS sa) (c.getS sb)) off)

def execBsi (cc : BCond) (sa : SReg) (imm : BitVec 8) (off : BitVec 32) (s : State) : Result :=
  onCp "BSI" (.bsi cc sa imm off) s (fun r _ c s => branch s r c (branchTest cc (c.getS sa) (imm.signExtend 64)) off)

/-- ANY, NONE, ONE, MANY on the number of lanes of ms ∧ L (R168). -/
def setTest (c : SetCond) (n : Nat) : Bool :=
  match c with
  | .any => decide (1 ≤ n)
  | .none => n == 0
  | .one => n == 1
  | .many => decide (2 ≤ n)

def execBset (cond : SetCond) (ms : MReg) (off : BitVec 32) (s : State) : Result :=
  onRci "BSET" (.bset cond ms off) s (fun r p c s =>
    let lanes := p.laneList (c.getM ms &&& p.live)
    let s := s.countSkipped r.pid p lanes
    if setTest cond lanes.length then jumpRci s r (c.target off) else endClause s r c.nextHdr)

/-- CALL and CALLI write the link, the address of the clause that follows (R75). -/
def execCall (sd : SReg) (off : BitVec 32) (s : State) : Result :=
  onCp "CALL" (.call sd off) s (fun r _ c s =>
    endClause (s.updCp r (fun c => c.setS sd c.nextHdr)) r (c.target off))

/-- CALLI reads its target before it writes the link (R168). -/
def execCalli (sa sd : SReg) (s : State) : Result :=
  onCp "CALLI" (.calli sa sd) s (fun r _ c s =>
    endClause (s.updCp r (fun c => c.setS sd c.nextHdr)) r (c.getS sa))

def execJmp (sa : SReg) (s : State) : Result := onCp "JMP" (.jmp sa) s (fun r _ c s => endClause s r (c.getS sa))

def execRet (sa : SReg) (s : State) : Result := onCp "RET" (.ret sa) s (fun r _ c s => endClause s r (c.getS sa))

/-- LOOP decrements modulo 2^64 and branches while the result is not 0 (R168). -/
def execLoop (sa : SReg) (off : BitVec 32) (s : State) : Result :=
  onCp "LOOP" (.loop sa off) s (fun r _ c s =>
    let v := c.getS sa - 1
    branch (s.updCp r (fun c => c.setS sa v)) r c (v != 0) off)

/-- REGION and JOIN record the header of the next clause as the region's entry, wherever the CP then goes (R172). -/
def atNextHeader (s : State) (r : CpRef) : State := advance (s.updCp r (fun c => { c with fresh := false })) r

/-- REGION performs a JOIN, since a region is always open, and opens the next one (R172). -/
def execRegion (s : State) : Result := onRci "REGION" .region s (fun r _ _ s => atNextHeader s r)

def execJoin (s : State) : Result := onRci "JOIN" .join s (fun r _ _ s => atNextHeader s r)

/-- END: after its JOIN the CP ends and its context is freed (R175); a SCOPE trap due at the end of its clause is taken instead (R219;
DEDUCED, notes/assumptions/69.md). -/
def execEndCp (s : State) : Result :=
  onRci "END" .endCp s (fun r _ c s =>
    if c.scopeTrap.isSome then endClause s r c.nextHdr
    else (endClause s r c.nextHdr).updCp r (fun c => { c with ended := true }))

/-- TRAP raises SOFTWARE after its JOIN (R170). -/
def execTrap (code : BitVec 32) (s : State) : Result :=
  onRci "TRAP" (.trap code) s (fun r _ c s => trapAfter s r c .software (code.zeroExtend 64) allOnes64)

def execBrk (code : BitVec 32) (s : State) : Result :=
  onCp "BRK" (.brk code) s (fun r _ c s => trapAfter s r c .brk (code.zeroExtend 64) allOnes64)

/-- YIELD ends the clause; the readiness age restarts (R171). -/
def execYield (s : State) : Result := onCp "YIELD" .yield s (fun r _ _ s => advance s r)

def execGetc (sd : SReg) (n : BitVec 8) (s : State) : Result :=
  onCp "GETC" (.getc sd n) s (fun r p c s =>
    advance (s.updCp r (fun d => d.setS sd (controlReg s r p c n.toNat))) r)

/-- PUTC writes mode or clears flags; every other register raises PRIV with its number (R160, R314). -/
def execPutc (n : BitVec 8) (sa : SReg) (s : State) : Result :=
  onCp "PUTC" (.putc n sa) s (fun r p c s =>
    let v := c.getS sa
    if n = 0 then
      if v.extractLsb' 0 3 = 7#3 then illegal s r c
      else advance (s.updCp r (fun c => { c with mode := putMode v (s.forcesDet p.vf) })) r
    else if n = 1 then advance (s.updCp r (fun c => { c with flags := c.flags &&& ~~~(v.extractLsb' 0 6) })) r
    else trapAfter s r c .priv (n.zeroExtend 64) allOnes64)

end Sys2Proof.Machine
end

