-- ==== Sys2Proof/Machine/Place.lean ====
section
/-! DEFINITION. Kernel descriptors (R177), the resources of a cluster, placement (R13 to R16), and the creation and the freeing of
a population (R15, R175, R297, R313). -/

namespace Sys2Proof.Machine

/-! ### Kernel descriptors (R177) -/

/-- The 64-bit words from a global address, read at their home slices; the address and cause of the first that fails. -/
def State.loadWords (s : State) (units : List Nat) (vf : Nat) (asid : BitVec 12) (addr : Word64) :
    Nat → State × Except (Word64 × LaneCause) (List Word64)
  | 0 => (s, .ok [])
  | n + 1 =>
    match s.translate units vf asid addr .read with
    | (s, .error e) => (s, .error (addr, e))
    | (s, .ok l) =>
      match s.readLoc l 8 with
      | (s, .error e) => (s, .error (addr, e))
      | (s, .ok bs) =>
        match State.loadWords s units vf asid (addr + 8) n with
        | (s, .ok ws) => (s, .ok ((wordOfBytes bs).getD 0 :: ws))
        | (s, .error e) => (s, .error e)

/-- The fields of a kernel descriptor. -/
structure Desc where
  entry : Word64
  word1 : Word64
  asid : BitVec 12
  policy : Policy
  prio : Nat
  banks : Nat
  ncp : Nat
  regs : Nat
  lanes : Nat
  tiles : BitVec 16
  mode : Word64
  handler : Word64
  deriving DecidableEq, Repr

def policyOf (n : Nat) : Policy := if n = 0 then .abort else if n = 1 then .resume else .vector

/-- The descriptor in eight words, with no check. -/
def descOf (ws : List Word64) : Desc :=
  let w1 := ws.getD 1 0
  { entry := ws.getD 0 0, word1 := w1, asid := w1.extractLsb' 44 12, policy := policyOf (w1.extractLsb' 40 2).toNat,
    prio := (w1.extractLsb' 38 2).toNat, banks := (w1.extractLsb' 32 6).toNat, ncp := (w1.extractLsb' 28 4).toNat,
    regs := (w1.extractLsb' 16 12).toNat, lanes := (w1.extractLsb' 0 15).toNat, tiles := (ws.getD 2 0).extractLsb' 0 16,
    mode := ws.getD 3 0, handler := ws.getD 4 0 }

/-- The checks of R177: every field in its range and every reserved field 0. -/
def descOk (ws : List Word64) : Bool :=
  let w1 := ws.getD 1 0
  let d := descOf ws
  w1.extractLsb' 56 8 == 0 && !w1.getLsbD 43 && !w1.getLsbD 15 && w1.extractLsb' 40 2 != 3#2
    && decide (d.banks ≤ 32) && decide (1 ≤ d.ncp) && decide (d.ncp ≤ 8)
    && decide (8 ≤ d.regs) && decide (d.regs ≤ 2048) && d.regs % 8 == 0
    && decide (1 ≤ d.lanes) && decide (d.lanes ≤ 16384)
    && (ws.getD 2 0).extractLsb' 16 48 == 0
    && d.mode.extractLsb' 12 52 == 0 && d.mode.extractLsb' 0 3 != 7#3
    && (d.handler == 0) == (d.policy != .vector)
    && (ws.drop 5).all (fun w => w == 0)

/-! ### Resources (R4, R12, R13) -/

def groupsOf (lanes : Nat) : Nat := (lanes + 255) / 256

/-- A population's groups on a core. -/
def Pop.groupsOn (p : Pop) (core : Nat) : Nat := (p.groups.filter (fun c => c == core)).length

def State.usedRegs (s : State) (core : Nat) : Nat := s.pops.foldl (fun n e => n + e.2.groupsOn core * e.2.regs) 0

def State.usedGroups (s : State) (core : Nat) : Nat := s.pops.foldl (fun n e => n + e.2.groupsOn core) 0

/-- The contexts of a core that a CP holds; END frees one (R175). -/
def State.usedContexts (s : State) (core : Nat) : List Nat :=
  s.pops.flatMap (fun e =>
    if e.2.home = core then (e.2.cps.filter (fun x => !x.2.ended)).map (fun x => x.2.ctx) else [])

/-- A window holds the bank. -/
def State.bankHeld (s : State) (cluster bank : Nat) : Bool :=
  s.pops.any (fun e => e.2.cluster == cluster && decide (e.2.base ≤ bank) && decide (bank < e.2.base + e.2.banks))

/-- A free SCRATCH bank. -/
def State.bankFree (s : State) (cluster bank : Nat) : Bool :=
  decide (bank < 32) && s.roleOf cluster bank == .scratch && !s.bankHeld cluster bank

/-- The tiles of a cluster's press that a population owns. -/
def State.ownedTiles (s : State) (cluster : Nat) : BitVec 16 :=
  s.pops.foldl (fun m e => if e.2.cluster = cluster then m ||| e.2.tiles else m) 0

/-- The clk in a number of minutes (R3, R376). -/
def clkPerSecond : Nat := 1700000000
def minuteClocks (n : Nat) : Nat := 60 * clkPerSecond * n

/-- A cluster has found no idle window for four test periods: firmware pre-empts its populations, and nothing comes to it before its test
(R376). -/
def State.testOwed (s : State) (cluster : Nat) : Bool :=
  match Tab.find s.sys.idle cluster with
  | some t => decide (minuteClocks (4 * s.sys.period) ≤ (s.clock - t).toNat)
  | none => false

/-- The clusters a function can use: its own that start-up has enabled, no quarantine holds and no test is owed to (R309, R372, R376). -/
def State.usable (s : State) (vf : Nat) : List Nat :=
  let own := (s.vfWord vf 0).extractLsb' 32 24
  (List.range 24).filter (fun k => own.getLsbD k && s.sys.enabled.getLsbD k && !s.sys.quarantine.getLsbD k && !s.testOwed k)

/-- The groups of a shape that a core has room for (R13). -/
def State.roomOn (s : State) (core regs : Nat) : Nat :=
  min (128 - s.usedGroups core) ((4096 - s.usedRegs core) / regs)

def State.freeContexts (s : State) (core : Nat) : Nat := 64 - (s.usedContexts core).length

/-- Groups laid on cores in ascending order, each core taking as many as it has room for (R14). -/
def State.layOut (s : State) (regs : Nat) : Nat → List Nat → Option (List Nat)
  | 0, _ => some []
  | _ + 1, [] => none
  | n + 1, c :: cs =>
    let k := min (n + 1) (s.roomOn c regs)
    (State.layOut s regs (n + 1 - k) cs).map (fun l => List.replicate k c ++ l)

/-- The cores of a population's groups on a cluster, the home core first (R14). -/
def State.placeGroups (s : State) (cluster groups regs ncp : Nat) : Option (List Nat) :=
  let cores := (List.range 4).map (fun k => 4 * cluster + k)
  match cores.find? (fun c => decide (groups ≤ s.roomOn c regs) && decide (ncp ≤ s.freeContexts c)) with
  | some c => some (List.replicate groups c)
  | none =>
    match cores.find? (fun c => decide (1 ≤ s.roomOn c regs) && decide (ncp ≤ s.freeContexts c)) with
    | some c => s.layOut regs groups (cores.filter (fun x => decide (c ≤ x)))
    | none => none

/-- The lowest run of free SCRATCH banks (R13). -/
def State.placeWindow (s : State) (cluster banks : Nat) : Option Nat :=
  if banks = 0 then some 0
  else (List.range 32).find? (fun b => (List.range banks).all (fun k => s.bankFree cluster (b + k)))

/-- Groups and window base on one cluster, when it can hold the population now. -/
def State.placeOn (s : State) (cluster lanes regs ncp banks : Nat) (tiles : BitVec 16) : Option (List Nat × Nat) :=
  if s.ownedTiles cluster &&& tiles ≠ 0 then none
  else
    match s.placeGroups cluster (groupsOf lanes) regs ncp, s.placeWindow cluster banks with
    | some g, some b => some (g, b)
    | _, _ => none

/-- The free group slots of a cluster's four cores. -/
def State.freeSlots (s : State) (cluster : Nat) : Nat :=
  (List.range 4).foldl (fun n k => n + (128 - s.usedGroups (4 * cluster + k))) 0

/-- The place of a population on its function's clusters: the cluster with the most free group slots, the lower on a tie (R295). -/
def State.placeIn (s : State) (vf : Nat) (lanes regs ncp banks : Nat) (tiles : BitVec 16) : Option (Nat × List Nat × Nat) :=
  let fits := (s.usable vf).filterMap (fun k => (s.placeOn k lanes regs ncp banks tiles).map (fun x => (k, x)))
  match fits with
  | [] => none
  | x :: l => some (l.foldl (fun a b => if s.freeSlots a.1 < s.freeSlots b.1 then b else a) x)

/-- The role a bank comes to have once no window holds it (R210). -/
def State.freedRole (s : State) (cluster bank : Nat) : BankRole :=
  match Tab.find s.roleDue (32 * cluster + bank) with
  | some x => x
  | none => match s.roleOf cluster bank with | .fifo => .scratch | x => x

/-- The device with every population of it absent: what a placement can come to at best (R295). -/
def State.vacant (s : State) : State :=
  { s with pops := [], sys := { s.sys with idle := [] },
           role := s.pops.foldl (fun t e => (List.range e.2.banks).foldl (fun t k =>
             let key := 32 * e.2.cluster + e.2.base + k
             Tab.put (coldRole (e.2.base + k)) t key (s.freedRole e.2.cluster (e.2.base + k))) t) s.role }

def State.placeDesc (s : State) (vf : Nat) (d : Desc) : Option (Nat × List Nat × Nat) :=
  s.placeIn vf d.lanes d.regs d.ncp d.banks d.tiles

/-- The contexts of a population's CPs (R16): each takes the lowest free context of the partition that has the fewest of them. -/
def contextsFrom (used : List Nat) : Nat → List Nat → List Nat
  | 0, mine => mine
  | n + 1, mine =>
    let freeIn := fun part => (List.range 8).map (fun k => 8 * k + part) |>.find? (fun x => !used.contains x && !mine.contains x)
    let count := fun part => (mine.filter (fun x => x % 8 == part)).length
    let open_ := (List.range 8).filter (fun part => (freeIn part).isSome)
    match open_ with
    | [] => mine
    | a :: l =>
      let part := l.foldl (fun b x => if count x < count b then x else b) a
      contextsFrom used n (mine ++ [(freeIn part).getD 0])

/-! ### Creation (R15, R297, R305, R313) -/

/-- A control program as it starts at an entry, with what its start acquires (R15, R342). -/
def newCp (ctx : Nat) (scalars : Tab Word64) (mode gen entry : Word64) (live : LaneSet) (clock : Word64) (know : Know) (bar : Nat) : Cp :=
  { ctx := ctx, s := scalars, mode := mode, flags := 0, tpc := 0, tcause := 0, taddr := 0, tlane := 0, gen := gen, hdr := entry,
    widx := 0, clause := [], issuing := false, entry := entry, d0 := 0, fresh := false, save := none, replayF := 0,
    m := Tab.put 0 [] 0 live, stack := [], pend := [], asyncs := [], wait := none, waitWord := 0, waitLoc := none,
    waitDue := false, waitScope := .pop, held := none, attached := false, halted := false, haltDue := false, stepping := false,
    ended := false, readySince := clock, promoted := false, scopeTrap := none, know := know, learned := Know.zero, carried := Know.zero,
    bar := bar, observed := [], fenced := [], late := 0,
    succ := none }

/-- A device population id that no population and no image holds; which one is a choice (R305). -/
def State.newPid (s : State) : Nat × State :=
  let (k, s) := s.pick 16383
  let taken := fun i => s.pops.any (fun e => e.1 == i) || s.images.any (fun m => m.popid == i)
  (((List.range 16383).map (fun i => (k + i) % 16383) |>.find? (fun i => !taken i)).getD 16383, s)

/-- The banks of a window are zeroed (R15). -/
def State.zeroWindow (s : State) (cluster base banks : Nat) : State :=
  (List.range banks).foldl (fun s k => s.zeroBank cluster (base + k)) s

/-- The residency log of a cluster records a placement (R313). -/
def State.logPlacement (s : State) (cluster : Nat) (e : LogEntry) : State :=
  let l := Tab.get [] s.log cluster
  if l.contains e then s
  else if 4096 ≤ l.length then { s with logOvf := Tab.put false s.logOvf cluster true }
  else { s with log := Tab.put [] s.log cluster (l ++ [e]) }

/-- A population is created at its place; its start acquires at DEV what the push of its entry released (R15, R293, R297, R313, R342). -/
def State.create (s : State) (task : Nat) (t : Task) (popix : Nat) (d : Desc) (at_ : Nat × List Nat × Nat) : State :=
  let (cluster, groups, base) := at_
  let (pid, s) := s.fresh.2.newPid
  let w2 := t.words.getD 2 0
  let forced := s.forcesDet t.vf
  let home := groups.headD 0
  let ctxs := contextsFrom (s.usedContexts home) d.ncp []
  let args := (t.words.drop 3).take 15
  let cps := ctxs.zipIdx.map (fun e =>
    let sc := Tab.putAll 0 [] 0 (args ++ [BitVec.ofNat 64 popix, BitVec.ofNat 64 e.2])
    (e.2, newCp e.1 sc (startMode forced d.mode) 0 d.entry (launched d.lanes) s.clock t.know s.serial))
  let p : Pop :=
    { vf := t.vf, task := task, cave := t.cave, seq := t.seq, popix := popix, npop := (w2.extractLsb' 0 16).toNat,
      key := (t.words.getD 0 0).extractLsb' 0 32, nest := (w2.extractLsb' 16 4).toNat, lanes := d.lanes, regs := d.regs,
      ncp := d.ncp, banks := d.banks, tiles := d.tiles, prio := d.prio, asid := d.asid, policy := d.policy,
      handler := d.handler, word1 := d.word1, cluster := cluster, base := base, groups := groups, coreid := home,
      cluid := cluster, v := [], status := [], faults := 0, errors := 0, cps := cps, stream := none, flagsDue := [],
      aborted := false, preempting := false, code := [], since := s.serial, lastCp := 7 }
  let s := (s.zeroWindow cluster base d.banks).zeroTiles cluster d.tiles
  (s.logPlacement cluster { vf := t.vf, cave := t.cave, popix := popix, seq := t.seq }).setPop pid p

/-! ### Freeing (R175, R210, R255) -/

/-- A bank leaves its window and is zeroed: a FIFO bank returns to SCRATCH, and a role change that waited comes (R210, R238). -/
def State.freeBank (s : State) (cluster bank : Nat) : State :=
  let s := s.zeroBank cluster bank
  let x := s.freedRole cluster bank
  { s.setRole cluster bank x with roleDue := Tab.erase s.roleDue (32 * cluster + bank) }

/-- The fragment entries and the overflow slot of a context become FREE (R303). -/
def State.freeFrags (s : State) (core ctx : Nat) : State :=
  ((s.fragsOf core ctx).foldl (fun s e => s.setFrag core e.1 Frag.empty) s).setOvf core ctx Frag.empty

/-- The locks of a population's operations are released (R316). -/
def State.freeLocks (s : State) (p : Pop) : State :=
  let owners := p.cps.flatMap (fun e => e.2.asyncs.map (fun a => a.serial))
    ++ (match p.stream with | some x => x.ops.map (fun o => o.serial) | none => [])
  { s with locks := s.locks.filter (fun l => !owners.contains l.owner) }

/-- Every store of a population is released: everything in its CPs' pipelines performs (R32, R175). -/
def State.release (s : State) (pid : Nat) (p : Pop) : State :=
  p.cps.foldl (fun s e => s.drain { pid := pid, cid := e.1 }) s

/-- The release of a population can be complete: no majority write of it waits for copies that no longer live (R217, R245). -/
def State.canRelease (s : State) (pid : Nat) (p : Pop) : Bool :=
  let t := s.release pid p
  match t.pop pid with
  | some q => q.cps.all (fun e => e.2.pend.all (fun a => t.settled a) && e.2.asyncs.all (fun a => !t.majBusy a.majWait))
  | none => true

/-- A population leaves the device: its groups, contexts, window banks, tiles, fragments and locks are free (R175). -/
def State.remove (s : State) (pid : Nat) (p : Pop) : State :=
  let s := s.freeLocks p
  let s := p.cps.foldl (fun s e => if e.2.ended then s else s.freeFrags p.home e.2.ctx) s
  let s := { s with pops := Tab.erase s.pops pid }
  let s := (List.range p.banks).foldl (fun s k => s.freeBank p.cluster (p.base + k)) s
  s.zeroTiles p.cluster p.tiles

end Sys2Proof.Machine
end

