-- ==== Sys2Proof/Machine/Distrib.lean ====
section
/-! DEFINITION. The distributor (R293 to R298): the visit of the functions, taking a task up, placing its populations, and the
retirement of a population (R175). -/

namespace Sys2Proof.Machine

/-! ### Completion of a task (R298, R401) -/

/-- The status bits of R298. -/
def statusAborted : Word32 := 0x01000000
def statusNofit : Word32 := 0x02000000
def statusBaddesc : Word32 := 0x04000000
def statusDead : Word32 := 0x08000000

/-- The distributor's arrival on a task's completion word, through asid 0 of the function, which releases what the population knew; one
that the word cannot take is lost and recorded for the population (R298, R342, R401). The distributor acts for the device: no population
and no cluster is its own (R339). -/
def State.distArrive (s : State) (vf pid : Nat) (addr : Word64) (n bits : Word32) (k : Know) : State :=
  let lost := fun (s : State) =>
    { s with errRecords := s.errRecords ++ [{ vf := vf, popid := pid, addr := addr, code := 3 }],
             errCounts := { s.errCounts with lost := s.errCounts.lost + 1 } }
  if addr.toNat % 16 ≠ 0 then lost s
  else
    match s.translate [] vf 0 addr .both with
    | (s, .error _) => lost s
    | (s, .ok loc) =>
      match (s.stampCheck hostPopid hostCluster .dev loc).1.arrive hostCluster vf loc n bits with
      | (s, .error _) => lost s
      | (s, .ok x) => (s.majFinishAll x.2.2).stand loc 16 .dev hostPopid hostCluster true k

/-- The flags of a task's entry. -/
def Task.cw (t : Task) : Bool := (t.words.getD 2 0).getLsbD 21
def Task.notify (t : Task) : Bool := (t.words.getD 2 0).getLsbD 22
def Task.cores (t : Task) : Bool := (t.words.getD 2 0).getLsbD 20
def Task.npop (t : Task) : Nat := ((t.words.getD 2 0).extractLsb' 0 16).toNat
def Task.src (t : Task) : Nat := ((t.words.getD 2 0).extractLsb' 32 16).toNat

/-- The last population of a task has retired or been refused: one notify message, if the entry asks for one (R298, R368). -/
def State.taskEnd (s : State) (id : Nat) (t : Task) : State :=
  let s := { s with tasks := Tab.erase s.tasks id }
  if t.notify && t.src != 0 then
    { s with outbox := s.outbox ++ [.notify t.vf t.src ((t.words.getD 0 0).extractLsb' 0 32) t.seq t.status t.run] }
  else s

/-- A task is refused whole: one arrival of npop, and its end (R298). -/
def State.refuseTask (s : State) (id : Nat) (t : Task) (bits : Word32) : State :=
  let s := if t.cw then s.distArrive t.vf hostPopid (t.words.getD 17 0) (BitVec.ofNat 32 t.npop) bits Know.zero else s
  s.taskEnd id { t with status := t.status ||| bits, left := 0 }

/-! ### Placing (R295, R296) -/

/-- Populations of a task are placed in ascending index until one does not fit now; a task wholly placed is no longer pending. -/
def State.placeMany (id : Nat) (d : Desc) : Nat → State → State
  | 0, s => s
  | n + 1, s =>
    match Tab.find s.tasks id with
    | none => s
    | some t =>
      if t.npop ≤ t.next then s
      else
        match s.placeDesc t.vf d with
        | none => s
        | some at_ =>
          let s := s.create id t t.next d at_
          State.placeMany id d n { s with tasks := Tab.insert s.tasks id { t with next := t.next + 1, run := t.run + 1 } }

/-- The task with this number is wholly placed. -/
def State.wholly (s : State) (id : Nat) : Bool :=
  match Tab.find s.tasks id with
  | some t => decide (t.npop ≤ t.next)
  | none => true

/-- One attempt to place: all or nothing for a co-resident task (R296), as many as fit for any other (R295). -/
def State.tryPlace (s : State) (id : Nat) (t : Task) : State :=
  let s' := State.placeMany id (descOf t.desc) t.npop s
  let s' := if t.cores && !s'.wholly id then s else s'
  if s'.wholly id then { s' with pending := Tab.erase s'.pending t.vf } else s'

/-- The task could be placed with its function otherwise empty: one of its populations, or all of a co-resident one. -/
def State.fitsVacant (s : State) (id : Nat) (t : Task) : Bool :=
  let v := s.vacant
  if t.cores then (State.placeMany id (descOf t.desc) t.npop v).wholly id
  else (v.placeDesc t.vf (descOf t.desc)).isSome

/-- The asid directory of a function holds a valid entry (R307). -/
def State.asidValid (s : State) (vf : Nat) (asid : BitVec 12) : Bool :=
  match s.entryAt (frameOf (s.vfWord vf 1) + 8 * asid.toNat) with
  | .ok e => e.getLsbD 0
  | .error _ => false

/-- A task that has been popped is read, checked, and placed or refused (R295, R296). -/
def State.startTask (s : State) (id : Nat) (t : Task) : State :=
  let addr := t.words.getD 1 0
  if addr.toNat % 64 ≠ 0 then s.refuseTask id t statusBaddesc
  else
    match s.loadWords [] t.vf 0 addr 8 with
    | (s, .error _) => s.refuseTask id t statusBaddesc
    | (s, .ok ws) =>
      if !descOk ws || !s.asidValid t.vf (descOf ws).asid then s.refuseTask id t statusBaddesc
      else
        let t := { t with desc := ws }
        let s := { s with tasks := Tab.insert s.tasks id t }
        if !s.fitsVacant id t then s.refuseTask id t statusNofit
        else { s with pending := Tab.insert s.pending t.vf id }.tryPlace id t

/-! ### Take-up (R294) -/

/-- The function the distributor serves next: the one it visits while its weight lasts, else the next in turn. -/
def State.nextVf (s : State) : Option Nat :=
  if s.canServe s.lastVf && decide (s.taken < s.vfWeight s.lastVf) then some s.lastVf
  else ((List.range 16).map (fun k => (s.lastVf + 1 + k) % 16)).find? (fun v => s.canServe v)

/-- The cave it looks at: the highest prio, then the next in number after the one served last. -/
def State.nextCave (s : State) (vf : Nat) : Option Nat :=
  match s.launchCaves vf with
  | [] => none
  | e :: l =>
    let top := l.foldl (fun m x => max m x.2.prio) e.2.prio
    let mine := ((e :: l).filter (fun x => x.2.prio == top)).map (fun x => x.1)
    let last := Tab.get 63 s.lastCave (4 * vf + top)
    ((List.range 64).map (fun k => (last + 1 + k) % 64)).find? (fun k => mine.contains k)

/-- DISTRIBUTOR_TAKEUP (R294, R295). -/
def execDistributorTakeup (s : State) : Result :=
  if s.sys.recovery then .refused (.notEnabled "DISTRIBUTOR_TAKEUP")
  else
    match s.nextVf with
    | none => .refused (.notEnabled "DISTRIBUTOR_TAKEUP")
    | some vf =>
      match s.nextCave vf with
      | none => .refused (.notEnabled "DISTRIBUTOR_TAKEUP")
      | some k =>
        match s.cavePop k (s.forcesDet vf) with
        | none => .refused (.notEnabled "DISTRIBUTOR_TAKEUP")
        | some (t, e) =>
          let prio := (s.cave k).prio
          let taken := if vf = s.lastVf ∧ s.taken < s.vfWeight vf then s.taken + 1 else 1
          let (id, s) := t.fresh
          let t : Task :=
            { words := e.words, desc := [], vf := vf, cave := k, seq := e.seq, next := 0,
              left := ((e.words.getD 2 0).extractLsb' 0 16).toNat, status := 0, run := 0, know := e.know }
          .next ({ s with lastVf := vf, taken := taken,
                          lastCave := Tab.put 63 s.lastCave (4 * vf + prio) k,
                          tasks := Tab.insert s.tasks id t }.startTask id t).visitEnd

/-- PENDING_PLACE: a waiting population, or a held co-resident task, finds its resources (R295, R296). -/
def execPendingPlace (vf : Nat) (s : State) : Result :=
  match Tab.find s.pending vf with
  | none => .refused (.notEnabled "PENDING_PLACE")
  | some id =>
    match Tab.find s.tasks id with
    | none => .refused (.notEnabled "PENDING_PLACE")
    | some t =>
      let s' := s.tryPlace id t
      if !s.sys.recovery && s'.pops.length != s.pops.length then .next s' else .refused (.notEnabled "PENDING_PLACE")

/-! ### Retirement (R175, R298, R316) -/

/-- Nothing of a population is outstanding: it may retire. An aborted one drops a load whose data failed and the tile operations
that have not begun (R316). -/
def Pop.finished (p : Pop) : Bool :=
  (p.aborted || p.cps.all (fun e => e.2.ended)) && p.quiet
    && p.cps.all (fun e => e.2.asyncs == []
        && e.2.pend.all (fun a => !a.ticket || a.complete || (p.aborted && a.fault.isSome)))
    && (match p.stream with
      | none => true
      | some x => p.aborted && x.ops.all (fun o => !o.granted))

/-- What the CPs of a population have acquired, together (R342). -/
def Pop.knows (p : Pop) : Know := p.cps.foldl (fun k e => k.merge e.2.passes) Know.zero

/-- A population of a task has ended: its arrival and its share of the task's status (R298). -/
def State.reportPop (s : State) (pid : Nat) (p : Pop) : State :=
  match Tab.find s.tasks p.task with
  | none => s
  | some t =>
    let bits := (if p.aborted then statusAborted else 0) ||| (if p.deadCount = 0 then 0 else statusDead)
    let s := if t.cw then s.distArrive t.vf pid (t.words.getD 17 0) 1 bits p.knows else s
    let t := { t with status := t.status ||| bits, left := t.left - 1 }
    if t.left = 0 then s.taskEnd p.task t else { s with tasks := Tab.insert s.tasks p.task t }

/-- The counters of a population that leaves go on in the device's error counts (R335, R375). -/
def State.countPop (s : State) (p : Pop) : State :=
  { s with errCounts := { s.errCounts with poisoned := s.errCounts.poisoned + p.errors.toNat,
                                           faults := s.errCounts.faults + p.faults.toNat } }

/-- POPULATION_RETIRE: the release at DEV, the freeing of its resources, and the distributor's report (R175, R298). -/
def execPopulationRetire (pid : Nat) (s : State) : Result :=
  match s.pop pid with
  | none => .refused (.notEnabled "POPULATION_RETIRE")
  | some p =>
    if p.finished && s.canRelease pid p then
      let s := s.release pid p
      match s.pop pid with
      | none => .refused (.notEnabled "POPULATION_RETIRE")
      | some p =>
        let t := ((s.remove pid p).countPop p).reportPop pid p
        if s.stuck t then .refused (.notEnabled "POPULATION_RETIRE") else .next t
    else .refused (.notEnabled "POPULATION_RETIRE")

end Sys2Proof.Machine
end

