-- ==== Sys2Proof/Machine/Succ.lean ====
section
/-! DEFINITION. Successor launch: SUCC and the handover (R32, R33, R176 to R180). -/

namespace Sys2Proof.Machine

/-- A wait entry of SUCC (R310). -/
def succWait (kind : WaitKind) : Wait := { kind := kind, space := .g, addr := 0, value := 0, aux := 0 }

/-- Another CP of the population waits inside SUCC (R33). -/
def Pop.succWaits (p : Pop) (cid : Nat) : Bool :=
  p.cps.any (fun e => e.1 != cid && (match e.2.wait with
    | some w => w.kind == .succ2 || w.kind == .succ3
    | none => false))

/-- SUCC: after its JOIN it checks its operands and that it is the only one, then waits for the other CPs (R32, R33, R176); a SCOPE trap
due at the end of its clause is taken instead (R219; DEDUCED, notes/assumptions/69.md). Where both addresses are misaligned, ALIGN reports
the descriptor's (DESIGN CHOICE, notes/assumptions/68.md). -/
def execSucc (sa sb : SReg) (s : State) : Result :=
  onRci "SUCC" (.succ sa sb) s (fun r p c s =>
    let d := c.getS sa
    let x := c.getS sb
    if c.scopeTrap.isSome then endClause s r c.nextHdr
    else if d.extractLsb' 0 6 ≠ 0 then trapWord s r c .align d allOnes64
    else if x.extractLsb' 0 3 ≠ 0 then trapWord s r c .align x allOnes64
    else if p.succWaits r.cid then trapWord s r c .shape 1 allOnes64
    else parkAt (s.updCp r (fun c => { c with succ := some (d, x) })) r (succWait .succ2))

/-! ### Step 4 reads the descriptor and the record (R176) -/

/-- A word that step 4 reads as an acquire load at DEV: after the program's earlier accesses to its bytes have performed, and no earlier
acquire is incomplete. None where one of these is not so, else the word or the cause it met (R176, R216). -/
def State.succWord (s : State) (r : CpRef) (p : Pop) (addr : Word64) : State × Option (Except LaneCause Word64) :=
  match s.translate p.cpUnits p.vf p.asid addr .read, s.cpOf r with
  | (s, .error e), _ => (s, some (.error e))
  | (s, .ok _), none => (s, none)
  | (s, .ok loc), some (_, c) =>
    if !c.acquired || c.pend.any (fun b => !b.performed && b.items.any (fun i => meet i.loc i.size loc 8)) then (s, none)
    else
      let s := (s.stampCheck r.pid p.cluster .dev loc).1
      match (s.countAccess r.pid none false loc).readHome (p.agent r) loc 8 with
      | (s, .error e) => (s, some (.error e))
      | (s, .ok bs) => (s.acquireAt r r.pid p.cluster .dev (s.observed none false loc 8), some (.ok ((wordOfBytes bs).getD 0)))

/-- The words from an address that step 4 reads, in ascending order: none where one cannot be read yet, else the words or the address and
cause of the first that fails (R176). -/
def State.succWords (s : State) (r : CpRef) (p : Pop) (addr : Word64) :
    Nat → State × Option (Except (Word64 × LaneCause) (List Word64))
  | 0 => (s, some (.ok []))
  | n + 1 =>
    match s.succWord r p addr with
    | (s, none) => (s, none)
    | (s, some (.error e)) => (s, some (.error (addr, e)))
    | (s, some (.ok w)) =>
      match State.succWords s r p (addr + 8) n with
      | (s, some (.ok ws)) => (s, some (.ok (w :: ws)))
      | x => x

/-! ### The starter record (R178, R179) -/

/-- The lane ranges of a record in use: first register and count. -/
def laneRanges (x : List Word64) : List (Nat × Nat) :=
  (((x.drop 1).take 4).map (fun w => ((w.extractLsb' 0 16).toNat, (w.extractLsb' 16 16).toNat))).filter (fun e => e.2 != 0)

/-- The window ranges of a record in use: first byte and length. -/
def windowRanges (x : List Word64) : List (Nat × Nat) :=
  (((x.drop 5).take 4).map (fun w => (256 * (w.extractLsb' 0 32).toNat, 256 * (w.extractLsb' 32 32).toNat))).filter
    (fun e => e.2 != 0)

def recScount (x : List Word64) : Nat := ((x.getD 0 0).extractLsb' 56 8).toNat
def recSfirst (x : List Word64) : Nat := ((x.getD 0 0).extractLsb' 48 8).toNat
def recAccm (x : List Word64) : BitVec 16 := (x.getD 0 0).extractLsb' 32 16
def recSet (x : List Word64) (k : Nat) : Bool := decide (1 ≤ k) && (x.getD 0 0).getLsbD (16 + k)
def recRevive (x : List Word64) : Bool := (x.getD 0 0).getLsbD 0

/-- No two ranges overlap. -/
def apart : List (Nat × Nat) → Bool
  | [] => true
  | a :: l => l.all (fun b => decide (a.1 + a.2 ≤ b.1) || decide (b.1 + b.2 ≤ a.1)) && apart l

/-- The window base of a successor: the predecessor's, or a new run where it had none. -/
def State.succBase (s : State) (p : Pop) (d : Desc) : Option Nat :=
  if p.banks = 0 then s.placeWindow p.cluster d.banks
  else if (List.range d.banks).all (fun k => decide (k < p.banks) || s.bankFree p.cluster (p.base + k)) then some p.base
  else none

/-- The admission sum of a core with the successor's regs (R179 code 4). -/
def State.succRegs (s : State) (p : Pop) (d : Desc) (core : Nat) : Nat :=
  s.usedRegs core - p.groupsOn core * p.regs + p.groupsOn core * d.regs

/-- The first breach of codes 2 to 12 (R179). -/
def State.succShape (s : State) (pid : Nat) (p : Pop) (ws x : List Word64) : Option Nat :=
  let d := descOf ws
  let rest := { s with pops := Tab.erase s.pops pid }
  if !descOk ws then some 2
  else if d.lanes ≠ p.lanes then some 3
  else if p.groups.any (fun c => decide (4096 < s.succRegs p d c)) then some 4
  else if rest.freeContexts p.home < d.ncp then some 5
  else if (s.succBase p d).isNone then some 6
  else if s.ownedTiles p.cluster &&& d.tiles &&& ~~~p.tiles ≠ 0 then some 7
  else if (laneRanges x).any (fun e => decide (min p.regs d.regs < e.1 + e.2)) || !apart (laneRanges x) then some 8
  else if 192 < recSfirst x + recScount x then some 9
  else if (windowRanges x).any (fun e => decide (524288 * min p.banks d.banks < e.1 + e.2)) then some 10
  else if recAccm x &&& ~~~(p.tiles &&& d.tiles) ≠ 0 then some 11
  else if (x.getD 0 0).extractLsb' 1 16 ≠ 0 || ((x.drop 1).take 4).any (fun w => w.extractLsb' 32 32 != 0) then some 12
  else none

/-! ### The handover (R32 steps 5 to 7, R180) -/

/-- A window byte that some range keeps. -/
def kept (ranges : List (Nat × Nat)) (off : Nat) : Bool := ranges.any (fun e => decide (e.1 ≤ off) && decide (off < e.1 + e.2))

/-- The window of the successor: inherited ranges stand, all else is 0, and FIFO banks outside every range are emptied (R180, R210). -/
def State.scrubWindow (s : State) (cluster base banks : Nat) (ranges : List (Nat × Nat)) : State :=
  let lo := 16777216 * cluster + 524288 * base
  let keep := fun (a : Nat) => decide (a < lo) || decide (lo + 524288 * banks ≤ a) || kept ranges (a - lo)
  let empty := (List.range banks).filter (fun b =>
    !ranges.any (fun e => decide (e.1 < 524288 * (b + 1)) && decide (524288 * b < e.1 + e.2)))
  { s with cstore := s.cstore.filter (fun e => keep e.1), cline := s.cline.filter (fun e => keep (128 * e.1)),
           fifos := s.fifos.filter (fun e => !empty.any (fun b => e.1 == 32 * cluster + base + b)) }

/-- The lane registers that survive: inherited ranges of the lanes that are not revived (R117, R180). -/
def scrubLanes (p : Pop) (x : List Word64) : Tab Word32 :=
  let rs := laneRanges x
  p.v.filter (fun e => kept rs (e.1 % 2048) && !(recRevive x && (p.statusOf (e.1 / 2048)).dead))

/-- The lane status words of the successor (R154): only dead may stand. -/
def scrubStatus (p : Pop) (x : List Word64) : Tab LaneStatus :=
  if recRevive x then []
  else p.status.filterMap (fun e => if e.2.dead then some (e.1, { LaneStatus.zero with dead := true }) else none)

/-- The scalars of successor CP j (R180). -/
def succScalars (p : Pop) (c : Cp) (x : List Word64) (j : Nat) : Tab Word64 :=
  let base := if j = 0 then c.s.filter (fun e => decide (recSfirst x ≤ e.1) && decide (e.1 < recSfirst x + recScount x)) else []
  Tab.put 0 (Tab.put 0 base 15 (BitVec.ofNat 64 p.popix)) 16 (BitVec.ofNat 64 j)

/-- The sets of successor CP j: m0 is L, CP0 keeps the sets the record names (R180). -/
def succSets (c : Cp) (x : List Word64) (j : Nat) (live : LaneSet) : Tab LaneSet :=
  let base := if j = 0 then c.m.filter (fun e => recSet x e.1) else []
  Tab.put 0 base 0 live

/-- Steps 5 to 7: the release, the scrub, and the successor's control programs (R32, R180). What the predecessor has released reaches the
successor and every later acquire at DEV (R33, R356), and the successor fetches no word in a form it had before (R65). -/
def State.handover (s : State) (pid : Nat) (p : Pop) (c : Cp) (d : Desc) (x : List Word64) (base : Nat) : State :=
  let s := s.release pid p
  let p := (s.pop pid).getD p
  let know := p.knows
  let s := { s.fresh.2 with handed := s.handed.merge know }
  let s := if p.banks = 0 then s.zeroWindow p.cluster base d.banks
    else s.scrubWindow p.cluster base (max p.banks d.banks) (windowRanges x)
  let s := (s.zeroTiles p.cluster (d.tiles &&& ~~~recAccm x)).zeroTiles p.cluster (p.tiles &&& ~~~d.tiles)
  let ctxs := contextsFrom ({ s with pops := Tab.erase s.pops pid }.usedContexts p.home) d.ncp []
  let q := { p with v := scrubLanes p x, status := scrubStatus p x, regs := d.regs, ncp := d.ncp, banks := d.banks,
                    tiles := d.tiles, prio := d.prio, asid := d.asid, policy := d.policy, handler := d.handler,
                    word1 := d.word1, base := base, stream := none, flagsDue := [], code := [], since := s.serial, lastCp := 7 }
  let mode := startMode (s.forcesDet p.vf) d.mode
  let cps := ctxs.zipIdx.map (fun e =>
    let n := newCp e.1 (succScalars p c x e.2) mode c.gen d.entry q.live s.clock know s.serial
    let n := { n with m := succSets c x e.2 q.live }
    (e.2, match p.cp e.2 with
      | some b => { n with tpc := b.tpc, tcause := b.tcause, taddr := b.taddr, tlane := b.tlane, attached := b.attached }
      | none => n))
  let s := s.setPop pid { q with cps := cps }
  (List.range (p.banks - d.banks)).foldl (fun s k => s.freeBank p.cluster (base + d.banks + k)) s

/-- The CP that waits at step 3 of SUCC, with the addresses it named. -/
def Pop.naming (p : Pop) : Option (Nat × Cp × Word64 × Word64) :=
  p.cps.findSome? (fun e =>
    match e.2.wait, e.2.succ with
    | some w, some (d, x) => if w.kind = .succ3 then some (e.1, e.2, d, x) else none
    | _, _ => none)

/-- SUCCESSOR_HANDOVER: steps 3 to 7 of R32, with the traps of step 4 (R176, R179). -/
def execSuccessorHandover (pid : Nat) (s : State) : Result :=
  match s.pop pid with
  | none => .refused (.notEnabled "SUCCESSOR_HANDOVER")
  | some p =>
    match p.naming with
    | none => .refused (.notEnabled "SUCCESSOR_HANDOVER")
    | some (cid, c, da, xa) =>
      let r : CpRef := { pid := pid, cid := cid }
      if p.idle && s.canRelease pid p && !p.aborted && !p.preempting && !c.halted then
        let trap := fun (s : State) (e : Word64 × LaneCause) =>
          .next (takeTrap s r .rciFault c.waitWord e.1 allOnes64 e.2.code (e.2 == .notPresent) (fun c => c))
        match s.succWords r p da 8 with
        | (_, none) => .refused (.notEnabled "SUCCESSOR_HANDOVER")
        | (s, some (.error e)) => trap s e
        | (s, some (.ok ws)) =>
          match s.succWords r p xa 9 with
          | (_, none) => .refused (.notEnabled "SUCCESSOR_HANDOVER")
          | (s, some (.error e)) => trap s e
          | (s, some (.ok x)) =>
            match s.succShape pid p ws x, s.succBase p (descOf ws) with
            | some n, _ => .next (takeTrap s r .shape c.waitWord (BitVec.ofNat 64 n) allOnes64 0 false (fun c => c))
            | none, some base => .next (s.handover pid p c (descOf ws) x base)
            | none, none => .refused (.notEnabled "SUCCESSOR_HANDOVER")
      else .refused (.notEnabled "SUCCESSOR_HANDOVER")

end Sys2Proof.Machine
end

