-- ==== Sys2Proof/Machine/Image.lean ====
section
/-! DEFINITION. Pre-emption (R34), images and their layout (R318), restore (R319), checkpoints (R37, R320) and the repair of
fragments by firmware (R303). -/

namespace Sys2Proof.Machine

/-! ### The words of table entries (R10, R302, R310, R312) -/

/-- The 16 bits of a lane status word (R10). -/
def statusBits (x : LaneStatus) : Nat :=
  8192 * x.ovf.toNat + 4096 * x.dead.toNat + 2048 * x.parked.toNat + 8 * x.frag.toNat + x.cause.toNat

def statusOfBits (n : Nat) : LaneStatus :=
  { ovf := n.testBit 13, dead := n.testBit 12, parked := n.testBit 11, frag := BitVec.ofNat 8 (n / 8), cause := BitVec.ofNat 3 n }

def fragCode : FragState → Nat
  | .free => 0
  | .pending => 1
  | .ready => 2
  | .dead => 3

def fragStateOf (n : Nat) : FragState :=
  match n with
  | 0 => .free
  | 1 => .pending
  | 2 => .ready
  | _ => .dead

/-- The two words of a fragment entry (R302). -/
def fragWords (f : Frag) : List Word64 :=
  [BitVec.ofNat 64 (2 ^ 62 * fragCode f.state + 2 ^ 56 * f.ctx + 2 ^ 41 * f.lanes + 2 ^ 40 * f.more.toNat + f.page.toNat), f.wordaddr]

def fragOfWords (w0 w1 : Word64) (note : Nat × Tab Word64) : Frag :=
  { state := fragStateOf (w0.extractLsb' 62 2).toNat, ctx := (w0.extractLsb' 56 6).toNat, lanes := (w0.extractLsb' 41 15).toNat,
    more := w0.getLsbD 40, page := w0.extractLsb' 0 40, wordaddr := w1, born := note.1, late := note.2 }

def waitCode : WaitKind → Nat
  | .waitr => 0
  | .waitt => 1
  | .header => 2
  | .join => 3
  | .qpush => 4
  | .fpush => 5
  | .fpop => 6
  | .succ2 => 7
  | .succ3 => 8

def waitKindOf (n : Nat) : WaitKind :=
  match n with
  | 0 => .waitr
  | 1 => .waitt
  | 2 => .header
  | 3 => .join
  | 4 => .qpush
  | 5 => .fpush
  | 6 => .fpop
  | 7 => .succ2
  | _ => .succ3

/-- The two words of a wait entry (R310). -/
def waitWords : Option Wait → List Word64
  | none => [0, 0]
  | some w =>
    let space := match w.space with | .g => 0 | .w => 1 | .f => 2
    [BitVec.ofNat 64 (2 ^ 63 + 2 ^ 59 * waitCode w.kind + 2 ^ 56 * space) ||| (w.addr &&& 0x00FFFFFFFFFFFFFF#64), w.value ++ w.aux]

def waitOfWords (w0 w1 : Word64) : Option Wait :=
  if w0.getLsbD 63 then
    some { kind := waitKindOf (w0.extractLsb' 59 4).toNat, space := if w0.extractLsb' 56 3 = 0 then .g else .w,
           addr := w0 &&& 0x00FFFFFFFFFFFFFF#64, value := w1.extractLsb' 32 32, aux := w1.extractLsb' 0 32 }
  else none

/-- A format block in the fields of R79. -/
def fmtWord (f : Fmt) : Word64 := (encode (.pfmtA f)).getD 0 &&& 0x000FFFFFFFFFFFFF#64

def fmtOfWord (w : Word64) : Fmt :=
  match decode (w ||| 0xC000000000000000#64) with
  | .ok (.pfmtA f) => f
  | _ => Fmt.zero

/-! ### The sections of an image (R318) -/

/-- A size as a multiple of 128. -/
def up128 (n : Nat) : Nat := (n + 127) / 128 * 128

/-- Bytes up to a multiple of 128. -/
def pad128 (bs : List Byte) : List Byte := bs ++ List.replicate (up128 bs.length - bs.length) 0

def bytesOfWords (ws : List Word64) : List Byte := ws.flatMap (fun w => bytesOf 8 w)

/-- B: the bytes of one set pattern. -/
def setBytes (lanes : Nat) : Nat := 8 * ((lanes + 63) / 64)

def cpBlock (lanes : Nat) : Nat := up128 (3200 + 96 * setBytes lanes)

/-- Where the sections of an image start. -/
structure ImageMap where
  status : Nat
  regs : Nat
  frags : Nat
  win : Nat
  tiles : Nat
  stream : Nat
  len : Nat
  deriving DecidableEq, Repr

def imageMap (lanes regs ncp frags banks fifos tiles : Nat) (stream : Bool) : ImageMap :=
  let a := 128 + ncp * cpBlock lanes
  let b := a + up128 (2 * lanes)
  let c := b + up128 (4 * regs * lanes)
  let d := c + up128 (16 * (frags + ncp))
  let e := d + up128 (524288 * banks + 16 * fifos)
  let f := e + 131072 * tiles
  { status := a, regs := b, frags := c, win := d, tiles := e, stream := f, len := if stream then f + 128 else f }

/-- The FIFO banks of a population's window. -/
def State.fifoBanks (s : State) (p : Pop) : List Nat :=
  (List.range p.banks).filter (fun b => s.roleOf p.cluster (p.base + b) == .fifo)

/-- A mask from its bits. -/
def maskOf (l : List Nat) : Nat := l.foldl (fun m b => m + 2 ^ b) 0

/-- The live fragments of a population with lanes, by index in its core's table. -/
def State.popFrags (s : State) (p : Pop) : List (Nat × Frag) :=
  (s.frags.filter (fun e => e.1 / 256 == p.home && e.2.lanes != 0
    && p.cps.any (fun x => !x.2.ended && x.2.ctx == e.2.ctx))).map (fun e => (e.1 % 256, e.2))

def State.mapOf (s : State) (p : Pop) : ImageMap :=
  imageMap p.lanes p.regs p.ncp (s.popFrags p).length p.banks (s.fifoBanks p).length (tileList p.tiles).length p.stream.isSome

def imageHeader (s : State) (pid : Nat) (p : Pop) : List Word64 :=
  [BitVec.ofNat 64 (s.mapOf p).len,
   BitVec.ofNat 64 (2 ^ 50 * pid + 2 ^ 46 * p.vf + 2 ^ 40 * p.cave + 2 ^ 24 * p.popix),
   BitVec.ofNat 64 (2 ^ 32 * p.npop + p.seq.toNat),
   p.word1,
   BitVec.ofNat 64 (2 ^ 32 * maskOf ((p.cps.filter (fun e => e.2.halted)).map (fun e => e.1)) + 2 ^ 24 * p.stream.isSome.toNat
     + 2 ^ 16 * p.banks + p.tiles.toNat),
   BitVec.ofNat 64 (maskOf (s.fifoBanks p)),
   BitVec.ofNat 64 (256 * p.cluid + p.coreid),
   BitVec.ofNat 64 (maskOf ((tileList p.tiles).filter (fun t => s.tileBad p.cluster t))),
   p.errors ++ p.faults]
  ++ List.replicate 7 0

/-- The 16 sets and 32 levels of a set stack. -/
def setSection (b : Nat) (m : Tab LaneSet) (stack : List LaneSet) : List Byte :=
  (List.range 16).flatMap (fun k => bytesOf b (Tab.get 0 m k)) ++ (List.range 32).flatMap (fun k => bytesOf b (stack.getD k 0))

/-- The block of a control program; an ended one leaves zeros (DESIGN CHOICE, notes/assumptions/8.md). -/
def cpSection (lanes : Nat) (c : Cp) : List Byte :=
  let b := setBytes lanes
  if c.ended then List.replicate (cpBlock lanes) 0
  else
    pad128 (bytesOfWords (
        (List.range 192).map (fun k => Tab.get 0 c.s k)
        ++ [c.mode, c.flags.zeroExtend 64, c.hdr, BitVec.ofNat 64 (512 * c.save.isSome.toNat + 256 * c.halted.toNat + c.widx % 16)]
        ++ [c.entry, BitVec.ofNat 64 (256 * c.depth + c.d0)]
        ++ [c.tpc, c.tcause, c.taddr, c.tlane]
        ++ waitWords c.wait
        ++ (match c.save with
          | some v => [v.hdr, BitVec.ofNat 64 v.stack.length] ++ (List.range 192).map (fun k => Tab.get 0 v.s k)
          | none => List.replicate 194 0)
        ++ [0, 0])
      ++ setSection b c.m c.stack
      ++ (match c.save with
        | some v => setSection b v.m v.stack
        | none => List.replicate (48 * b) 0))

/-- The overflow slot of a control program; an unused one is FREE and names the context alone (DESIGN CHOICE, notes/assumptions/8.md). -/
def State.slotOf (s : State) (p : Pop) (c : Cp) : Frag :=
  if c.ended then Frag.empty
  else
    let f := s.ovf p.home c.ctx
    if f.state = .free then { Frag.empty with ctx := c.ctx } else f

/-- The clk that the next tile operation of a stream has waited since its issue or the last grant, saturating at 8,191 (R312). -/
def Stream.age (x : Stream) (clock : Word64) : Nat :=
  match x.nextOp with
  | some o => min 8191 (clock.toNat - max o.issued.toNat x.granted.toNat)
  | none => 0

def streamSection (clock : Word64) (pid : Nat) (p : Pop) (x : Stream) : List Byte :=
  pad128 (bytesOfWords (
    [BitVec.ofNat 64 (2 ^ 63 + 2 ^ 61 * p.prio + 2 ^ 60 * x.pwait.toNat + 2 ^ 46 * pid + 2 ^ 32 * x.age clock + x.cw % 2 ^ 32),
     BitVec.ofNat 64 (2 ^ 60 * (x.widx % 16)) ||| (x.hdr &&& 0x00FFFFFFFFFFFFFF#64),
     fmtWord x.fa, fmtWord x.fb]
    ++ (List.range 8).map (fun k => Tab.get 0 x.x (2 * k + 1) ++ Tab.get 0 x.x (2 * k))
    ++ [BitVec.ofNat 64 (65536 * x.code.toNat + 256 * x.flags.toNat + 2 * x.poison.toNat + x.err.toNat),
        BitVec.ofNat 64 (32 * x.daz.toNat + 16 * x.ftz.toNat + x.rm.toNat),
        BitVec.ofNat 64 x.pwait.toNat]))

/-- The sections before the window. -/
def State.imageHead (s : State) (pid : Nat) (p : Pop) : List Byte :=
  bytesOfWords (imageHeader s pid p)
  ++ p.cps.flatMap (fun e => cpSection p.lanes e.2)
  ++ pad128 ((List.range p.lanes).flatMap (fun i => bytesOf 2 (BitVec.ofNat 16 (statusBits (p.statusOf i)))))
  ++ pad128 ((List.range p.lanes).flatMap (fun i => (List.range p.regs).flatMap (fun k => bytesOf 4 (p.getV i k))))
  ++ pad128 (bytesOfWords ((s.popFrags p).flatMap (fun e => fragWords e.2) ++ p.cps.flatMap (fun e => fragWords (s.slotOf p e.2))))

/-- The window with its FIFO pointers, the tiles and the stream. -/
def State.imageTail (s : State) (pid : Nat) (p : Pop) : List Byte :=
  pad128 (Tab.slice 0 s.cstore (16777216 * p.cluster + 524288 * p.base) (524288 * p.banks)
    ++ bytesOfWords ((s.fifoBanks p).flatMap (fun b =>
      let f := s.fifo p.cluster (p.base + b)
      [f.head.zeroExtend 64, f.tail.zeroExtend 64])))
  ++ (tileList p.tiles).flatMap (fun t => bytesOfWords (s.tile p.cluster t))
  ++ (match p.stream with | some x => streamSection s.clock pid p x | none => [])

/-! ### Pre-emption (R34, R275) -/

/-- The stream where pre-emption leaves it: at its position, or back at the oldest operation that was not granted, from which it runs
again, with no lock and no operation outstanding. -/
def Stream.rolledBack (x : Stream) : Stream :=
  let x := match x.nextOp with
    | some o =>
      { x with hdr := o.mark.hdr, widx := o.mark.widx, clause := o.mark.clause, x := o.mark.x, fa := o.mark.fa, fb := o.mark.fb,
               pwait := false, stopped := false }
    | none => x
  { x with ops := [], parrive := none, lockWait := false, held := none }

/-- The outstanding loads and asynchronous operations of a population are complete and its stream is at rest (R34 step 2). -/
def Pop.drained (p : Pop) : Bool :=
  p.quiet && p.cps.all (fun e => e.2.asyncs == [] && e.2.pend.all (fun a => !a.ticket || a.complete))
    && (match p.stream with
      | some x => x.ops.all (fun o => !o.granted) && (!x.stopped || (!x.err && x.ops != []))
      | none => true)

/-- A control program of the population with a data cause that it has not taken (R221). -/
def Pop.faulty (p : Pop) : Option (Nat × Access) :=
  p.cps.findSome? (fun e => (e.2.pend.find? (fun a => a.fault.isSome)).map (fun a => (e.1, a)))

/-- The save area of a function (R309). -/
def State.saveBase (s : State) (vf : Nat) : Nat := frameOf (s.vfWord vf 3)
def State.saveSize (s : State) (vf : Nat) : Nat := 65536 * ((s.vfWord vf 3).extractLsb' 0 16).toNat

/-- A free place for an image in a save area, at a multiple of 128: the first found from its start (R309, R318). -/
def State.savePlace (s : State) (vf len : Nat) : Option Nat :=
  let mine := s.images.filter (fun m => m.vf == vf)
  let base := s.saveBase vf
  (base :: mine.map (fun m => m.addr + up128 m.len)).find? (fun a =>
    decide (a + len ≤ base + s.saveSize vf) && decide (a + len ≤ hbmBytes)
      && mine.all (fun m => decide (a + len ≤ m.addr) || decide (m.addr + up128 m.len ≤ a)))

/-- The greatest length a population's image can have: four live fragments for each context (R28). -/
def imageBound (p : Pop) : Nat :=
  (imageMap p.lanes p.regs p.ncp (4 * p.ncp) p.banks p.banks (tileList p.tiles).length p.stream.isSome).len

/-- The MGMT message that comes next asks for a checkpoint of the function, for which firmware pre-empts its populations (R37, R320). -/
def State.checkpointNext (s : State) (vf : Nat) : Bool :=
  match s.inbox.find? isMgmt with
  | some (.checkpoint a k _) => k == vf && !authFails a s
  | _ => false

/-- PREEMPT: the distributor or firmware stops a population's control programs at their next boundaries; the distributor does so
only where its save area has room, firmware for a checkpoint whether it has or not (R34, R37, R309). -/
def execPreempt (pid : Nat) (s : State) : Result :=
  match s.pop pid with
  | none => .refused (.notEnabled "PREEMPT")
  | some p =>
    if !p.aborted && !p.preempting && ((s.savePlace p.vf (imageBound p)).isSome || s.checkpointNext p.vf) then
      .next (s.setPop pid { p with preempting := true })
    else .refused (.notEnabled "PREEMPT")

/-- Lines of HBM written from a list of bytes; a whole line loses its poison (R211). -/
def State.writeLines (vf : Nat) : Nat → State → Nat → List Byte → State
  | 0, s, _, _ => s
  | n + 1, s, line, bs =>
    let s := if 128 ≤ bs.length then s.setLineState LineState.clean (.hbm (128 * line) 1) else s
    State.writeLines vf n (s.writePhys vf 1 (128 * line) (bs.take 128)) (line + 1) (bs.drop 128)

/-- Bytes written at a line boundary. -/
def State.writeImage (s : State) (vf addr : Nat) (bs : List Byte) : State :=
  State.writeLines vf ((bs.length + 127) / 128) s (addr / 128) bs

/-- A window's unreadable lines make the lines that hold them in an image unreadable (R211). -/
def State.poisonImage (s : State) (p : Pop) (win : Nat) : State :=
  let lo := 131072 * p.cluster + 4096 * p.base
  (s.cline.filter (fun e => decide (lo ≤ e.1) && decide (e.1 < lo + 4096 * p.banks))).foldl (fun s e =>
    let a := win + 128 * (e.1 - lo)
    (s.setLineState LineState.poisoned (.hbm a 1)).setLineState LineState.poisoned (.hbm (a + 127) 1)) s

/-- An image written at an address. -/
def State.putImage (s : State) (pid : Nat) (p : Pop) (addr : Nat) : State :=
  (s.writeImage p.vf addr (s.imageHead pid p ++ s.imageTail pid p)).poisonImage p (addr + (s.mapOf p).win)

/-- What firmware records of a population beside its image, the registers of an ended control program among it (DESIGN CHOICE,
notes/assumptions/8.md). -/
def Pop.record (p : Pop) : Pop :=
  let bare := fun (c : Cp) =>
    if c.ended then { c with pend := [] }
    else { c with s := [], m := [], stack := [], pend := [], save := c.save.map (fun v => { v with s := [], m := [], stack := [] }) }
  { p with v := [], status := [], preempting := false, cps := p.cps.map (fun e => (e.1, bare e.2)) }

/-- PREEMPT_IMAGE: a pending data cause is taken first (R221); then the image is written and the population leaves the device,
its stores released and its locks freed (R34, R275, R318). -/
def execPreemptImage (pid : Nat) (s : State) : Result :=
  match s.pop pid with
  | none => .refused (.notEnabled "PREEMPT_IMAGE")
  | some p =>
    if !p.preempting || p.aborted then .refused (.notEnabled "PREEMPT_IMAGE")
    else
      match p.faulty with
      | some (cid, a) =>
        if p.quiet then .next (takeDataFault s { pid := pid, cid := cid } a) else .refused (.notEnabled "PREEMPT_IMAGE")
      | none =>
        if p.drained && s.canRelease pid p then
          let s := s.release pid p
          match s.pop pid with
          | none => .refused (.notEnabled "PREEMPT_IMAGE")
          | some p =>
            let q := { p with stream := p.stream.map (fun x => x.rolledBack) }
            match s.savePlace p.vf (s.mapOf q).len with
            | none => .refused (.notEnabled "PREEMPT_IMAGE")
            | some addr =>
              let s := s.putImage pid q addr
              let m : Image :=
                { vf := p.vf, popid := pid, addr := addr, len := (s.mapOf q).len, record := q.record,
                  births := (s.popFrags q).map (fun e => (e.2.born, e.2.late))
                    ++ q.cps.map (fun e => ((s.slotOf q e.2).born, (s.slotOf q e.2).late)) }
              .next ({ s with images := s.images ++ [m] }.remove pid p)
        else .refused (.notEnabled "PREEMPT_IMAGE")

/-! ### Reading an image -/

/-- The word at an offset of a list of bytes. -/
def wordAt (bs : List Byte) (o : Nat) : Word64 := (wordOfBytes ((bs.drop o).take 8)).getD 0

def natAt (bs : List Byte) (o n : Nat) : Nat := natOfBytes ((bs.drop o).take n)

/-- A table from values that follow each other; zeros are not listed. -/
def tabOf {α : Type} [DecidableEq α] (d : α) (f : Nat → α) (n : Nat) : Tab α :=
  (List.range n).filterMap (fun k => if f k = d then none else some (k, f k))

def setAt (bs : List Byte) (o b : Nat) : LaneSet := BitVec.ofNat 16384 (natAt bs o b)

/-- What the header of an image says. -/
structure ImageHead where
  len : Nat
  popid : Nat
  vf : Nat
  cave : Nat
  popix : Nat
  seq : Word32
  npop : Nat
  desc : Desc
  tiles : BitVec 16
  banks : Nat
  stream : Bool
  roles : Nat
  badTiles : Nat
  faults : Word32
  errors : Word32
  deriving DecidableEq, Repr

def imageHeadOf (bs : List Byte) : ImageHead :=
  let w1 := wordAt bs 8
  let w2 := wordAt bs 16
  let w4 := wordAt bs 32
  let w8 := wordAt bs 64
  { len := (wordAt bs 0).toNat, popid := (w1.extractLsb' 50 14).toNat, vf := (w1.extractLsb' 46 4).toNat,
    cave := (w1.extractLsb' 40 6).toNat, popix := (w1.extractLsb' 24 16).toNat, seq := w2.extractLsb' 0 32,
    npop := (w2.extractLsb' 32 16).toNat, desc := descOf [0, wordAt bs 24], tiles := w4.extractLsb' 0 16,
    banks := (w4.extractLsb' 16 6).toNat, stream := w4.getLsbD 24, roles := ((wordAt bs 40).extractLsb' 0 32).toNat,
    badTiles := ((wordAt bs 56).extractLsb' 0 16).toNat, faults := w8.extractLsb' 0 32, errors := w8.extractLsb' 32 32 }

/-- The distinct fragment indices that the lanes of an image name, ascending: the order of its entries. -/
def imageIndices (bs : List Byte) (statusOff lanes : Nat) : List Nat :=
  (List.range 256).filter (fun k => (List.range lanes).any (fun i =>
    let x := statusOfBits (natAt bs (statusOff + 2 * i) 2)
    x.parked && !x.ovf && x.frag.toNat == k))

/-- The offsets of an image's sections. -/
def imageMapOf (h : ImageHead) (bs : List Byte) : ImageMap :=
  let d := h.desc
  let fifos := ((List.range 32).filter (fun b => h.roles.testBit b)).length
  let status := 128 + d.ncp * cpBlock d.lanes
  imageMap d.lanes d.regs d.ncp (imageIndices bs status d.lanes).length h.banks fifos (tileList h.tiles).length h.stream

/-- The sets and levels of a set section. -/
def setsAt (bs : List Byte) (o b depth : Nat) : Tab LaneSet × List LaneSet :=
  (tabOf 0 (fun k => setAt bs (o + k * b) b) 16, (List.range depth).map (fun k => setAt bs (o + (16 + k) * b) b))

/-- A control program from its block, over what is recorded of it: FIFO waits stand, a WAITR tests again (R319). -/
def cpOfSection (bs : List Byte) (o lanes : Nat) (base : Cp) (ctx : Nat) (gen clock : Word64) : Cp :=
  let b := setBytes lanes
  let pc := wordAt bs (o + 1560)
  let depths := wordAt bs (o + 1576)
  let own := setsAt bs (o + 3200) b (depths.extractLsb' 8 6).toNat
  let saved := setsAt bs (o + 3200 + 48 * b) b ((wordAt bs (o + 1640)).extractLsb' 0 6).toNat
  { base with
    ctx := ctx, s := tabOf 0 (fun k => wordAt bs (o + 8 * k)) 192, mode := wordAt bs (o + 1536),
    flags := (wordAt bs (o + 1544)).extractLsb' 0 6, hdr := wordAt bs (o + 1552), widx := (pc.extractLsb' 0 4).toNat,
    halted := pc.getLsbD 8, entry := wordAt bs (o + 1568), d0 := (depths.extractLsb' 0 6).toNat, tpc := wordAt bs (o + 1584),
    tcause := wordAt bs (o + 1592), taddr := wordAt bs (o + 1600), tlane := wordAt bs (o + 1608),
    wait := waitOfWords (wordAt bs (o + 1616)) (wordAt bs (o + 1624)), m := own.1, stack := own.2, gen := gen,
    waitLoc := none, waitDue := false, readySince := clock, promoted := false, issuing := false,
    save := if pc.getLsbD 9 then
        base.save.map (fun v => { v with hdr := wordAt bs (o + 1632), s := tabOf 0 (fun k => wordAt bs (o + 1648 + 8 * k)) 192,
                                         m := saved.1, stack := saved.2 })
      else none }

/-- A stream from its section, over what is recorded of it. -/
def streamOfSection (bs : List Byte) (o : Nat) (base : Stream) : Stream :=
  let w0 := wordAt bs o
  let w1 := wordAt bs (o + 8)
  let fl := wordAt bs (o + 96)
  let md := wordAt bs (o + 104)
  { base with
    hdr := w1 &&& 0x00FFFFFFFFFFFFFF#64, widx := (w1.extractLsb' 60 4).toNat, fa := fmtOfWord (wordAt bs (o + 16)),
    fb := fmtOfWord (wordAt bs (o + 24)),
    x := tabOf 0 (fun k => (wordAt bs (o + 32 + 8 * (k / 2))).extractLsb' (32 * (k % 2)) 32) 16, flags := fl.extractLsb' 8 6,
    err := fl.getLsbD 0, poison := fl.getLsbD 1, code := fl.extractLsb' 16 3, rm := md.extractLsb' 0 3, ftz := md.getLsbD 4,
    daz := md.getLsbD 5, cw := (w0.extractLsb' 0 32).toNat, pwait := (wordAt bs (o + 112)).getLsbD 0 }

/-! ### Restore (R36, R319) -/

/-- The contexts of a population's running control programs, the others keeping none. -/
def assignContexts (used : List Nat) (cps : Tab Cp) : List (Nat × Nat) :=
  let live := (cps.filter (fun e => !e.2.ended)).map (fun e => e.1)
  live.zip (contextsFrom used live.length [])

/-- The free entries of a core's fragment table. -/
def State.freeFragEntries (s : State) (core : Nat) : List Nat := (List.range 256).filter (fun i => (s.frag core i).state == .free)

/-- The places a population can take on its function's clusters, with room for its fragments on the home core (R319). -/
def State.restorePlaces (s : State) (h : ImageHead) (live frags : Nat) : List (Nat × List Nat × Nat) :=
  (s.usable h.vf).filterMap (fun k =>
    match s.placeOn k h.desc.lanes h.desc.regs live h.banks h.tiles with
    | some x => if frags ≤ (s.freeFragEntries (x.1.headD 0)).length then some (k, x) else none
    | none => none)

/-- The control programs that a wait entry leaves behind the waiters of their FIFO banks (R299). -/
def State.rejoinFifos (s : State) (pid : Nat) (p : Pop) : State :=
  p.cps.foldl (fun s e =>
    match e.2.wait with
    | some w =>
      if w.kind = .fpush ∨ w.kind = .fpop then
        let b := p.base + w.addr.toNat
        let f := s.fifo p.cluster b
        { s with fifos := Tab.put Fifo.empty s.fifos (32 * p.cluster + b) { f with waiters := f.waiters ++ [{ pid := pid, cid := e.1 }] } }
      else s
    | none => s) s

/-- A parked WAITR finds its word anew and tests it once (R311, R319). -/
def State.replaceWaits (s : State) (pid : Nat) (p : Pop) : State :=
  p.cps.foldl (fun s e =>
    match e.2.wait with
    | some w => if w.kind = .waitr then s.rewait { pid := pid, cid := e.1 } p e.2 w else s
    | none => s) s

/-- The window, roles, FIFO pointers, tiles and their poison of an image at its new place (R239, R319). -/
def State.restoreStores (s : State) (bs : List Byte) (bad : Nat → Bool) (h : ImageHead) (g : ImageMap) (cluster base : Nat) : State :=
  let fifos := (List.range h.banks).filter (fun b => h.roles.testBit b)
  let s := s.zeroWindow cluster base h.banks
  let s := (List.range h.banks).foldl (fun s b => s.setRole cluster (base + b) (if h.roles.testBit b then .fifo else .scratch)) s
  let s := { s with
    cstore := Tab.splice 0 s.cstore (16777216 * cluster + 524288 * base) ((bs.drop g.win).take (524288 * h.banks)),
    cline := (List.range (4096 * h.banks)).foldl (fun t k =>
      if bad (g.win + 128 * k) then Tab.put LineState.clean t (131072 * cluster + 4096 * base + k) LineState.poisoned
      else t) s.cline,
    fifos := fifos.zipIdx.foldl (fun t e =>
      let o := g.win + 524288 * h.banks + 16 * e.2
      Tab.put Fifo.empty t (32 * cluster + base + e.1)
        { head := (wordAt bs o).extractLsb' 0 32, tail := (wordAt bs (o + 8)).extractLsb' 0 32, waiters := [],
          know := Know.bar s.serial }) s.fifos }
  (tileList h.tiles).zipIdx.foldl (fun s e =>
    (s.setTile cluster e.1 ((List.range 16384).map (fun k => wordAt bs (g.tiles + 131072 * e.2 + 8 * k)))).poisonTile cluster e.1
      (h.badTiles.testBit e.1)) s

/-- A population as its image holds it, over what is recorded of it, at its new place: the status word of a parked lane names the entry
or context that its fragment has come to lie in, though R154 has the whole word come from the image (R10, R16, R319; DEDUCED,
notes/assumptions/70.md). -/
def popOfImage (bs : List Byte) (h : ImageHead) (g : ImageMap) (base : Pop) (at_ : Nat × List Nat × Nat) (ctxs news : List (Nat × Nat))
    (old : Nat → Nat) (gen clock : Word64) : Pop :=
  let d := h.desc
  let ctxOf := fun j => ((ctxs.find? (fun e => e.1 == j)).map (fun e => e.2)).getD 0
  let newFrag := fun k => ((news.find? (fun e => e.1 == k)).map (fun e => e.2)).getD 0
  let newCtx := fun k => ((ctxs.find? (fun e => old e.1 == k)).map (fun e => e.2)).getD 0
  let status := fun i =>
    let x := statusOfBits (natAt bs (g.status + 2 * i) 2)
    if x.parked then { x with frag := BitVec.ofNat 8 (if x.ovf then newCtx x.frag.toNat else newFrag x.frag.toNat) } else x
  { base with
    vf := h.vf, cave := h.cave, seq := h.seq, popix := h.popix, npop := h.npop, lanes := d.lanes, regs := d.regs, ncp := d.ncp,
    banks := h.banks, tiles := h.tiles, prio := d.prio, asid := d.asid, policy := d.policy, word1 := d.word1, cluster := at_.1,
    groups := at_.2.1, base := at_.2.2, coreid := at_.2.1.headD 0, cluid := at_.1, faults := h.faults, errors := h.errors,
    status := tabOf LaneStatus.zero status d.lanes,
    v := (List.range d.lanes).flatMap (fun i => (List.range d.regs).filterMap (fun k =>
      let x : Word32 := BitVec.ofNat 32 (natAt bs (g.regs + 4 * (i * d.regs + k)) 4)
      if x = 0 then none else some (2048 * i + k, x))),
    cps := base.cps.map (fun e =>
      (e.1, if e.2.ended then e.2 else cpOfSection bs (128 + e.1 * cpBlock d.lanes) d.lanes e.2 (ctxOf e.1) gen clock)),
    stream := if h.stream then base.stream.map (streamOfSection bs g.stream) else none, aborted := false, preempting := false }

/-- The fragments and overflow slots of an image enter the tables of the new home core (R319). -/
def State.restoreFrags (s : State) (bs : List Byte) (g : ImageMap) (core nfrags : Nat) (ctxs news : List (Nat × Nat)) (old : Nat → Nat)
    (births : List (Nat × Tab Word64)) : State :=
  let newCtx := fun k => ((ctxs.find? (fun e => old e.1 == k)).map (fun e => e.2)).getD 0
  let entry := fun o k =>
    let f := fragOfWords (wordAt bs o) (wordAt bs (o + 8)) (births.getD k (0, []))
    { f with ctx := newCtx f.ctx }
  let s := news.zipIdx.foldl (fun s e => s.setFrag core e.1.2 (entry (g.frags + 16 * e.2) e.2)) s
  ctxs.foldl (fun s e =>
    let f := entry (g.frags + 16 * (nfrags + e.1)) (nfrags + e.1)
    s.setOvf core e.2 (if f.state = .free then Frag.empty else f)) s

/-- An image is placed whole, DET forced where the function forces it (R111, R319). -/
def State.install (s : State) (bs : List Byte) (bad : Nat → Bool) (h : ImageHead) (base : Pop) (births : List (Nat × Tab Word64))
    (at_ : Nat × List Nat × Nat) (gen : Word64) : State :=
  let g := imageMapOf h bs
  let home := at_.2.1.headD 0
  let idx := imageIndices bs g.status h.desc.lanes
  let old := fun j => ((wordAt bs (g.frags + 16 * (idx.length + j))).extractLsb' 56 6).toNat
  let ctxs := assignContexts (s.usedContexts home) base.cps
  let news := idx.zip (s.freeFragEntries home)
  let p := (popOfImage bs h g base at_ ctxs news old gen s.clock).forceDet (s.forcesDet h.vf)
  let s := s.restoreFrags bs g home idx.length ctxs news old births
  let s := s.restoreStores bs bad h g at_.1 at_.2.2
  let s := if at_.1 = base.cluster then s else { s with stamps := s.stamps.filter (fun t => t.popid != h.popid) }
  let s := s.logPlacement at_.1 { vf := h.vf, cave := h.cave, popix := h.popix, seq := h.seq }
  let s := s.setPop h.popid p
  (s.rejoinFifos h.popid p).replaceWaits h.popid p

/-- A physical line that reads no good data. -/
def State.badAt (s : State) (a : Nat) : Bool := s.lineState (.hbm a 1) != LineState.clean

/-- Every line of an image outside its window reads good data. -/
def State.readable (s : State) (addr : Nat) (g : ImageMap) (banks : Nat) : Bool :=
  s.hline.all (fun e =>
    let a := 128 * e.1
    decide (a + 128 ≤ addr) || decide (addr + g.len ≤ a)
      || (decide (addr + g.win ≤ a) && decide (a + 128 ≤ addr + g.win + 524288 * banks)))

/-- RESTORE: the population is placed whole from its image in the save area, or waits (R319). -/
def execRestore (vf : Nat) (image : Nat) (s : State) : Result :=
  match s.images.find? (fun m => m.vf == vf && m.popid == image) with
  | none => .refused (.notEnabled "RESTORE")
  | some m =>
    let bs := s.physBytes m.addr m.len
    let h := imageHeadOf bs
    let g := imageMapOf h bs
    let live := (m.record.cps.filter (fun e => !e.2.ended)).length
    let places := s.restorePlaces h live (imageIndices bs g.status h.desc.lanes).length
    if s.readable m.addr g h.banks && h.vf == vf && h.popid == image && (s.pop image).isNone then
      let (k, s) := s.pick places.length
      match places[k]? with
      | none => .refused (.notEnabled "RESTORE")
      | some at_ =>
        .next (({ s with images := s.images.filter (fun x => !(x.vf == vf && x.popid == image)) }).install bs
          (fun o => s.badAt (m.addr + o)) h m.record m.births at_ (Tab.get 0 s.ckptGen vf))
    else .refused (.notEnabled "RESTORE")

/-! ### Checkpoints (R37, R320, R336) -/

/-- The resident populations of a function, by ascending population id. -/
def State.popsOf (s : State) (vf : Nat) : List (Nat × Pop) := s.pops.filter (fun e => e.2.vf == vf)

/-- The populations of a function as an image would hold them. -/
def State.imagesOf (s : State) (vf : Nat) : List (Nat × Pop) :=
  (s.popsOf vf).map (fun e => (e.1, { e.2 with stream := e.2.stream.map (fun x => x.rolledBack) }))

/-- The bytes of a checkpoint: the header, the images and the trailer (R320). -/
def State.checkpointBytes (s : State) (vf : Nat) (gen : Word64) : List Byte :=
  let images := (s.imagesOf vf).flatMap (fun e => s.imageHead e.1 e.2 ++ s.imageTail e.1 e.2)
  let total := 64 + images.length + 8
  let body := bytesOfWords ([gen, BitVec.ofNat 64 (65536 * (s.popsOf vf).length + vf % 16), BitVec.ofNat 64 total]
    ++ List.replicate 5 0) ++ images
  body ++ bytesOfWords [(crc32c body).zeroExtend 64]

/-- A window's unreadable lines make the checkpoint's lines over them unreadable (R211). -/
def State.poisonCheckpoint : List (Nat × Pop) → State → Nat → State
  | [], s, _ => s
  | e :: es, s, addr =>
    let g := s.mapOf e.2
    State.poisonCheckpoint es (s.poisonImage e.2 (addr + g.win)) (addr + g.len)

/-- Every population of a function is released: its stores perform (R32). -/
def State.releaseAll (s : State) (vf : Nat) : State := (s.popsOf vf).foldl (fun s e => s.release e.1 e.2) s

/-- The populations of a function go on where they were stopped. -/
def State.goOn (s : State) (vf : Nat) : State :=
  { s with pops := s.pops.map (fun (e : Nat × Pop) => if e.2.vf = vf then (e.1, { e.2 with preempting := false }) else e) }

/-- The checkpoint of a function is written at a physical address under the next generation; its populations, pre-empted for it,
go on (R37, R320, R336). -/
def State.takeCheckpoint (s : State) (tag : Word32) (vf dst : Nat) : State :=
  let s := s.releaseAll vf
  let gen := Tab.get 0 s.ckptGen vf + 1
  let bs := s.checkpointBytes vf gen
  if dst % 128 = 0 ∧ dst + bs.length ≤ hbmBytes then
    let t := State.poisonCheckpoint (s.imagesOf vf) (s.writeImage vf dst bs) (dst + 64)
    ({ t with ckptGen := Tab.put 0 t.ckptGen vf gen }.goOn vf).mgmtReply tag .ok []
  else (s.goOn vf).mgmtReply tag .badMsg []

/-- CHECKPOINT: the hypervisor's command is carried out once every population of the function is pre-empted and drained (R320). -/
def execCheckpoint (a : Auth) (vf : Nat) (dst : Nat) (s : State) : Result :=
  if authFails a s || (s.popsOf vf).all (fun e => e.2.preempting && !e.2.aborted && e.2.drained && e.2.faulty.isNone
      && s.canRelease e.1 e.2) then
    .next (mgmt a s (fun s => s.takeCheckpoint (authTag a) vf dst))
  else .refused (.notEnabled "CHECKPOINT")

/-- The images of a checkpoint: count of them from an offset. -/
def imagesFrom (bs : List Byte) : Nat → Nat → List (List Byte)
  | 0, _ => []
  | n + 1, o => (bs.drop o).take (wordAt bs o).toNat :: imagesFrom bs n (o + (wordAt bs o).toNat)

/-- The clause that a stopped control program was in is fetched again, its pages made present (DESIGN CHOICE, notes/assumptions/9.md). -/
def State.refetch (pid : Nat) (p : Pop) (hdr : Word64) : Nat → State → State × Option (List Word64)
  | 0, s => (s, none)
  | n + 1, s =>
    match s.fetchClause pid p hdr with
    | (s, .ok x) => (s, some x.2)
    | (s, .error f) =>
      if f.cause = some .notPresent then State.refetch pid p hdr n (s.makePresent p.vf p.asid f.addr) else (s, none)

/-- A control program of which nothing is recorded: what no image holds is free, but the lanes of a replay pass under way, whose set F is
lost (DESIGN CHOICE, notes/assumptions/9.md). -/
def State.unrecorded (s : State) (bs : List Byte) (o : Nat) : State × Cp :=
  let (k, s) := s.pick 4
  let hdr := wordAt bs (o + 1552)
  let widx := ((wordAt bs (o + 1560)).extractLsb' 0 4).toNat
  let c := newCp 0 [] 0 0 hdr 0 s.clock (Know.bar s.serial) s.serial
  let save : SaveArea := { s := [], m := [], stack := [], hdr := wordAt bs (o + 1632), widx := 0, clause := [] }
  (s, { c with ended := (bs.drop o).take 3200 == List.replicate 3200 0,
               fresh := hdr == wordAt bs (o + 1568) && widx == 0 && decide (2 ≤ k),
               waitWord := hdr + 8 * BitVec.ofNat 64 widx - (if widx = 0 then 8 else 0),
               waitScope := if k % 2 = 0 then .pop else .sys,
               save := if (wordAt bs (o + 1560)).getLsbD 9 then some save else none })

def State.unrecordedAll (bs : List Byte) (lanes : Nat) : List Nat → State → State × Tab Cp
  | [], s => (s, [])
  | j :: js, s =>
    let a := s.unrecorded bs (128 + j * cpBlock lanes)
    let b := State.unrecordedAll bs lanes js a.1
    (b.1, (j, a.2) :: b.2)

/-- A population of which nothing is recorded: flags of a completed stream that no WAITR has taken are lost, and a stream counts as past
its first clause (R258, R262; DESIGN CHOICE, notes/assumptions/9.md). -/
def State.unrecordedPop (s : State) (bs : List Byte) : State × Pop :=
  let h := imageHeadOf bs
  let d := h.desc
  let (n, s) := s.pick 9
  let (j, s) := s.pick d.ncp
  let (task, s) := s.fresh
  let x := State.unrecordedAll bs d.lanes (List.range d.ncp) s
  let st := newStream (newCp 0 [] 0 0 0 0 0 (Know.bar s.serial) s.serial) 0 0 j
  let w6 := wordAt bs 48
  (x.1, { vf := h.vf, task := task, cave := h.cave, seq := h.seq, popix := h.popix, npop := h.npop,
          key := (Config.hidden s.tick).extractLsb' 0 32, nest := n, lanes := d.lanes, regs := d.regs, ncp := d.ncp,
          banks := h.banks, tiles := h.tiles, prio := d.prio, asid := d.asid, policy := d.policy,
          handler := Config.hidden (s.tick + 1), word1 := d.word1, cluster := (w6.extractLsb' 8 5).toNat, base := 0,
          groups := [(w6.extractLsb' 0 7).toNat], coreid := 0, cluid := 0, v := [], status := [], faults := 0, errors := 0, cps := x.2,
          stream := if h.stream then some { st with started := true } else none, flagsDue := [], aborted := false,
          preempting := false, code := [], since := s.serial, lastCp := 7 })

/-- The wait of a CP leaves it inside a clause. -/
def insideClause (c : Cp) : Bool :=
  c.widx != 0 || (match c.wait with
    | some w => [WaitKind.join, .qpush, .fpush, .fpop, .succ2, .succ3].contains w.kind
    | none => false)

/-- The operands of a SUCC under way, from its word (R176). -/
def succOf (c : Cp) (ws : List Word64) : Option (Word64 × Word64) :=
  match (ws[c.widx]?).map decode with
  | some (.ok (.succ sa sb)) => some (c.getS sa, c.getS sb)
  | _ => none

/-- The clauses a restored population is inside of; none where one cannot be fetched. -/
def State.refetchAll (s : State) (pid : Nat) (p : Pop) : Option State :=
  let step := fun (acc : Option State) (e : Nat × Cp) =>
    match acc with
    | none => none
    | some s =>
      let r : CpRef := { pid := pid, cid := e.1 }
      let own := if !e.2.ended && insideClause e.2 then
          match State.refetch pid p e.2.hdr 17 s with
          | (s, some ws) => some (s.updCp r (fun c => { c with clause := ws, succ := succOf c ws }))
          | (_, none) => none
        else some s
      match own, e.2.save with
      | some s, some v =>
        match State.refetch pid p v.hdr 17 s with
        | (s, some ws) =>
          some (s.updCp r (fun c => { c with save := c.save.map (fun v => { v with clause := ws, widx := ws.length - 1 }) }))
        | (_, none) => none
      | x, _ => x
  (p.cps.foldl step (some s)).map (fun s => s.updStream pid (fun x => { x with pwait := false }))

/-- The images of a checkpoint are placed in turn; none where one of them cannot be, or its population id is taken, by a population or by
one whose image a save area holds (R305, R320). -/
def State.installAll (gen : Word64) : List (List Byte) → State → Option State
  | [], s => some s
  | bs :: l, s =>
    let h := imageHeadOf bs
    let g := imageMapOf h bs
    let a := s.unrecordedPop bs
    let live := (a.2.cps.filter (fun e => !e.2.ended)).length
    let places := a.1.restorePlaces h live (imageIndices bs g.status h.desc.lanes).length
    let k := a.1.pick places.length
    match places[k.1]?, s.pop h.popid with
    | none, _ | _, some _ => none
    | some at_, none =>
      if s.images.any (fun m => m.popid == h.popid) then none
      else
      let s := k.2.install bs (fun _ => false) h a.2 [] at_ gen
      match s.pop h.popid with
      | none => none
      | some p =>
        match s.refetchAll h.popid p with
        | none => none
        | some s => State.installAll gen l s

/-- A checkpoint is sealed: its lines are readable, its CRC matches and its generation is the one named (R37, R320). -/
def State.sealed (s : State) (vf src : Nat) (gen : Word64) : Bool :=
  let head := s.physBytes src 64
  let total := (wordAt head 16).toNat
  let bs := s.physBytes src total
  src + total ≤ hbmBytes && 72 ≤ total
    && s.hline.all (fun e => decide (128 * e.1 + 128 ≤ src) || decide (src + total ≤ 128 * e.1))
    && wordAt bs (total - 8) == (crc32c (bs.take (total - 8))).zeroExtend 64
    && wordAt head 0 == gen && ((wordAt head 8).extractLsb' 0 4).toNat == vf

/-- A checkpoint is checked and restored whole, or refused (R37, R320). -/
def State.restoreCheckpoint (s : State) (tag : Word32) (vf src : Nat) (gen : Word64) : State :=
  let head := s.physBytes src 64
  let bs := s.physBytes src (wordAt head 16).toNat
  let images := imagesFrom bs ((wordAt head 8).extractLsb' 16 16).toNat 64
  if s.sealed vf src gen && images.all (fun b => (imageHeadOf b).vf == vf) then
    match State.installAll gen images s with
    | some s => s.mgmtReply tag .ok []
    | none => s.mgmtReply tag .badMsg []
  else s.mgmtReply tag .badMsg []

/-- CHECKPOINT_RESTORE: carried out once the function has no resident population (R37, R320). -/
def execCheckpointRestore (a : Auth) (vf : Nat) (src : Nat) (gen : Word64) (s : State) : Result :=
  if authFails a s || (s.popsOf vf).isEmpty then .next (mgmt a s (fun s => s.restoreCheckpoint (authTag a) vf src gen))
  else .refused (.notEnabled "CHECKPOINT_RESTORE")

/-! ### Firmware and fragments (R303) -/

/-- The fragment that a name gives. -/
def State.fragAt (s : State) (f : FragRef) : Frag := if f.ovf then s.ovf f.core f.idx else s.frag f.core f.idx

def State.setFragAt (s : State) (f : FragRef) (x : Frag) : State := if f.ovf then s.setOvf f.core f.idx x else s.setFrag f.core f.idx x

/-- The control program whose context a fragment belongs to. -/
def State.fragOwner (s : State) (core ctx : Nat) : Option (CpRef × Pop × Cp) :=
  s.pops.findSome? (fun e =>
    if e.2.home = core then
      e.2.cps.findSome? (fun x => if !x.2.ended && x.2.ctx == ctx then some ({ pid := e.1, cid := x.1 }, e.2, x.2) else none)
    else none)

/-- The address that a lane faulted at, formed again from the word and the lane's registers (R302). -/
def lanePage (p : Pop) (c : Cp) (w : Word64) (lane : Nat) : Option Word64 :=
  match decode w with
  | .ok (.ld o) | .ok (.st o) => some (laneEa p c o.sbase o.idx (o.imm.signExtend 64) lane)
  | .ok (.setld o) | .ok (.setst o) => some (laneEa p c o.sbase o.idx (o.imm.signExtend 64) lane)
  | _ => none

/-- The addresses firmware repairs for a fragment: its page, and each lane's where they differ, formed again from the word the lane
faulted at; none where such a word cannot be read (R302, R303). -/
def State.fragPages (s : State) (f : FragRef) (x : Frag) (r : CpRef) (p : Pop) (c : Cp) : Option (List Word64) :=
  let first : Word64 := (x.page ++ 0#16).zeroExtend 64
  if x.more then
    ((p.laneList (p.lanesIn f.ovf f.idx)).mapM (fun i =>
      match (s.fetchWord r.pid p p.asid (Tab.get x.wordaddr x.late i)).2 with
      | .ok w => lanePage p c w i
      | .error _ => none)).map (fun l => first :: l)
  else some [first]

/-- FRAGMENT_READY: firmware makes every page of a PENDING fragment present and writes READY; where it cannot, the fragment is DEAD instead
(R303). -/
def execFragmentReady (f : FragRef) (s : State) : Result :=
  let x := s.fragAt f
  match s.fragOwner f.core x.ctx with
  | none => .refused (.notEnabled "FRAGMENT_READY")
  | some (r, p, c) =>
    match s.fragPages f x r p c with
    | none => .refused (.notEnabled "FRAGMENT_READY")
    | some pages =>
      let s := pages.foldl (fun s a => s.makePresent p.vf p.asid a) s
      if x.state = .pending ∧ pages.all (fun a => s.present p.vf p.asid a) = true then
        .next (s.setFragAt f { x with state := .ready })
      else .refused (.notEnabled "FRAGMENT_READY")

/-- FRAGMENT_DEAD: a page of a PENDING fragment cannot be made present (R303). -/
def execFragmentDead (f : FragRef) (s : State) : Result :=
  let x := s.fragAt f
  if x.state = .pending then .next (s.setFragAt f { x with state := .dead }) else .refused (.notEnabled "FRAGMENT_DEAD")

end Sys2Proof.Machine
end

