-- ==== Sys2Proof/Machine/MemEvents.lean ====
section
/-! DEFINITION. The events of the memory pipeline and of the copy engine (R23, R217, R220, R227, R229, R233 to R235). -/

namespace Sys2Proof.Machine

/-- The CP that an operation's name gives. -/
def cpOfOp (op : OpRef) : CpRef := { pid := op.pid, cid := op.cid }

/-- Ops that LOAD_COMPLETE itself performs; an ATOM or SATOM performs before (R218, R227). -/
def readsAtCompletion : AccOp → Bool
  | .ld _ _ | .lds _ | .ldpl _ | .arrive _ _ | .rwget _ => true
  | .st | .sts | .atom _ _ _ | .satom _ _ _ | .red _ _ | .stpl | .fence | .rwset _ | .scalars _ | .lanes _ | .tryPush _ _ _ _ => false

def isStore : AccOp → Bool
  | .st | .sts | .stpl | .rwset _ => true
  | .ld _ _ | .lds _ | .atom _ _ _ | .satom _ _ _ | .red _ _ | .ldpl _ | .fence | .arrive _ _ | .rwget _ | .scalars _
  | .lanes _ | .tryPush _ _ _ _ => false

def isAtomic : AccOp → Bool
  | .atom _ _ _ | .satom _ _ _ => true
  | .ld _ _ | .lds _ | .st | .sts | .red _ _ | .stpl | .ldpl _ | .fence | .arrive _ _ | .rwget _ | .rwset _ | .scalars _
  | .lanes _ | .tryPush _ _ _ _ => false

/-- Between two states lanes of a population die with a control program of it inside a clause, which the device does not let them do (R11,
R22, R221). -/
def State.diesInside (s t : State) : Bool :=
  s.pops.any (fun e => !e.2.quiet && (match t.pop e.1 with
    | some q => q.deadCount != e.2.deadCount
    | none => false))

/-- An access whose data write fills lane registers. -/
def fillsLanes : AccOp → Bool
  | .ld _ _ | .atom _ _ _ | .ldpl _ | .lanes _ => true
  | .lds _ | .st | .sts | .satom _ _ _ | .red _ _ | .stpl | .fence | .arrive _ _ | .rwget _ | .rwset _ | .scalars _
  | .tryPush _ _ _ _ => false

/-- The data write of a performed access, which completes it (R23, R333). -/
def State.complete (s : State) (r : CpRef) (a : Access) : State :=
  let s := s.updPop r.pid (fun p => p.deliver r.cid a)
  let s := if fillsLanes a.op then s.carry r else s
  let s := match a.op, s.pop r.pid with
    | .arrive _ _, some p =>
      s.count p.home r.pid 0x012 (((a.items.head?.bind (fun it => it.res)).getD 0).extractLsb' 64 32).toNat
    | _, _ => s
  (s.setAccess r { a with complete := true }).settle r

/-- The part of an access that an event names: item k, or beyond the last one the read half of item k − n, of an atomic that a cluster's
atomic unit executes (R218, R345). -/
def Access.part (a : Access) (k : Nat) : Option (Nat × Item × Bool) :=
  match a.items[k]? with
  | some it => some (k, it, false)
  | none =>
    match a.items[k - a.items.length]? with
    | some it => if atUnit a it && !it.half then some (k - a.items.length, it, true) else none
    | none => none

/-- One item of an access performs at an event of its own (R216, R217, R345), with lanes dying only between clauses (R11, R22, R221). -/
def partEvent (name : String) (kind : AccOp → Bool) (op : OpRef) (k : Nat) (s : State) : Result :=
  match s.cpOf (cpOfOp op) with
  | none => .refused (.notEnabled name)
  | some (p, c) =>
    match c.access op.serial with
    | none => .refused (.notEnabled name)
    | some a =>
      match a.part k with
      | none => .refused (.notEnabled name)
      | some (k, it, readOnly) =>
        if kind a.op && !a.performed && s.mayPart a k it && s.mayPerform p c { a with items := [it] } then
          let b := s.performPart (cpOfOp op) p a k it readOnly
          if s.diesInside b.1 then .refused (.notEnabled name)
          else .next ((b.1.setAccess (cpOfOp op) b.2).settle (cpOfOp op))
        else .refused (.notEnabled name)

/-- LOAD_COMPLETE: one of the load's accesses performs on its own; or, at a clause boundary of the population, what has not performed does
and its data write enters population order (R22, R23, R217, R345); a data cause of a CP-level word is kept for the place R221 names. -/
def execLoadComplete (x : OpPart) (s : State) : Result :=
  let op := x.op
  match x.part with
  | some k => partEvent "LOAD_COMPLETE" readsAtCompletion op k s
  | none =>
    match s.cpOf (cpOfOp op) with
    | none => .refused (.notEnabled "LOAD_COMPLETE")
    | some (p, c) =>
      match c.access op.serial with
      | none => .refused (.notEnabled "LOAD_COMPLETE")
      | some a =>
        if a.ticket && !a.complete && a.fault.isNone && p.quiet
            && (if a.performed then !s.majBusy a.majWait else readsAtCompletion a.op && s.mayPerform p c a) then
          let b := if a.performed then (s, a) else s.perform (cpOfOp op) p a
          if b.2.fault.isSome || b.1.majBusy b.2.majWait then .next (b.1.setAccess (cpOfOp op) b.2)
          else .next (b.1.complete (cpOfOp op) b.2)
        else .refused (.notEnabled "LOAD_COMPLETE")

/-- What is left of an access performs at an event, with lanes dying only between clauses (R11, R22, R221). -/
def performEvent (name : String) (kind : AccOp → Bool) (x : OpPart) (s : State) : Result :=
  let op := x.op
  match x.part with
  | some k => partEvent name kind op k s
  | none =>
    match s.cpOf (cpOfOp op) with
    | none => .refused (.notEnabled name)
    | some (p, c) =>
      match c.access op.serial with
      | none => .refused (.notEnabled name)
      | some a =>
        if kind a.op && !a.performed && s.mayPerform p c a then
          let b := s.perform (cpOfOp op) p a
          if s.diesInside b.1 then .refused (.notEnabled name)
          else .next ((b.1.setAccess (cpOfOp op) b.2).settle (cpOfOp op))
        else .refused (.notEnabled name)

/-- STORE_PERFORM: a store, or one of its accesses, is accepted at its unit and becomes visible (R217, R224, R345). -/
def execStorePerform (x : OpPart) (s : State) : Result := performEvent "STORE_PERFORM" isStore x s

/-- ATOMIC_PERFORM: every lane's read and write at the unit, or one lane's (R218, R227, R228). -/
def execAtomicPerform (x : OpPart) (s : State) : Result := performEvent "ATOMIC_PERFORM" isAtomic x s

/-- RED_UPDATE_APPLY: one update of a RED at its unit (R229); contributing lanes of a failed one die between clauses (R221). -/
def execRedUpdateApply (op : OpRef) (k : Nat) (s : State) : Result := partEvent "RED_UPDATE_APPLY" isRed op k s

/-! ### Asynchronous operations -/

/-- Every earlier access of the CP has performed, its lane transfers among them (R216, R233). -/
def State.earlierDone (s : State) (c : Cp) (serial : Nat) : Bool :=
  c.pend.all (fun b => decide (serial < b.serial) || s.settled b)
    && c.asyncs.all (fun x => !(decide (x.serial < serial) && transferring x))

/-- How a copy leaves one of its lines: it goes on, is held on a page that is not present, or stops (R233). -/
inductive CopyNext where
  | go | held (addr : Word64) | stop
  deriving DecidableEq, Repr

/-- The place of one side of a copy: the engine's TLB is the cluster's. -/
def State.sidePlace (s : State) (p : Pop) (window : Bool) (addr : Word64) (need : Need) : Met Loc :=
  if window then (s, .ok (p.winLoc addr.toNat)) else s.translate [96 + p.cluster] p.vf p.asid addr need

/-- What a copy has read or written it passes on with its arrival (R342, R344). -/
def State.sawSide (s : State) (r : CpRef) (serial : Nat) (n : Nat) : Loc → State
  | .hbm pa _ =>
    if (List.range n).all (fun i => s.verOf (pa + i) == 0) then s
    else s.updAsync r serial (fun a => { a with know := a.know.see pa n (fun i => s.verOf (pa + i)) })
  | .store _ _ | .maj _ _ => s

/-- The bytes of a source part; .ok none where it is uncorrectable or poisoned (R233 step 5). -/
def State.readSide (s : State) (r : CpRef) (serial : Nat) (p : Pop) (window : Bool) (addr : Word64) (n : Nat) : State × Except CopyNext (Option (List Byte)) :=
  match s.sidePlace p window addr .read with
  | (s, .error .notPresent) => (s, .error (.held addr))
  | (s, .error .permission) => (s, .error .stop)
  | (s, .error _) => (s, .ok none)
  | (s, .ok l) =>
    match s.readLoc l n with
    | (s, .ok bs) => (s.sawSide r serial n l, .ok (some bs))
    | (s, .error _) => (s, .ok none)

/-- Counts a line written as poisoned (R335). -/
def State.countError (s : State) (pid : Nat) : State := s.updPop pid (fun p => { p with errors := addSat p.errors 1 })

/-- The majority writes that an operation has sent. -/
def State.sentMaj (s : State) (r : CpRef) (serial : Nat) (ns : List Nat) : State :=
  if ns = [] then s else s.updAsync r serial (fun a => { a with majWait := a.majWait ++ ns })

/-- One destination line's part of a copy written (R211, R233): its status bits and how the copy goes on. -/
def State.writeSide (s : State) (r : CpRef) (serial : Nat) (p : Pop) (window : Bool) (addr : Word64) (data : Option (List Byte)) :
    State × BitVec 2 × CopyNext :=
  match s.sidePlace p window addr .write with
  | (s, .error .notPresent) => (s, 0, .held addr)
  | (s, .error .permission) => (s, 1, .stop)
  | (s, .error _) => (s, 2, .go)
  | (s, .ok l) =>
    match data with
    | none =>
      let x := s.poisonLoc l
      ((x.1.countError r.pid).sentMaj r serial x.2, 2, .go)
    | some bs =>
      match s.writeAt p.cluster p.vf l bs with
      | (s, .ok ns) => ((s.sentMaj r serial ns).sawSide r serial bs.length l, 0, .go)
      | (s, .error _) => (s, 2, .go)

/-- Bytes copied in ascending order when the destination overlaps the source from above (R233 step 2). -/
def smear (d : CopyDesc) (sa da : Word64) (bs : List Byte) : List Byte :=
  let gap := (da - sa).toNat
  if d.dstW = d.srcW ∧ 0 < gap ∧ gap < bs.length then
    (List.range bs.length).map (fun k => bs.getD (k % gap) 0)
  else bs

/-- An address whose page firmware cannot make present stops the copy there, as PERMISSION does (R233 step 3). -/
def atDead (dead : Option Word64) : CopyNext → CopyNext
  | .held x => if dead = some x then .stop else .held x
  | .go => .go
  | .stop => .stop

/-- The part of a copy in one destination line, from row and offset, its source bytes read now or before: the bytes it covers, the status
bits, and how it goes on. -/
def State.copyLine (s : State) (r : CpRef) (serial : Nat) (p : Pop) (d : CopyDesc) (dead : Option Word64)
    (got : Option (Option (List Byte))) (row off : Nat) : State × Nat × BitVec 2 × CopyNext :=
  let da := d.dst + BitVec.ofNat 64 row * d.dstStride + BitVec.ofNat 64 off
  let sa := d.src + BitVec.ofNat 64 row * d.srcStride + BitVec.ofNat 64 off
  let n := min (128 - da.toNat % 128) (d.len - off)
  let k := min (128 - sa.toNat % 128) n
  let whole := fun (s : State) (data : Option (List Byte)) =>
    let w := s.writeSide r serial p d.dstW da (data.map (smear d sa da))
    let e := atDead dead w.2.2
    (w.1, n, if e = .stop then 1 else w.2.1, e)
  match got with
  | some data => whole s data
  | none =>
  match s.readSide r serial p d.srcW sa k with
  | (s, .error e) => (s, 0, if atDead dead e = .stop then 1 else 0, atDead dead e)
  | (s, .ok none) => whole s none
  | (s, .ok (some a)) =>
    if k = n then whole s (some a)
    else
      match s.readSide r serial p d.srcW (sa + BitVec.ofNat 64 k) (n - k) with
      | (s, .error e) =>
        if atDead dead e = .stop then
          let w := s.writeSide r serial p d.dstW da (some (smear d sa da a))
          match atDead dead w.2.2 with
          | .held x => (w.1, 0, 0, .held x)
          | .go | .stop => (w.1, 0, w.2.1 ||| 1, .stop)
        else (s, 0, 0, e)
      | (s, .ok none) => whole s none
      | (s, .ok (some b)) => whole s (some (a ++ b))

/-- The source bytes of a copy's next line, read ahead of its write (R345); none where they are not to be had. -/
def State.readAhead (s : State) (r : CpRef) (serial : Nat) (p : Pop) (d : CopyDesc) (row off : Nat) : Option (State × Option (List Byte)) :=
  let da := d.dst + BitVec.ofNat 64 row * d.dstStride + BitVec.ofNat 64 off
  let sa := d.src + BitVec.ofNat 64 row * d.srcStride + BitVec.ofNat 64 off
  let n := min (128 - da.toNat % 128) (d.len - off)
  let k := min (128 - sa.toNat % 128) n
  match s.readSide r serial p d.srcW sa k with
  | (_, .error _) => none
  | (s, .ok none) => some (s, none)
  | (s, .ok (some a)) =>
    if k = n then some (s, some a)
    else
      match s.readSide r serial p d.srcW (sa + BitVec.ofNat 64 k) (n - k) with
      | (_, .error _) => none
      | (s, .ok b) => some (s, b.map (a ++ ·))

/-- A copy from the bytes it has moved, through at most so many destination lines: how many are moved, its status, and why it left off
(R233 steps 1 to 5). -/
def State.copyRun (r : CpRef) (serial : Nat) (p : Pop) (d : CopyDesc) (dead : Option Word64) :
    Nat → State → Option (Option (List Byte)) → Nat → BitVec 2 → State × Nat × BitVec 2 × CopyNext
  | 0, s, _, moved, st => (s, moved, st, .go)
  | fuel + 1, s, got, moved, st =>
    if d.len * d.rows ≤ moved then (s, moved, st, .go)
    else
      let x := s.copyLine r serial p d dead got (moved / d.len) (moved % d.len)
      match x.2.2.2 with
      | .go => State.copyRun r serial p d dead fuel x.1 none (moved + x.2.1) (st ||| x.2.2.1)
      | e => (x.1, moved, st ||| x.2.2.1, e)

/-- The end of a copy: its locks are released, then its rennet word receives the arrival, then its ticket completes (R233 step 6). -/
def State.copyFinish (s : State) (r : CpRef) (serial : Nat) (d : CopyDesc) (st : BitVec 2) : State :=
  let s := { s with locks := s.locks.filter (fun l => l.owner != serial) }
  let k := match (s.cpOf r).bind (fun x => x.2.async serial) with | some a => a.know | none => Know.zero
  let s := match d.cw with
    | some off => s.engineArrive r.pid off (BitVec.ofNat 32 (d.len * d.rows)) (st.zeroExtend 32) 1 k
    | none => s
  s.updAsync r serial (fun a => { a with status := st, complete := true })

/-- A copy that has left off at its last byte ends once its majority writes are complete (R233 step 6, R245). -/
def State.copyEnd (s : State) (r : CpRef) (serial : Nat) (d : CopyDesc) : State :=
  match (s.cpOf r).bind (fun x => x.2.async serial) with
  | some a => if d.len * d.rows ≤ a.moved ∧ !s.majBusy a.majWait then s.copyFinish r serial d a.status else s
  | none => s

/-- A copy goes on through some lines until it finishes, stops or is held; one that stops has no line left (R233). -/
def State.copyGo (s : State) (r : CpRef) (p : Pop) (a : AsyncOp) (d : CopyDesc) (dead : Option Word64) (lines : Nat) : State :=
  let x := State.copyRun r a.serial p d dead lines s a.got a.moved a.status
  let put := fun (moved : Nat) (held : Option Word64) =>
    x.1.updAsync r a.serial (fun b =>
      { b with moved := moved, status := x.2.2.1, held := held, got := if moved = a.moved then b.got else none })
  match x.2.2.2 with
  | .held addr => put x.2.1 (some addr)
  | .stop => (put (d.len * d.rows) none).copyEnd r a.serial d
  | .go => (put x.2.1 none).copyEnd r a.serial d

/-- A copy that waits for nothing may move: every earlier access of its CP has performed, and every window access of its population that
was checked before its locks stood (R220, R233). -/
def State.mayCopy (s : State) (p : Pop) (c : Cp) (a : AsyncOp) : Bool :=
  !a.complete && !a.waiting && a.held.isNone && s.earlierDone c a.serial
    && !p.windowBusy (s.locks.filter (fun l => l.owner == a.serial))

/-- COPY_COMPLETE: the copy moves some of its lines, and finishes, stops or is held; with no line it reads its next one ahead (R233,
R345). -/
def execCopyComplete (e : CopyPart) (s : State) : Result :=
  let op := e.op
  match s.cpOf (cpOfOp op) with
  | none => .refused (.notEnabled "COPY_COMPLETE")
  | some (p, c) =>
    match c.async op.serial with
    | none => .refused (.notEnabled "COPY_COMPLETE")
    | some a =>
      match a.kind with
      | .copy d =>
        let ends := decide (d.len * d.rows ≤ a.moved)
        let s := if a.moved = 0 ∧ a.got.isNone = true then s.updAsync (cpOfOp op) a.serial (fun a => { a with know := c.passes }) else s
        if !s.mayCopy p c a then .refused (.notEnabled "COPY_COMPLETE")
        else if ends || e.lines != 0 then
          if ends && s.majBusy a.majWait then .refused (.notEnabled "COPY_COMPLETE")
          else .next (s.copyGo (cpOfOp op) p a d none e.lines)
        else if a.got.isNone then
          match s.readAhead (cpOfOp op) a.serial p d (a.moved / d.len) (a.moved % d.len) with
          | some x => .next (x.1.updAsync (cpOfOp op) a.serial (fun b => { b with got := some x.2 }))
          | none => .refused (.notEnabled "COPY_COMPLETE")
        else .refused (.notEnabled "COPY_COMPLETE")
      | .flush _ _ _ | .setTransfer _ _ | .net _ => .refused (.notEnabled "COPY_COMPLETE")

/-- COPY_REPAIR_RESUME: the held copy goes on, or stops at that line as at PERMISSION (R233 step 3). -/
def execCopyRepairResume (op : OpRef) (repaired : Bool) (s : State) : Result :=
  match s.cpOf (cpOfOp op) with
  | none => .refused (.notEnabled "COPY_REPAIR_RESUME")
  | some (p, c) =>
    match c.async op.serial with
    | none => .refused (.notEnabled "COPY_REPAIR_RESUME")
    | some a =>
      match a.kind, a.held with
      | .copy d, some addr =>
        let go := fun (s : State) => s.updAsync (cpOfOp op) a.serial (fun a => { a with held := none })
        if repaired then .next (go (s.makePresent p.vf p.asid addr))
        else .next ((go s).copyGo (cpOfOp op) p a d (some addr) 1)
      | _, _ => .refused (.notEnabled "COPY_REPAIR_RESUME")

/-- FLUSH_COMPLETE: every dirty line of the range is in HBM (R234). -/
def execFlushComplete (op : OpRef) (s : State) : Result :=
  match s.cpOf (cpOfOp op) with
  | none => .refused (.notEnabled "FLUSH_COMPLETE")
  | some (p, c) =>
    match c.async op.serial with
    | none => .refused (.notEnabled "FLUSH_COMPLETE")
    | some a =>
      match a.kind with
      | .flush lo n all =>
        if a.complete then .refused (.notEnabled "FLUSH_COMPLETE")
        else
          let ls := if all then [] else s.leaves p.vf p.asid lo (lo + n)
          let lines := (s.l2.filter (fun e => e.2.vf == p.vf && (all || lineInRange ls lo (lo + n) e.1))).map (fun e => e.1)
          .next ((lines.foldl (fun s l => s.writeBack l) s).updAsync (cpOfOp op) a.serial (fun a => { a with complete := true }))
      | .copy _ | .setTransfer _ _ | .net _ => .refused (.notEnabled "FLUSH_COMPLETE")

/-- A lane's part of a transfer may move: the CP's earlier accesses and transfers to its bytes have performed, its earlier acquires and
fences are complete, and no lower lane that writes its bytes is left (R216, R217, R230, R235). -/
def mayMove (p : Pop) (c : Cp) (serial : Nat) (load : Bool) (before : List SetItem) (t : SetItem) : Bool :=
  let both := [(t.loc, t.size), (p.winLoc t.off, t.size)]
  let dst := fun (u : SetItem) => if load then p.winLoc u.off else u.loc
  c.pend.all (fun b => decide (serial < b.serial)
      || ((b.performed || !b.items.any (fun i => both.any (fun x => meet i.loc i.size x.1 x.2)))
          && (!acquires b.order || b.complete) && (b.op != .fence || b.complete)))
    && c.asyncs.all (fun x => decide (serial ≤ x.serial) || (match x.kind with
        | .setTransfer _ us => x.complete || !us.any (fun u => both.any (fun y =>
            meet u.loc u.size y.1 y.2 || meet (p.winLoc u.off) u.size y.1 y.2))
        | .copy _ | .flush _ _ _ | .net _ => true))
    && !before.any (fun u => meet (dst u) u.size (dst t) t.size)

/-- A transfer after some of its lanes have moved: it completes once none is left and its majority writes are complete (R235, R245). -/
def State.moved (s : State) (r : CpRef) (a : AsyncOp) (load : Bool) (left : List SetItem) (ns : List (Nat × Nat)) : State :=
  let waits := a.majWait ++ ns.map (fun x => x.1)
  (s.updAsync r a.serial (fun b =>
    { b with kind := .setTransfer load left, majWait := waits, majLanes := a.majLanes ++ ns, complete := left = [] && !s.majBusy waits })).settle r

/-- The lane of a transfer that an event names: lane k of those left, or beyond the last one the read of lane k − n (R345). -/
def setPart (ts : List SetItem) (k : Nat) : Option (Nat × SetItem × Bool) :=
  match ts[k]? with
  | some t => some (k, t, false)
  | none => (ts[k - ts.length]?).bind (fun t => if t.got.isNone then some (k - ts.length, t, true) else none)

/-- One lane of a transfer moves, or only its read performs; a data cause makes it dead (R221, R235, R345). -/
def State.movePart (s : State) (r : CpRef) (p : Pop) (a : AsyncOp) (load : Bool) (ts : List SetItem) (k : Nat) (t : SetItem)
    (readOnly : Bool) : State :=
  if readOnly then
    match s.readItem r p load t with
    | (s, .ok bs) => s.updAsync r a.serial (fun b => { b with kind := .setTransfer load (ts.set k { t with got := some bs }) })
    | (s, .error e) => (s.killLanes r.pid (setOf [t.lane]) (some e)).moved r a load (ts.eraseIdx k) []
  else
    let m := s.moveItem r p load t
    m.1.moved r a load (ts.eraseIdx k) m.2

/-- SET_TRANSFER_COMPLETE: one lane moves on its own, or every performing lane left does, in ascending lane, and the transfer completes
(R216, R217, R235, R345). -/
def execSetTransferComplete (e : OpPart) (s : State) : Result :=
  let op := e.op
  match s.cpOf (cpOfOp op) with
  | none => .refused (.notEnabled "SET_TRANSFER_COMPLETE")
  | some (p, c) =>
    match c.async op.serial with
    | none => .refused (.notEnabled "SET_TRANSFER_COMPLETE")
    | some a =>
      match a.kind with
      | .setTransfer load ts =>
        match e.part with
        | some k =>
          match setPart ts k with
          | some (k, t, readOnly) =>
            if !a.complete && mayMove p c a.serial load (ts.take k) t then
              let u := s.movePart (cpOfOp op) p a load ts k t readOnly
              if s.diesInside u then .refused (.notEnabled "SET_TRANSFER_COMPLETE") else .next u
            else .refused (.notEnabled "SET_TRANSFER_COMPLETE")
          | none => .refused (.notEnabled "SET_TRANSFER_COMPLETE")
        | none =>
          if !a.complete && ts.all (fun t => mayMove p c a.serial load [] t) && p.quiet
              && (ts != [] || !s.majBusy a.majWait) then
            let m := s.moveItems (cpOfOp op) p load ts
            .next (m.1.moved (cpOfOp op) a load [] m.2)
          else .refused (.notEnabled "SET_TRANSFER_COMPLETE")
      | .copy _ | .flush _ _ _ | .net _ => .refused (.notEnabled "SET_TRANSFER_COMPLETE")

end Sys2Proof.Machine
end

