-- ==== Sys2Proof/Machine/Net.lean ====
section
/-! DEFINITION. Network operations NPUT, NGET and NARRIVE with their completion (R292, R362, R369), and the management processor's
answer to held pushes (R283). -/

namespace Sys2Proof.Machine

/-! ### Peer tables (R362) -/

/-- The place of an entry of a function's peer table, which lies at a physical frame (R309, R362). -/
def State.peerPlace (s : State) (vf idx : Nat) : Nat := frameOf (s.vfWord vf 2) + 32 * idx

/-- A port engine's read of an entry: an uncorrectable one poisons its line as every read does (R211, R238). -/
def State.peerTouch (s : State) (vf idx : Nat) : State :=
  let pa := s.peerPlace vf idx
  if hbmBytes ≤ pa then s else (s.touch (.hbm pa 0) 32).1

/-- The four words of an entry of a function's peer table; none for an unreadable one. -/
def State.peerWords (s : State) (vf idx : Nat) : Option (List Word64) :=
  let pa := s.peerPlace vf idx
  if hbmBytes ≤ pa ∨ ((s.lineState (.hbm pa 0)).cause (pa % 128) 32).isSome = true then none
  else some ((List.range 4).map (fun k => (wordOfBytes (s.physBytes (pa + 8 * k) 8)).getD 0))

def State.npeers (s : State) (vf : Nat) : Nat := ((s.vfWord vf 2).extractLsb' 0 16).toNat

/-- A valid entry: its valid bit, a kind of 0 or 1, reserved bits 0, and never entry 0 (R362). -/
def peerValid (idx : Nat) (ws : List Word64) : Bool :=
  let w := ws.getD 0 0
  idx != 0 && w.getLsbD 63 && !w.getLsbD 62 && w.extractLsb' 24 30 == 0 && (ws.getD 3 0).extractLsb' 16 48 == 0

def peerKind (ws : List Word64) : Nat := ((ws.getD 0 0).extractLsb' 61 2).toNat
def peerRights (ws : List Word64) : BitVec 7 := (ws.getD 0 0).extractLsb' 54 7
def peerJob (ws : List Word64) : BitVec 24 := (ws.getD 0 0).extractLsb' 0 24
def peerAddr (ws : List Word64) : BitVec 128 := ws.getD 2 0 ++ ws.getD 1 0

/-- The entry is a peer SW-7 that network operations may name (R369). -/
def State.peerReady (s : State) (vf idx : Nat) : Bool :=
  match s.peerWords vf idx with
  | some ws => peerValid idx ws && peerKind ws == 1
  | none => false

/-! ### The words (R292) -/

/-- The local data range of a network operation: none of NARRIVE. -/
def netRange (d : NetDesc) : Option (Word64 × Nat × Need) :=
  match d.op with
  | .put => some (d.localAddr, d.len, .read)
  | .get => some (d.localAddr, d.len, .write)
  | .arrive => none

/-- The accesses of a range that do not cross a line. -/
def lineParts (space : Space) (addr : Word64) (n : Nat) (write : Bool) : List Want :=
  let first := min n (128 - addr.toNat % 128)
  { space := space, lane := none, ea := addr, size := 1, write := write }
    :: (List.range ((n - first + 127) / 128)).map (fun k =>
        { space := space, lane := none, ea := addr + BitVec.ofNat 64 (first + 128 * k), size := 1, write := write })

/-- The local side of a network operation: alignment of the completion word, window, role and locks, then translation of every
local page (R206, R221, R292). -/
def netLocal (s : State) (r : CpRef) (p : Pop) (c : Cp) (d : NetDesc) (k : State → State) : State :=
  let space : Space := if d.window then .w else .g
  let word : List Want :=
    if d.cw = allOnes64 then [] else [{ space := space, lane := none, ea := d.cw, size := 16, write := true }]
  let data := match netRange d with
    | some x => lineParts space x.1 x.2.1 (x.2.2 == .write)
        ++ [{ space := space, lane := none, ea := x.1 + BitVec.ofNat 64 (x.2.1 - 1), size := 1, write := x.2.2 == .write }]
    | none => []
  match s.checkWants p (word ++ data) with
  | some t => trapWord s r c t.1 t.2.1 t.2.2
  | none =>
    match s.placeAll p (match netRange d with | some x => x.2.2 | none => .read) data with
    | (s, .error (w, e)) => trapCause s r c .rciFault w.ea allOnes64 e
    | (s, .ok _) =>
      match s.placeAll p .both word with
      | (s, .error (w, e)) => trapCause s r c .rciFault w.ea allOnes64 e
      | (s, .ok _) => k s

/-- The bytes of a local range at their homes; none where one cannot be read. -/
def State.readRange (s : State) (r : CpRef) (serial : Nat) (p : Pop) (window : Bool) : Nat → Word64 → Nat → State × Option (List Byte)
  | 0, _, _ => (s, some [])
  | fuel + 1, addr, n =>
    if n = 0 then (s, some [])
    else
      let k := min n (128 - addr.toNat % 128)
      match s.readSide r serial p window addr k with
      | (s, .ok (some bs)) =>
        match State.readRange s r serial p window fuel (addr + BitVec.ofNat 64 k) (n - k) with
        | (s, some l) => (s, some (bs ++ l))
        | (s, none) => (s, none)
      | (s, _) => (s, none)

/-- Bytes written to a local range; false where a line could not be written. -/
def State.writeRange (s : State) (r : CpRef) (serial : Nat) (p : Pop) (window : Bool) : Nat → Word64 → List Byte → State × Bool
  | 0, _, _ => (s, true)
  | fuel + 1, addr, bs =>
    if bs = [] then (s, true)
    else
      let k := min bs.length (128 - addr.toNat % 128)
      let w := s.writeSide r serial p window addr (some (bs.take k))
      let b := State.writeRange w.1 r serial p window fuel (addr + BitVec.ofNat 64 k) (bs.drop k)
      (b.1, b.2 && w.2.2 == .go && w.2.1 == 0)

/-- The status bit NETFAIL (R325). -/
def netFail : Word32 := 0x10000000

/-- The local arrival of a network operation, which releases what its CP knew at its issue; the port engine that makes it on a global word
acts for the system (R292, R327, R339, R342, R401). -/
def State.netArrive (s : State) (pid : Nat) (p : Pop) (d : NetDesc) (bits : Word32) (k : Know) : State :=
  let n : Word32 := match d.op with | .put | .get => BitVec.ofNat 32 d.len | .arrive => 1
  if d.cw = allOnes64 ∨ s.sys.recovery then s
  else if d.window then s.engineArrive pid d.cw.toNat n bits 4 k
  else
    match s.translate p.cpUnits p.vf p.asid d.cw .both with
    | (s, .error _) => s.lostArrival pid p.vf d.cw 4
    | (s, .ok loc) =>
      match (s.stampCheck hostPopid hostCluster .sys loc).1.arrive hostCluster p.vf loc n bits with
      | (s, .error _) => s.lostArrival pid p.vf d.cw 4
      | (s, .ok x) => (s.majFinishAll x.2.2).stand loc 16 .sys hostPopid hostCluster true k

/-- The local completion of a network operation, and of its ticket. -/
def State.netDone (s : State) (r : CpRef) (p : Pop) (serial : Nat) (d : NetDesc) (failed : Bool) : State :=
  let k := match (s.cpOf r).bind (fun x => x.2.async serial) with | some a => a.know | none => Know.zero
  (s.netArrive r.pid p d (if failed then netFail else 0) k).updAsync r serial (fun a => { a with complete := true })

/-- A message of a network operation on its way to the peer. -/
def State.netSend (s : State) (p : Pop) (d : NetDesc) (op : NetOp) (remote : Word64) (data : List Byte) : State :=
  { s with outbox := s.outbox ++ [.rdma p.vf d.peer op remote d.len data] }

/-- NPUT, NGET and NARRIVE read their descriptor, check it, and send; an operation whose peer cannot be named, or whose local bytes
cannot be read, fails (R292, R369). The checks of the descriptor, ILLEGAL among them, follow the word's implicit JOIN (R25; DESIGN CHOICE,
notes/assumptions/31.md). -/
def netWord (mn : String) (i : Instr) (sa : SReg) (op : NetOp) (s : State) : Result :=
  onRci mn i s (fun r p c s =>
    let x := c.getSn sa 3
    let d : NetDesc :=
      { op := op, peer := (c.getSn sa 0).toNat % 65536, remote := c.getSn sa 1, localAddr := c.getSn sa 2,
        len := (x.extractLsb' 0 32).toNat, window := x.getLsbD 32, cw := c.getSn sa 4, remoteCw := c.getSn sa 5 }
    if (c.getSn sa 0).extractLsb' 16 48 ≠ 0 ∨ x.extractLsb' 33 31 ≠ 0 ∨ (op ≠ .arrive ∧ (d.len = 0 ∨ 16777216 < d.len))
        ∨ s.npeers p.vf ≤ d.peer then illegal s r c
    else
      netLocal s r p c d (fun s =>
        let s := match op with | .put | .arrive => s.drain r | .get => s
        let k := s.passesOf r
        let (n, s) := s.enterAsync r (.net d) false false
        let s := (s.updAsync r n (fun a => { a with know := k })).peerTouch p.vf d.peer
        let ready := s.peerReady p.vf d.peer
        let (s, data) := match op with
          | .put => if ready then s.readRange r n p d.window (d.len / 128 + 2) d.localAddr d.len else (s, none)
          | .get | .arrive => (s, some [])
        match (if ready then data else none) with
        | some bs => advance (s.netSend p d op d.remote bs) r
        | none => advance (s.netDone r p n d true) r))

def execNput (sa : SReg) (s : State) : Result := netWord "NPUT" (.nput sa) sa .put s
def execNget (sa : SReg) (s : State) : Result := netWord "NGET" (.nget sa) sa .get s
def execNarrive (sa : SReg) (s : State) : Result := netWord "NARRIVE" (.narrive sa) sa .arrive s

/-- The network operation that a name gives, while it is outstanding. -/
def State.netOp (s : State) (op : OpRef) : Option (Pop × AsyncOp × NetDesc) :=
  match s.cpOf (cpOfOp op) with
  | none => none
  | some (p, c) =>
    match c.async op.serial with
    | none => none
    | some a =>
      match a.kind with
      | .net d => if a.complete then none else some (p, a, d)
      | .copy _ | .flush _ _ _ | .setTransfer _ _ => none

/-- The 2^30 clk in which the peer must acknowledge have passed (R369). -/
def State.netLate (s : State) (a : AsyncOp) : Bool := decide (2 ^ 30 ≤ (s.clock - a.since).toNat)

/-- The data of an NPUT has landed: the remote arrival is sent, and its acknowledgement awaited anew (R369). -/
def State.netRemote (s : State) (r : CpRef) (p : Pop) (a : AsyncOp) (d : NetDesc) : State :=
  (s.netSend p d .arrive d.remoteCw []).updAsync r a.serial (fun a => { a with acked := true, since := s.clock })

/-- The bytes of an NGET have come: they land, and the local arrival is made once their majority writes are complete (R245, R292). -/
def State.netLand (s : State) (r : CpRef) (p : Pop) (a : AsyncOp) (d : NetDesc) (data : List Byte) : State :=
  let w := s.writeRange r a.serial p d.window (d.len / 128 + 2) d.localAddr data
  let s := w.1.updAsync r a.serial (fun a => { a with acked := true, status := if w.2 then 0 else 1 })
  let waits := match (s.cpOf r).bind (fun x => x.2.async a.serial) with | some a => a.majWait | none => []
  if s.majBusy waits then s else s.netDone r p a.serial d (!w.2)

/-- NET_COMPLETE: the peer has answered. NPUT's data is followed by its remote arrival, NGET's bytes land, then the local arrival is made;
an answer after 2^30 clk comes too late (R292, R369). -/
def execNetComplete (op : OpRef) (ok : Bool) (data : List Byte) (s : State) : Result :=
  match s.netOp op with
  | none => .refused (.notEnabled "NET_COMPLETE")
  | some (p, a, d) =>
    let r := cpOfOp op
    let good := ok && !s.netLate a
    match d.op with
    | .arrive => .next (s.netDone r p a.serial d (!good))
    | .put =>
      if good && !a.acked && d.remoteCw != allOnes64 then .next (s.netRemote r p a d)
      else .next (s.netDone r p a.serial d (!good))
    | .get =>
      if a.acked then
        if s.majBusy a.majWait then .refused (.notEnabled "NET_COMPLETE") else .next (s.netDone r p a.serial d (a.status != 0))
      else if !good then .next (s.netDone r p a.serial d true)
      else if data.length = d.len then .next (s.netLand r p a d data)
      else .refused (.notEnabled "NET_COMPLETE")

/-- NET_TIMEOUT: no acknowledgement within 2^30 clk (R369). -/
def execNetTimeout (op : OpRef) (s : State) : Result :=
  match s.netOp op with
  | none => .refused (.notEnabled "NET_TIMEOUT")
  | some (p, a, d) =>
    if s.netLate a && !(d.op == .get && a.acked) then .next (s.netDone (cpOfOp op) p a.serial d true)
    else .refused (.notEnabled "NET_TIMEOUT")

/-! ### Held pushes (R283) -/

/-- A CP parked on a push of this cave that cannot proceed. -/
def heldOn (cave : Nat) (c : Cp) : Bool :=
  match c.wait with
  | some w => w.kind == .qpush && w.addr == BitVec.ofNat 64 cave
  | none => false

/-- Every CP that a property names, population by population. -/
def State.cpsWith (s : State) (f : Pop → Cp → Bool) : List CpRef :=
  s.pops.flatMap (fun e => (e.2.cps.filter (fun x => f e.2 x.2)).map (fun x => { pid := e.1, cid := x.1 }))

/-- The pushes of QPUSH.try on a cave that the management processor has yet to serve: CP, access, destination, depth and entry. -/
def State.heldTries (s : State) (cave : Nat) : List (CpRef × Access × SReg × Nat × List Word64) :=
  s.pops.flatMap (fun e => e.2.cps.flatMap (fun x => x.2.pend.filterMap (fun a => match a.op with
    | .tryPush sd k depth ws => if k = cave ∧ !a.performed then some ({ pid := e.1, cid := x.1 }, a, sd, depth, ws) else none
    | _ => none)))

/-- A held try push is served: it is pushed where it fits now, else it keeps waiting, or is refused as in normal mode (R283, R285). -/
def State.serveTry (s : State) (cave : Nat) (refuse : Bool) (e : CpRef × Access × SReg × Nat × List Word64) : State :=
  let (r, a, sd, depth, ws) := e
  let answer := fun (s : State) (v : Word64) => s.setAccess r { a with op := .scalars [(sd, v)], performed := true }
  let vf := match s.pop r.pid with | some p => p.vf | none => 16
  match (if ((s.cave cave).reason vf (some false)).isSome then none else s.cavePush cave ws depth 0 (s.passesOf r)) with
  | some (s, n) => answer s (n ++ 0#32)
  | none => if refuse then answer s 1 else s

end Sys2Proof.Machine
end

