-- ==== Sys2Proof/Machine/Fabric.lean ====
section
/-! DEFINITION. Messages of hosts and peers: the Rilhal protocol and UET operations on the endpoints of virtual functions
(R293, R360 to R368, R375). -/

namespace Sys2Proof.Machine

/-! ### Admission (R360, R363, R372) -/

/-- The type of a response: that of its request with bit 7 set; an operation of UET itself has none (R364). -/
def responseType (t : BitVec 8) : BitVec 8 := if t = 0 then 0 else t ||| 0x80#8

/-- A response on a function's endpoint (R364). -/
def State.respond (s : State) (m : Msg) (st : Status) (body : List Byte) : State :=
  { s with outbox := s.outbox ++ [.response m.vf m.sender (responseType m.type) m.tag st body] }

/-- The code of a status (R364). -/
def Status.code : Status → Nat
  | .ok => 0
  | .caveFull => 1
  | .denied => 2
  | .badCave => 3
  | .badMsg => 4
  | .fault => 5
  | .poison => 6
  | .badSig => 7
  | .stage => 8

/-- The header of a response (R364): the fields it does not name are 0. -/
def responseWords (type : BitVec 8) (tag : Word32) (st : Status) (body : List Byte) : List Word64 :=
  [type ++ 1#8 ++ 0#16 ++ tag, BitVec.ofNat 64 body.length, 0, BitVec.ofNat 64 st.code]

/-- The peer-table entry of a sender, by its address and job id: its index and rights (R362, R363). -/
def State.senderEntry (s : State) (m : Msg) : Option (Nat × BitVec 7) :=
  (List.range (s.npeers m.vf)).findSome? (fun i =>
    match s.peerWords m.vf i with
    | some ws => if peerValid i ws && peerAddr ws == m.sender.addr && peerJob ws == m.sender.job then some (i, peerRights ws) else none
    | none => none)

/-- An operation with no valid entry, or without the right it needs (R363). -/
def State.deny (s : State) (m : Msg) : State :=
  ({ s with errCounts := { s.errCounts with denied := s.errCounts.denied + 1 } }).respond m .denied []

/-- Two messages of one source on one endpoint (R366). -/
def oneSource (a b : Msg) : Bool := a.vf == b.vf && a.sender == b.sender

/-- The port engine is held by an earlier message of the same source on the endpoint: one that waits for a page, or a LAUNCH that waits for
a segment (R283, R365, R366). -/
def State.portHeld (s : State) (m : Msg) : Bool :=
  s.holds.any (fun h => oneSource h.msg m) || s.launches.any (fun h => oneSource h.msg m)

/-- What the messages of a source have written (R366). -/
def State.hostKnow (s : State) (m : Msg) : Know :=
  match s.hostKnows.find? (fun k => k.vf == m.vf && k.sender == m.sender) with
  | some k => k.know
  | none => Know.zero

/-- A message of a source has written the bytes of a place (R366). -/
def State.hostWrote (s : State) (m : Msg) (loc : Loc) (n : Nat) : State :=
  match loc with
  | .hbm pa _ =>
    let k := (s.hostKnow m).see pa n (fun i => s.verOf (pa + i))
    { s with hostKnows := { vf := m.vf, sender := m.sender, know := k }
                            :: s.hostKnows.filter (fun k => !(k.vf == m.vf && k.sender == m.sender)) }
  | .store _ _ | .maj _ _ => s

/-- A message of a sender without an entry: the management endpoint answers a QUERY, and STAGE to any other in stage 1; else DENIED
(R363, R372). -/
def noEntry (s : State) (m : Msg) (query : Bool) (k : State → State) : State :=
  if m.vf = mgmtEndpoint ∧ query then k s
  else if m.vf = mgmtEndpoint ∧ s.sys.stage = 1 then s.respond m .stage []
  else s.deny m

/-- A message reaches its endpoint: on a port of the endpoint's mask, and with security where the management endpoint or the hypervisor's
setting requires it (R360, R361). -/
def State.reached (s : State) (m : Msg) : Bool :=
  (s.endpoint m.vf).ports.getLsbD m.port.toNat && (m.secured || (m.vf != mgmtEndpoint && !(s.endpoint m.vf).secure))

/-- The port engine reads a function's peer table to find a sender (R363). -/
def State.readPeers (s : State) (m : Msg) : State :=
  (List.range (s.npeers m.vf)).foldl (fun s i => s.peerTouch m.vf i) s

/-- A message on an endpoint: dropped in stage 0 or where it does not reach it, STAGE in recovery mode unless it is a QUERY, BADMSG for an operation that RUDI does
not carry, DENIED without its right, else performed (R360, R363, R372, R377). -/
def accept (s : State) (m : Msg) (rudi query : Bool) (right : Option Nat) (k : Nat → State → State) : State :=
  if s.sys.stage = 0 || !s.reached m then s
  else if s.sys.recovery && !query then s.respond m .stage []
  else if m.delivery == .rudi && !rudi then s.respond m .badMsg []
  else
    let s := s.readPeers m
    match s.senderEntry m with
    | none => noEntry s m query (k 0)
    | some (i, rights) =>
      match right with
      | none => k i s
      | some b => if rights.getLsbD b then k i s else s.deny m

/-- A message that its port engine performs now (R366); one that writes a majority line waits while too few copies live (R245). -/
def onPort (name : String) (m : Msg) (s : State) (f : State → State) : Result :=
  if s.portHeld m then .refused (.notEnabled name)
  else
    let t := f s
    if s.stuck t then .refused (.notEnabled name) else .next t

/-- A message as one of a type (R364). -/
def typed (m : Msg) (type : BitVec 8) : Msg := { m with type := type }

/-! ### LAUNCH (R293, R365) -/

/-- Reason 4 for an entry of a host, which may ask for a notify message (R279, R284). -/
def badHostEntry (ws : List Word64) : Bool := badEntry (ws.set 2 (ws.getD 2 0 &&& ~~~0x400000#64))

/-- A LAUNCH whose checks have passed: pushed where it fits; else refused, or in the modes of R283 held for the management processor
(R283, R293). -/
def State.launchPush (s : State) (h : LaunchHold) (refuse : Bool) : State :=
  if ((s.cave h.cave).reason h.msg.vf (some false)).isSome then s.respond h.msg .badCave []
  else
    match s.cavePush h.cave h.entry 0 h.src (s.hostKnow h.msg) with
    | some (s, _) => s.respond h.msg .ok []
    | none => if refuse then s.respond h.msg .caveFull [] else { s with launches := s.launches ++ [h] }

/-- LAUNCH: a push of depth 0 with the sender's index (R293, R365). -/
def launchNow (m : Msg) (cave : Nat) (entry : List Word64) (src : Nat) (s : State) : State :=
  if 64 ≤ cave ∨ entry.length ≠ 18 then s.respond m .badMsg []
  else if ((s.cave cave).reason m.vf (some false)).isSome then s.respond m .badCave []
  else if badHostEntry entry then s.respond m .badMsg []
  else s.launchPush { msg := m, cave := cave, entry := entry, src := src } (!s.mpServes)

def execHostLaunch (m : Msg) (cave : Nat) (entry : List Word64) (s : State) : Result :=
  let m := typed m 1
  onPort "HOST_LAUNCH" m s (fun s => accept s m false false (some 0) (fun src s => launchNow m cave entry src s))

/-- The pushes held on a cave are tested again, LAUNCHes first; a blocking QPUSH tests on its own (R283). -/
def State.serveHeld (s : State) (cave : Nat) (refuse : Bool) : State :=
  let mine := s.launches.filter (fun h => h.cave == cave)
  let s := { s with launches := s.launches.filter (fun h => h.cave != cave) }
  let s := mine.foldl (fun s h => s.launchPush h refuse) s
  (s.heldTries cave).foldl (fun s e => s.serveTry cave refuse e) s

/-- A push is held on a cave for the management processor (R283). -/
def State.anyHeld (s : State) (cave : Nat) : Bool :=
  s.cpsWith (fun _ c => heldOn cave c) != [] || s.heldTries cave != [] || s.launches.any (fun h => h.cave == cave)

/-- MP_SEGMENT_LINK: the management processor links a segment from firmware memory and the held pushes of the cave that fit now proceed; or
it cannot, or has left its modes, and they are refused as in normal mode, where a blocking QPUSH stays parked (R283). -/
def execMpSegmentLink (cave : Nat) (frame : Option (BitVec 36)) (s : State) : Result :=
  if !s.anyHeld cave then .refused (.notEnabled "MP_SEGMENT_LINK")
  else
    match frame with
    | some f =>
      let v := s.cave cave
      if !s.mpServes || v.segs.contains f.toNat || 255 ≤ v.segs.length then .refused (.notEnabled "MP_SEGMENT_LINK")
      else .next ((s.setCave cave { v with segs := v.segs ++ [f.toNat] }).serveHeld cave false)
    | none => .next (s.serveHeld cave true)

/-! ### MEMW and MEMR (R365) -/

/-- How a message leaves a line. -/
inductive HostEnd where
  | done (body : List Byte)
  | held (addr : Word64) (rest : List Byte)
  | stop (st : Status)
  deriving DecidableEq, Repr

/-- The lane causes that stop a message, as its status (R364). -/
def statusOfCause : LaneCause → Status
  | .permission | .notPresent => .fault
  | .uncorrectable | .majority | .poison => .poison

/-- A MEMW writes its bytes line by line in ascending order, as SYS-scope stores at their home slices. -/
def State.hostWrite (m : Msg) (asid : BitVec 12) : Nat → State → Word64 → List Byte → State × HostEnd
  | 0, s, _, _ => (s, .done [])
  | n + 1, s, addr, bs =>
    if bs = [] then (s, .done [])
    else
      let k := min bs.length (128 - addr.toNat % 128)
      match s.translate [] m.vf asid addr .write with
      | (s, .error .notPresent) => (s, .held addr bs)
      | (s, .error e) => (s, .stop (statusOfCause e))
      | (s, .ok l) =>
        match s.writeLoc m.vf l (bs.take k) with
        | (s, .ok ns) => State.hostWrite m asid n ((s.majFinishAll ns).hostWrote m l k) (addr + BitVec.ofNat 64 k) (bs.drop k)
        | (s, .error e) => (s, .stop (statusOfCause e))

/-- A MEMR reads line by line in ascending order at the home slices. -/
def State.hostRead (vf : Nat) (asid : BitVec 12) : Nat → State → Word64 → Nat → List Byte → State × HostEnd
  | 0, s, _, _, got => (s, .done got)
  | n + 1, s, addr, len, got =>
    if len = 0 then (s, .done got)
    else
      let k := min len (128 - addr.toNat % 128)
      match s.translate [] vf asid addr .read with
      | (s, .error .notPresent) => (s, .held addr got)
      | (s, .error e) => (s, .stop (statusOfCause e))
      | (s, .ok l) =>
        match s.readLoc l k with
        | (s, .ok bs) => State.hostRead vf asid n s (addr + BitVec.ofNat 64 k) (len - k) (got ++ bs)
        | (s, .error e) => (s, .stop (statusOfCause e))

/-- A message goes on from an address: it is answered, or held on a page that is not present (R365). -/
def State.hostGo (s : State) (h : HostHold) : State :=
  if h.write then
    match State.hostWrite h.msg h.asid (h.body.length / 128 + 2) s h.addr h.body with
    | (s, .done _) => s.respond h.msg .ok []
    | (s, .stop st) => s.respond h.msg st []
    | (s, .held addr rest) =>
      let (n, s) := s.fresh
      { s with holds := s.holds ++ [{ h with serial := n, addr := addr, body := rest, len := rest.length, since := s.clock }] }
  else
    match State.hostRead h.msg.vf h.asid (h.len / 128 + 2) s h.addr h.len h.body with
    | (s, .done got) => s.respond h.msg .ok got
    | (s, .stop st) => s.respond h.msg st []
    | (s, .held addr got) =>
      let (n, s) := s.fresh
      let left := h.len - (got.length - h.body.length)
      { s with holds := s.holds ++ [{ h with serial := n, addr := addr, body := got, len := left, since := s.clock }] }

def writeHold (m : Msg) (uet : Bool) (asid : BitVec 12) (target : Word64) (body : List Byte) : HostHold :=
  { serial := 0, msg := m, uet := uet, write := true, asid := asid, addr := target, len := body.length, body := body, since := 0 }

def readHold (m : Msg) (uet : Bool) (asid : BitVec 12) (target : Word64) (len : Nat) : HostHold :=
  { serial := 0, msg := m, uet := uet, write := false, asid := asid, addr := target, len := len, body := [], since := 0 }

def execMemw (m : Msg) (asid : BitVec 12) (target : Word64) (body : List Byte) (s : State) : Result :=
  let m := typed m 2
  onPort "MEMW" m s (fun s => accept s m false false (some 1) (fun _ s =>
    if maxBody < body.length then s.respond m .badMsg [] else s.hostGo (writeHold m false asid target body)))

def execMemr (m : Msg) (asid : BitVec 12) (target : Word64) (length : Nat) (s : State) : Result :=
  let m := typed m 3
  onPort "MEMR" m s (fun s => accept s m true false (some 2) (fun _ s =>
    if length = 0 ∨ maxBody < length then s.respond m .badMsg [] else s.hostGo (readHold m false asid target length)))

/-- RMA write and read act as MEMW and MEMR at asid 0 (R367). -/
def execRmaWrite (m : Msg) (target : Word64) (body : List Byte) (s : State) : Result :=
  let m := typed m 0
  onPort "RMA_WRITE" m s (fun s => accept s m false false (some 1) (fun _ s => s.hostGo (writeHold m true 0 target body)))

def execRmaRead (m : Msg) (target : Word64) (length : Nat) (s : State) : Result :=
  let m := typed m 0
  onPort "RMA_READ" m s (fun s => accept s m true false (some 2) (fun _ s => s.hostGo (readHold m true 0 target length)))

def State.hold (s : State) (serial : Nat) : Option HostHold := s.holds.find? (fun h => h.serial == serial)

def State.dropHold (s : State) (serial : Nat) : State := { s with holds := s.holds.filter (fun h => h.serial != serial) }

/-- The answer to a held message that does not go on: FAULT, or STAGE after a fatal error (R365, R377). -/
def State.holdEnd (s : State) (h : HostHold) : State := s.respond h.msg (if s.sys.recovery then .stage else .fault) []

/-- HOST_HOLD_RESUME: firmware has made the page present within 2^30 clk of the start of the hold and the message goes on from that line; or
the answer is FAULT (R365). -/
def execHostHoldResume (serial : Nat) (repaired : Bool) (s : State) : Result :=
  match s.hold serial with
  | none => .refused (.notEnabled "HOST_HOLD_RESUME")
  | some h =>
    let s := s.dropHold serial
    if repaired && !s.sys.recovery && decide ((s.clock - h.since).toNat < 2 ^ 30) then
      let t := (s.makePresent h.msg.vf h.asid h.addr).hostGo h
      if s.stuck t then .refused (.notEnabled "HOST_HOLD_RESUME") else .next t
    else .next (s.holdEnd h)

/-- HOST_HOLD_TIMEOUT: 2^30 clk after the hold began (R365). -/
def execHostHoldTimeout (serial : Nat) (s : State) : Result :=
  match s.hold serial with
  | none => .refused (.notEnabled "HOST_HOLD_TIMEOUT")
  | some h =>
    if 2 ^ 30 ≤ (s.clock - h.since).toNat then .next ((s.dropHold serial).holdEnd h)
    else .refused (.notEnabled "HOST_HOLD_TIMEOUT")

/-! ### ARRIVE and UET atomics (R365, R367) -/

/-- arrive(n) at SYS scope: the response holds the prior generation (R365, R401). -/
def arriveNow (m : Msg) (asid : BitVec 12) (target : Word64) (n : Word32) (s : State) : State :=
  if target.toNat % 16 ≠ 0 then s.respond m .badMsg []
  else
    match s.translate [] m.vf asid target .both with
    | (s, .error e) => s.respond m (statusOfCause e) []
    | (s, .ok loc) =>
      match (s.stampCheck hostPopid hostCluster .sys loc).1.arrive hostCluster m.vf loc n 0 with
      | (s, .error _) => s.respond m .poison []
      | (s, .ok x) =>
        ((s.majFinishAll x.2.2).stand loc 16 .sys hostPopid hostCluster true (s.hostKnow m)).respond m .ok (bytesOf 8 (x.1.zeroExtend 64))

def execHostArrive (m : Msg) (asid : BitVec 12) (target : Word64) (n : Word32) (s : State) : Result :=
  let m := typed m 4
  onPort "HOST_ARRIVE" m s (fun s => accept s m false false (some 3) (fun _ s => arriveNow m asid target n s))

/-- The atomics that the fabric supports: the integer operations of R226 at 32 and 64 bits (R360). -/
def uetOk (op : AOp) (w : Width) : Bool :=
  (w == .b32 || w == .b64) && (match op with
    | .fadd | .fmin | .fmax => false
    | .swap | .cas | .add | .and | .or | .xor | .min | .max | .minn | .maxn => true)

/-- A UET atomic at its home slice, SYS-scope; the response holds the old value (R226, R367). -/
def atomicNow (m : Msg) (op : AOp) (w : Width) (target v v2 : Word64) (s : State) : State :=
  if !uetOk op w || target.toNat % w.size != 0 then s.respond m .badMsg []
  else
    match s.translate [] m.vf 0 target .atomic with
    | (s, .error e) => s.respond m (statusOfCause e) []
    | (s, .ok loc) =>
      let s := (s.stampCheck hostPopid hostCluster .sys loc).1
      match s.readLoc loc w.size with
      | (s, .error e) => s.respond m (statusOfCause e) []
      | (s, .ok bs) =>
        let bits := 8 * w.size
        let x := (atomicNew op bits (envOfMode 0) (natOfBytes bs) (v.toNat % 2 ^ bits) (v2.toNat % 2 ^ bits)).1
        match s.writeLoc m.vf loc (bytesOf w.size (BitVec.ofNat 64 x)) with
        | (s, .ok ns) => (((s.majFinishAll ns).revive hostCluster loc w.size).hostWrote m loc w.size).respond m .ok bs
        | (s, .error e) => s.respond m (statusOfCause e) []

def execUetAtomic (m : Msg) (op : AOp) (width : Width) (target v v2 : Word64) (s : State) : Result :=
  let m := typed m 0
  onPort "UET_ATOMIC" m s (fun s => accept s m false false (some 5) (fun _ s => atomicNow m op width target v v2 s))

/-- UUD_DROP: the packet is dropped and counted (R360). -/
def execUudDrop (_vf : Nat) (s : State) : Result :=
  .next (if s.sys.stage = 0 then s else { s with errCounts := { s.errCounts with uud := s.errCounts.uud + 1 } })

/-- A message of this type is answered: a NOTIFY or a SUSPECT is not, nor is a response (R364, R368; notes/assumptions/53.md). -/
def answered (t : BitVec 8) : Bool := !(t == 7 || t == 8 || ((0x81#8).ule t && t.ule 0x88))

/-- The answer to a message that performs nothing (R364, R371): BADMSG on the management endpoint to a MGMT message that is not well formed,
DENIED to one on the endpoint of a function, BADMSG to any other. -/
def refuseMsg (m : Msg) (mgmt : Bool) (s : State) : State :=
  if m.type = 6 ∧ m.vf = mgmtEndpoint then (if s.sys.stage = 0 || !s.reached m then s else s.mgmtReply m.tag .badMsg [])
  else accept s m (m.type == 3 || m.type == 5) false none (fun _ s => if mgmt then s.deny m else s.respond m .badMsg [])

/-- BADMSG: a message with a bad type, version, reserved bit or length, or an operation the device does not support, performs
nothing; nor does a MGMT message on the endpoint of a function (R360, R364, R371), or a message that is not answered (R368). -/
def execBadMsg (m : Msg) (mgmt : Bool) (s : State) : Result :=
  onPort "BADMSG" m s (fun s => if answered m.type then refuseMsg m mgmt s else s)

/-! ### Messages as the transport delivers them (R364) -/

/-- A MGMT message with another way in which it comes. -/
def withAuth (f : Auth → Auth) (i : Instr) : Instr :=
  match i with
  | .checkpoint a vf dst => .checkpoint (f a) vf dst
  | .checkpointRestore a vf src gen => .checkpointRestore (f a) vf src gen
  | .debugHalt a vf cp => .debugHalt (f a) vf cp
  | .debugRead a cp item => .debugRead (f a) cp item
  | .debugWrite a cp w => .debugWrite (f a) cp w
  | .debugStep a cp => .debugStep (f a) cp
  | .debugResume a cp => .debugResume (f a) cp
  | .debugDetach a => .debugDetach (f a)
  | .debugAttach a cp => .debugAttach (f a) cp
  | .stackRejoin a set copy => .stackRejoin (f a) set copy
  | .vfTableWrite a place w0 w1 w2 w3 gen => .vfTableWrite (f a) place w0 w1 w2 w3 gen
  | .caveConfigWrite a cave w0 w1 => .caveConfigWrite (f a) cave w0 w1
  | .wayMaskWrite a slice vf mask => .wayMaskWrite (f a) slice vf mask
  | .majSetWrite a set entry => .majSetWrite (f a) set entry
  | .bankRoleWrite a cluster bank role => .bankRoleWrite (f a) cluster bank role
  | .tlbInvalidate a r => .tlbInvalidate (f a) r
  | .portConfig a port two => .portConfig (f a) port two
  | .endpointConfig a ep c => .endpointConfig (f a) ep c
  | .firmwareUpdate a image => .firmwareUpdate (f a) image
  | .testPeriodSet a minutes => .testPeriodSet (f a) minutes
  | .quarantineLift a cluster => .quarantineLift (f a) cluster
  | .powerLimitSet a watts => .powerLimitSet (f a) watts
  | .mgmtEnteredTest a => .mgmtEnteredTest (f a)
  | .clusterDisable a cluster => .clusterDisable (f a) cluster
  | i => i

/-- A MGMT message on the management endpoint: what its body asks for, as its packet brings it; a body that asks for nothing is refused with
BADMSG (R364, R371; DESIGN CHOICE, notes/assumptions/52.md). -/
def Packet.mgmt (x : Packet) (m : Msg) : Instr :=
  match x.command with
  | some i =>
    if isMgmt i then
      withAuth (fun a => { a with port := m.port, secured := m.secured, delivery := m.delivery, words := x.words, len := x.body.length }) i
    else .badMsg m true
  | none => .badMsg m true

/-- The operation of a message: LAUNCH, MEMW, MEMR, ARRIVE, QUERY or MGMT, or one that is refused with BADMSG; a MGMT message on the endpoint
of a function is refused with DENIED (R364, R365). -/
def Packet.parse (x : Packet) : Instr :=
  let ws := x.words
  let m := { x.msg with type := hdrType ws, tag := hdrTag ws }
  let asid : BitVec 12 := (ws.getD 1 0).extractLsb' 44 12
  let target := ws.getD 2 0
  if m.type = 6 ∧ m.vf = mgmtEndpoint then x.mgmt m
  else if !hdrGood ws x.body.length then .badMsg m false
  else match (hdrType ws).toNat with
    | 1 => if x.body.length ≠ 144 then .badMsg m false else .hostLaunch m (target.extractLsb' 0 6).toNat ((List.range (x.body.length / 8)).map (fun k =>
        (wordOfBytes ((x.body.drop (8 * k)).take 8)).getD 0))
    | 2 => .memw m asid target x.body
    | 3 => .memr m asid target (hdrLength ws)
    | 4 => if x.body = [] then .hostArrive m asid target ((ws.getD 3 0).extractLsb' 32 32) else .badMsg m false
    | 5 => if x.body = [] then .query m else .badMsg m false
    | 6 => .badMsg m true
    | _ => .badMsg m false

/-! ### QUERY (R365, R375) -/

/-- Bytes of the capability list that no rule gives a value. -/
def openCaps (k n : Nat) : List Byte := (List.range n).map (fun i => Config.capabilityByte (k + i))

/-- The part number, in ASCII and zeros (00_scope.md, R375). -/
def partNumber : List Byte := ("ZX-SW7-576".toList.map (fun c => BitVec.ofNat 8 c.toNat)) ++ List.replicate 6 0

/-- The total of a population counter over the device. -/
def State.popSum (s : State) (f : Pop → Nat) : Nat := s.pops.foldl (fun n e => n + f e.2) 0

/-- The parts of the Ultra Ethernet specification that the device supports, a bit each in the order of R360: RMA write, RMA read, send,
atomic; RUD, ROD, RUDI; NSCC; AES-GCM-256; link-level retry (DESIGN CHOICE, notes/assumptions/12.md). -/
def uetParts : Nat := 0x3FF

/-- The content of each capability, by id (R375); the order of its fields is the model's (DESIGN CHOICE, notes/assumptions/12.md). -/
def State.capability (s : State) (vf : Nat) : List (Nat × List Byte) :=
  let word := fun (n : Nat) => bytesOf 8 (BitVec.ofNat 64 n)
  let slot := Tab.get Slot.empty s.sys.slots s.sys.active
  [(1, partNumber ++ openCaps 0 8 ++ word 24 ++ word 96 ++ word 12 ++ word 8),
   (2, openCaps 16 2048),
   (3, bytesOf 4 slot.version ++ bytesOf 4 slot.security),
   (4, word s.portTwo.toNat ++ openCaps 2064 8),
   (5, word uetParts),
   (6, bytesOf 8 (s.vfWord vf 0) ++ word (maskOfCaves s vf) ++ bytesOf 8 (s.vfWord vf 2) ++ bytesOf 8 (s.vfWord vf 3)),
   (7, word s.errCounts.denied ++ word s.errCounts.uud ++ word (s.errCounts.poisoned + s.popSum (fun p => p.errors.toNat))
     ++ word (s.errCounts.faults + s.popSum (fun p => p.faults.toNat)) ++ word s.errCounts.lost),
   (8, word s.sys.dumpAddr ++ word s.sys.dumpLen ++ word s.sys.dumpPresent.toNat),
   (9, word s.sys.period ++ (List.range 24).flatMap (fun k => bytesOf 8 (Tab.get 0 s.sys.lastPass k)) ++ word s.sys.quarantine.toNat),
   (10, word s.sys.limit ++ word (Config.draw s.tick)
     ++ (List.range 3).flatMap (fun k => word (Tab.get 0 s.sys.throttles k)))]
where
  /-- The caves a function owns. -/
  maskOfCaves (s : State) (vf : Nat) : Nat := s.caves.foldl (fun m e => if e.2.vf = vf then m + 2 ^ e.1 else m) 0

/-- The chain of R375: each entry's header, its content, and the offset of the next. -/
def capChain : Nat → List (Nat × List Byte) → List Byte
  | _, [] => []
  | off, (id, body) :: l =>
    let len := 16 + body.length
    let next := if l = [] then 0 else off + len
    bytesOf 8 (BitVec.ofNat 64 (2 ^ 48 * id + 2 ^ 32 + 2 ^ 16 * len)) ++ bytesOf 8 (BitVec.ofNat 64 next) ++ body
      ++ capChain (off + len) l

/-- The read-only 64 KiB page that holds the capability list of a function (R375). -/
def State.capabilityPage (s : State) (vf : Nat) : List Byte :=
  let bs := capChain 0 (s.capability vf)
  bs ++ List.replicate (65536 - bs.length) 0

/-- The 64 bytes of status, with the failing clusters beside the quarantine mask (R251, R365, R373); their order is the model's (DESIGN CHOICE, notes/assumptions/12.md). -/
def State.statusBytes (s : State) : List Byte :=
  let word := fun (n : Nat) => bytesOf 8 (BitVec.ofNat 64 n)
  let count := fun (t : Tab Nat) => (List.range 16).map (fun k => BitVec.ofNat 8 (min 255 (Tab.get 0 t k)))
  word s.sys.stage ++ word s.sys.failedStarts ++ word (s.sys.quarantine.toNat + 2 ^ 32 * s.sys.failing.toNat) ++ word s.sys.dumpPresent.toNat
    ++ count s.majRepairs ++ count s.majFails

/-- QUERY: the capability list and the status (R365). -/
def execQuery (m : Msg) (s : State) : Result :=
  let m := typed m 5
  onPort "QUERY" m s (fun s => accept s m true true (some 4) (fun _ s =>
    { s.respond m .ok (capChain 0 (s.capability m.vf) ++ s.statusBytes) with tick := s.tick + 1 }))

end Sys2Proof.Machine
end

