-- ==== Sys2Proof/Machine/Majority.lean ====
section
/-! DEFINITION. The events of majority cells (R245 to R251) and the draining of L2 ways (R214). -/

namespace Sys2Proof.Machine

/-- The copies of a mask that can still accept a write. -/
def acceptors (e : Word64) (w : MajWrite) (mask : BitVec 5) : List Nat :=
  (majLive e).filter (fun j => mask.getLsbD j && !w.accepted.getLsbD j)

/-- MAJ_WRITE_COMPLETE: copies accept a write, which completes with the q-th that has accepted it; later ones only add copies (R245 steps
3 to 6). -/
def execMajWriteComplete (serial : Nat) (accept : BitVec 5) (s : State) : Result :=
  match s.majWrite serial with
  | none => .refused (.notEnabled "MAJ_WRITE_COMPLETE")
  | some w =>
    let e := s.majEntry w.set
    let js := acceptors e w accept
    if majLost e || js = [] || s.majBehind w then .refused (.notEnabled "MAJ_WRITE_COMPLETE")
    else .next (s.sendTo w js).settleAll

/-- MAJ_WRITEBACK: a copy that answered with an older tag or an uncorrectable line takes the newest data, unless it holds newer
data by now (R246); one that it takes is a line repaired (R251). -/
def execMajWriteback (serial : Nat) (s : State) : Result :=
  match s.majBacks.find? (fun b => b.serial == serial) with
  | none => .refused (.notEnabled "MAJ_WRITEBACK")
  | some b =>
    let e := s.majEntry b.set
    let s := { s with majBacks := s.majBacks.filter (fun x => x.serial != serial) }
    if majFailed e b.copy then .next s
    else
      let r := s.offer b.set (copyLine e b.copy b.line) b.tag b.data b.poison
      .next (if r.2 then { r.1 with majRepairs := Tab.put 0 r.1.majRepairs b.set (Tab.get 0 r.1.majRepairs b.set + 1) } else r.1)

/-- The clocks after which a home reports a copy or gives it up (R245, R249). -/
def majClocks : Nat := 65536

/-- The live copies that have neither accepted a write nor been reported for it (R249). -/
def State.silent (s : State) (w : MajWrite) : List Nat :=
  (majLive (s.majEntry w.set)).filter (fun j => !w.accepted.getLsbD j && !w.reported.getLsbD j)

/-- COPY_LATE_REPORT: a copy has not answered a write or a read for 65,536 clk (R249). -/
def execCopyLateReport (serial : Nat) (copy : Nat) (s : State) : Result :=
  match s.majWrite serial with
  | none =>
    match s.majAsks.find? (fun a => a.serial == serial) with
    | none => .refused (.notEnabled "COPY_LATE_REPORT")
    | some a =>
      if a.copy = copy ∧ (majLive (s.majEntry a.set)).contains copy ∧ !a.reported ∧ majClocks ≤ (s.clock - a.since).toNat then
        .next { s with majAsks := s.majAsks.map (fun b => if b.serial = serial then { b with reported := true } else b) }
      else .refused (.notEnabled "COPY_LATE_REPORT")
  | some w =>
    if (s.silent w).contains copy && decide (majClocks ≤ (s.clock - w.sent).toNat) then
      .next (s.setMajWrite { w with reported := w.reported ||| BitVec.ofNat 5 (2 ^ copy) })
    else .refused (.notEnabled "COPY_LATE_REPORT")

/-- LAGGARD_TIMEOUT: 65,536 clk after a write completed its home stops sending it, once every copy that has not answered is reported (R245
step 6, R249). -/
def execLaggardTimeout (serial : Nat) (s : State) : Result :=
  match s.majWrite serial with
  | none => .refused (.notEnabled "LAGGARD_TIMEOUT")
  | some w =>
    if w.complete && s.silent w == [] && decide (majClocks ≤ (s.clock - w.since).toNat) then
      .next { s with majWrites := s.majWrites.filter (fun v => v.serial != serial) }
    else .refused (.notEnabled "LAGGARD_TIMEOUT")

/-! ### Failover and rejoin (R249, R250) -/

/-- The entry with its home at the lowest copy that has not failed, and lost when fewer than q survive (R249 steps 3 and 4). -/
def reHome (e : Word64) : Word64 :=
  let live := majLive e
  let e := (e &&& 0xFFFF1FFFFFFFFFFF#64) ||| (BitVec.ofNat 64 (live.headD 0) <<< 45)
  if live.length < majQ e then e ||| 4#64 else e

/-- The parts of an access whose own write is one of these fail with MAJORITY: lanes die, and a CP-level word keeps the cause (R221). -/
def State.failAccess (gone : List Nat) (r : CpRef) (s : State) (a : Access) : State :=
  let hit := a.items.filter (fun it => it.maj.any gone.contains)
  if hit = [] then s
  else
    let s := s.killLanes r.pid (setOf (hit.flatMap (fun it => it.lanes))) (some .majority)
    if hit.any (fun it => it.lanes == []) then s.setAccess r { a with fault := some .majority } else s

/-- The same for an asynchronous operation: a transfer's lanes die, a copy ends with the status of a poisoned source, and an NGET whose bytes
have come fails (R221, R233, R248, R369). -/
def State.failAsync (gone : List Nat) (r : CpRef) (s : State) (a : AsyncOp) : State :=
  let hit := a.majLanes.filter (fun x => gone.contains x.1)
  let s := if hit = [] then s else s.killLanes r.pid (setOf (hit.map (fun x => x.2))) (some .majority)
  match a.kind with
  | .copy _ =>
    if a.majWait.any gone.contains then s.updAsync r a.serial (fun a => { a with status := a.status ||| 2 }) else s
  | .net _ => if a.majWait.any gone.contains then s.updAsync r a.serial (fun a => { a with status := 1 }) else s
  | .flush _ _ _ | .setTransfer _ _ => s

/-- The accesses whose writes to a set wait when it becomes lost fail with MAJORITY, and no further copy is written (R245 step 5, R249). A
write that only poisons a line belongs to an access that has failed before. -/
def State.majAbandon (s : State) (set : Nat) : State :=
  let ws := s.majWrites.filter (fun w => w.set == set && !w.complete)
  let gone := ws.map (fun w => w.serial)
  let s := s.pops.foldl (fun s e => e.2.cps.foldl (fun s x =>
    let r : CpRef := { pid := e.1, cid := x.1 }
    x.2.asyncs.foldl (State.failAsync gone r) (x.2.pend.foldl (State.failAccess gone r) s)) s) s
  { s.countFails set (ws.filter (fun w => !w.poison)).length with
    majWrites := s.majWrites.filter (fun w => !gone.contains w.serial) }

/-- Writes in flight reach every copy they can reach; those with q copies complete (R249 step 2). -/
def State.majReach (s : State) (set : Nat) (js : List Nat) : State :=
  (s.majWrites.filter (fun w => w.set == set && !w.complete)).foldl (fun s w => s.sendTo w js) s

/-- The new home sends the writes that have not completed again, under new tags (R249 step 2). -/
def State.majReissue (s : State) (set : Nat) : State :=
  (s.majWrites.filter (fun w => w.set == set && !w.complete)).foldl (fun s w =>
    let slice := majSlice (s.majEntry set) w.line
    let (s, v) := s.nextVersion slice
    let tag := BitVec.ofNat 64 (majEpoch (s.majEntry set) * 2 ^ 56 + v * 2 ^ 8 + slice)
    s.setMajWrite { w with tag := tag, accepted := 0, reported := 0, sent := s.clock, since := s.clock }) s

/-- Firmware moves the homes of a set: the entry changes, the home goes to the lowest copy that has not failed, and the epoch moves on.
The writes in flight first reach the copies js and go on at the new home; where the set becomes lost they fail, and no further copy is
written (R245 step 5, R249, R250). -/
def State.majMove (s : State) (set : Nat) (js : List Nat) (change : Word64 → Word64) : State :=
  let e := reHome (change (s.majEntry set))
  let enter := fun (s : State) => { s with majSet := Tab.put 0 s.majSet set e, majBacks := s.majBacks.filter (fun b => b.set != set),
                                           majAsks := s.majAsks.filter (fun a => a.set != set) }
  if majLost e then (((enter s).majAbandon set).bumpEpoch set).settleAll
  else (((enter (s.majReach set js)).bumpEpoch set).majReissue set).settleAll

/-- The copy of a set on a stack that has not failed. -/
def copyOn (e : Word64) (stack : Nat) : Option Nat := (majLive e).find? (fun j => majStack e j == stack)

/-- STACK_FAILOVER: firmware declares a stack failed, again where an entry written since lists it, and moves every valid set that lists
it (R249). -/
def execStackFailover (stack : Nat) (s : State) : Result :=
  if stack < 12 ∧ (!s.stackFailed.getLsbD stack ∨ (List.range 16).any (fun k =>
      majValid (s.majEntry k) && (copyOn (s.majEntry k) stack).isSome)) then
    let s := { s with stackFailed := s.stackFailed ||| BitVec.ofNat 12 (2 ^ stack) }
    .next ((List.range 16).foldl (fun s k =>
      let e := s.majEntry k
      match (if majValid e then copyOn e stack else none) with
      | some j => s.majMove k ((majLive e).filter (fun i => i != j)) (fun e => e ||| (1#64 <<< (48 + j)))
      | none => s) s)
  else .refused (.notEnabled "STACK_FAILOVER")

/-- STACK_REJOIN: the hypervisor clears the failed bit of a copy of a valid set, and its homes move back; lost stands. The copy keeps the
bytes and tags its stack holds (R250; DESIGN CHOICE, notes/assumptions/19.md). -/
def execStackRejoin (a : Auth) (set copy : Nat) (s : State) : Result :=
  .next (mgmtSet a s
    (fun s => let e := s.majEntry set; decide (set < 16) && majValid e && decide (copy < majCopies e) && majFailed e copy)
    (fun s =>
      let stack := majStack (s.majEntry set) copy
      let s := s.majMove set (majLive (s.majEntry set)) (fun e => e &&& ~~~(1#64 <<< (48 + copy)))
      { s with stackFailed := s.stackFailed &&& ~~~(BitVec.ofNat 12 (2 ^ stack)) }))

/-- The rate of a stack's scrubber, which firmware sets; 2^20 lines per second until it does (R251; DESIGN CHOICE, notes/assumptions/6.md). -/
def State.scrubRateOf (s : State) (stack : Nat) : Nat := Tab.get 1048576 s.scrubRate stack

/-- SCRUB_READ: the scrubber of a set's home stack reads a line of the set, which leaves write-backs due, or fails as any read of a lost
set does (R246, R249, R251). -/
def execScrubRead (set line : Nat) (s : State) : Result :=
  let e := s.majEntry set
  if set < 16 ∧ majValid e ∧ (s.majLines set).contains line = true ∧ s.scrubRateOf (majStack e (majHome e)) ≠ 0 then
    .next (s.majRead set line).1
  else .refused (.notEnabled "SCRUB_READ")

/-- WAY_MASK_DRAIN: lines of a function in ways of a slice that its mask no longer allows are written back and dropped (R214). -/
def execWayMaskDrain (slice vf : Nat) (s : State) : Result :=
  let lines := (s.l2.filter (fun e => sliceOf e.1 == slice && e.2.vf == vf && !(s.mask slice vf).getLsbD e.2.way)).map (fun e => e.1)
  if lines = [] then .refused (.notEnabled "WAY_MASK_DRAIN")
  else .next (lines.foldl (fun s l => s.writeBack l) s)

end Sys2Proof.Machine
end

