-- ==== Sys2Proof/Machine/Manage.lean ====
section
/-! DEFINITION. The writes of the hypervisor through the management endpoint (R209, R210, R214, R240, R277, R306 to R309, R360 to R362,
R371 to R378). -/

namespace Sys2Proof.Machine

/-! ### Virtual-function table, tables in memory, dump region (R306, R307, R309, R336, R362, R377) -/

/-- The clusters of an entry's word 0. -/
def vfClusters (w0 : Word64) : BitVec 24 := w0.extractLsb' 32 24

/-- Reserved bits of an entry are 0 and its weight is not 0. -/
def vfWordsOk (w0 w1 w2 w3 : Word64) : Bool :=
  w0.extractLsb' 0 32 == 0 && w0.extractLsb' 56 6 != 0
    && w1.extractLsb' 52 12 == 0 && w1.extractLsb' 0 16 == 0 && w2.extractLsb' 52 12 == 0 && w3.extractLsb' 52 12 == 0

/-- Word 0 without its valid bit and weight. -/
def vfRest (w0 : Word64) : Word64 := w0 &&& 0x40FFFFFFFFFFFFFF#64

/-- A write of an entry is taken: the entry is invalid, or all but weight and valid stay as they are; its clusters meet those of no
other valid entry (R309). -/
def State.vfWriteOk (s : State) (vf : Nat) (w0 w1 w2 w3 : Word64) : Bool :=
  let old := s.vfWord vf 0
  decide (vf < 16) && vfWordsOk w0 w1 w2 w3
    && (!old.getLsbD 63 || (vfRest w0 == vfRest old && w1 == s.vfWord vf 1 && w2 == s.vfWord vf 2 && w3 == s.vfWord vf 3))
    && (List.range 16).all (fun k =>
      k == vf || !(s.vfWord k 0).getLsbD 63 || vfClusters w0 &&& vfClusters (s.vfWord k 0) == 0)

/-- An entry is written; a function that becomes valid takes the checkpoint generation the hypervisor names (R336), and one that forces
DET runs its populations with it from then on (R111). -/
def State.vfPut (s : State) (vf : Nat) (w0 w1 w2 w3 gen : Word64) : State :=
  let fresh := w0.getLsbD 63 && !(s.vfWord vf 0).getLsbD 63
  let t := Tab.put 0x0100000000000000#64 s.vft (4 * vf) w0
  let t := Tab.put 0 (Tab.put 0 (Tab.put 0 t (4 * vf + 1) w1) (4 * vf + 2) w2) (4 * vf + 3) w3
  ({ s with vft := t, ckptGen := if fresh then Tab.put 0 s.ckptGen vf gen else s.ckptGen,
            pops := s.pops.map (fun e => (e.1, if e.2.vf = vf then e.2.forceDet (w0.getLsbD 62) else e.2)) } : State).visitEnd

/-- Words of a function's tables that the hypervisor may write with one message: up to four whole words of HBM in lines that read good data (R211, R306, R362). -/
def State.tableOk (s : State) (vf addr n : Nat) : Bool :=
  decide (vf < 16) && decide (n ≤ 4) && addr % 8 == 0 && decide (addr + 8 * n ≤ hbmBytes)
    && (List.range n).all (fun k => s.lineState (.hbm (addr + 8 * k) 1) == LineState.clean)

/-- The hypervisor writes words of a function's peer table, asid directory or translation tables; in its walks only leaves so written
carry MAJ (R306, R307, R362). -/
def State.tablePut (s : State) (vf addr : Nat) (words : List Word64) : State :=
  words.zipIdx.foldl (fun s e =>
    let s := s.writePhys vf 1 (addr + 8 * e.2) (bytesOf 8 e.1)
    { s with hvWords := Tab.put 0 s.hvWords (addr / 8 + e.2) (vf + 1) }) s

/-- The region of a majority set that a fatal dump goes to (R377). -/
def dumpOk (set addr len : Nat) : Bool := decide (set < 16) && addr % 128 == 0 && decide (addr + len ≤ stackBytes)

/-- VF_TABLE_WRITE: the hypervisor's writes of the virtual-function table, of a function's tables in memory, and of the dump region. -/
def execVfTableWrite (a : Auth) (place : VfPlace) (w0 w1 w2 w3 gen : Word64) (s : State) : Result :=
  .next (match place with
    | .entry vf => mgmtSet a s (fun s => s.vfWriteOk vf w0 w1 w2 w3) (fun s => s.vfPut vf w0 w1 w2 w3 gen)
    | .table vf addr n => mgmtSet a s (fun s => s.tableOk vf addr n) (fun s => s.tablePut vf addr ([w0, w1, w2, w3].take n))
    | .dump set => mgmtSet a s (fun _ => dumpOk set w0.toNat w1.toNat)
        (fun s => { s with sys := { s.sys with dumpSet := set, dumpAddr := w0.toNat, dumpLen := w1.toNat } }))

/-! ### Caves (R277) -/

/-- Word 0 of a cave's configuration. -/
def Cave.word0 (v : Cave) : Word64 :=
  BitVec.ofNat 64 (2 ^ 56 * v.vf + 2 ^ 54 * v.prio + 2 ^ 52 * v.wcode + 2 ^ 51 * v.set.toNat + 2 ^ 50 * v.launch.toNat
    + 2 ^ 49 * v.enable.toNat)

/-- The words of a cave's configuration and state (R277). -/
def Cave.words (v : Cave) : List Word64 :=
  [v.word0, BitVec.ofNat 64 (65536 * v.pool + v.npool),
   BitVec.ofNat 64 (2 ^ 32 * v.entries.length + 2 ^ 24 * v.segs.length + 2 ^ 16 * v.rsv + v.lost.toNat),
   BitVec.ofNat 64 (2 ^ 32 * v.seq.toNat)]

def caveWordsOk (w0 w1 : Word64) : Bool :=
  w0.extractLsb' 60 4 == 0 && w0.extractLsb' 0 49 == 0 && w1.extractLsb' 52 12 == 0

/-- The bit enable of word 0. -/
def caveEnable : Word64 := 0x0002000000000000#64

/-- A write of a cave is taken: it is disabled, or the write does no more than disable it (R277). -/
def State.caveWriteOk (s : State) (cave : Nat) (w0 w1 : Word64) : Bool :=
  let v := s.cave cave
  decide (cave < 64) && caveWordsOk w0 w1 && (!v.enable || w0 == v.word0 &&& ~~~caveEnable)

/-- The configuration of a disabled cave; its state fields are clear (R277). -/
def caveOf (w0 w1 : Word64) : Cave :=
  { vf := (w0.extractLsb' 56 4).toNat, prio := (w0.extractLsb' 54 2).toNat, wcode := (w0.extractLsb' 52 2).toNat,
    set := w0.getLsbD 51, launch := w0.getLsbD 50, enable := w0.getLsbD 49, pool := (w1.extractLsb' 16 36).toNat,
    npool := (w1.extractLsb' 0 16).toNat, segs := [], lost := 0, seq := 0, entries := [] }

/-- A cave written: when it is disabled its entries are dropped and its segments return to the pool, and its other state stands
until it is enabled (R277). -/
def State.cavePut (s : State) (cave : Nat) (w0 w1 : Word64) : State :=
  let v := s.cave cave
  if v.enable then
    let s := s.setCave cave { v with entries := [] }
    let s := v.segs.foldl (fun s f => s.unlink cave f) s
    let v := s.cave cave
    s.setCave cave { v with enable := false }
  else
    let w := caveOf w0 w1
    s.setCave cave (if w.enable then w else { w with lost := v.lost, seq := v.seq })

def execCaveConfigWrite (a : Auth) (cave : Nat) (w0 w1 : Word64) (s : State) : Result :=
  .next (mgmtSet a s (fun s => s.caveWriteOk cave w0 w1) (fun s => s.cavePut cave w0 w1))

/-! ### L2 ways, majority sets, bank roles (R209, R210, R214, R240) -/

def execWayMaskWrite (a : Auth) (slice vf : Nat) (mask : BitVec 16) (s : State) : Result :=
  .next (mgmtSet a s (fun _ => decide (slice < 96) && decide (vf < 16))
    (fun s => { s with wayMask := Tab.put 0xFFFF#16 s.wayMask (16 * slice + vf) mask }))

/-- The stacks of an entry that are in use. -/
def majStacks (e : Word64) : List Nat := (List.range (majCopies e)).map (majStack e)

/-- A write of an entry is taken: the entry is invalid, or the write only invalidates it; no stack in use is 12 to 15, no two are
equal, and every reserved bit is 0 (R240). -/
def State.majWriteOk (s : State) (set : Nat) (e : Word64) : Bool :=
  let old := s.majEntry set
  decide (set < 16)
    && (if majValid old then e == old &&& ~~~1#64
        else (majStacks e).all (fun k => decide (k < 12)) && (majStacks e).Nodup
          && e.extractLsb' 53 3 == 0 && e.extractLsb' 40 5 == 0 && e.extractLsb' 3 17 == 0)

/-- The hypervisor's fields of an entry: the stacks in use, n and valid (R240). -/
def majMine (e : Word64) : Word64 := e &&& (if e.getLsbD 1 then 0x000000FFFFF00003#64 else 0x00000000FFF00003#64)

/-- An entry written anew: the hypervisor's fields change and lost is clear; epoch, failed and home are firmware's and stand (R240, R250,
R253). Before its stacks change, what is in flight reaches the old copies; a rebase that a lost set owed is made once it is valid (R243,
R244, R245; DESIGN CHOICE, notes/assumptions/46.md, notes/assumptions/66.md). -/
def State.majPut (s : State) (set : Nat) (e : Word64) : State :=
  let old := s.majEntry set
  if majValid old then { s with majSet := Tab.put 0 s.majSet set (old &&& ~~~1#64) }
  else
    let s := if (majMine e ||| 1#64) = (majMine old ||| 1#64) then s else (s.majSettle set).settleAll
    let s := { s with majSet := Tab.put 0 s.majSet set (majMine e ||| (old &&& 0xFF1FE00000000000#64)) }
    if Tab.get false s.majDue set && majValid e && majWhole (s.majEntry set) then s.majRebase set else s

def execMajSetWrite (a : Auth) (set : Nat) (entry : Word64) (s : State) : Result :=
  .next (mgmtSet a s (fun s => s.majWriteOk set entry) (fun s => s.majPut set entry))

/-- A free bank takes a role: a CACHE bank's lines are dropped, and no role finds anything in it (R210). -/
def State.changeRole (s : State) (cluster bank : Nat) (role : BankRole) : State :=
  let s := { s with ccache := s.ccache.filter (fun c => !(c.cluster == cluster && c.bank == bank)),
                    roleDue := Tab.erase s.roleDue (32 * cluster + bank) }
  (s.zeroBank cluster bank).setRole cluster bank role

/-- A change of a bank that a window holds waits until the bank is free (R210). -/
def State.askRole (s : State) (cluster bank : Nat) (role : BankRole) : State :=
  if s.bankHeld cluster bank then { s with roleDue := Tab.insert s.roleDue (32 * cluster + bank) role }
  else if s.roleOf cluster bank = role then s
  else s.changeRole cluster bank role

def execBankRoleWrite (a : Auth) (cluster bank : Nat) (role : BankRole) (s : State) : Result :=
  .next (mgmtSet a s (fun _ => decide (cluster < 24) && decide (bank < 32) && role != .fifo)
    (fun s => s.askRole cluster bank role))

/-! ### TLB invalidation (R308) -/

def execTlbInvalidate (a : Auth) (r : InvalRange) (s : State) : Result :=
  .next (mgmt a s (fun s =>
    let (n, s) := s.fresh
    { s with invals := s.invals ++ [{ serial := n, range := r, tag := authTag a }] }))

/-- Addresses that an invalidation names. -/
def invalHits (r : InvalRange) (vf : Nat) (asid : BitVec 12) (lo hi : Nat) : Bool :=
  r.vf == vf && (match r.asid with | some x => x == asid | none => true)
    && (match r.range with | some (a, n) => decide (lo < a + n) && decide (a < hi) | none => true)

/-- An access that an invalidation names has not performed, its majority writes among it: it may have used a dropped entry (R245, R308). -/
def State.invalBusy (s : State) (r : InvalRange) : Bool :=
  s.pops.any (fun e => e.2.cps.any (fun x =>
    x.2.pend.any (fun a => a.items.any (fun it =>
      (!it.done || s.majBusy it.maj) && (match it.loc with | .store _ _ => false | .hbm _ _ | .maj _ _ => true)
        && invalHits r e.2.vf e.2.asid it.addr.toNat (it.addr.toNat + it.size)))
    || x.2.asyncs.any (fun a => match a.kind with
      | .setTransfer _ ts => !a.complete && ts.any (fun t => invalHits r e.2.vf e.2.asid t.addr.toNat (t.addr.toNat + t.size))
      | .copy _ | .net _ => s.majBusy a.majWait && invalHits r e.2.vf e.2.asid 0 (2 ^ 64)
      | .flush _ _ _ => false)))

/-- A parked WAITR whose word lies in the range of an invalidation finds its place anew (R308, R311). -/
def State.rewaitAll (s : State) (r : InvalRange) : State :=
  s.pops.foldl (fun s e => e.2.cps.foldl (fun s x =>
    match x.2.wait with
    | some w =>
      if w.kind = .waitr ∧ w.space = .g ∧ invalHits r e.2.vf e.2.asid w.addr.toNat (w.addr.toNat + 16) then
        s.rewait { pid := e.1, cid := x.1 } e.2 x.2 w
      else s
    | none => s) s) s

/-- TLB_INVALIDATE_COMPLETE: every TLB has dropped the matching entries, and every access that used one has performed. -/
def execTlbInvalidateComplete (serial : Nat) (s : State) : Result :=
  match s.invals.find? (fun i => i.serial == serial) with
  | none => .refused (.notEnabled "TLB_INVALIDATE_COMPLETE")
  | some i =>
    if s.invalBusy i.range then .refused (.notEnabled "TLB_INVALIDATE_COMPLETE")
    else
      .next ({ s with invals := s.invals.filter (fun x => x.serial != serial),
                      tlb := s.tlb.filter (fun t => !invalHits i.range t.vf t.asid (t.page * pageBytes t.level)
                        ((t.page + 1) * pageBytes t.level)) }.rewaitAll i.range |>.mgmtReply i.tag .ok [])

/-! ### Ports, endpoints, firmware, test, power (R360, R361, R372, R374, R376, R378) -/

def execPortConfig (a : Auth) (port : BitVec 3) (two : Bool) (s : State) : Result :=
  .next (mgmtSet a s (fun _ => true) (fun s =>
    { s with portTwo := if two then s.portTwo ||| (1#8 <<< port.toNat) else s.portTwo &&& ~~~(1#8 <<< port.toNat) }))

/-- The 17 endpoints: 0 to 15 of the virtual functions, 16 of management (R361). -/
def execEndpointConfig (a : Auth) (ep : Nat) (c : EndpointCfg) (s : State) : Result :=
  .next (mgmtSet a s (fun _ => decide (ep < 17)) (fun s => { s with endpoints := Tab.put EndpointCfg.zero s.endpoints ep c }))

/-- An image verifies: both signatures, and a security version not below the fused minimum (R374). -/
def slotOk (x : Slot) : Bool := x.sigOk && Config.fusedMinimum.ule x.security

/-- FIRMWARE_UPDATE: the inactive slot is written and verified, and becomes active at the next start (R374). -/
def execFirmwareUpdate (a : Auth) (image : FwImage) (s : State) : Result :=
  let x : Slot := { version := image.version, security := image.security, sigOk := image.sigOk }
  .next (mgmtSet a s (fun _ => slotOk x) (fun s =>
    let k := 1 - s.sys.active
    { s with sys := { s.sys with slots := Tab.put Slot.empty s.sys.slots k x, nextActive := k } }))

def execTestPeriodSet (a : Auth) (minutes : Nat) (s : State) : Result :=
  .next (mgmtSet a s (fun _ => decide (1 ≤ minutes) && decide (minutes ≤ 1440))
    (fun s => { s with sys := { s.sys with period := minutes } }))

/-- Only MGMT lifts a quarantine (R376). -/
def execQuarantineLift (a : Auth) (cluster : Nat) (s : State) : Result :=
  .next (mgmtSet a s (fun _ => decide (cluster < 24))
    (fun s => { s with sys := { s.sys with quarantine := s.sys.quarantine &&& ~~~(BitVec.ofNat 24 (2 ^ cluster)) } }))

/-- The greatest power limit in watts (R378). -/
def maxWatts : Nat := 2300

def execPowerLimitSet (a : Auth) (watts : Nat) (s : State) : Result :=
  .next (mgmtSet a s (fun _ => decide (watts ≤ maxWatts)) (fun s => { s with sys := { s.sys with limit := watts } }))

/-- MGMT_ENTERED_TEST: test mode lasts until a start (R283, R372). -/
def execMgmtEnteredTest (a : Auth) (s : State) : Result :=
  .next (mgmtSet a s (fun _ => true) (fun s => { s with sys := { s.sys with testMode := true } }))

/-- CLUSTER_DISABLE: start-up does not wait for the cluster, and places nothing on it (R372). -/
def execClusterDisable (a : Auth) (cluster : Nat) (s : State) : Result :=
  .next (mgmtSet a s (fun _ => decide (cluster < 24)) (fun s =>
    let bit := BitVec.ofNat 24 (2 ^ cluster)
    { s with sys := { s.sys with disabled := s.sys.disabled ||| bit, enabled := s.sys.enabled &&& ~~~bit } }))

end Sys2Proof.Machine
end

