-- ==== Sys2Proof/Machine/Start.lean ====
section
/-! DEFINITION. Start-up, in-field test, fatal errors, power and the clock (R157, R243, R250, R337, R372 to R378). -/

namespace Sys2Proof.Machine

/-! ### Times in clk (R3) -/

/-- The time in which stage 2 must be reached (R373). -/
def startClocks : Nat := 600 * clkPerSecond

/-- The time for which a passed test counts at a warm start (R373). -/
def dayClocks : Nat := 86400 * clkPerSecond

/-! ### Starts (R372 to R374) -/

/-- The slot the boot ROM starts from: the next active one, else the other; none where neither verifies (R374). -/
def Sys.bootSlot (y : Sys) : Option Nat :=
  let ok := fun k => slotOk (Tab.get Slot.empty y.slots k)
  if ok y.nextActive then some y.nextActive
  else if ok (1 - y.nextActive) then some (1 - y.nextActive) else none

/-- The lowest-numbered cluster of each die that has passed (R2, R372). -/
def firstClusters (passed : BitVec 24) : BitVec 24 :=
  (List.range 4).foldl (fun m d =>
    match (List.range 6).find? (fun k => passed.getLsbD (6 * d + k)) with
    | some k => m ||| BitVec.ofNat 24 (2 ^ (6 * d + k))
    | none => m) 0

/-- A start into stage 1, or stage 0 where no image verifies: passed holds the clusters whose BIST has passed; a cluster that
fails makes the start a failed one (R373, R374). -/
def Sys.started (y : Sys) (clock : Word64) (passed failing : BitVec 24) (last : Tab Word64) : Sys :=
  match y.bootSlot with
  | none => { y with stage := 0, testMode := false, recovery := false, enabled := 0, passed := 0, failing := 0, startClock := clock,
                     startFailed := false, idle := [] }
  | some k =>
    let bad := failing &&& ~~~y.disabled
    { y with stage := 1, testMode := false, recovery := false, active := k, nextActive := k, startClock := clock,
             passed := passed, failing := failing, enabled := firstClusters (passed &&& ~~~y.disabled), lastPass := last,
             startFailed := bad != 0, failedStarts := if bad = 0 then y.failedStarts else y.failedStarts + 1,
             throttle := .none, idle := [] }

/-- The clusters of a mask pass at this clock. -/
def markPassed (last : Tab Word64) (m : BitVec 24) (clock : Word64) : Tab Word64 :=
  (List.range 24).foldl (fun t k => if m.getLsbD k then Tab.put 0 t k clock else t) last

/-- COLD_START: everything comes up at reset, the clock at 0, HBM clear; BIST runs on every cluster (R157, R372, R373). Images of
firmware, the count of failed starts, a quarantine and what has been sent stand. -/
def execColdStart (bist : BitVec 24) (s : State) : Result :=
  let y := { Sys.reset with slots := s.sys.slots, active := s.sys.active, nextActive := s.sys.nextActive,
                            failedStarts := s.sys.failedStarts, quarantine := s.sys.quarantine }
  .next { State.reset with outbox := s.outbox, inbox := s.inbox, tick := s.tick, serial := s.serial,
                           sys := y.started 0 bist (~~~bist) [] }

/-- A cluster whose test passed within the last 24 hours, which a warm start does not test (R373). -/
def Sys.recent (y : Sys) (clock : Word64) : BitVec 24 :=
  (List.range 24).foldl (fun m k =>
    if y.passed.getLsbD k && decide ((clock - Tab.get 0 y.lastPass k).toNat ≤ dayClocks) then m ||| BitVec.ofNat 24 (2 ^ k) else m) 0

/-- The epoch of every valid set moves on at a warm start (R243). -/
def State.bumpAll (s : State) : State :=
  (List.range 16).foldl (fun s k => if majValid (s.majEntry k) then s.bumpEpoch k else s) s

/-- The configured roles of the banks: a bank that a window had made FIFO is SCRATCH, and one whose change waited for its window has its
new role (R209, R210). -/
def warmRoles (role due : Tab BankRole) : Tab BankRole :=
  due.foldl (fun t e => Tab.put (coldRole (e.1 % 32)) t e.1 e.2)
    (role.foldl (fun t e => Tab.put (coldRole (e.1 % 32)) t e.1 (if e.2 = .fifo then .scratch else e.2)) [])

/-- WARM_START: HBM, the hypervisor's tables and the checkpoint generations stand; no population, cave or cached line survives, and
clusters that passed within 24 hours are not tested (R215, R243, R336, R337, R373). -/
def execWarmStart (bist : BitVec 24) (s : State) : Result :=
  let passed := bist ||| s.sys.recent s.clock
  let t : State :=
    { State.reset with
      clock := s.clock, outbox := s.outbox, inbox := s.inbox, tick := s.tick, serial := s.serial, role := warmRoles s.role s.roleDue,
      hbm := s.hbm, hline := s.hline, hvWords := s.hvWords, wayMask := s.wayMask, majSet := s.majSet, majTag := s.majTag,
      majOwn := s.majOwn, majDue := s.majDue, stackFailed := s.stackFailed,
      vft := s.vft, ckptGen := s.ckptGen, mgmtSeq := s.mgmtSeq,
      sys := s.sys.started s.clock passed (~~~passed) (markPassed s.sys.lastPass (bist &&& ~~~(s.sys.recent s.clock)) s.clock) }
  .next t.bumpAll

/-- Every cluster that MGMT has not disabled has passed its BIST (R372). -/
def Sys.allPassed (y : Sys) (bist : BitVec 24) : Bool := y.passed ||| bist ||| y.disabled == BitVec.allOnes 24

/-- Every majority set is rebuilt: its failed copies rejoin (R250, R372). -/
def State.rebuild (s : State) : State :=
  { (List.range 16).foldl (fun s k =>
      let e := s.majEntry k
      if majValid e then s.majMove k (majLive e) (fun e => e &&& 0xFFE0FFFFFFFFFFFF#64) else s) s with stackFailed := 0 }

/-- The start has had its 600 s, and is not counted as failed yet (R373). -/
def State.startLate (s : State) : Bool := !s.sys.startFailed && decide (startClocks ≤ (s.clock - s.sys.startClock).toNat)

/-- STAGE_ADVANCE: the device comes to stage 2, unless three starts in a row have failed; a start that is late is counted first (R372,
R373). -/
def execStageAdvance (bist : BitVec 24) (s : State) : Result :=
  let y := s.sys
  if y.stage = 1 ∧ !y.recovery ∧ y.failedStarts < 3 ∧ !s.startLate ∧ y.allPassed bist then
    let passed := y.passed ||| bist
    .next ({ s with sys := { y with stage := 2, passed := passed, failing := 0, failedStarts := 0, startFailed := false,
                                    enabled := passed &&& ~~~y.disabled,
                                    lastPass := markPassed y.lastPass (bist &&& ~~~y.passed) s.clock } }.rebuild)
  else .refused (.notEnabled "STAGE_ADVANCE")

/-- START_TIMEOUT: stage 2 has not been reached within 600 s; the start is counted as failed once (R373). -/
def execStartTimeout (s : State) : Result :=
  if s.sys.stage ≠ 2 ∧ s.startLate then
    .next { s with sys := { s.sys with startFailed := true, failedStarts := s.sys.failedStarts + 1 } }
  else .refused (.notEnabled "START_TIMEOUT")

/-! ### In-field test (R376) -/

/-- A residency-log entry's word (R313). -/
def logWord (e : LogEntry) : Word64 :=
  BitVec.ofNat 64 (2 ^ 63 + 2 ^ 59 * e.vf + 2 ^ 53 * e.cave + 2 ^ 37 * e.popix + 2 ^ 5 * e.seq.toNat)

/-- The peers of a function whose REPORT right is set (R362). -/
def State.reporters (s : State) (vf : Nat) : List Nat :=
  (List.range (s.npeers vf)).filter (fun i =>
    match s.peerWords vf i with
    | some ws => peerValid i ws && (peerRights ws).getLsbD 6
    | none => false)

/-- A failed test: the cluster is quarantined, every function with entries in its log reports them to its peers, and the management
endpoint receives the whole log (R376; the form of the latter is the model's: DESIGN CHOICE, notes/assumptions/12.md). -/
def State.suspect (s : State) (cluster : Nat) : State :=
  let log := Tab.get [] s.log cluster
  let ovf := Tab.get false s.logOvf cluster
  let last := Tab.get 0 s.sys.lastPass cluster
  let vfs := (List.range 16).filter (fun v => log.any (fun e => e.vf == v))
  let out := vfs.flatMap (fun v => (s.reporters v).map (fun i => Out.suspect v i cluster last ovf (log.filter (fun e => e.vf == v))))
  let whole := bytesOfWords ([BitVec.ofNat 64 cluster, last, BitVec.ofNat 64 ovf.toNat] ++ log.map logWord)
  { s with sys := { s.sys with quarantine := s.sys.quarantine ||| BitVec.ofNat 24 (2 ^ cluster), idle := Tab.erase s.sys.idle cluster },
           outbox := s.outbox ++ out ++ [.mgmt 0x08 0 .ok whole] }

/-- The cluster is enabled, idle and due for its test, in either stage. -/
def State.testDue (s : State) (cluster : Nat) : Bool :=
  s.sys.stage != 0 && s.sys.enabled.getLsbD cluster && !s.sys.quarantine.getLsbD cluster
    && s.pops.all (fun e => e.2.cluster != cluster)
    && decide (minuteClocks s.sys.period ≤ (s.clock - Tab.get 0 s.sys.lastPass cluster).toNat)

/-- INFIELD_TEST: firmware tests an idle cluster; a pass clears its residency log (R313, R376). -/
def execInfieldTest (cluster : Nat) (pass : Bool) (s : State) : Result :=
  if s.testDue cluster then
    .next (if pass then
      { s with log := Tab.erase s.log cluster, logOvf := Tab.erase s.logOvf cluster,
               sys := { s.sys with lastPass := Tab.put 0 s.sys.lastPass cluster s.clock, idle := Tab.erase s.sys.idle cluster } }
    else s.suspect cluster)
  else .refused (.notEnabled "INFIELD_TEST")

/-! ### Fatal errors (R377) -/

/-- The dump: error records, trap registers, wait entries, reservation entries, fragments and caves; its layout is the model's
(DESIGN CHOICE, notes/assumptions/12.md). -/
def State.dumpBytes (s : State) : List Byte :=
  bytesOfWords (
    s.errRecords.flatMap (fun e => [BitVec.ofNat 64 e.vf, BitVec.ofNat 64 e.popid, e.addr, BitVec.ofNat 64 e.code])
    ++ s.pops.flatMap (fun e => e.2.cps.flatMap (fun x => [x.2.tpc, x.2.tcause, x.2.taddr, x.2.tlane] ++ waitWords x.2.wait))
    ++ s.frags.flatMap (fun e => BitVec.ofNat 64 e.1 :: fragWords e.2)
    ++ s.ovfs.flatMap (fun e => BitVec.ofNat 64 e.1 :: fragWords e.2)
    ++ s.caves.flatMap (fun e => BitVec.ofNat 64 e.1 :: e.2.words))
  ++ s.pops.flatMap (fun e => match e.2.stream with | some x => (streamSection s.clock e.1 e.2 x).take 16 | none => [])

/-- Lines written one after the other to a majority set. -/
def State.majLinesPut (set : Nat) : Nat → State → Nat → List Byte → State
  | 0, s, _, _ => s
  | n + 1, s, line, bs =>
    let data := bs.take 128
    let r := s.majBegin set line (data ++ List.replicate (128 - data.length) 0) false
    State.majLinesPut set n r.1 (line + 1) (bs.drop 128)

/-- The dump goes to the region of a majority set that MGMT has named, where the set can be written. -/
def State.dump (s : State) : State :=
  let e := s.majEntry s.sys.dumpSet
  if majValid e && !majLost e then
    let bs := s.dumpBytes.take s.sys.dumpLen
    let s := State.majLinesPut s.sys.dumpSet ((bs.length + 127) / 128) s (s.sys.dumpAddr / 128) bs
    { s with sys := { s.sys with dumpPresent := true } }
  else s

/-- A population stops as in an abort, with no arrival left to make (R316, R377). -/
def Pop.stopFatal (p : Pop) : Pop :=
  let arrives := fun (a : Access) => match a.op with | .arrive _ _ => true | _ => false
  { p.abort with cps := p.abort.cps.map (fun e => (e.1, { e.2 with pend := e.2.pend.filter (fun a => !arrives a) })) }

/-- The messages that wait for a repair or for the management processor are answered STAGE (R377). -/
def State.endHeld (s : State) : State :=
  let msgs := s.holds.map (fun h => h.msg) ++ s.launches.map (fun h => h.msg)
  msgs.foldl (fun s m => s.respond m .stage []) { s with holds := [], launches := [] }

/-- FATAL_ERROR: every population stops, tasks end unanswered, the dump is written, and the part is in recovery mode (R377). -/
def execFatalError (s : State) : Result :=
  let s := s.dump.endHeld
  .next { s with pops := s.pops.map (fun e => (e.1, e.2.stopFatal)), tasks := [], pending := [],
                 sys := { s.sys with recovery := true }, issuer := .none }

/-! ### Power and the clock (R157, R337, R378) -/

/-- What the power manager withholds, in the order in which it does so (R378). -/
def throttleRank : Throttle → Nat
  | .none => 0
  | .press => 1
  | .issue => 2
  | .bandwidth => 3

/-- POWER_THROTTLE: the power manager withholds the next thing in its order, which is counted, or gives back the last; only times change
with it (R375, R378). -/
def execPowerThrottle (level : Throttle) (s : State) : Result :=
  let k := throttleRank s.sys.throttle
  if throttleRank level = k + 1 then
    .next { s with sys := { s.sys with throttle := level, throttles := Tab.put 0 s.sys.throttles k (Tab.get 0 s.sys.throttles k + 1) } }
  else if throttleRank level + 1 = k then .next { s with sys := { s.sys with throttle := level } }
  else .refused (.notEnabled "POWER_THROTTLE")

/-- What a selector counts in one clk: clk, or the parked CPs of the core (R337). -/
def State.clockCount (s : State) (core : Nat) (sel : PmcSel) : Nat :=
  match sel.code with
  | 0x001 => 1
  | 0x00F => s.pops.foldl (fun n e =>
      if e.2.home = core ∧ (sel.only = none ∨ sel.only = some e.1) then n + (e.2.cps.filter (fun x => x.2.wait.isSome)).length else n) 0
  | _ => 0

/-- The clusters without an idle window, as the clock goes on: one with a population, and one whose test is owed (R376). -/
def State.idleWatch (s : State) : Tab Word64 :=
  let busy := (s.pops.map (fun e => e.2.cluster)).eraseDups
  busy.foldl (fun t k => if (Tab.find t k).isSome then t else Tab.insert t k s.clock)
    (s.sys.idle.filter (fun e => busy.contains e.1 || s.testOwed e.1))

/-- CLOCK_INCREMENT: the clock and every count kept in clk (R157, R337). -/
def execClockIncrement (s : State) : Result :=
  .next { s with clock := s.clock + 1, sys := { s.sys with idle := s.idleWatch },
                 pmc := s.pmcSel.foldl (fun t e =>
                   Tab.put 0 t e.1 (Tab.get 0 t e.1 + BitVec.ofNat 64 (s.clockCount (e.1 / 16) e.2))) s.pmc }

end Sys2Proof.Machine
end

