-- ==== Sys2Proof/Machine/Act.lean ====
section
/-! DEFINITION. What storage, firmware and the copies of majority lines do of their own accord, beside the events of the opcode table: the
causes that the tables of changes name and no instruction carries (R211, R214, R238, R246, R249, R251, R264, R276, R375; DESIGN CHOICE,
notes/assumptions/1.md). -/

namespace Sys2Proof.Machine

inductive Act where
  /-- 8 bytes of a line come to be uncorrectable: the line of a place, at the place (R211). -/
  | storageError (loc : Loc)
  /-- Firmware repairs a line, which clears its poison (R211, R238). -/
  | repairLine (loc : Loc)
  /-- A tile meets an uncorrectable error (R264). -/
  | tileError (cluster tile : Nat)
  /-- L2 gives up a dirty line, which goes to HBM (R214). -/
  | evict (line : Nat)
  /-- Firmware sets the rate of a stack's scrubber, 0 for stopped (R251). -/
  | setScrubRate (stack rate : Nat)
  /-- A copy does not answer a read of its home, yet (R246, R249). -/
  | copyLate (set line copy : Nat)
  /-- It answers after all. -/
  | copyAnswers (serial : Nat)
  /-- Firmware writes a function's capability page (R375). -/
  | capabilityPage (vf : Nat)
  deriving DecidableEq, Repr

/-- The leaves that map majority pages for a function below a table, with their levels (R207, R306). -/
def State.majLeaves (s : State) (vf : Nat) : Nat → Nat → List (Nat × Word64)
  | 0, _ => []
  | fuel + 1, table =>
    (List.range 1024).flatMap (fun k =>
      match s.entryAt (table + 8 * k) with
      | .error _ => []
      | .ok e =>
        if !e.getLsbD 0 then []
        else if e.getLsbD 5 then (if e.getLsbD 8 && !s.majRefused vf (table + 8 * k) e then [(4 - fuel, e)] else [])
        else s.majLeaves vf fuel (frameOf e))

/-- A leaf of this level gives the pages of a set a copy in this line (R208, R241). -/
def State.leafCopies (s : State) (line level : Nat) (e : Word64) : Bool :=
  let size := pageBytes level
  let base := frameOf e / size * size
  (majStacks (s.majEntry (e.extractLsb' 9 4).toNat)).contains (line % 12)
    && decide (base ≤ 128 * (line / 12)) && decide (128 * (line / 12) < base + size)

/-- Some function's majority page has a copy in this line; no page is one before the hypervisor has written a table (R306). -/
def State.majMapped (s : State) (line : Nat) : Bool :=
  s.hvWords != [] && (List.range 16).any (fun vf => (List.range 4096).any (fun asid =>
    match s.entryAt (s.dirAddr vf (BitVec.ofNat 12 asid)) with
    | .error _ => false
    | .ok d => d.getLsbD 0 && (s.majLeaves vf 4 (frameOf d)).any (fun x => s.leafCopies line x.1 x.2)))

/-- The line of a place holds no copy of a majority line, whose repair is a write-back (R246, R253). -/
def State.notCopy (s : State) : Loc → Bool
  | .store _ _ => true
  | .hbm pa _ => (Tab.find s.majOwn (pa / 128)).isNone && !s.majMapped (pa / 128)
  | .maj _ _ => false

/-- A place of storage that exists (R208, R211). -/
def Loc.exists? : Loc → Bool
  | .store k a => decide (k < 24) && decide (a < 16777216)
  | .hbm pa _ => decide (pa < hbmBytes)
  | .maj _ _ => false

/-- The SECDED word of a place in its line (R211). -/
def Loc.secded (loc : Loc) : BitVec 16 := BitVec.ofNat 16 (2 ^ (loc.inLine / 8))

/-- The first byte of a place's line, which no cache holds on its way. -/
def Loc.lineStart : Loc → Loc
  | .store k a => .store k (a / 128 * 128)
  | .hbm pa _ => .hbm (pa / 128 * 128) 2
  | .maj t o => .maj t (o / 128 * 128)

/-- The line's bytes once firmware has repaired it: the spec gives them no value, and each is free (R211; DESIGN CHOICE,
notes/assumptions/2.md). -/
def State.repair (s : State) (loc : Loc) : State :=
  let b := s.openBytes 128
  (b.1.writeLoc 0 loc.lineStart b.2).1.signal (sameLine loc)

/-- An uncorrectable error in a tile poisons it, and the completion of its population's stream carries POISON (R264). -/
def State.tileError (s : State) (cluster tile : Nat) : State :=
  let s := s.poisonTile cluster tile true
  { s with pops := s.pops.map (fun e => (e.1,
      if e.2.cluster = cluster ∧ e.2.tiles.getLsbD tile then { e.2 with stream := e.2.stream.map (fun x => { x with poison := true }) }
      else e.2)) }

/-- A capability page is written at the frame where the hypervisor maps it (R375). -/
def State.writeCapabilities (s : State) (vf : Nat) : State :=
  let base := 512 * (Config.capabilityFrame vf).toNat
  State.writeLines vf 512 s base (s.capabilityPage vf)

/-- The act comes about where it can. -/
def State.act (s : State) (a : Act) : Result :=
  let allow := fun (ok : Bool) (t : State) => if ok then (.next t : Result) else .refused (.notEnabled "ACT")
  match a with
  | .storageError loc =>
    let x := s.lineState loc
    allow loc.exists? (s.setLineState { x with bad := x.bad ||| loc.secded } loc)
  | .repairLine loc => allow (loc.exists? && s.notCopy loc && s.lineState loc != LineState.clean) (s.repair loc)
  | .tileError k t => allow (decide (k < 24) && decide (t < 16)) (s.tileError k t)
  | .evict line => allow (Tab.find s.l2 line).isSome (s.writeBack line)
  | .setScrubRate k n => allow (decide (k < 12) && decide (n ≤ 1048576)) { s with scrubRate := Tab.put 1048576 s.scrubRate k n }
  | .copyLate set line copy =>
    let e := s.majEntry set
    let n := s.fresh
    allow (decide (set < 16) && majValid e && !majLost e && (majLive e).contains copy && decide (128 * line < stackBytes))
      { n.2 with majAsks := n.2.majAsks ++ [{ serial := n.1, set := set, line := line, copy := copy, since := s.clock, reported := false }] }
  | .copyAnswers serial =>
    allow (s.majAsks.any (fun x => x.serial == serial)) { s with majAsks := s.majAsks.filter (fun x => x.serial != serial) }
  | .capabilityPage vf =>
    allow (decide (vf < 16) && (s.vfWord vf 0).getLsbD 63 && s.sys.stage != 0
        && decide (65536 * ((Config.capabilityFrame vf).toNat + 1) ≤ hbmBytes)) (s.writeCapabilities vf)

/-- The acts that can be tried at this moment; what storage does, and to which value a rate is set, is a draw. -/
def State.acts (s : State) : List Act :=
  let d := Config.hidden s.tick
  let x := d.toNat
  [.storageError (.store (x % 24) (x / 32 % 16777216)), .storageError (.hbm (x % hbmBytes) 1), .tileError (x % 24) (x / 32 % 16),
   .setScrubRate (x % 12) (x / 16 % 1048577)]
    ++ s.cline.map (fun e => .repairLine (.store (e.1 / 131072) (128 * (e.1 % 131072))))
    ++ s.hline.map (fun e => .repairLine (.hbm (128 * e.1) 1))
    ++ s.l2.map (fun e => .evict e.1)
    ++ s.majSet.map (fun e => .copyLate e.1 (x % 402653184) (x / 2 ^ 32 % 5))
    ++ s.majAsks.map (fun a => .copyAnswers a.serial)
    ++ (List.range 16).map .capabilityPage

end Sys2Proof.Machine
end

