-- ==== Sys2Proof/Machine/Debug.lean ====
section
/-! DEFINITION. The debugger (R321, R322). -/

namespace Sys2Proof.Machine

/-- A control program that is halted (R321). -/
def State.haltedCp (s : State) (cp : CpRef) : Option (Pop × Cp) :=
  match s.cpOf cp with
  | some (p, c) => if c.halted && !c.ended then some (p, c) else none
  | none => none

/-- DEBUG_ATTACH: BRK and every trap of the CP halt it from now on (R321). -/
def execDebugAttach (a : Auth) (cp : CpRef) (s : State) : Result :=
  .next (mgmtSet a s (fun s => match s.cpOf cp with | some (_, c) => !c.ended | none => false)
    (fun s => s.updCp cp (fun c => { c with attached := true })))

/-- DEBUG_HALT: the CP of the function halts where it is parked or at a boundary, at once or when it comes to one (R321). -/
def execDebugHalt (a : Auth) (vf : Nat) (cp : CpRef) (s : State) : Result :=
  .next (mgmtSet a s (fun s => match s.cpOf cp with | some (p, c) => p.vf == vf && !c.ended | none => false)
    (fun s => s.updCp cp (fun c => if c.issuing then { c with haltDue := true } else { c with halted := true })))

/-- The bytes of an item of a halted CP (R318, R322); none for a number beyond its range. -/
def debugItem (s : State) (cp : CpRef) (p : Pop) (c : Cp) : DebugItem → Option (List Byte)
  | .scalar r => if r.toNat < 192 then some (bytesOf 8 (c.getS r)) else none
  | .set r => some (bytesOf (setBytes p.lanes) (c.getM r))
  | .level n => if n < 32 then some (bytesOf (setBytes p.lanes) (c.stack.getD n 0)) else none
  | .control n => if n ≤ 22 then some (bytesOf 8 (controlReg s cp p c n)) else none
  | .pc => some (bytesOfWords [c.hdr, BitVec.ofNat 64 (512 * c.save.isSome.toNat + 256 * c.halted.toNat + c.widx)])
  | .region => some (bytesOfWords [c.entry, BitVec.ofNat 64 (256 * c.depth + c.d0)])
  | .wait => some (bytesOfWords (waitWords c.wait))
  | .save => some (match c.save with
    | some v => bytesOfWords ([v.hdr, BitVec.ofNat 64 v.stack.length] ++ (List.range 192).map (fun k => Tab.get 0 v.s k))
        ++ setSection (setBytes p.lanes) v.m v.stack
    | none => List.replicate (1552 + 48 * setBytes p.lanes) 0)
  | .lane i r => if i < p.lanes ∧ r.toNat < p.regs then some (bytesOf 4 (p.getV i r.toNat)) else none
  | .status i => if i < p.lanes then some (bytesOf 2 (BitVec.ofNat 16 (statusBits (p.statusOf i)))) else none

/-- DEBUG_READ (R322). -/
def execDebugRead (a : Auth) (cp : CpRef) (item : DebugItem) (s : State) : Result :=
  .next (mgmt a s (fun s =>
    match s.haltedCp cp with
    | none => s.mgmtReply (authTag a) .badMsg []
    | some (p, c) =>
      match debugItem s cp p c item with
      | some bs => s.mgmtReply (authTag a) .ok bs
      | none => s.mgmtReply (authTag a) .badMsg []))

/-- A written program counter: the wait entry stands until its own condition ends it (R310, R322, R323). -/
def Cp.sendTo (c : Cp) (clock hdr : Word64) : Cp := { c.atHdr clock hdr with succ := none }

/-- A set stack whose levels each lie within the one below (R185). -/
def nested : LaneSet → List LaneSet → List LaneSet
  | _, [] => []
  | b, x :: l => (x &&& b) :: nested (x &&& b) l

/-- A debugger's write of a set register or of a level in use: unlaunched bits stay 0, and each level lies within the one below, m0 within
the top (R184, R185). R202 names no debugger among the causes that change a level, R322 does (DEDUCED, notes/assumptions/71.md). -/
def Cp.putLevel (c : Cp) (lanes n : Nat) (v : LaneSet) : Cp :=
  let c := { c with stack := nested (launched lanes) (c.stack.set n v) }
  c.writeM 0 (c.getM 0)

/-- A write that the halted CP admits. -/
def debugFits (p : Pop) (c : Cp) : DebugWrite → Bool
  | .scalar r _ => decide (r.toNat < 192)
  | .set _ _ => true
  | .level n _ => decide (n < c.depth)
  | .pc _ => true
  | .lanes ws => ws.all (fun w => decide (w.1 < p.lanes) && decide (w.2.1.toNat < p.regs))

/-- A debugger's write to a halted CP is no clause: no order of clauses counts it (R22, R153, R322; DESIGN CHOICE,
notes/assumptions/45.md). -/
def debugPut (s : State) (cp : CpRef) : DebugWrite → State
  | .scalar r v => s.updCp cp (fun c => c.setS r v)
  | .set r v => s.updPop cp.pid (fun p => p.updCp cp.cid (fun c => c.writeM r (v &&& launched p.lanes)))
  | .level n v => s.updPop cp.pid (fun p => p.updCp cp.cid (fun c => c.putLevel p.lanes n v))
  | .pc hdr => s.updCp cp (fun c => c.sendTo s.clock hdr)
  | .lanes ws => s.updPop cp.pid (fun p => ws.foldl (fun p w => p.setV w.1 w.2.1.toNat w.2.2) p)

/-- Lane registers change only between the clauses of the population (R322). -/
def debugNow (s : State) (cp : CpRef) : DebugWrite → Bool
  | .lanes _ => match s.pop cp.pid with | some p => p.quiet | none => true
  | .scalar _ _ | .set _ _ | .level _ _ | .pc _ => true

/-- DEBUG_WRITE (R322). -/
def execDebugWrite (a : Auth) (cp : CpRef) (w : DebugWrite) (s : State) : Result :=
  if authFails a s || debugNow s cp w then
    .next (mgmtSet a s (fun s => match s.haltedCp cp with | some (p, c) => debugFits p c w | none => false)
      (fun s => debugPut s cp w))
  else .refused (.notEnabled "DEBUG_WRITE")

/-- The halt is released; a held trap goes the way of the population's policy (R314, R322). -/
def letGo (s : State) (cp : CpRef) (step : Bool) : State :=
  let s := s.updCp cp (fun c =>
    { c with halted := false, haltDue := false, stepping := step, readySince := s.clock, promoted := false })
  deliver s cp

/-- DEBUG_STEP: one clause issues, after which the CP halts again (R322). -/
def execDebugStep (a : Auth) (cp : CpRef) (s : State) : Result :=
  .next (mgmtSet a s (fun s => (s.haltedCp cp).isSome) (fun s => letGo s cp true))

/-- DEBUG_RESUME (R322). -/
def execDebugResume (a : Auth) (cp : CpRef) (s : State) : Result :=
  .next (mgmtSet a s (fun s => (s.haltedCp cp).isSome) (fun s => letGo s cp false))

/-- DEBUG_DETACH: the debugger lets go of every CP, and every halted one resumes (R322). -/
def execDebugDetach (a : Auth) (s : State) : Result :=
  .next (mgmtSet a s (fun _ => true) (fun s =>
    let all := s.pops.flatMap (fun e => e.2.cps.map (fun x => (({ pid := e.1, cid := x.1 } : CpRef), x.2.halted)))
    all.foldl (fun s e =>
      let s := s.updCp e.1 (fun c => { c with attached := false, haltDue := false, stepping := false })
      if e.2 then letGo s e.1 false else s) s))

end Sys2Proof.Machine
end

