-- ==== Sys2Proof/Machine/LaneFloat.lean ====
section
/-! DEFINITION. The lane floating, conversion, generator and cross-lane instructions 0x80 to 0x95 (R136 to R151). -/

namespace Sys2Proof.Machine

/-- A floating word of two or three operands, each element rounded on its own (R138). -/
def laneFloat (mn : String) (i : Instr) (rnd : Rnd) (o : Lv2) (s : State)
    (f : FpFmt → FpEnv → Nat → Nat → Nat → Nat × Flags) : Result :=
  onCp mn i s (fun r p c s => laneTwo s r p c o (f (fpOf o.ty) (envOf c rnd)))

/-- A floating word of one operand. -/
def laneFloat1 (mn : String) (i : Instr) (rnd : Rnd) (o : Lv1) (s : State) (f : FpFmt → FpEnv → Nat → Nat × Flags) : Result :=
  onCp mn i s (fun r p c s => laneOne s r p c o (f (fpOf o.ty) (envOf c rnd)))

def execVfadd (rnd : Rnd) (o : Lv2) (s : State) : Result :=
  laneFloat "VFADD" (.vfadd rnd o) rnd o s (fun f e a b _ => fAdd f e a b)
def execVfsub (rnd : Rnd) (o : Lv2) (s : State) : Result :=
  laneFloat "VFSUB" (.vfsub rnd o) rnd o s (fun f e a b _ => fSub f e a b)
def execVfmul (rnd : Rnd) (o : Lv2) (s : State) : Result :=
  laneFloat "VFMUL" (.vfmul rnd o) rnd o s (fun f e a b _ => fMul f e a b)
def execVfma (rnd : Rnd) (o : Lv2) (s : State) : Result :=
  laneFloat "VFMA" (.vfma rnd o) rnd o s (fun f e a b d => fFma f e false false a b d)
def execVfms (rnd : Rnd) (o : Lv2) (s : State) : Result :=
  laneFloat "VFMS" (.vfms rnd o) rnd o s (fun f e a b d => fFma f e false true a b d)
def execVfnma (rnd : Rnd) (o : Lv2) (s : State) : Result :=
  laneFloat "VFNMA" (.vfnma rnd o) rnd o s (fun f e a b d => fFma f e true false a b d)
def execVfmin (o : Lv2) (s : State) : Result :=
  laneFloat "VFMIN" (.vfmin o) .mode o s (fun f e a b _ => fMinMax f e false a b)
def execVfmax (o : Lv2) (s : State) : Result :=
  laneFloat "VFMAX" (.vfmax o) .mode o s (fun f e a b _ => fMinMax f e true a b)

/-- VFABS clears the sign bit of every pattern (R142). -/
def execVfabs (o : Lv1) (s : State) : Result :=
  laneFloat1 "VFABS" (.vfabs o) .mode o s (fun f _ a => (a % f.signW, 0))

/-- VFNEG inverts the sign bit of every pattern (R142). -/
def execVfneg (o : Lv1) (s : State) : Result :=
  laneFloat1 "VFNEG" (.vfneg o) .mode o s (fun f _ a => (a ^^^ f.signW, 0))

def execVfdiv (rnd : Rnd) (o : Lv2) (s : State) : Result :=
  laneFloat "VFDIV" (.vfdiv rnd o) rnd o s (fun f e a b _ => fDiv f e a b)
def execVfsqrt (rnd : Rnd) (o : Lv1) (s : State) : Result := laneFloat1 "VFSQRT" (.vfsqrt rnd o) rnd o s fSqrt
def execVfrnd (rnd : Rnd) (o : Lv1) (s : State) : Result := laneFloat1 "VFRND" (.vfrnd rnd o) rnd o s fRound

/-- The scale of VFSCALE (R140): an element read as a signed integer, or imm21 sign-extended. -/
def scaleOf (t : Ty) (b : BSrc) (x : Nat) : Int :=
  match b with
  | .imm v => v.toInt
  | .reg _ | .scalar _ => senseOf true t.bits x

def execVfscale (rnd : Rnd) (o : Lv2) (s : State) : Result :=
  laneFloat "VFSCALE" (.vfscale rnd o) rnd o s (fun f e a b _ => fScale f e a (scaleOf o.ty o.b b))

def execVfclass (o : Lv1) (s : State) : Result :=
  laneFloat1 "VFCLASS" (.vfclass o) .mode o s (fun f _ a => (fClass f a, 0))

/-- One element converted between two types (R144). -/
def convElem (dst src : Ty) (env : FpEnv) (x : Nat) : Nat × Flags :=
  if src.isFloat then
    if dst.isFloat then fConv (fpOf src) (fpOf dst) env x
    else let v := fToInt (fpOf src) env dst.isSigned dst.bits x; (patOf dst.bits v.1, v.2)
  else intToF (fpOf dst) env (sense src x)

/-- The elements of VCVT in one lane (R143): k = max of the two element counts, each side in consecutive registers. -/
def convLane (p : Pop) (lane : Nat) (dst src : Ty) (env : FpEnv) (va : Nat) : List (Nat × Flags) :=
  (List.range (max dst.elems src.elems)).map (fun j =>
    convElem dst src env (elemOf src (p.pat lane src (va + j / src.elems * src.regs)) (j % src.elems)))

/-- The destination registers of a converted list. -/
def putConv (p : Pop) (lane : Nat) (dst : Ty) (vd : Nat) (xs : List Nat) : Pop :=
  (List.range (xs.length / dst.elems)).foldl (fun p g =>
    p.putPat lane dst (vd + g * dst.regs)
      ((List.range dst.elems).foldl (fun acc k =>
        acc + xs.getD (g * dst.elems + k) 0 % 2 ^ dst.bits * 2 ^ (dst.bits * k)) 0)) p

def execVcvt (rnd : Rnd) (dst src : Ty) (mask : MReg) (vd va : VReg) (s : State) : Result :=
  onCp "VCVT" (.vcvt rnd dst src mask vd va) s (fun r p c s =>
    let rs := (p.laneList (acting p c mask)).map (fun i => (i, convLane p i dst src (envOf c rnd) va.toNat))
    let flagsOf := fun (l : List (Nat × Flags)) => l.foldl (fun acc e => acc ||| e.2) (0 : Flags)
    let fl := rs.foldl (fun acc e => acc ||| flagsOf e.2) 0
    let s := s.countActing r p (rs.map (fun e => e.1))
    let s := s.updPop r.pid (fun p => rs.foldl (fun p e => putConv p e.1 dst vd.toNat (e.2.map (·.1))) p)
    finish s r fl (firstRaised c.enables (rs.map (fun e => (e.1, flagsOf e.2)))))

/-- VUNIF converts a generator word or pair (R110, R146). -/
def execVunif (o : Lv1) (s : State) : Result :=
  onCp "VUNIF" (.vunif o) s (fun r p c s => laneOne s r p c o (fun a => (uniform o.ty a, 0)))

/-- One round of Philox-4×32 (R108). -/
def philoxRound (k0 k1 : Word32) (x : Word32 × Word32 × Word32 × Word32) : Word32 × Word32 × Word32 × Word32 :=
  let p : Word64 := 0xD2511F53#64 * x.1.zeroExtend 64
  let q : Word64 := 0xCD9E8D57#64 * x.2.2.1.zeroExtend 64
  (q.extractLsb' 32 32 ^^^ x.2.1 ^^^ k0, q.extractLsb' 0 32, p.extractLsb' 32 32 ^^^ x.2.2.2 ^^^ k1, p.extractLsb' 0 32)

/-- n rounds, the keys rising after each (R108). -/
def philox : Nat → Word32 → Word32 → Word32 × Word32 × Word32 × Word32 → Word32 × Word32 × Word32 × Word32
  | 0, _, _, x => x
  | n + 1, k0, k1, x => philox n (k0 + 0x9E3779B9) (k1 + 0xBB67AE85) (philoxRound k0 k1 x)

def execVrand (mask : MReg) (vd va : VReg) (sb : SReg) (s : State) : Result :=
  onCp "VRAND" (.vrand mask vd va sb) s (fun r p c s =>
    let key := c.getS sb
    let rs := (p.laneList (acting p c mask)).map (fun i =>
      let v := fun k => p.getV i (va.toNat + k)
      (i, philox 10 (key.extractLsb' 0 32) (key.extractLsb' 32 32) (v 0, v 1, v 2, v 3)))
    let s := s.countActing r p (rs.map (fun e => e.1))
    let s := s.updPop r.pid (fun p => rs.foldl (fun p e =>
      (((p.setV e.1 vd.toNat e.2.1).setV e.1 (vd.toNat + 1) e.2.2.1).setV e.1 (vd.toNat + 2) e.2.2.2.1).setV e.1
        (vd.toNat + 3) e.2.2.2.2) p)
    advance s r)

/-! ### Cross-lane instructions -/

/-- The pattern of lane j whatever its membership, 0 beyond the launched lanes (R148). -/
def crossPat (p : Pop) (t : Ty) (reg j : Nat) : Nat := if j < p.lanes then p.pat j t reg else 0

/-- The lane index that a b operand gives a lane (R148). -/
def crossIndex (p : Pop) (c : Cp) (lane : Nat) : BSrc → Nat
  | .reg vb => (p.getV lane vb.toNat).toNat
  | .scalar sb => (c.getS sb).toNat % 2 ^ 32
  | .imm v => v.toNat

/-- VBCAST and VSHFL write to every lane of A the va of the lane its index names (R148, R149). -/
def crossLane (s : State) (r : CpRef) (p : Pop) (c : Cp) (o : Lv2) : State :=
  laneWord s r p c o.mask o.ty o.vd (fun i => (crossPat p o.ty o.va.toNat (crossIndex p c i o.b), 0))

def execVbcast (o : Lv2) (s : State) : Result := onRci "VBCAST" (.vbcast o) s (fun r p c s => crossLane s r p c o)

/-- One step of a running sum on an element (R150). -/
def scanStep (t : Ty) (c : Cp) (m : ScanMode) (a b : Nat) : Nat × Flags :=
  match m with
  | .int im => fit im t.isSigned t.bits (sense t a + sense t b)
  | .fp rnd => fAdd (fpOf t) (envOf c rnd) a b

/-- The running sums of a list of lane patterns, the first taken as it stands (R107, R150). -/
def scanLanes (t : Ty) (f : Nat → Nat → Nat × Flags) : Option Nat → List (Nat × Nat) → List (Nat × Nat × Flags)
  | _, [] => []
  | none, (i, x) :: l => (i, x, 0) :: scanLanes t f (some x) l
  | some a, (i, x) :: l =>
    let v := mapElems t (fun a b _ => f a b) a x 0
    (i, v.1, v.2) :: scanLanes t f (some v.1) l

def execVscan (m : ScanMode) (o : Lv1) (s : State) : Result :=
  onRci "VSCAN" (.vscan m o) s (fun r p c s =>
    let rs := scanLanes o.ty (scanStep o.ty c m) none
      ((p.laneList (acting p c o.mask)).map (fun i => (i, p.pat i o.ty o.va.toNat)))
    let fl := rs.foldl (fun acc e => acc ||| e.2.2) 0
    let s := s.countActing r p (rs.map (fun e => e.1))
    let s := s.updPop r.pid (fun p => putLanes p o.ty o.vd.toNat rs)
    finish s r fl (firstRaised c.enables (rs.map (fun e => (e.1, e.2.2)))))

/-- VCOMPACT packs the lanes of A into the lowest lanes of m0 ∧ L (R151). -/
def execVcompact (o : Lv1) (s : State) : Result :=
  onRci "VCOMPACT" (.vcompact o) s (fun r p c s =>
    let src := p.laneList (acting p c o.mask)
    let dst := p.laneList (acting p c 0)
    let rs := (dst.zip src).map (fun e => (e.1, p.pat e.2 o.ty o.va.toNat, (0 : Flags)))
    let s := s.countActing r p src
    advance (s.updPop r.pid (fun p => putLanes p o.ty o.vd.toNat rs)) r)

def execVshfl (o : Lv2) (s : State) : Result := onRci "VSHFL" (.vshfl o) s (fun r p c s => crossLane s r p c o)

end Sys2Proof.Machine
end

