-- ==== Sys2Proof/Machine/LaneInt.lean ====
section
/-! DEFINITION. The lane integer instructions 0x60 to 0x7B (R118 to R132). -/

namespace Sys2Proof.Machine

/-- An arithmetic word that computes on exact integers and applies fit once (R121). -/
def laneFit (mn : String) (i : Instr) (m : IMode) (o : Lv2) (s : State) (f : Int → Int → Int → Int) : Result :=
  onCp mn i s (fun r p c s =>
    laneTwo s r p c o (fun a b d => fit m o.ty.isSigned o.ty.bits (f (sense o.ty a) (sense o.ty b) (sense o.ty d))))

/-- A word on the raw element patterns. -/
def laneBits (mn : String) (i : Instr) (o : Lv2) (s : State) (f : Nat → Nat → Nat → Nat) : Result :=
  onCp mn i s (fun r p c s => laneTwo s r p c o (fun a b d => (f a b d, 0)))

/-- A one-source word on the raw element patterns. -/
def laneBits1 (mn : String) (i : Instr) (o : Lv1) (s : State) (f : Nat → Nat) : Result :=
  onCp mn i s (fun r p c s => laneOne s r p c o (fun a => (f a, 0)))

def execVadd (m : IMode) (o : Lv2) (s : State) : Result := laneFit "VADD" (.vadd m o) m o s (fun a b _ => a + b)
def execVsub (m : IMode) (o : Lv2) (s : State) : Result := laneFit "VSUB" (.vsub m o) m o s (fun a b _ => a - b)
def execVmul (m : IMode) (o : Lv2) (s : State) : Result := laneFit "VMUL" (.vmul m o) m o s (fun a b _ => a * b)
/-- floor(a × b / 2^w) (R122). -/
def execVmulh (o : Lv2) (s : State) : Result :=
  laneFit "VMULH" (.vmulh o) .wrap o s (fun a b _ => a * b / 2 ^ o.ty.bits)
def execVmad (m : IMode) (o : Lv2) (s : State) : Result := laneFit "VMAD" (.vmad m o) m o s (fun a b d => d + a * b)
def execVmin (o : Lv2) (s : State) : Result := laneFit "VMIN" (.vmin o) .wrap o s (fun a b _ => min a b)
def execVmax (o : Lv2) (s : State) : Result := laneFit "VMAX" (.vmax o) .wrap o s (fun a b _ => max a b)

/-- VABS (R124): the exact absolute value through fit. -/
def execVabs (m : IMode) (o : Lv1) (s : State) : Result :=
  onCp "VABS" (.vabs m o) s (fun r p c s =>
    laneOne s r p c o (fun a => let x := sense o.ty a; fit m o.ty.isSigned o.ty.bits (if x < 0 then -x else x)))

/-- VNEG (R124): the exact negation through fit. -/
def execVneg (m : IMode) (o : Lv1) (s : State) : Result :=
  onCp "VNEG" (.vneg m o) s (fun r p c s =>
    laneOne s r p c o (fun a => fit m o.ty.isSigned o.ty.bits (-(sense o.ty a))))

def execVand (o : Lv2) (s : State) : Result := laneBits "VAND" (.vand o) o s (fun a b _ => a &&& b)
def execVor (o : Lv2) (s : State) : Result := laneBits "VOR" (.vor o) o s (fun a b _ => a ||| b)
def execVxor (o : Lv2) (s : State) : Result := laneBits "VXOR" (.vxor o) o s (fun a b _ => a ^^^ b)
def execVandn (o : Lv2) (s : State) : Result :=
  laneBits "VANDN" (.vandn o) o s (fun a b _ => a &&& (2 ^ o.ty.bits - 1 - b))
def execVnot (o : Lv1) (s : State) : Result := laneBits1 "VNOT" (.vnot o) o s (fun a => 2 ^ o.ty.bits - 1 - a)

/-- The shifts take each element's count modulo w; code 001 has no effect (R87, R120, R126). -/
def execVshl (m : IMode) (o : Lv2) (s : State) : Result :=
  laneBits "VSHL" (.vshl m o) o s (fun a b _ => shiftLeft o.ty.bits a (b % o.ty.bits))
def execVshr (m : IMode) (o : Lv2) (s : State) : Result :=
  laneBits "VSHR" (.vshr m o) o s (fun a b _ => shiftRight a (b % o.ty.bits))
def execVsar (m : IMode) (o : Lv2) (s : State) : Result :=
  laneBits "VSAR" (.vsar m o) o s (fun a b _ => shiftArith o.ty.bits a (b % o.ty.bits))
def execVrot (m : IMode) (o : Lv2) (s : State) : Result :=
  laneBits "VROT" (.vrot m o) o s (fun a b _ => rotateLeft o.ty.bits a (b % o.ty.bits))

def execVclz (o : Lv1) (s : State) : Result := laneBits1 "VCLZ" (.vclz o) o s (leadingZeros o.ty.bits)
def execVpopc (o : Lv1) (s : State) : Result := laneBits1 "VPOPC" (.vpopc o) o s (popCount o.ty.bits)
def execVbrev (o : Lv1) (s : State) : Result := laneBits1 "VBREV" (.vbrev o) o s (reverseBits o.ty.bits)

def execVext (o : Lv2) (s : State) : Result :=
  laneBits "VEXT" (.vext o) o s (fun a b _ => extractField o.ty.isSigned o.ty.bits a b)
def execVins (o : Lv2) (s : State) : Result :=
  laneBits "VINS" (.vins o) o s (fun a b d => insertField o.ty.bits a b d)

/-- VSAD accumulates the sum of the elements' absolute differences into vd read as N32 (R129). -/
def execVsad (m : IMode) (o : Lv2) (s : State) : Result :=
  onCp "VSAD" (.vsad m o) s (fun r p c s =>
    laneWord s r p c o.mask .n32 o.vd (fun i =>
      let a := p.pat i o.ty o.va.toNat
      let b := bPat p c i o.ty o.b
      let d : Nat := (List.range o.ty.elems).foldl (fun acc k =>
        acc + (sense o.ty (elemOf o.ty a k) - sense o.ty (elemOf o.ty b k)).natAbs) 0
      fit m false 32 ((p.getV i o.vd.toNat).toNat + d)))

/-- VSEL chooses by the raw pattern of the old vd (R130). -/
def execVsel (o : Lv2) (s : State) : Result :=
  laneBits "VSEL" (.vsel o) o s (fun a b d => if d ≠ 0 then a else b)

def execVmov (o : LvMove) (s : State) : Result :=
  onCp "VMOV" (.vmov o) s (fun r p c s => laneWord s r p c o.mask o.ty o.vd (fun i => (bPat p c i o.ty o.b, 0)))

/-- The pattern VMOVI writes (R72). -/
def vmoviPat (ty : Ty) (imm : BitVec 32) : Nat :=
  match ty with
  | .s64 | .n64 => (imm.signExtend 64).toNat
  | .f64 => widenF32 imm.toNat
  | .s8 | .n8 | .s16 | .n16 | .s32 | .n32 | .f16 | .b16 | .f32 | .nb8 => imm.toNat

def execVmovi (ty : Ty) (mask : MReg) (vd : VReg) (imm : BitVec 32) (s : State) : Result :=
  onCp "VMOVI" (.vmovi ty mask vd imm) s (fun r p c s => laneWord s r p c mask ty vd (fun _ => (vmoviPat ty imm, 0)))

/-- VID writes the lane index (R132). -/
def execVid (o : Lv0) (s : State) : Result :=
  onCp "VID" (.vid o) s (fun r p c s => laneWord s r p c o.mask o.ty o.vd (fun i => (i, 0)))

end Sys2Proof.Machine
end

