-- ==== Sys2Proof/Machine/Scalar.lean ====
section
/-! DEFINITION. The scalar instructions 0x20 to 0x3B (R162 to R167). -/

namespace Sys2Proof.Machine

/-- An integer X word: sd ← ext of an exact result modulo 2^w, from the operands in the type's sense (R164). -/
def xInt (mn : String) (i : Instr) (o : X2) (s : State) (f : Int → Int → Int) : Result :=
  onCp mn i s (fun r _ c s =>
    scalarDone s r o.sd
      (ext o.ty (patOf o.ty.bits (f (sense o.ty (xpat o.ty (c.getS o.sa))) (sense o.ty (xpat o.ty (xsrc c o.ty o.b)))))) 0)

/-- An integer X word on the w-bit patterns of its operands. -/
def xBits (mn : String) (i : Instr) (o : X2) (s : State) (f : Nat → Nat → Nat) : Result :=
  onCp mn i s (fun r _ c s =>
    scalarDone s r o.sd (ext o.ty (f (xpat o.ty (c.getS o.sa)) (xpat o.ty (xsrc c o.ty o.b)))) 0)

/-- A floating X word with two operands: the pattern of the result with the bits above it 0 (R162). -/
def xFloat (mn : String) (i : Instr) (rnd : Rnd) (o : X2) (s : State) (f : FpFmt → FpEnv → Nat → Nat → Nat × Flags) : Result :=
  onCp mn i s (fun r _ c s =>
    let v := f (fpOf o.ty) (envOf c rnd) (xpat o.ty (c.getS o.sa)) (xpat o.ty (xsrc c o.ty o.b))
    scalarDone s r o.sd (BitVec.ofNat 64 v.1) v.2)

def execSadd (o : X2) (s : State) : Result := xInt "SADD" (.sadd o) o s (fun a b => a + b)
def execSsub (o : X2) (s : State) : Result := xInt "SSUB" (.ssub o) o s (fun a b => a - b)
def execSmul (o : X2) (s : State) : Result := xInt "SMUL" (.smul o) o s (fun a b => a * b)
/-- floor(a × b / 2^w) (R163). -/
def execSmulh (o : X2) (s : State) : Result :=
  xInt "SMULH" (.smulh o) o s (fun a b => a * b / 2 ^ o.ty.bits)

/-- SDIV and SREM write their result and DZ of R88; DZE gives FPTRAP after the word. -/
def divWord (mn : String) (i : Instr) (o : X2) (s : State) (rem : Bool) : Result :=
  onCp mn i s (fun r _ c s =>
    let d := divide o.ty.isSigned o.ty.bits (sense o.ty (xpat o.ty (c.getS o.sa))) (sense o.ty (xpat o.ty (xsrc c o.ty o.b)))
    scalarDone s r o.sd (ext o.ty (patOf o.ty.bits (if rem then d.2.1 else d.1))) d.2.2)

def execSdiv (o : X2) (s : State) : Result := divWord "SDIV" (.sdiv o) o s false
def execSrem (o : X2) (s : State) : Result := divWord "SREM" (.srem o) o s true
def execSand (o : X2) (s : State) : Result := xBits "SAND" (.sand o) o s (fun a b => a &&& b)
def execSor (o : X2) (s : State) : Result := xBits "SOR" (.sor o) o s (fun a b => a ||| b)
def execSxor (o : X2) (s : State) : Result := xBits "SXOR" (.sxor o) o s (fun a b => a ^^^ b)
def execSshl (o : X2) (s : State) : Result :=
  xBits "SSHL" (.sshl o) o s (fun a b => shiftLeft o.ty.bits a (b % o.ty.bits))
def execSshr (o : X2) (s : State) : Result := xBits "SSHR" (.sshr o) o s (fun a b => shiftRight a (b % o.ty.bits))
def execSsar (o : X2) (s : State) : Result :=
  xBits "SSAR" (.ssar o) o s (fun a b => shiftArith o.ty.bits a (b % o.ty.bits))
def execSmin (o : X2) (s : State) : Result := xInt "SMIN" (.smin o) o s min
def execSmax (o : X2) (s : State) : Result := xInt "SMAX" (.smax o) o s max

def execSclz (o : X1) (s : State) : Result :=
  onCp "SCLZ" (.sclz o) s (fun r _ c s =>
    scalarDone s r o.sd (ext o.ty (leadingZeros o.ty.bits (xpat o.ty (c.getS o.sa)))) 0)

def execSpopc (o : X1) (s : State) : Result :=
  onCp "SPOPC" (.spopc o) s (fun r _ c s =>
    scalarDone s r o.sd (ext o.ty (popCount o.ty.bits (xpat o.ty (c.getS o.sa)))) 0)

/-- SMOV copies by type, never rounds and sets no flag (R165). -/
def execSmov (ty : Ty) (sd : SReg) (b : XSrc) (s : State) : Result :=
  onCp "SMOV" (.smov ty sd b) s (fun r _ c s =>
    let v := xsrc c ty b
    scalarDone s r sd (if ty = .f32 then (v.extractLsb' 0 32).zeroExtend 64 else if ty = .f64 then v else ext ty (xpat ty v)) 0)

def execSliLo (sd : SReg) (imm : BitVec 32) (s : State) : Result :=
  onCp "SLI_LO" (.sliLo sd imm) s (fun r _ _ s => scalarDone s r sd (imm.zeroExtend 64) 0)

def execSliHi (sd : SReg) (imm : BitVec 32) (s : State) : Result :=
  onCp "SLI_HI" (.sliHi sd imm) s (fun r _ c s => scalarDone s r sd (imm ++ (c.getS sd).extractLsb' 0 32) 0)

/-- SSET compares in the type's sense; floating compares read after DAZ and set IV for a NaN as R165 states. -/
def execSset (cc : Cond) (o : X2) (s : State) : Result :=
  onCp "SSET" (.sset cc o) s (fun r _ c s =>
    let a := xpat o.ty (c.getS o.sa)
    let b := xpat o.ty (xsrc c o.ty o.b)
    if o.ty.isFloat then
      let f := fpOf o.ty
      let x := unpack f c.daz a
      let y := unpack f c.daz b
      let iv := isSnan f x || isSnan f y || ((isNan x || isNan y) && !(cc == .eq || cc == .ne))
      scalarDone s r o.sd (if condFp cc x y then 1 else 0) (flagIf iv fIV)
    else scalarDone s r o.sd (if condInt cc (sense o.ty a) (sense o.ty b) then 1 else 0) 0)

/-- SSEL tests the pattern of sc at the type's width and writes all 64 bits of sa or sb (R165). -/
def execSsel (o : X3) (s : State) : Result :=
  onCp "SSEL" (.ssel o) s (fun r _ c s =>
    scalarDone s r o.sd (if xpat o.ty (c.getS o.sc) ≠ 0 then c.getS o.sa else c.getS o.sb) 0)

def execSext (o : X2) (s : State) : Result :=
  xBits "SEXT" (.sext o) o s (fun a b => extractField o.ty.isSigned o.ty.bits a b)

/-- SINS reads the old sd as its third operand (R166). -/
def execSins (o : X2) (s : State) : Result :=
  onCp "SINS" (.sins o) s (fun r _ c s =>
    scalarDone s r o.sd (ext o.ty (insertField o.ty.bits (xpat o.ty (c.getS o.sa)) (xpat o.ty (xsrc c o.ty o.b))
      (xpat o.ty (c.getS o.sd)))) 0)

def execSfadd (rnd : Rnd) (o : X2) (s : State) : Result := xFloat "SFADD" (.sfadd rnd o) rnd o s fAdd
def execSfmul (rnd : Rnd) (o : X2) (s : State) : Result := xFloat "SFMUL" (.sfmul rnd o) rnd o s fMul

def execSfma (rnd : Rnd) (o : X3) (s : State) : Result :=
  onCp "SFMA" (.sfma rnd o) s (fun r _ c s =>
    let v := fFma (fpOf o.ty) (envOf c rnd) false false (xpat o.ty (c.getS o.sa)) (xpat o.ty (c.getS o.sb))
      (xpat o.ty (c.getS o.sc))
    scalarDone s r o.sd (BitVec.ofNat 64 v.1) v.2)

/-- SFCVT by the pairs of R167, rounding by its own field. -/
def execSfcvt (rnd : Rnd) (dst src : Ty) (sd sa : SReg) (s : State) : Result :=
  onCp "SFCVT" (.sfcvt rnd dst src sd sa) s (fun r _ c s =>
    let x := xpat src (c.getS sa)
    let env := envOf c rnd
    if src.isFloat then
      if dst.isFloat then
        let v := fConv (fpOf src) (fpOf dst) env x
        scalarDone s r sd (BitVec.ofNat 64 v.1) v.2
      else
        let v := fToInt (fpOf src) env dst.isSigned dst.bits x
        scalarDone s r sd (ext dst (patOf dst.bits v.1)) v.2
    else
      let v := intToF (fpOf dst) env (sense src x)
      scalarDone s r sd (BitVec.ofNat 64 v.1) v.2)

def execSfdiv (rnd : Rnd) (o : X2) (s : State) : Result := xFloat "SFDIV" (.sfdiv rnd o) rnd o s fDiv

def execSfsqrt (rnd : Rnd) (o : X1) (s : State) : Result :=
  onCp "SFSQRT" (.sfsqrt rnd o) s (fun r _ c s =>
    let v := fSqrt (fpOf o.ty) (envOf c rnd) (xpat o.ty (c.getS o.sa))
    scalarDone s r o.sd (BitVec.ofNat 64 v.1) v.2)

end Sys2Proof.Machine
end

