-- ==== Sys2Proof/Machine/Sets.lean ====
section
/-! DEFINITION. Searches, set algebra, the set stack and folds, 0x40 to 0x52 (R183 to R200). -/

namespace Sys2Proof.Machine

/-- The value a search writes to md (R190), from its scope, its responders and the old md. -/
def combSet (comb : Comb) (scope resp old : LaneSet) : LaneSet :=
  match comb with
  | .set => resp
  | .and => old &&& (resp ||| ~~~scope)
  | .or => old ||| resp
  | .andn => old &&& ~~~resp
  | .xor => old ^^^ resp

/-- A search (R188 to R190): the responders of ms ∧ L by a test on the searched element, combined into md. -/
def searchWord (mn : String) (i : Instr) (o : Ls) (s : State) (test : Pop → Cp → Nat → Nat → Bool) : Result :=
  onCp mn i s (fun r p c s =>
    let scope := c.getM o.ms &&& p.live
    let lanes := p.laneList scope
    let resp := setOf (lanes.filter (fun l => test p c l (elemOf o.ty (p.pat l o.ty o.va.toNat) o.sel.toNat)))
    let s := (s.countLanes r.pid p 0x006 lanes).countSkipped r.pid p lanes
    setDone s r o.md (combSet o.comb scope resp (c.getM o.md)))

def execSrch (cc : Cond) (o : Ls) (sk : SReg) (s : State) : Result :=
  searchWord "SRCH" (.srch cc o sk) o s (fun _ c _ e => compareAs o.ty cc e (xpat o.ty (c.getS sk)))

def execSrchi (cc : Cond) (o : Ls) (imm : BitVec 24) (s : State) : Result :=
  searchWord "SRCHI" (.srchi cc o imm) o s (fun _ _ _ e => compareAs o.ty cc e (imm24Pat o.ty imm))

def execSrchv (cc : Cond) (o : Ls) (vb : VReg) (s : State) : Result :=
  searchWord "SRCHV" (.srchv cc o vb) o s (fun p _ l e =>
    compareAs o.ty cc e (elemOf o.ty (p.pat l o.ty vb.toNat) o.sel.toNat))

/-- MEQ: (e ⊕ sk) ∧ sk2 = 0 on the patterns (R189). -/
def execSrchm (o : Ls) (sk sk2 : SReg) (s : State) : Result :=
  searchWord "SRCHM" (.srchm o sk sk2) o s (fun _ c _ e =>
    (e ^^^ xpat o.ty (c.getS sk)) &&& xpat o.ty (c.getS sk2) == 0)

/-- RANGE: sk ≤ e and e ≤ sk2 in the type's sense (R189). -/
def execSrchr (o : Ls) (sk sk2 : SReg) (s : State) : Result :=
  searchWord "SRCHR" (.srchr o sk sk2) o s (fun _ c _ e =>
    compareAs o.ty .le (xpat o.ty (c.getS sk)) e && compareAs o.ty .le e (xpat o.ty (c.getS sk2)))

/-- SETOP acts on the whole patterns of the launched lanes (R193). -/
def setOpVal (t : Nat) (c : Cp) : SetOp → LaneSet
  | .and a b => c.getM a &&& c.getM b
  | .or a b => c.getM a ||| c.getM b
  | .andn a b => c.getM a &&& ~~~(c.getM b)
  | .xor a b => c.getM a ^^^ c.getM b
  | .not a => launched t &&& ~~~(c.getM a)
  | .mov a => c.getM a

def execSetop (md : MReg) (op : SetOp) (s : State) : Result :=
  onCp "SETOP" (.setop md op) s (fun r p c s => setDone s r md (setOpVal p.lanes c op))

def execSetc (md : MReg) (all : Bool) (s : State) : Result :=
  onCp "SETC" (.setc md all) s (fun r p _ s => setDone s r md (if all then p.live else 0))

/-- The first n lanes of a set. -/
def firstLanes (p : Pop) (a : LaneSet) (n : Nat) : LaneSet := setOf ((p.laneList a).take n)

def execFirst (md ma : MReg) (s : State) : Result :=
  onRci "FIRST" (.first md ma) s (fun r p c s =>
    let a := c.getM ma &&& p.live
    setDone (s.countSkipped r.pid p (p.laneList a)) r md (firstLanes p a 1))

def execFirstk (md ma : MReg) (sa : SReg) (s : State) : Result :=
  onRci "FIRSTK" (.firstk md ma sa) s (fun r p c s =>
    let a := c.getM ma &&& p.live
    let n := min (c.getS sa).toNat (p.card a)
    setDone ((s.countSkipped r.pid p (p.laneList a)).updCp r (fun c => c.setS sa (BitVec.ofNat 64 n))) r md (firstLanes p a n))

/-- The largest depth of the set stack (R183). -/
def maxDepth : Nat := 32

def execWithSet (ma : MReg) (s : State) : Result :=
  onCp "WITH" (.withSet ma) s (fun r _ c s =>
    if c.depth = maxDepth then trapWord s r c .setStack 0 allOnes64
    else advance (s.updCp r (fun c => { c.setM 0 (c.getM 0 &&& c.getM ma) with stack := c.stack ++ [c.getM 0] })) r)

def execElseSet (s : State) : Result :=
  onCp "ELSE" .elseSet s (fun r _ c s =>
    match c.stack.getLast? with
    | none => trapWord s r c .setStack 0 allOnes64
    | some top => advance (s.updCp r (fun c => c.setM 0 (top &&& ~~~(c.getM 0)))) r)

def execPopset (s : State) : Result :=
  onCp "POPSET" .popset s (fun r _ c s =>
    match c.stack.getLast? with
    | none => trapWord s r c .setStack 0 allOnes64
    | some top => advance (s.updCp r (fun c => { c.setM 0 top with stack := c.stack.dropLast })) r)

/-! ### Folds -/

/-- A fold writes its scalar at one place in population order after its JOIN (R197). -/
def foldWord (mn : String) (i : Instr) (sd : SReg) (ma : MReg) (s : State) (f : Pop → Cp → List Nat → Word64 × Flags) : Result :=
  onRci mn i s (fun r p c s =>
    let lanes := p.laneList (c.getM ma &&& p.live)
    let v := f p c lanes
    scalarDone (s.countSkipped r.pid p lanes) r sd v.1 v.2)

def execRcount (sd : SReg) (ma : MReg) (s : State) : Result :=
  foldWord "RCOUNT" (.rcount sd ma) sd ma s (fun _ _ l => (BitVec.ofNat 64 l.length, 0))

def execRfind (sd : SReg) (ma : MReg) (s : State) : Result :=
  foldWord "RFIND" (.rfind sd ma) sd ma s (fun _ _ l => (match l with | [] => allOnes64 | i :: _ => BitVec.ofNat 64 i, 0))

/-- The elements of a fold: ascending lane, and within a lane ascending element (R197). -/
def foldElems (p : Pop) (t : Ty) (reg : Nat) (l : List Nat) : List Nat :=
  l.flatMap (fun i => (List.range t.elems).map (elemOf t (p.pat i t reg)))

/-- One round of the pairwise tree (R106). -/
def pairRound (f : Nat → Nat → Nat × Flags) : List Nat → List Nat × Flags
  | a :: b :: l =>
    let r := f a b
    let t := pairRound f l
    (r.1 :: t.1, r.2 ||| t.2)
  | [a] => ([a], 0)
  | [] => ([], 0)

/-- Rounds until one value is left (R106). -/
def pairTree (f : Nat → Nat → Nat × Flags) : Nat → List Nat → Nat × Flags
  | 0, l => (l.headD 0, 0)
  | n + 1, l =>
    match l with
    | [] => (0, 0)
    | [a] => (a, 0)
    | a :: b :: t =>
      let r := pairRound f (a :: b :: t)
      let v := pairTree f n r.1
      (v.1, r.2 ||| v.2)

/-- RSUM by the tree of R106; an integer sum wraps in 64 bits (R198). -/
def execRsum (ty : Ty) (sd : SReg) (ma : MReg) (va : VReg) (s : State) : Result :=
  foldWord "RSUM" (.rsum ty sd ma va) sd ma s (fun p c l =>
    let xs := foldElems p ty va.toNat l
    if ty.isFloat then
      let v := pairTree (fAdd (fpOf ty) (envOf c .mode)) xs.length xs
      (BitVec.ofNat 64 v.1, v.2)
    else (BitVec.ofInt 64 (xs.foldl (fun acc x => acc + sense ty x) 0), 0))

/-- The element that comes first among those no other precedes (R199). -/
def extreme (lt : Nat → Nat → Bool) : List Nat → Option Nat
  | [] => none
  | x :: l => some (l.foldl (fun best y => if lt y best then y else best) x)

/-- RMIN and RMAX (R199): of the two flushes that R93 lists for floating folds DAZ acts on what is read, and FTZ on nothing here, since the
element is returned as it was read (DEDUCED, notes/assumptions/65.md). -/
def minMaxFold (ty : Ty) (isMax : Bool) (c : Cp) (xs : List Nat) : Word64 × Flags :=
  if ty.isFloat then
    let f := fpOf ty
    let vs := xs.map (unpack f c.daz)
    match nanOf f vs with
    | some v => (BitVec.ofNat 64 v.1, v.2)
    | none =>
      let lt := fun a b =>
        if isMax then valLtZ (unpack f c.daz b) (unpack f c.daz a) else valLtZ (unpack f c.daz a) (unpack f c.daz b)
      match extreme lt xs with
      | some x => (BitVec.ofNat 64 (repack f c.daz x), 0)
      | none => (BitVec.ofNat 64 (f.infP + (if isMax then f.signW else 0)), 0)
  else
    let lt := fun a b => if isMax then decide (sense ty b < sense ty a) else decide (sense ty a < sense ty b)
    match extreme lt xs with
    | some x => (BitVec.ofInt 64 (sense ty x), 0)
    | none => (BitVec.ofInt 64 (if isMax then loBound ty.isSigned ty.bits else hiBound ty.isSigned ty.bits), 0)

def execRmin (ty : Ty) (sd : SReg) (ma : MReg) (va : VReg) (s : State) : Result :=
  foldWord "RMIN" (.rmin ty sd ma va) sd ma s (fun p c l => minMaxFold ty false c (foldElems p ty va.toNat l))

def execRmax (ty : Ty) (sd : SReg) (ma : MReg) (va : VReg) (s : State) : Result :=
  foldWord "RMAX" (.rmax ty sd ma va) sd ma s (fun p c l => minMaxFold ty true c (foldElems p ty va.toNat l))

/-- RBIT on the whole registers; an empty set gives all ones for AND and 0 otherwise (R200). -/
def execRbit (op : BitFold) (sd : SReg) (ma : MReg) (va : VReg) (s : State) : Result :=
  foldWord "RBIT" (.rbit op sd ma va) sd ma s (fun p _ l =>
    let xs := l.map (fun i => p.getV i va.toNat)
    ((match op with
      | .and => xs.foldl (· &&& ·) (BitVec.allOnes 32)
      | .or => xs.foldl (· ||| ·) 0
      | .xor => xs.foldl (· ^^^ ·) 0).zeroExtend 64, 0))

/-- SETV sets the bits of m0 ∧ L by the whole register and leaves the others (R195). -/
def execSetv (md : MReg) (va : VReg) (s : State) : Result :=
  onCp "SETV" (.setv md va) s (fun r p c s =>
    let scope := c.getM 0 &&& p.live
    let on := setOf ((p.laneList scope).filter (fun i => p.getV i va.toNat != 0))
    setDone (s.countSkipped r.pid p (p.laneList scope)) r md ((c.getM md &&& ~~~scope) ||| on))

end Sys2Proof.Machine
end

