-- ==== Sys2Proof/Machine/Dispatch.lean ====
section
/-! DEFINITION. The meaning of every instruction and event: one arm per constructor of Instr. -/

namespace Sys2Proof.Machine

def exec (i : Instr) (s : State) : Host.Outcome State Fault Refusal :=
  match i with
  | .clauseIssue core part => Sys2Proof.Machine.execClauseIssue core part s
  | .cpPromotion cp => Sys2Proof.Machine.execCpPromotion cp s
  | .continuationClause core part => Sys2Proof.Machine.execContinuationClause core part s
  | .trapResume cp repaired => Sys2Proof.Machine.execTrapResume cp repaired s
  | .bra off => Sys2Proof.Machine.execBra off s
  | .bsc cc sa sb off => Sys2Proof.Machine.execBsc cc sa sb off s
  | .bsi cc sa imm off => Sys2Proof.Machine.execBsi cc sa imm off s
  | .bset c ms off => Sys2Proof.Machine.execBset c ms off s
  | .call sd off => Sys2Proof.Machine.execCall sd off s
  | .calli sa sd => Sys2Proof.Machine.execCalli sa sd s
  | .jmp sa => Sys2Proof.Machine.execJmp sa s
  | .ret sa => Sys2Proof.Machine.execRet sa s
  | .loop sa off => Sys2Proof.Machine.execLoop sa off s
  | .succ sa sb => Sys2Proof.Machine.execSucc sa sb s
  | .successorHandover pid => Sys2Proof.Machine.execSuccessorHandover pid s
  | .trap code => Sys2Proof.Machine.execTrap code s
  | .getc sd n => Sys2Proof.Machine.execGetc sd n s
  | .putc n sa => Sys2Proof.Machine.execPutc n sa s
  | .pstart sa sb => Sys2Proof.Machine.execPstart sa sb s
  | .brk code => Sys2Proof.Machine.execBrk code s
  | .sadd o => Sys2Proof.Machine.execSadd o s
  | .ssub o => Sys2Proof.Machine.execSsub o s
  | .smul o => Sys2Proof.Machine.execSmul o s
  | .smulh o => Sys2Proof.Machine.execSmulh o s
  | .sdiv o => Sys2Proof.Machine.execSdiv o s
  | .srem o => Sys2Proof.Machine.execSrem o s
  | .sand o => Sys2Proof.Machine.execSand o s
  | .sor o => Sys2Proof.Machine.execSor o s
  | .sxor o => Sys2Proof.Machine.execSxor o s
  | .sshl o => Sys2Proof.Machine.execSshl o s
  | .sshr o => Sys2Proof.Machine.execSshr o s
  | .ssar o => Sys2Proof.Machine.execSsar o s
  | .smin o => Sys2Proof.Machine.execSmin o s
  | .smax o => Sys2Proof.Machine.execSmax o s
  | .sclz o => Sys2Proof.Machine.execSclz o s
  | .spopc o => Sys2Proof.Machine.execSpopc o s
  | .smov ty sd b => Sys2Proof.Machine.execSmov ty sd b s
  | .sliLo sd imm => Sys2Proof.Machine.execSliLo sd imm s
  | .sliHi sd imm => Sys2Proof.Machine.execSliHi sd imm s
  | .sset cc o => Sys2Proof.Machine.execSset cc o s
  | .ssel o => Sys2Proof.Machine.execSsel o s
  | .sext o => Sys2Proof.Machine.execSext o s
  | .sins o => Sys2Proof.Machine.execSins o s
  | .sfadd r o => Sys2Proof.Machine.execSfadd r o s
  | .sfmul r o => Sys2Proof.Machine.execSfmul r o s
  | .sfma r o => Sys2Proof.Machine.execSfma r o s
  | .sfcvt r dst src sd sa => Sys2Proof.Machine.execSfcvt r dst src sd sa s
  | .sfdiv r o => Sys2Proof.Machine.execSfdiv r o s
  | .sfsqrt r o => Sys2Proof.Machine.execSfsqrt r o s
  | .srch cc o sk => Sys2Proof.Machine.execSrch cc o sk s
  | .srchi cc o imm => Sys2Proof.Machine.execSrchi cc o imm s
  | .srchv cc o vb => Sys2Proof.Machine.execSrchv cc o vb s
  | .srchm o sk sk2 => Sys2Proof.Machine.execSrchm o sk sk2 s
  | .srchr o sk sk2 => Sys2Proof.Machine.execSrchr o sk sk2 s
  | .setop md op => Sys2Proof.Machine.execSetop md op s
  | .setc md all => Sys2Proof.Machine.execSetc md all s
  | .first md ma => Sys2Proof.Machine.execFirst md ma s
  | .firstk md ma sa => Sys2Proof.Machine.execFirstk md ma sa s
  | .withSet ma => Sys2Proof.Machine.execWithSet ma s
  | .rcount sd ma => Sys2Proof.Machine.execRcount sd ma s
  | .rfind sd ma => Sys2Proof.Machine.execRfind sd ma s
  | .rsum ty sd ma va => Sys2Proof.Machine.execRsum ty sd ma va s
  | .rmin ty sd ma va => Sys2Proof.Machine.execRmin ty sd ma va s
  | .rmax ty sd ma va => Sys2Proof.Machine.execRmax ty sd ma va s
  | .rbit op sd ma va => Sys2Proof.Machine.execRbit op sd ma va s
  | .setv md va => Sys2Proof.Machine.execSetv md va s
  | .vadd m o => Sys2Proof.Machine.execVadd m o s
  | .vsub m o => Sys2Proof.Machine.execVsub m o s
  | .vmul m o => Sys2Proof.Machine.execVmul m o s
  | .vmulh o => Sys2Proof.Machine.execVmulh o s
  | .vmad m o => Sys2Proof.Machine.execVmad m o s
  | .vmin o => Sys2Proof.Machine.execVmin o s
  | .vmax o => Sys2Proof.Machine.execVmax o s
  | .vabs m o => Sys2Proof.Machine.execVabs m o s
  | .vneg m o => Sys2Proof.Machine.execVneg m o s
  | .vand o => Sys2Proof.Machine.execVand o s
  | .vor o => Sys2Proof.Machine.execVor o s
  | .vxor o => Sys2Proof.Machine.execVxor o s
  | .vandn o => Sys2Proof.Machine.execVandn o s
  | .vnot o => Sys2Proof.Machine.execVnot o s
  | .vshl m o => Sys2Proof.Machine.execVshl m o s
  | .vshr m o => Sys2Proof.Machine.execVshr m o s
  | .vsar m o => Sys2Proof.Machine.execVsar m o s
  | .vrot m o => Sys2Proof.Machine.execVrot m o s
  | .vclz o => Sys2Proof.Machine.execVclz o s
  | .vpopc o => Sys2Proof.Machine.execVpopc o s
  | .vbrev o => Sys2Proof.Machine.execVbrev o s
  | .vext o => Sys2Proof.Machine.execVext o s
  | .vins o => Sys2Proof.Machine.execVins o s
  | .vsad m o => Sys2Proof.Machine.execVsad m o s
  | .vsel o => Sys2Proof.Machine.execVsel o s
  | .vmov o => Sys2Proof.Machine.execVmov o s
  | .vmovi ty mask vd imm => Sys2Proof.Machine.execVmovi ty mask vd imm s
  | .vid o => Sys2Proof.Machine.execVid o s
  | .vfadd r o => Sys2Proof.Machine.execVfadd r o s
  | .vfsub r o => Sys2Proof.Machine.execVfsub r o s
  | .vfmul r o => Sys2Proof.Machine.execVfmul r o s
  | .vfma r o => Sys2Proof.Machine.execVfma r o s
  | .vfms r o => Sys2Proof.Machine.execVfms r o s
  | .vfnma r o => Sys2Proof.Machine.execVfnma r o s
  | .vfmin o => Sys2Proof.Machine.execVfmin o s
  | .vfmax o => Sys2Proof.Machine.execVfmax o s
  | .vfabs o => Sys2Proof.Machine.execVfabs o s
  | .vfneg o => Sys2Proof.Machine.execVfneg o s
  | .vfdiv r o => Sys2Proof.Machine.execVfdiv r o s
  | .vfsqrt r o => Sys2Proof.Machine.execVfsqrt r o s
  | .vfrnd r o => Sys2Proof.Machine.execVfrnd r o s
  | .vfscale r o => Sys2Proof.Machine.execVfscale r o s
  | .vfclass o => Sys2Proof.Machine.execVfclass o s
  | .vcvt r dst src mask vd va => Sys2Proof.Machine.execVcvt r dst src mask vd va s
  | .vunif o => Sys2Proof.Machine.execVunif o s
  | .vrand mask vd va sb => Sys2Proof.Machine.execVrand mask vd va sb s
  | .vbcast o => Sys2Proof.Machine.execVbcast o s
  | .vscan m o => Sys2Proof.Machine.execVscan m o s
  | .vcompact o => Sys2Proof.Machine.execVcompact o s
  | .vshfl o => Sys2Proof.Machine.execVshfl o s
  | .ld o => Sys2Proof.Machine.execLd o s
  | .loadComplete x => Sys2Proof.Machine.execLoadComplete x s
  | .st o => Sys2Proof.Machine.execSt o s
  | .storePerform x => Sys2Proof.Machine.execStorePerform x s
  | .lds o => Sys2Proof.Machine.execLds o s
  | .sts o => Sys2Proof.Machine.execSts o s
  | .atom o => Sys2Proof.Machine.execAtom o s
  | .atomicPerform x => Sys2Proof.Machine.execAtomicPerform x s
  | .satom o => Sys2Proof.Machine.execSatom o s
  | .red o => Sys2Proof.Machine.execRed o s
  | .redUpdateApply op k => Sys2Proof.Machine.execRedUpdateApply op k s
  | .fence scope order => Sys2Proof.Machine.execFence scope order s
  | .pref o => Sys2Proof.Machine.execPref o s
  | .cpy sb => Sys2Proof.Machine.execCpy sb s
  | .cpy2 sb => Sys2Proof.Machine.execCpy2 sb s
  | .copyComplete x => Sys2Proof.Machine.execCopyComplete x s
  | .copyRepairResume op repaired => Sys2Proof.Machine.execCopyRepairResume op repaired s
  | .inval o => Sys2Proof.Machine.execInval o s
  | .flush o => Sys2Proof.Machine.execFlush o s
  | .flushComplete op => Sys2Proof.Machine.execFlushComplete op s
  | .setld o => Sys2Proof.Machine.execSetld o s
  | .setst o => Sys2Proof.Machine.execSetst o s
  | .setTransferComplete x => Sys2Proof.Machine.execSetTransferComplete x s
  | .stpl o => Sys2Proof.Machine.execStpl o s
  | .ldpl o => Sys2Proof.Machine.execLdpl o s
  | .bankcfg role bank => Sys2Proof.Machine.execBankcfg role bank s
  | .engineLockProceed e => Sys2Proof.Machine.execEngineLockProceed e s
  | .spillRefill cave => Sys2Proof.Machine.execSpillRefill cave s
  | .mpSegmentLink cave frame => Sys2Proof.Machine.execMpSegmentLink cave frame s
  | .qpush cave sa => Sys2Proof.Machine.execQpush cave sa s
  | .qpushTry sd cave sa => Sys2Proof.Machine.execQpushTry sd cave sa s
  | .qpop sd cave => Sys2Proof.Machine.execQpop sd cave s
  | .qpopb mask vd cave => Sys2Proof.Machine.execQpopb mask vd cave s
  | .qins mask cave va => Sys2Proof.Machine.execQins mask cave va s
  | .qstat sd cave => Sys2Proof.Machine.execQstat sd cave s
  | .fpush mask bank va => Sys2Proof.Machine.execFpush mask bank va s
  | .fpop mask vd bank => Sys2Proof.Machine.execFpop mask vd bank s
  | .nput sa => Sys2Proof.Machine.execNput sa s
  | .nget sa => Sys2Proof.Machine.execNget sa s
  | .narrive sa => Sys2Proof.Machine.execNarrive sa s
  | .netComplete op ok data => Sys2Proof.Machine.execNetComplete op ok data s
  | .netTimeout op => Sys2Proof.Machine.execNetTimeout op s
  | .arrive a sd n => Sys2Proof.Machine.execArrive a sd n s
  | .waitr a g => Sys2Proof.Machine.execWaitr a g s
  | .rwset a sb => Sys2Proof.Machine.execRwset a sb s
  | .rwget a sd => Sys2Proof.Machine.execRwget a sd s
  | .waitt wt wa => Sys2Proof.Machine.execWaitt wt wa s
  | .pmcr sd n => Sys2Proof.Machine.execPmcr sd n s
  | .pmcs n sa => Sys2Proof.Machine.execPmcs n sa s
  | .cpWake cp => Sys2Proof.Machine.execCpWake cp s
  | .streamFetch pid => Sys2Proof.Machine.execStreamFetch pid s
  | .pfmtA f => Sys2Proof.Machine.execPfmtA f s
  | .pfmtB f => Sys2Proof.Machine.execPfmtB f s
  | .pmm t xa xb kc => Sys2Proof.Machine.execPmm t xa xb kc s
  | .pmmg t xa xb xc kc => Sys2Proof.Machine.execPmmg t xa xb xc kc s
  | .pzero mask => Sys2Proof.Machine.execPzero mask s
  | .pld t xa => Sys2Proof.Machine.execPld t xa s
  | .pst ty t xa => Sys2Proof.Machine.execPst ty t xa s
  | .pwait xa xb => Sys2Proof.Machine.execPwait xa xb s
  | .pwaitPass pid => Sys2Proof.Machine.execPwaitPass pid s
  | .parrive xa n => Sys2Proof.Machine.execParrive xa n s
  | .parrivePerform pid => Sys2Proof.Machine.execParrivePerform pid s
  | .ploop xa off => Sys2Proof.Machine.execPloop xa off s
  | .paddx xa imm => Sys2Proof.Machine.execPaddx xa imm s
  | .psetx xa imm => Sys2Proof.Machine.execPsetx xa imm s
  | .tileLockEnter pid => Sys2Proof.Machine.execTileLockEnter pid s
  | .pressGrant cluster => Sys2Proof.Machine.execPressGrant cluster s
  | .tileOpComplete x => Sys2Proof.Machine.execTileOpComplete x s
  | .streamCompletion pid => Sys2Proof.Machine.execStreamCompletion pid s
  | .pendingPlace vf => Sys2Proof.Machine.execPendingPlace vf s
  | .populationRetire pid => Sys2Proof.Machine.execPopulationRetire pid s
  | .preempt pid => Sys2Proof.Machine.execPreempt pid s
  | .preemptImage pid => Sys2Proof.Machine.execPreemptImage pid s
  | .restore vf image => Sys2Proof.Machine.execRestore vf image s
  | .checkpoint a vf dst => Sys2Proof.Machine.execCheckpoint a vf dst s
  | .checkpointRestore a vf src gen => Sys2Proof.Machine.execCheckpointRestore a vf src gen s
  | .fragmentReady f => Sys2Proof.Machine.execFragmentReady f s
  | .fragmentDead f => Sys2Proof.Machine.execFragmentDead f s
  | .debugHalt a vf cp => Sys2Proof.Machine.execDebugHalt a vf cp s
  | .debugRead a cp item => Sys2Proof.Machine.execDebugRead a cp item s
  | .debugWrite a cp w => Sys2Proof.Machine.execDebugWrite a cp w s
  | .debugStep a cp => Sys2Proof.Machine.execDebugStep a cp s
  | .debugResume a cp => Sys2Proof.Machine.execDebugResume a cp s
  | .debugDetach a => Sys2Proof.Machine.execDebugDetach a s
  | .majWriteComplete serial accept => Sys2Proof.Machine.execMajWriteComplete serial accept s
  | .majWriteback serial => Sys2Proof.Machine.execMajWriteback serial s
  | .copyLateReport serial copy => Sys2Proof.Machine.execCopyLateReport serial copy s
  | .laggardTimeout serial => Sys2Proof.Machine.execLaggardTimeout serial s
  | .stackFailover stack => Sys2Proof.Machine.execStackFailover stack s
  | .stackRejoin a set copy => Sys2Proof.Machine.execStackRejoin a set copy s
  | .scrubRead set line => Sys2Proof.Machine.execScrubRead set line s
  | .wayMaskDrain slice vf => Sys2Proof.Machine.execWayMaskDrain slice vf s
  | .hostLaunch m cave entry => Sys2Proof.Machine.execHostLaunch m cave entry s
  | .memw m asid target body => Sys2Proof.Machine.execMemw m asid target body s
  | .memr m asid target length => Sys2Proof.Machine.execMemr m asid target length s
  | .hostArrive m asid target n => Sys2Proof.Machine.execHostArrive m asid target n s
  | .query m => Sys2Proof.Machine.execQuery m s
  | .hostHoldResume serial repaired => Sys2Proof.Machine.execHostHoldResume serial repaired s
  | .hostHoldTimeout serial => Sys2Proof.Machine.execHostHoldTimeout serial s
  | .rmaWrite m target body => Sys2Proof.Machine.execRmaWrite m target body s
  | .rmaRead m target length => Sys2Proof.Machine.execRmaRead m target length s
  | .uetAtomic m op width target v v2 => Sys2Proof.Machine.execUetAtomic m op width target v v2 s
  | .uudDrop vf => Sys2Proof.Machine.execUudDrop vf s
  | .vfTableWrite a place w0 w1 w2 w3 gen => Sys2Proof.Machine.execVfTableWrite a place w0 w1 w2 w3 gen s
  | .caveConfigWrite a cave w0 w1 => Sys2Proof.Machine.execCaveConfigWrite a cave w0 w1 s
  | .wayMaskWrite a slice vf mask => Sys2Proof.Machine.execWayMaskWrite a slice vf mask s
  | .majSetWrite a set entry => Sys2Proof.Machine.execMajSetWrite a set entry s
  | .bankRoleWrite a cluster bank role => Sys2Proof.Machine.execBankRoleWrite a cluster bank role s
  | .tlbInvalidate a r => Sys2Proof.Machine.execTlbInvalidate a r s
  | .tlbInvalidateComplete serial => Sys2Proof.Machine.execTlbInvalidateComplete serial s
  | .portConfig a port two => Sys2Proof.Machine.execPortConfig a port two s
  | .endpointConfig a ep c => Sys2Proof.Machine.execEndpointConfig a ep c s
  | .firmwareUpdate a image => Sys2Proof.Machine.execFirmwareUpdate a image s
  | .testPeriodSet a minutes => Sys2Proof.Machine.execTestPeriodSet a minutes s
  | .quarantineLift a cluster => Sys2Proof.Machine.execQuarantineLift a cluster s
  | .powerLimitSet a watts => Sys2Proof.Machine.execPowerLimitSet a watts s
  | .coldStart bist => Sys2Proof.Machine.execColdStart bist s
  | .warmStart bist => Sys2Proof.Machine.execWarmStart bist s
  | .stageAdvance bist => Sys2Proof.Machine.execStageAdvance bist s
  | .infieldTest cluster pass => Sys2Proof.Machine.execInfieldTest cluster pass s
  | .powerThrottle level => Sys2Proof.Machine.execPowerThrottle level s
  | .streamFetchResume pid repaired => Sys2Proof.Machine.execStreamFetchResume pid repaired s
  | .debugAttach a cp => Sys2Proof.Machine.execDebugAttach a cp s
  | .badMsg m mgmt => Sys2Proof.Machine.execBadMsg m mgmt s
  | .mgmtEnteredTest a => Sys2Proof.Machine.execMgmtEnteredTest a s
  | .clusterDisable a cluster => Sys2Proof.Machine.execClusterDisable a cluster s
  | .nop => Sys2Proof.Machine.execNop s
  | .region => Sys2Proof.Machine.execRegion s
  | .join => Sys2Proof.Machine.execJoin s
  | .endCp => Sys2Proof.Machine.execEndCp s
  | .yield => Sys2Proof.Machine.execYield s
  | .elseSet => Sys2Proof.Machine.execElseSet s
  | .popset => Sys2Proof.Machine.execPopset s
  | .pend => Sys2Proof.Machine.execPend s
  | .distributorTakeup => Sys2Proof.Machine.execDistributorTakeup s
  | .startTimeout => Sys2Proof.Machine.execStartTimeout s
  | .fatalError => Sys2Proof.Machine.execFatalError s
  | .clockIncrement => Sys2Proof.Machine.execClockIncrement s

end Sys2Proof.Machine
end

