-- ==== Sys2Proof/Machine/Sched.lean ====
section
/-! DEFINITION. What comes next: the word of the agent that issues, or one of the events that can come about (R18, R22, R60, R402;
DESIGN CHOICE, notes/assumptions/1.md), and the placing of a word where the machine fetches its next one. -/

namespace Sys2Proof.Machine

/-! ### The word of the issuer -/

/-- The word at a control program's position: it runs, or it is one that R67 refuses. -/
def runCp (s : State) (r : CpRef) : Result :=
  match s.cpOf r with
  | none => .fault .noWord
  | some (p, c) =>
    match c.clause[c.widx]? with
    | none => .fault .noWord
    | some w =>
      match decode w with
      | .ok i => exec i s
      | .error _ => .next (illegal (s.count p.home r.pid 0x003 1) r c)

/-- The word at a stream's position: it runs, or it is a stream error of code 2 (R66, R263). -/
def runStream (s : State) (pid : Nat) : Result :=
  match s.pop pid with
  | none => .fault .noWord
  | some p =>
    match p.stream with
    | none => .fault .noWord
    | some x =>
      match x.clause[x.widx]? with
      | none => .fault .noWord
      | some w =>
        match decode w with
        | .ok i => exec i s
        | .error _ => .next (s.streamError pid x.wordAddr 2)

def runIssuer (s : State) : Issuer → Result
  | .none => .fault .noWord
  | .cp r => runCp s r
  | .stream pid => runStream s pid

/-! ### What can come next -/

/-- A word of an agent, an event of the device, the message at a place of the inbox, the next packet of the transport, or an act of
storage and firmware. -/
inductive Choice where
  | word (i : Issuer)
  | event (i : Instr)
  | message (k : Nat)
  | packet
  | act (a : Act)
  deriving DecidableEq, Repr

/-- The words that first bring about what their control program has outstanding (R216, R285). -/
def drains : Instr → Bool
  | .rwset _ _ | .bankcfg _ _ | .nput _ | .narrive _ | .qpush _ _ | .qpushTry _ _ _ | .qins _ _ _ | .fpush _ _ _ | .pstart _ _
  | .waitr _ _ => true
  | _ => false

/-- A majority write that too few live copies can complete: what waits for it waits for firmware (R245). -/
def State.endless (s : State) (set : Nat) : Bool := (quorums (s.majEntry set)).isEmpty

/-- The control program stands at a word that would bring about an endless write. -/
def State.mustWait (s : State) (c : Cp) : Bool :=
  (match c.clause[c.widx]? with
    | some w => (match decode w with | .ok i => drains i | .error _ => false)
    | none => false)
  && c.pend.any (fun a => s.majWrites.any (fun w => !w.complete && a.majWait.contains w.serial && s.endless w.set)
      || a.items.any (fun it => !it.done && (match it.loc with | .maj set _ => s.endless set | .store _ _ | .hbm _ _ => false)))

/-- The agents that hold a word to issue. -/
def State.issuers (s : State) : List Issuer :=
  s.pops.flatMap (fun e =>
    (e.2.cps.filter (fun x => x.2.issuing && !s.mustWait x.2)).map (fun x => Issuer.cp { pid := e.1, cid := x.1 })
      ++ (match e.2.stream with
        | some x => if e.2.sequencing x && x.clause != [] then [Issuer.stream e.1] else []
        | none => []))

/-- One of n parts, or all that is left. -/
def parts (n : Nat) : List (Option Nat) := none :: (List.range n).map some

/-- The parts of an access or transfer that can come about alone: its n items, and of one that reads and writes (R345) each read before. -/
def itemParts (n : Nat) : List (Option Nat) := parts (2 * n)

/-- The events of a control program. A copy goes on line by line, which it may have read before; the bytes of an NGET that have landed wait
for their writes (R245). -/
def cpEvents (pid cid : Nat) (c : Cp) : List Instr :=
  let r : CpRef := { pid := pid, cid := cid }
  let op := fun n => ({ pid := pid, cid := cid, serial := n } : OpRef)
  [.cpPromotion r, .trapResume r true, .trapResume r false, .cpWake r]
    ++ c.pend.flatMap (fun a =>
      (itemParts a.items.length).flatMap (fun k =>
        [.loadComplete ⟨op a.serial, k⟩, .storePerform ⟨op a.serial, k⟩, .atomicPerform ⟨op a.serial, k⟩])
        ++ (List.range a.items.length).map (fun k => .redUpdateApply (op a.serial) k))
    ++ c.asyncs.flatMap (fun a =>
      [.copyComplete ⟨op a.serial, 0⟩, .copyComplete ⟨op a.serial, 1⟩, .copyRepairResume (op a.serial) true, .copyRepairResume (op a.serial) false,
       .flushComplete (op a.serial), .engineLockProceed (.copy (op a.serial)), .netTimeout (op a.serial)]
        ++ (match a.kind with
          | .setTransfer _ ts => (itemParts ts.length).map (fun k => .setTransferComplete ⟨op a.serial, k⟩)
          | .net d => if a.acked && d.op == .get then [.netComplete (op a.serial) true []] else []
          | .copy _ | .flush _ _ _ => []))

/-- The events of a population and its stream. -/
def popEvents (e : Nat × Pop) : List Instr :=
  let pid := e.1
  (List.range 8).flatMap (fun k => [.clauseIssue e.2.home k, .continuationClause e.2.home k])
    ++ e.2.cps.flatMap (fun x => cpEvents pid x.1 x.2)
    ++ [.successorHandover pid, .streamFetch pid, .streamFetchResume pid true, .streamFetchResume pid false, .pwaitPass pid,
        .parrivePerform pid, .tileLockEnter pid, .engineLockProceed (.tile pid), .pressGrant e.2.cluster,
        .streamCompletion pid, .populationRetire pid, .preempt pid, .preemptImage pid]
    ++ (match e.2.stream.bind (fun x => x.ops.head?) with
      | some o => (parts o.parts.length).map (fun k => .tileOpComplete ⟨pid, k⟩)
      | none => [])

/-- The events of the caves and of placement. -/
def queueEvents (s : State) : List Instr :=
  s.caves.flatMap (fun e => [.spillRefill e.1, .mpSegmentLink e.1 none, .mpSegmentLink e.1 (some ((Config.hidden s.tick).extractLsb' 0 36))])
    ++ .distributorTakeup :: s.pending.map (fun e => .pendingPlace e.1)
    ++ s.images.map (fun m => .restore m.vf m.popid)

/-- The ends of repairs that parked lanes wait for. -/
def fragEvents (s : State) : List Instr :=
  let both := fun (f : FragRef) => [Instr.fragmentReady f, .fragmentDead f]
  s.frags.flatMap (fun e => both { core := e.1 / 256, idx := e.1 % 256, ovf := false })
    ++ s.ovfs.flatMap (fun e => both { core := e.1 / 64, idx := e.1 % 64, ovf := true })

/-- The events of majority lines and of L2. -/
def lineEvents (s : State) : List Instr :=
  s.majWrites.flatMap (fun w =>
      .laggardTimeout w.serial :: (List.range 32).map (fun m => .majWriteComplete w.serial (BitVec.ofNat 5 m)))
    ++ s.majWrites.flatMap (fun w => (List.range 5).map (fun j => .copyLateReport w.serial j))
    ++ s.majAsks.map (fun a => .copyLateReport a.serial a.copy)
    ++ s.majBacks.map (fun b => .majWriteback b.serial)
    ++ s.majSet.map (fun e => .scrubRead e.1 ((s.majLines e.1).getD (Config.pick s.tick % (s.majLines e.1).length) 0))
    ++ s.l2.map (fun e => .wayMaskDrain (sliceOf e.1) e.2.vf)

/-- The events of ports, start-up, test and power. -/
def systemEvents (s : State) : List Instr :=
  s.holds.flatMap (fun h => [.hostHoldResume h.serial true, .hostHoldResume h.serial false, .hostHoldTimeout h.serial])
    ++ s.invals.map (fun i => .tlbInvalidateComplete i.serial)
    ++ .stageAdvance ((Config.hidden s.tick).extractLsb' 0 24) :: .startTimeout
      :: (List.range 24).flatMap (fun k => [.infieldTest k true, .infieldTest k false])
    ++ [.powerThrottle .none, .powerThrottle .press, .powerThrottle .issue, .powerThrottle .bandwidth]

/-- The events of memory, queues, tables and firmware. What firmware or a copy answers is a choice. -/
def deviceEvents (s : State) : List Instr := queueEvents s ++ fragEvents s ++ lineEvents s ++ systemEvents s

def Result.isNext : Result → Bool
  | .next _ => true
  | .fault _ | .refused _ => false

/-- The message of a host or peer. -/
def msgOf : Instr → Option Msg
  | .hostLaunch m _ _ | .memw m _ _ _ | .memr m _ _ _ | .hostArrive m _ _ _ | .query m | .rmaWrite m _ _ | .rmaRead m _ _
  | .uetAtomic m _ _ _ _ _ | .badMsg m _ => some m
  | _ => none

/-- Two messages of one source, which are performed in their order (R366, R371). -/
def sameSource (a b : Instr) : Bool :=
  (isMgmt a && isMgmt b) || (match msgOf a, msgOf b with
    | some m, some n => m.vf == n.vf && m.sender == n.sender
    | _, _ => false)

/-- The messages that can be performed now: none of the same source stands before them. -/
def State.messages (s : State) : List Choice :=
  s.inbox.zipIdx.filterMap (fun e =>
    if (s.inbox.take e.2).any (sameSource e.1) then none
    else if Result.isNext (exec e.1 { s with inbox := s.inbox.eraseIdx e.2 }) then some (.message e.2) else none)

/-- The pre-emptions that firmware owes: the populations of a cluster that has found no idle window for four test periods (R376). -/
def State.owedPreempts (s : State) : List Choice :=
  ((s.pops.filter (fun e => s.testOwed e.2.cluster)).map (fun e => Instr.preempt e.1)).filter (fun i => Result.isNext (exec i s))
    |>.map Choice.event

/-- Everything that can come next: the clock can always go on. -/
def State.choices (s : State) : List Choice :=
  match s.owedPreempts with
  | [] =>
    .event .clockIncrement
      :: s.issuers.map Choice.word
      ++ ((s.pops.flatMap popEvents ++ deviceEvents s).filter (fun i => Result.isNext (exec i s))).map Choice.event
      ++ s.messages
      ++ (if s.wire = [] then [] else [.packet])
      ++ (s.acts.filter (fun a => Result.isNext (s.act a))).map Choice.act
  | cs => cs

/-- A choice comes about. -/
def State.follow (s : State) : Choice → Result
  | .word i => runIssuer (s.setIssuer i) i
  | .event i => exec i s
  | .message k =>
    match s.inbox[k]? with
    | some i => exec i { s with inbox := s.inbox.eraseIdx k }
    | none => exec .clockIncrement s
  | .packet => .next { s with wire := s.wire.drop 1, inbox := s.inbox ++ (s.wire.take 1).map Packet.parse }
  | .act a => s.act a

/-- Nothing issues: a control program at a header whose waits are not met parks (R20), and one of the things that can come next does, a
choice (R18, R22, R402). -/
def schedule (s : State) : Result :=
  let s := s.parkHeaders
  match s.choices with
  | [c] => s.follow c
  | cs => { s with tick := s.tick + 1 }.follow (cs.getD (Config.sched s.tick % cs.length) (.event .clockIncrement))

/-- The machine's next turn: the issuer's word, else what the schedule brings. -/
def turn (s : State) : Result :=
  match s.issuer with
  | .none => schedule s
  | i => runIssuer s i

/-! ### A word placed where the machine fetches its next one (DESIGN CHOICE, notes/assumptions/13.md) -/

/-- A list with a value at a place, filled up with NOPs. -/
def setWordAt (ws : List Word64) (k : Nat) (w : Word64) : List Word64 :=
  if k < ws.length then ws.set k w else ws ++ List.replicate (k - ws.length) 0 ++ [w]

/-- A population of one lane in a state that has none issuing: one control program that has begun the clause of one word w. -/
def loadedPop (w : Word64) : Pop :=
  let c := newCp 0 [] 0 0 0x1000 1 0 Know.zero 0
  { vf := 0, task := 0, cave := 0, seq := 0, popix := 0, npop := 1, key := 0, nest := 0, lanes := 1, regs := 2048, ncp := 1, banks := 1,
    tiles := 0xFFFF, prio := 0, asid := 0, policy := .abort, handler := 0, word1 := 0x0000000118000001, cluster := 0,
    base := 8, groups := [0], coreid := 0, cluid := 0, v := [], status := [], faults := 0, errors := 0,
    cps := [(0, { c with clause := [w], issuing := true, fresh := false })], stream := none, flagsDue := [], aborted := false,
    preempting := false, code := [], since := 0, lastCp := 0 }

/-- The same with a stream that has begun a clause of one word, its control program between clauses. -/
def loadedStream (w : Word64) : Pop :=
  let c := newCp 0 [] 0 0 0x1000 1 0 Know.zero 0
  { loadedPop 0 with
    cps := [(0, c)], stream := some { newStream c 0x2000 0 0 with clause := [w], started := true } }

/-- A population id that none holds. -/
def State.spareId (s : State) : Nat := ((List.range (s.pops.length + 1)).find? (fun i => (s.pop i).isNone)).getD 0

/-- The state with a word where its next instruction is fetched: at the position of the agent that issues, or of a population that is
added for it. -/
def State.withWord (s : State) (w : Word64) : State :=
  let press := opClass (opOf w) == some 3
  match s.issuer, press with
  | .cp r, false =>
    match s.cpOf r with
    | some _ => s.updCp r (fun c => { c with clause := setWordAt c.clause c.widx w })
    | none => (s.setPop s.spareId (loadedPop w)).setIssuer (.cp { pid := s.spareId, cid := 0 })
  | .stream pid, true =>
    match (s.pop pid).bind (fun p => p.stream) with
    | some _ => s.updStream pid (fun x => { x with clause := setWordAt x.clause x.widx w })
    | none => (s.setPop s.spareId (loadedStream w)).setIssuer (.stream s.spareId)
  | _, false => (s.setPop s.spareId (loadedPop w)).setIssuer (.cp { pid := s.spareId, cid := 0 })
  | _, true => (s.setPop s.spareId (loadedStream w)).setIssuer (.stream s.spareId)

end Sys2Proof.Machine
end

