-- ==== Sys2Proof/Machine/Step.lean ====
section
/-! DEFINITION. One step of the device, and an instruction placed where the step fetches. -/

namespace Sys2Proof.Machine

/-- One step (R18, R22, R60, R402). -/
def step (s : State) : Host.Outcome State Fault Refusal := turn s

/-- The state whose next step fetches and runs the instruction with these bits: every instruction is one 64-bit word (R51). -/
def State.withFetchWord (s : State) (nbits w : Nat) : State := s.withWord (BitVec.ofNat 64 (w % 2 ^ nbits))

end Sys2Proof.Machine
end

