-- ==== Sys2Proof/Safety.lean ====
section
/-! DEFINITION. What counts as a safe run, and the terms in which the statements speak of a step: which agent stands at a word,
what a word leaves as it was, and where the control program goes on. -/

namespace Sys2Proof.Machine

/-! ### Safe runs -/

/-- A step that does not stop with a fault. -/
def State.stepSafe (s : State) : Prop := ∀ f, step s ≠ .fault f

/-- n steps from a state without a fault; a refusal ends a run safely. -/
def State.runSafe : Nat → State → Prop
  | 0, _ => True
  | n + 1, s =>
    s.stepSafe ∧ match step s with
      | .next t => State.runSafe n t
      | .fault _ | .refused _ => True

/-- The memories keep the one form in which equal contents are equal data, and a dirty L2 line lists bytes of its own line once,
in their order. -/
def State.memWf (s : State) : Prop :=
  Memory.wf s.hbm = true ∧ Memory.wf s.cstore = true
  ∧ s.l2.all (fun e => Tab.rises 0 e.2.bytes && e.2.bytes.all (fun b => decide (b.1 < 128))) = true

/-! ### Where a word stands -/

/-- The control program r issues: p is its population and c is it; no SCOPE trap waits for the end of its clause (R219). -/
structure Standing (s : State) (r : CpRef) (p : Pop) (c : Cp) : Prop where
  issuer : s.issuer = .cp r
  cpOf : s.cpOf r = some (p, c)
  noScope : c.scopeTrap = none

/-- The JOIN of a region-closing word has nothing to wait for and nothing to replay: no replay pass, the set stack at least as
deep as at the region's entry, no load ticket, no store that met a cause, no live fragment entry of the context (R173, R221). -/
structure JoinFree (s : State) (p : Pop) (c : Cp) : Prop where
  noReplay : c.save = none
  depth : c.d0 ≤ c.depth
  tickets : c.loadTickets = 0
  stores : c.storeFault = none
  frags : s.fragsOf p.home c.ctx = []
  overflow : Tab.find s.ovfs (64 * p.home + c.ctx) = none

/-- The control program with the region that a JOIN opens at the clause after this one (R172). -/
def Cp.opened (c : Cp) : Cp := { c with entry := c.nextHdr, d0 := c.depth, fresh := true, replayF := 0 }

/-- The control program with this set stack. -/
def Cp.withStack (c : Cp) (l : List LaneSet) : Cp := { c with stack := l }

/-- The control program with this mode register, with these flags, with this region entry, and ended. -/
def Cp.withMode (c : Cp) (v : Word64) : Cp := { c with mode := v }
def Cp.withFlags (c : Cp) (v : BitVec 6) : Cp := { c with flags := v }
def Cp.withEntry (c : Cp) (v : Word64) : Cp := { c with entry := v }
def Cp.over (c : Cp) : Cp := { c with ended := true }

/-! ### What a word leaves as it was -/

/-- d is c but for its place in the program and a debugger's halt: every scalar, set, stack level, control and trap register, the
pipeline and every other item is the same. -/
def Cp.sameBut (c d : Cp) : Prop :=
  d = { c with hdr := d.hdr, widx := d.widx, clause := d.clause, issuing := d.issuing, fresh := d.fresh,
               readySince := d.readySince, promoted := d.promoted, halted := d.halted, haltDue := d.haltDue,
               stepping := d.stepping }

/-- d stands at the word after c's, or at the clause after c's when that was its last word (R63, R64). -/
def Cp.follows (c d : Cp) : Prop :=
  (c.widx + 1 < c.clause.length →
    d.hdr = c.hdr ∧ d.widx = c.widx + 1 ∧ d.clause = c.clause ∧ d.issuing = c.issuing)
  ∧ (c.clause.length ≤ c.widx + 1 →
    d.hdr = c.hdr + 8 * BitVec.ofNat 64 (c.clause.length + 1) ∧ d.widx = 0 ∧ d.clause = [] ∧ d.issuing = false)

/-- d is at a clause boundary with this next clause. -/
def Cp.boundaryAt (target : Word64) (d : Cp) : Prop := d.hdr = target ∧ d.widx = 0 ∧ d.clause = [] ∧ d.issuing = false

/-- t is s but for the control program r and its population, the performance counters and the issuer: all of memory, every cache,
lock, tile, queue and table is the same, and so are the other populations. The population has become q, the control program c at a
place that pos allows, and the other control programs of the population are the same. -/
def Leaves (s : State) (r : CpRef) (p q : Pop) (c : Cp) (pos : Cp → Prop) (t : State) : Prop :=
  t = { s with pops := t.pops, pmc := t.pmc, issuer := .none }
  ∧ (∀ k, k ≠ r.pid → t.pop k = s.pop k)
  ∧ ∃ q' d, t.cpOf r = some (q', d) ∧ q' = { q with cps := q'.cps } ∧ (∀ k, k ≠ r.cid → q'.cp k = p.cp k)
    ∧ c.sameBut d ∧ pos d

/-- The word completes: exec answers a next state that holds what is said. -/
def Completes (i : Instr) (s : State) (post : State → Prop) : Prop := ∃ t, exec i s = .next t ∧ post t

/-- The word completes and its control program goes on at the next word or clause as c', its population as q. -/
def GoesOn (i : Instr) (s : State) (r : CpRef) (p : Pop) (c : Cp) (q : Pop) (c' : Cp) : Prop :=
  Completes i s (Leaves s r p q c' c.follows)

/-! ### Results of lane words -/

/-- v holds the lane registers of p with new values g (lane, register) in the registers vd … vd + n − 1 of the lanes of a. -/
def LaneRegs (p : Pop) (a : LaneSet) (vd n : Nat) (g : Nat → Nat → Word32) (v : Tab Word32) : Prop :=
  ∀ lane reg, reg < 2048 →
    Tab.get 0 v (2048 * lane + reg) =
      if a.getLsbD lane = true ∧ vd ≤ reg ∧ reg < vd + n then g lane (reg - vd) else p.getV lane reg

/-- The flags raised are those of the elements of the lanes of a (R98, R118). -/
def RaisedBy (a : LaneSet) (n : Nat) (g : Nat → Nat → Flags) (fl : Flags) : Prop :=
  ∀ b, fl.getLsbD b = true ↔ ∃ lane k, a.getLsbD lane = true ∧ k < n ∧ (g lane k).getLsbD b = true

/-- k is N / D rounded to an integer in the direction d (R91). -/
def Rounds (d : Dir) (N : Int) (D : Nat) (k : Int) : Prop :=
  (k * D - N).natAbs < D
  ∧ (d = .rtz → (k * D).natAbs ≤ N.natAbs) ∧ (d = .rdn → k * D ≤ N) ∧ (d = .rup → N ≤ k * D)
  ∧ (d = .rto → k * D = N ∨ k % 2 = 1)
  ∧ (d = .rne ∨ d = .rna → 2 * (k * D - N).natAbs ≤ D)
  ∧ (d = .rne → 2 * (k * D - N).natAbs = D → k % 2 = 0)
  ∧ (d = .rna → 2 * (k * D - N).natAbs = D → N.natAbs ≤ (k * D).natAbs)

/-- A lane word that computes element by element: g lane k is the value and the flags of element k of a lane of A; every other
lane register is the same. -/
def Elementwise (i : Instr) (s : State) (r : CpRef) (p : Pop) (c : Cp) (mask : MReg) (t : Ty) (vd : VReg)
    (g : Nat → Nat → Nat × Flags) : Prop :=
  Completes i s (fun u => ∃ v fl,
    Leaves s r p { p with v := v } (c.raise fl) c.follows u
    ∧ RaisedBy (acting p c mask) t.elems (fun lane k => (g lane k).2) fl
    ∧ (∀ lane reg, reg < 2048 → ¬((acting p c mask).getLsbD lane = true ∧ vd.toNat ≤ reg ∧ reg < vd.toNat + t.regs) →
        Tab.get 0 v (2048 * lane + reg) = p.getV lane reg)
    ∧ (∀ lane k, (acting p c mask).getLsbD lane = true → k < t.elems →
        elemOf t (({ p with v := v } : Pop).pat lane t vd.toNat) k = (g lane k).1 % 2 ^ t.bits))

/-- No element of a lane of A raises a flag whose trap is enabled (R98, R158). -/
def Untrapped (p : Pop) (c : Cp) (mask : MReg) (t : Ty) (g : Nat → Nat → Nat × Flags) : Prop :=
  ∀ lane k, (acting p c mask).getLsbD lane = true → k < t.elems → (g lane k).2 &&& c.enables = 0

/-- A lane word of one or more whole patterns: the lanes of A get the parts of f lane in the destination's registers, no flag is
raised. -/
def LaneWritesPattern (i : Instr) (s : State) (r : CpRef) (p : Pop) (c : Cp) (mask : MReg) (vd n : Nat) (f : Nat → Nat) : Prop :=
  Completes i s (fun u => ∃ v, Leaves s r p { p with v := v } c c.follows u
    ∧ LaneRegs p (acting p c mask) vd n (fun lane k => BitVec.ofNat 32 (f lane / 2 ^ (32 * k))) v)

/-! ### Results of searches -/

/-- The bit that a search leaves in md for a lane, from whether the lane is in ms ∧ L, its result and its old bit (R190). -/
def searchBit (comb : Comb) (inScope resp old : Bool) : Bool :=
  match comb with
  | .set => inScope && resp
  | .and => if inScope then old && resp else old
  | .or => if inScope then old || resp else old
  | .andn => if inScope then old && !resp else old
  | .xor => if inScope then old != resp else old

/-- A search completes: md holds, cut to the top of the set stack, the bits of R190. -/
def Searches (i : Instr) (s : State) (r : CpRef) (p : Pop) (c : Cp) (o : Ls) (resp : Nat → Bool) : Prop :=
  ∃ d : LaneSet, GoesOn i s r p c p (c.writeM o.md d)
    ∧ ∀ l, l < maxLanes →
        d.getLsbD l = searchBit o.comb ((c.getM o.ms &&& p.live).getLsbD l) (resp l) ((c.getM o.md).getLsbD l)

/-- m0 lies in the top level, and every level in the one below it (R185). -/
def Cp.nested (c : Cp) : Prop :=
  (∀ top, c.stack.getLast? = some top → c.getM 0 &&& ~~~top = 0)
  ∧ ∀ k a b, c.stack[k]? = some a → c.stack[k + 1]? = some b → b &&& ~~~a = 0

/-! ### Traps -/

/-- The trap t is taken: tpc, tcause, taddr and tlane hold what is said, the control program no longer issues and waits for
nothing, and neither its scalars, sets, stack, modes, flags and pipeline nor the lanes of its population nor anything outside the
population is changed (R161, R314). -/
def Trapped (s : State) (r : CpRef) (p : Pop) (c : Cp) (t : Trap) (tpc taddr tlane : Word64) (lane : BitVec 3) (u : State) : Prop :=
  u = { s with pops := u.pops, pmc := u.pmc, issuer := .none }
  ∧ (∀ k, k ≠ r.pid → u.pop k = s.pop k)
  ∧ ∃ q d, u.cpOf r = some (q, d) ∧ q = { p with cps := q.cps, aborted := q.aborted }
    ∧ d.tpc = tpc ∧ d.tcause = 0#53 ++ lane ++ BitVec.ofNat 8 t.code ∧ d.taddr = taddr ∧ d.tlane = tlane
    ∧ d.issuing = false ∧ d.wait = none ∧ d.s = c.s ∧ d.m = c.m ∧ d.stack = c.stack ∧ d.mode = c.mode ∧ d.flags = c.flags
    ∧ d.pend = c.pend ∧ d.asyncs = c.asyncs ∧ d.save = c.save

/-! ### Words of a control program -/

/-- The words of the press, which a matrix stream issues (R58, R66). -/
def isPressWord : Instr → Bool
  | .pfmtA _ | .pfmtB _ | .pmm _ _ _ _ | .pmmg _ _ _ _ _ | .pzero _ | .pld _ _ | .pst _ _ _ | .pwait _ _ | .parrive _ _ | .ploop _ _
  | .paddx _ _ | .psetx _ _ | .pend => true
  | _ => false

/-- The words a control program issues. -/
def isCpWord (i : Instr) : Bool := isWord i && !isPressWord i

/-- No debugger holds, waits for or steps the control program. -/
def Cp.undebugged (c : Cp) : Prop := c.halted = false ∧ c.attached = false ∧ c.haltDue = false ∧ c.stepping = false

/-- The lanes that a JOIN finds in the fragments and the overflow slot of this state (R173). -/
def State.joinLanes (s : State) (p : Pop) (c : Cp) (st : FragState) (l : Nat) : Prop :=
  (∃ e ∈ s.fragsOf p.home c.ctx, e.2.state = st ∧ (p.lanesIn false e.1).getLsbD l = true)
  ∨ ((s.ovf p.home c.ctx).state = st ∧ (p.lanesIn true c.ctx).getLsbD l = true)

/-! ### Memory words -/

/-- The control program r goes on as c' at the next word or clause, its population as q; the other control programs of the population
and the other populations are the same, and nothing issues. -/
def CpGoes (s t : State) (r : CpRef) (p q : Pop) (c c' : Cp) : Prop :=
  (∀ k, k ≠ r.pid → t.pop k = s.pop k) ∧ t.issuer = .none
  ∧ ∃ q' d, t.cpOf r = some (q', d) ∧ q' = { q with cps := q'.cps } ∧ (∀ k, k ≠ r.cid → q'.cp k = p.cp k)
    ∧ c'.sameBut d ∧ c.follows d

/-- The word completes and its control program goes on with what it has entered under a new serial number n. Beside the population
only the TLBs, the write-backs that reads of majority lines leave due, draws and serial numbers differ: no byte of memory, no cache, no
lock, no table and no other population. -/
def Enters (i : Instr) (s : State) (r : CpRef) (p : Pop) (c : Cp) (c' : Nat → Cp) : Prop :=
  Completes i s (fun t => ∃ n, s.serial ≤ n
    ∧ t = { s with pops := t.pops, pmc := t.pmc, tlb := t.tlb, majBacks := t.majBacks, serial := t.serial,
                   tick := t.tick, issuer := .none }
    ∧ CpGoes s t r p p c (c' n))

/-- The same of a word that first enters the locks of its operation (R220). -/
def EntersLocked (i : Instr) (s : State) (r : CpRef) (locks : Nat → List Lock) (c' : Nat → State → Cp → Cp) : Prop :=
  Completes i s (fun t => ∃ n, s.serial ≤ n ∧ ∃ u p c, u = s.enterLocks [] (locks n) ∧ u.cpOf r = some (p, c)
    ∧ t = { u with pops := t.pops, pmc := t.pmc, tlb := t.tlb, majBacks := t.majBacks, serial := t.serial,
                   tick := t.tick, issuer := .none }
    ∧ CpGoes u t r p p c (c' n u c))

/-- An access as it enters the pipeline: one without a performing part is complete at once (R333). -/
def Access.entered (a : Access) : Access := if a.items = [] then { a with performed := true, complete := true } else a

/-- The control program with one more access in its pipeline, complete ones left out (R23, R333). -/
def Cp.withAccess (c : Cp) (a : Access) : Cp := { c with pend := retire false (c.pend ++ [a]) }

/-- The control program with one more asynchronous operation, complete ones left out (R333). -/
def Cp.withAsync (c : Cp) (a : AsyncOp) : Cp := { c with asyncs := retireAsync (c.asyncs ++ [a]) }

/-- An asynchronous operation as it takes its ticket (R333). -/
def newAsync (n : Nat) (kind : AsyncKind) (waiting done : Bool) (clock : Word64) : AsyncOp :=
  { serial := n, kind := kind, moved := 0, waiting := waiting, held := none, status := 0, complete := done, since := clock,
    majWait := [], majLanes := [], know := Know.zero, acked := false, got := none }

/-- No stamp refuses a synchronising access of this scope to these places (R219). -/
def State.unrefused (s : State) (r : CpRef) (p : Pop) (scope : Scope) (ls : List Loc) : Prop :=
  ∀ l ∈ ls, s.stampRefuses r.pid p.cluster scope l = false

/-- The control program after it has read its word as a passing WAITR: it has seen the word, learns what the releases it observes and
that reach it passed on, and at DEV and SYS what handed-over populations had released, and then uses no line held before (R33, R330, R343,
R344). -/
def Waited (s : State) (r : CpRef) (p : Pop) (c : Cp) (scope : Scope) (loc : Loc) (c' : Cp) : Prop :=
  ∃ k b,
    (k = c.know ∨ ∃ pa g, loc = .hbm pa g ∧ k = c.know.see pa 16 (fun i => s.verOf (pa + i)))
    ∧ let xs := (s.observed none true loc 16).filter (fun x => x.syncs scope r.pid p.cluster)
      let d := Cp.learn (passedOn xs) { c with know := k }
      (scope = .pop ∨ scope = .clu → c' = d)
      ∧ (scope = .dev ∨ scope = .sys → c' = { Cp.learn s.handed d with bar := b } ∧ (xs ≠ [] → s.serial ≤ b))

/-! ### Bytes -/

/-- A byte of memory by its cell: a byte of the cluster stores, or the byte at a physical address, where a dirty L2 line stands over
HBM (R211, R214). -/
def State.cell (s : State) : Bool × Nat → Byte
  | (false, x) => Tab.get 0 s.cstore x
  | (true, x) => s.physByte x

/-- The cell of a place; a majority line has none. -/
def Loc.cell : Loc → Option (Bool × Nat)
  | .store k a => some (false, 16777216 * k + a)
  | .hbm pa _ => some (true, pa)
  | .maj _ _ => none

/-- The n bytes from a cell on. -/
def State.cells (s : State) (x : Bool × Nat) (n : Nat) : List Byte := (List.range n).map (fun j => s.cell (x.1, x.2 + j))

/-- The part lies in one line that reads good data (R205, R211). -/
def State.sound (s : State) (loc : Loc) (n : Nat) : Prop :=
  s.lineState loc = LineState.clean ∧ match loc with
    | .store _ a => a % 128 + n ≤ 128
    | .hbm a _ => a % 128 + n ≤ 128
    | .maj _ _ => False

/-- What a byte becomes when the part stores data under the mask bits (R224, R236). -/
def Item.stored (it : Item) (data bits : BitVec 128) (x : Bool × Nat) (old : Byte) : Byte :=
  match it.loc.cell with
  | some (b, y) =>
    if b = x.1 ∧ y ≤ x.2 ∧ x.2 < y + it.size then
      let m := bits.extractLsb' (8 * (x.2 - y)) 8
      (old &&& ~~~m) ||| (data.extractLsb' (8 * (x.2 - y)) 8 &&& m)
    else old
  | none => old

/-- The part touches the cell. -/
def Item.touches (it : Item) (x : Bool × Nat) : Prop := ∃ y, it.loc.cell = some (x.1, y) ∧ y ≤ x.2 ∧ x.2 < y + it.size

/-- A field of the rennet word at a byte of the cluster stores: 0 target, 1 count, 2 generation, 3 status (R324). -/
def State.rennetField (s : State) (x k : Nat) : Word32 :=
  Tab.get 0 s.cstore (x + 4 * k + 3) ++ Tab.get 0 s.cstore (x + 4 * k + 2) ++ Tab.get 0 s.cstore (x + 4 * k + 1)
    ++ Tab.get 0 s.cstore (x + 4 * k)

/-- A field of a rennet word in some bytes: 0 target, 1 count, 2 generation, 3 status (R324). -/
def rennetOf (b : Nat → Byte) (x k : Nat) : Word32 := b (x + 4 * k + 3) ++ b (x + 4 * k + 2) ++ b (x + 4 * k + 1) ++ b (x + 4 * k)

/-- The bytes after an arrival of n with status bits on the word at x; every other byte is the same (R326). -/
def ArrivedAt (b b' : Nat → Byte) (x : Nat) (n bits : Word32) : Prop :=
  let target := (rennetOf b x 0).toNat
  let sum := (rennetOf b x 1).toNat + n.toNat
  rennetOf b' x 0 = rennetOf b x 0
  ∧ (target = 0 → rennetOf b' x 1 = BitVec.ofNat 32 sum ∧ rennetOf b' x 2 = rennetOf b x 2)
  ∧ (target ≠ 0 → rennetOf b' x 1 = BitVec.ofNat 32 (sum % target) ∧ rennetOf b' x 2 = rennetOf b x 2 + BitVec.ofNat 32 (sum / target))
  ∧ rennetOf b' x 3 = rennetOf b x 3 ||| bits
  ∧ ∀ y, y < x ∨ x + 16 ≤ y → b' y = b y

/-- t's cluster stores are s's after an arrival of n with status bits on the word at x (R326). -/
def Arrived (s t : State) (x : Nat) (n bits : Word32) : Prop := ArrivedAt (Tab.get 0 s.cstore) (Tab.get 0 t.cstore) x n bits

/-- The lines that a cluster holds and may use agree with their homes, which read good data (R213). -/
def State.coherent (s : State) (cluster mark : Nat) : Prop :=
  ∀ l ∈ s.ccache, l.cluster = cluster → mark ≤ l.age → l.bytes = s.physBytes (128 * l.line) 128

/-- No other atomic of the cluster's atomic unit has read bytes of these parts and not written them (R218). -/
def State.unshared (s : State) (op : OpRef) (p : Pop) (a : Access) : Prop :=
  ∀ it ∈ a.items, ∀ e ∈ s.pops, e.2.cluster = p.cluster → ∀ x ∈ e.2.cps, ∀ b ∈ x.2.pend,
    (e.1 ≠ op.pid ∨ x.1 ≠ op.cid ∨ b.serial ≠ op.serial) → halvesMet b it.loc it.size = []

/-- The access of a control program by its name, in its population. -/
structure Pending (s : State) (op : OpRef) (p : Pop) (c : Cp) (a : Access) : Prop where
  cpOf : s.cpOf { pid := op.pid, cid := op.cid } = some (p, c)
  access : c.access op.serial = some a

/-- The asynchronous operation of a control program by its name. -/
structure Outstanding (s : State) (op : OpRef) (p : Pop) (c : Cp) (a : AsyncOp) : Prop where
  cpOf : s.cpOf { pid := op.pid, cid := op.cid } = some (p, c)
  async : c.async op.serial = some a
  running : a.complete = false

/-- After an event of a control program's pipeline: the population has become q, the control program c' but for its pipeline, its
asynchronous operations and what it knows, and the other control programs and populations are the same. -/
def PipeLeaves (s t : State) (r : CpRef) (p q : Pop) (c' : Cp) (more : Cp → Prop) : Prop :=
  (∀ k, k ≠ r.pid → t.pop k = s.pop k)
  ∧ ∃ q' d, t.cpOf r = some (q', d) ∧ q' = { q with cps := q'.cps } ∧ (∀ k, k ≠ r.cid → q'.cp k = p.cp k)
    ∧ d = { c' with pend := d.pend, asyncs := d.asyncs, know := d.know, observed := d.observed, fenced := d.fenced,
                      learned := d.learned, carried := d.carried, bar := d.bar } ∧ more d

/-! ### Streams -/

/-- The stream x of the population p issues (R257). -/
structure Streaming (s : State) (pid : Nat) (p : Pop) (x : Stream) : Prop where
  issuer : s.issuer = .stream pid
  pop : s.pop pid = some p
  stream : p.stream = some x

/-- The stream of a population waits for an event; nothing is said of who issues. -/
structure HasStream (s : State) (pid : Nat) (p : Pop) (x : Stream) : Prop where
  pop : s.pop pid = some p
  stream : p.stream = some x

/-- The stream word completes: its stream becomes y, and nothing else differs. -/
def StreamGoes (i : Instr) (s : State) (pid : Nat) (p : Pop) (y : Stream) : Prop :=
  Completes i s (fun t => t = { s with pops := t.pops, issuer := .none } ∧ (∀ k, k ≠ pid → t.pop k = s.pop k)
    ∧ t.pop pid = some { p with stream := some y })

/-! ### Messages -/

/-- A MGMT message is accepted: it comes with security, not by RUDI, on a port of the management endpoint, with a good header, signed, and
later than the last accepted one (R360, R361, R364, R371, R372). -/
structure Accepted (s : State) (a : Auth) : Prop where
  stage : s.sys.stage ≠ 0
  secured : a.secured = true
  port : (s.endpoint mgmtEndpoint).ports.getLsbD a.port.toNat = true
  formed : authFormed a = true
  signed : a.sigOk = true
  next : s.mgmtSeq.toNat < a.seq.toNat

/-- The state in which the message's sequence number has been taken and its answer sent (R364, R371). -/
def State.answered (s : State) (a : Auth) (st : Status) (body : List Byte) : State :=
  { s with mgmtSeq := a.seq, outbox := s.outbox ++ [.mgmt 0x86 (authTag a) st body] }

/-- A message of a host or peer reaches its function with a right: it comes on a port of the endpoint, with security where that is
required, and its sender has a valid entry i there, in a peer table whose lines read good data (R211, R360, R361, R363, R366, R372). -/
structure Admitted (s : State) (m : Msg) (right : Option Nat) (src : Nat) : Prop where
  stage : s.sys.stage ≠ 0
  running : s.sys.recovery = false
  reached : s.reached m = true
  free : s.portHeld m = false
  table : s.readPeers m = s
  entry : ∃ rights, s.senderEntry m = some (src, rights) ∧ ∀ b, right = some b → rights.getLsbD b = true

/-- The right that a message needs at its function: the bit of its sender's entry (R362, R363). -/
def rightOf : Instr → Option Nat
  | .hostLaunch _ _ _ => some 0
  | .memw _ _ _ _ | .rmaWrite _ _ _ => some 1
  | .memr _ _ _ _ | .rmaRead _ _ _ => some 2
  | .hostArrive _ _ _ _ => some 3
  | .query _ => some 4
  | .uetAtomic _ _ _ _ _ _ => some 5
  | _ => none

/-- The messages that may travel by RUDI: reads and queries, which are idempotent (R360). -/
def rudiOk : Instr → Bool
  | .memr _ _ _ _ | .rmaRead _ _ _ | .query _ => true
  | .badMsg m _ => m.type == 3 || m.type == 5
  | _ => false

/-- A function's answer to a message of a type (R364). -/
def State.replies (s : State) (m : Msg) (type : BitVec 8) (st : Status) (body : List Byte) (t : State) : Prop :=
  t.outbox = s.outbox ++ [.response m.vf m.sender type m.tag st body]

end Sys2Proof.Machine
end

