-- ==== Sys2Proof/Certificates/Slice0/Obligations.lean ====
section
/-! DEFINITION. The statements about the machine, from the numbered rules of spec/. -/

open Sys2Proof Sys2Proof.Machine

/-! ### Scalar words (R162 to R167) -/

/-- The integer rows of the scalar instructions compute on exact integers and write the result modulo 2^w, extended (R163, R164).
SDIV and SREM by the three cases of R88; a zero divisor raises DZ, and without DZE the word goes on, with it FPTRAP follows. -/
def Obligations.ScalarIntegerResults : Prop :=
  (∀ (s : State) (r : CpRef) (p : Pop) (c : Cp) (o : X2) (o1 : X1), Standing s r p c →
      let w := o.ty.bits
      let x := xpat o.ty (c.getS o.sa)
      let y := xpat o.ty (xsrc c o.ty o.b)
      let a := sense o.ty x
      let b := sense o.ty y
      let x1 := xpat o1.ty (c.getS o1.sa)
      let writes := fun (i : Instr) (v : Int) =>
        wordOk p.regs i = true → GoesOn i s r p c p (c.setS o.sd (ext o.ty (v % 2 ^ w).toNat))
      writes (.sadd o) (a + b) ∧ writes (.ssub o) (a - b) ∧ writes (.smul o) (a * b) ∧ writes (.smulh o) (a * b / 2 ^ w)
      ∧ writes (.sand o) (x &&& y : Nat) ∧ writes (.sor o) (x ||| y : Nat) ∧ writes (.sxor o) (x ^^^ y : Nat)
      ∧ writes (.sshl o) (x * 2 ^ (y % w) : Nat) ∧ writes (.sshr o) (x / 2 ^ (y % w) : Nat)
      ∧ writes (.ssar o) (senseOf true w x / 2 ^ (y % w))
      ∧ writes (.smin o) (min a b) ∧ writes (.smax o) (max a b)
      ∧ (wordOk p.regs (.sclz o1) = true → ∃ n : Nat,
          GoesOn (.sclz o1) s r p c p (c.setS o1.sd (BitVec.ofNat 64 n))
          ∧ ((x1 = 0 ∧ n = o1.ty.bits) ∨ (n < o1.ty.bits ∧ 2 ^ (o1.ty.bits - n - 1) ≤ x1 ∧ x1 < 2 ^ (o1.ty.bits - n))))
      ∧ (wordOk p.regs (.spopc o1) = true →
          GoesOn (.spopc o1) s r p c p
            (c.setS o1.sd (BitVec.ofNat 64 ((List.range o1.ty.bits).filter (fun k => x1.testBit k)).length))))
  ∧ (∀ (s : State) (r : CpRef) (p : Pop) (c : Cp) (o : X2), Standing s r p c →
      let w := o.ty.bits
      let a := sense o.ty (xpat o.ty (c.getS o.sa))
      let b := sense o.ty (xpat o.ty (xsrc c o.ty o.b))
      let writes := fun (i : Instr) (v : Int) (fl : Flags) =>
        GoesOn i s r p c p ((c.setS o.sd (ext o.ty (v % 2 ^ w).toNat)).raise fl)
      let traps := fun (i : Instr) (v : Int) =>
        Completes i s (Trapped s r p ((c.setS o.sd (ext o.ty (v % 2 ^ w).toNat)).raise 2) .fpTrap c.wordAddr 0 allOnes64 0)
      wordOk p.regs (.sdiv o) = true → wordOk p.regs (.srem o) = true →
      (b = 0 → c.mode.getLsbD 7 = false → writes (.sdiv o) 0 2 ∧ writes (.srem o) a 2)
      ∧ (b = 0 → c.mode.getLsbD 7 = true → traps (.sdiv o) 0 ∧ traps (.srem o) a)
      ∧ (b ≠ 0 → o.ty.isSigned = true → a = -(2 ^ (w - 1)) → b = -1 → writes (.sdiv o) a 0 ∧ writes (.srem o) 0 0)
      ∧ (b ≠ 0 → ¬(o.ty.isSigned = true ∧ a = -(2 ^ (w - 1)) ∧ b = -1) →
          ∃ q m : Int, writes (.sdiv o) q 0 ∧ writes (.srem o) m 0 ∧ a = q * b + m ∧ m.natAbs < b.natAbs ∧ (0 ≤ a → 0 ≤ m) ∧ (a ≤ 0 → m ≤ 0)))

/-- SMOV, SLI, SSET, SSEL, SEXT and SINS write what R165 and R166 say.
SSET of two floating patterns compares after DAZ and raises IV for a signalling NaN, and for a quiet one under LT to GE (R165). -/
def Obligations.ScalarMovesAndCompares : Prop :=
  (∀ (s : State) (r : CpRef) (p : Pop) (c : Cp) (ty : Ty) (sd : SReg) (src : XSrc) (imm : BitVec 32) (cc : Cond) (o : X2) (o3 : X3),
      Standing s r p c →
      let w := o.ty.bits
      let x := xpat o.ty (c.getS o.sa)
      let y := xpat o.ty (xsrc c o.ty o.b)
      let pos := y % 64 % w
      let top := min (pos + y / 256 % 64) w
      let writes := fun (i : Instr) (sd : SReg) (v : Word64) => wordOk p.regs i = true → GoesOn i s r p c p (c.setS sd v)
      (ty.wide = true → writes (.smov ty sd src) sd (xsrc c ty src))
      ∧ (ty = .s32 → writes (.smov ty sd src) sd (((xsrc c ty src).extractLsb' 0 32).signExtend 64))
      ∧ (ty = .n32 ∨ ty = .f32 → writes (.smov ty sd src) sd (((xsrc c ty src).extractLsb' 0 32).zeroExtend 64))
      ∧ writes (.sliLo sd imm) sd (imm.zeroExtend 64)
      ∧ writes (.sliHi sd imm) sd (imm ++ (c.getS sd).extractLsb' 0 32)
      ∧ (o.ty.isFloat = false → writes (.sset cc o) o.sd (if condInt cc (sense o.ty x) (sense o.ty y) then 1 else 0))
      ∧ writes (.ssel o3) o3.sd (if (c.getS o3.sc).toNat % 2 ^ o3.ty.bits ≠ 0 then c.getS o3.sa else c.getS o3.sb)
      ∧ writes (.sext o) o.sd (ext o.ty
          (if o.ty.isSigned = true ∧ pos < top then (senseOf true (top - pos) (x / 2 ^ pos) % 2 ^ w).toNat
           else x / 2 ^ pos % 2 ^ (top - pos)))
      ∧ (wordOk p.regs (.sins o) = true → ∃ v : Nat, v < 2 ^ w ∧ GoesOn (.sins o) s r p c p (c.setS o.sd (ext o.ty v))
          ∧ ∀ k, k < w → v.testBit k = if pos ≤ k ∧ k < top then x.testBit (k - pos) else (xpat o.ty (c.getS o.sd)).testBit k))
  ∧ (∀ (s : State) (r : CpRef) (p : Pop) (c : Cp) (cc : Cond) (o : X2), Standing s r p c → wordOk p.regs (.sset cc o) = true →
      o.ty.isFloat = true → c.mode.getLsbD 6 = false →
      let f := fpOf o.ty
      let x := unpack f c.daz (xpat o.ty (c.getS o.sa))
      let y := unpack f c.daz (xpat o.ty (xsrc c o.ty o.b))
      let nan := isNan x || isNan y
      GoesOn (.sset cc o) s r p c p
        ((c.setS o.sd (if (if nan then cc == .ne else condFp cc x y) then 1 else 0)).raise
          (if isSnan f x || isSnan f y || (nan && cc != .eq && cc != .ne) then 1 else 0)))

/-- The floating scalar words write the pattern of the rounded result with the bits above it 0 and raise its flags (R162, R163, R167). -/
def Obligations.ScalarFloatResults : Prop :=
  ∀ (s : State) (r : CpRef) (p : Pop) (c : Cp) (rnd : Rnd) (o : X2) (o1 : X1) (o3 : X3) (dst src : Ty) (sd sa : SReg),
    Standing s r p c →
    let env := envOf c rnd
    let x := xpat o.ty (c.getS o.sa)
    let y := xpat o.ty (xsrc c o.ty o.b)
    let z := xpat src (c.getS sa)
    let writes := fun (i : Instr) (sd : SReg) (v : Word64) (fl : Flags) =>
      wordOk p.regs i = true → fl &&& c.enables = 0 → GoesOn i s r p c p ((c.setS sd v).raise fl)
    let float := fun (i : Instr) (sd : SReg) (v : Nat × Flags) => writes i sd (BitVec.ofNat 64 v.1) v.2
    float (.sfadd rnd o) o.sd (fAdd (fpOf o.ty) env x y)
    ∧ float (.sfmul rnd o) o.sd (fMul (fpOf o.ty) env x y)
    ∧ float (.sfdiv rnd o) o.sd (fDiv (fpOf o.ty) env x y)
    ∧ float (.sfsqrt rnd o1) o1.sd (fSqrt (fpOf o1.ty) env (xpat o1.ty (c.getS o1.sa)))
    ∧ float (.sfma rnd o3) o3.sd (fFma (fpOf o3.ty) env false false (xpat o3.ty (c.getS o3.sa)) (xpat o3.ty (c.getS o3.sb))
        (xpat o3.ty (c.getS o3.sc)))
    ∧ (src.isFloat = true → dst.isFloat = true → float (.sfcvt rnd dst src sd sa) sd (fConv (fpOf src) (fpOf dst) env z))
    ∧ (src.isFloat = true → dst.isFloat = false →
        let v := fToInt (fpOf src) env dst.isSigned dst.bits z
        writes (.sfcvt rnd dst src sd sa) sd (ext dst (v.1 % 2 ^ dst.bits).toNat) v.2)
    ∧ (src.isFloat = false → float (.sfcvt rnd dst src sd sa) sd (intToF (fpOf dst) env (sense src z)))

/-! ### Lane integer words (R118 to R132) -/

/-- fit of R120: the result modulo 2^w in wrap mode; in saturate mode clamped to the type's range, with SAT when that changed it.
VADD, VSUB, VMUL and VMAD compute on the exact integers of every element of every lane of A, then apply fit once (R121).
A holds the lanes that a memory word of the same clause has just parked (the model's reading, notes/assumptions/62.md).
VMULH, VMIN, VMAX, VABS and VNEG by element (R122, R123, R124). -/
def Obligations.LaneIntegerArithmetic : Prop :=
  (∀ (signed : Bool) (w : Nat) (x : Int), 0 < w →
      let lo : Int := if signed then -(2 ^ (w - 1)) else 0
      let hi : Int := if signed then 2 ^ (w - 1) - 1 else 2 ^ w - 1
      ((fit .wrap signed w x).2 = 0 ∧ ((fit .wrap signed w x).1 : Int) = x % 2 ^ w)
      ∧ (fit .sat signed w x).1 < 2 ^ w
      ∧ (lo ≤ x → x ≤ hi → senseOf signed w (fit .sat signed w x).1 = x ∧ (fit .sat signed w x).2 = 0)
      ∧ (x < lo → senseOf signed w (fit .sat signed w x).1 = lo ∧ (fit .sat signed w x).2 = 32)
      ∧ (hi < x → senseOf signed w (fit .sat signed w x).1 = hi ∧ (fit .sat signed w x).2 = 32))
  ∧ (∀ (s : State) (r : CpRef) (p : Pop) (c : Cp) (m : IMode) (o : Lv2), Standing s r p c →
      let a := fun i k => sense o.ty (elemOf o.ty (p.pat i o.ty o.va.toNat) k)
      let b := fun i k => sense o.ty (elemOf o.ty (bPat p c i o.ty o.b) k)
      let d := fun i k => sense o.ty (elemOf o.ty (p.pat i o.ty o.vd.toNat) k)
      let puts := fun (i : Instr) (x : Nat → Nat → Int) =>
        wordOk p.regs i = true → Elementwise i s r p c o.mask o.ty o.vd (fun l k => fit m o.ty.isSigned o.ty.bits (x l k))
      puts (.vadd m o) (fun i k => a i k + b i k)
      ∧ puts (.vsub m o) (fun i k => a i k - b i k)
      ∧ puts (.vmul m o) (fun i k => a i k * b i k)
      ∧ puts (.vmad m o) (fun i k => d i k + a i k * b i k))
  ∧ (∀ (s : State) (r : CpRef) (p : Pop) (c : Cp) (m : IMode) (o : Lv2) (o1 : Lv1), Standing s r p c →
      let w := o.ty.bits
      let a := fun i k => sense o.ty (elemOf o.ty (p.pat i o.ty o.va.toNat) k)
      let b := fun i k => sense o.ty (elemOf o.ty (bPat p c i o.ty o.b) k)
      let a1 := fun i k => sense o1.ty (elemOf o1.ty (p.pat i o1.ty o1.va.toNat) k)
      let puts := fun (i : Instr) (x : Nat → Nat → Int) =>
        wordOk p.regs i = true → Elementwise i s r p c o.mask o.ty o.vd (fun l k => ((x l k % 2 ^ w).toNat, 0))
      let fits := fun (i : Instr) (x : Nat → Nat → Int) =>
        wordOk p.regs i = true →
          Elementwise i s r p c o1.mask o1.ty o1.vd (fun l k => fit m o1.ty.isSigned o1.ty.bits (x l k))
      puts (.vmulh o) (fun i k => a i k * b i k / 2 ^ w)
      ∧ puts (.vmin o) (fun i k => if a i k ≤ b i k then a i k else b i k)
      ∧ puts (.vmax o) (fun i k => if a i k ≤ b i k then b i k else a i k)
      ∧ fits (.vabs m o1) (fun i k => ((a1 i k).natAbs : Int))
      ∧ fits (.vneg m o1) (fun i k => -a1 i k))

/-- The logic words act bit by bit, the shifts take each element's count modulo w, VSEL tests the old pattern (R125, R126, R130).
A holds the lanes that a memory word of the same clause has just parked (the model's reading, notes/assumptions/62.md).
VCLZ, VPOPC and VBREV on every element's pattern (R127). -/
def Obligations.LaneBitOperations : Prop :=
  (∀ (s : State) (r : CpRef) (p : Pop) (c : Cp) (m : IMode) (o : Lv2) (o1 : Lv1), Standing s r p c →
      let w := o.ty.bits
      let a := fun i k => elemOf o.ty (p.pat i o.ty o.va.toNat) k
      let b := fun i k => elemOf o.ty (bPat p c i o.ty o.b) k
      let d := fun i k => elemOf o.ty (p.pat i o.ty o.vd.toNat) k
      let a1 := fun i k => elemOf o1.ty (p.pat i o1.ty o1.va.toNat) k
      let puts := fun (i : Instr) (x : Nat → Nat → Nat) =>
        wordOk p.regs i = true → Elementwise i s r p c o.mask o.ty o.vd (fun l k => (x l k, 0))
      let puts1 := fun (i : Instr) (x : Nat → Nat → Nat) =>
        wordOk p.regs i = true → Elementwise i s r p c o1.mask o1.ty o1.vd (fun l k => (x l k, 0))
      let bits := fun (i : Instr) (f : Bool → Bool → Bool) =>
        wordOk p.regs i = true → ∃ x : Nat → Nat → Nat, Elementwise i s r p c o.mask o.ty o.vd (fun l k => (x l k, 0))
          ∧ ∀ l k j, j < w → (x l k).testBit j = f ((a l k).testBit j) ((b l k).testBit j)
      bits (.vand o) (fun x y => x && y) ∧ bits (.vor o) (fun x y => x || y) ∧ bits (.vxor o) (fun x y => x != y)
      ∧ bits (.vandn o) (fun x y => x && !y)
      ∧ puts1 (.vnot o1) (fun i k => 2 ^ o1.ty.bits - 1 - a1 i k)
      ∧ puts (.vshl m o) (fun i k => a i k * 2 ^ (b i k % w))
      ∧ puts (.vshr m o) (fun i k => a i k / 2 ^ (b i k % w))
      ∧ puts (.vsar m o) (fun i k => (senseOf true w (a i k) / 2 ^ (b i k % w) % 2 ^ w).toNat)
      ∧ puts (.vrot m o) (fun i k => a i k * 2 ^ (b i k % w) + a i k / 2 ^ (w - b i k % w))
      ∧ puts (.vsel o) (fun i k => if d i k ≠ 0 then a i k else b i k))
  ∧ (∀ (s : State) (r : CpRef) (p : Pop) (c : Cp) (o : Lv1), Standing s r p c →
      let w := o.ty.bits
      let a := fun i k => elemOf o.ty (p.pat i o.ty o.va.toNat) k
      let puts := fun (i : Instr) (f : Nat → Nat → Prop) =>
        wordOk p.regs i = true → ∃ x : Nat → Nat → Nat, Elementwise i s r p c o.mask o.ty o.vd (fun l k => (x l k, 0))
          ∧ ∀ l k, f (a l k) (x l k)
      puts (.vclz o) (fun a n => (a = 0 ∧ n = w) ∨ (n < w ∧ 2 ^ (w - n - 1) ≤ a ∧ a < 2 ^ (w - n)))
      ∧ puts (.vpopc o) (fun a n => n = ((List.range w).filter (fun j => a.testBit j)).length)
      ∧ puts (.vbrev o) (fun a x => x < 2 ^ w ∧ ∀ j, j < w → x.testBit (w - 1 - j) = a.testBit j))

/-- VEXT and VINS take the field [top−1:pos] of R128; VSAD adds the absolute differences into vd read as N32 (R128, R129).
A holds the lanes that a memory word of the same clause has just parked (the model's reading, notes/assumptions/62.md).
VMOV writes b, VMOVI its immediate, VID the lane index, and VUNIF the uniform number of the generator's word (R72, R110, R131,
R132, R146). -/
def Obligations.LaneFieldsAndMoves : Prop :=
  (∀ (s : State) (r : CpRef) (p : Pop) (c : Cp) (m : IMode) (o : Lv2), Standing s r p c →
      let w := o.ty.bits
      let a := fun i k => elemOf o.ty (p.pat i o.ty o.va.toNat) k
      let b := fun i k => elemOf o.ty (bPat p c i o.ty o.b) k
      let d := fun i k => elemOf o.ty (p.pat i o.ty o.vd.toNat) k
      let pos := fun i => b i 0 % 64 % w
      let top := fun i => min (pos i + b i 0 / 256 % 64) w
      (wordOk p.regs (.vext o) = true → Elementwise (.vext o) s r p c o.mask o.ty o.vd (fun i _ =>
          (if o.ty.isSigned = true ∧ pos i < top i then (senseOf true (top i - pos i) (a i 0 / 2 ^ pos i) % 2 ^ w).toNat
           else a i 0 / 2 ^ pos i % 2 ^ (top i - pos i), 0)))
      ∧ (wordOk p.regs (.vins o) = true → ∃ x : Nat → Nat, Elementwise (.vins o) s r p c o.mask o.ty o.vd (fun i _ => (x i, 0))
          ∧ ∀ i j, j < w → (x i).testBit j = if pos i ≤ j ∧ j < top i then (a i 0).testBit (j - pos i) else (d i 0).testBit j)
      ∧ (wordOk p.regs (.vsad m o) = true → Elementwise (.vsad m o) s r p c o.mask .n32 o.vd (fun i _ =>
          fit m false 32 ((p.getV i o.vd.toNat).toNat
            + ((List.range o.ty.elems).map (fun k => (sense o.ty (a i k) - sense o.ty (b i k)).natAbs)).sum : Nat))))
  ∧ (∀ (s : State) (r : CpRef) (p : Pop) (c : Cp) (o : LvMove) (ty : Ty) (mask : MReg) (vd : VReg) (imm : BitVec 32) (o0 : Lv0) (o1 : Lv1),
      Standing s r p c →
      (wordOk p.regs (.vmov o) = true →
        LaneWritesPattern (.vmov o) s r p c o.mask o.vd.toNat o.ty.regs (fun i => bPat p c i o.ty o.b))
      ∧ (wordOk p.regs (.vmovi ty mask vd imm) = true →
        (ty.wide = false → LaneWritesPattern (.vmovi ty mask vd imm) s r p c mask vd.toNat 1 (fun _ => imm.toNat))
        ∧ (ty.isInt = true → ty.wide = true →
            LaneWritesPattern (.vmovi ty mask vd imm) s r p c mask vd.toNat 2 (fun _ => (imm.signExtend 64).toNat))
        ∧ (ty = .f64 → LaneWritesPattern (.vmovi ty mask vd imm) s r p c mask vd.toNat 2 (fun _ => widenF32 imm.toNat)))
      ∧ (wordOk p.regs (.vid o0) = true → LaneWritesPattern (.vid o0) s r p c o0.mask o0.vd.toNat o0.ty.regs (fun i => i))
      ∧ (wordOk p.regs (.vunif o1) = true →
        LaneWritesPattern (.vunif o1) s r p c o1.mask o1.vd.toNat o1.ty.regs (fun i =>
          uniform o1.ty (p.pat i o1.ty o1.va.toNat))))

/-! ### Lane floating, generator and cross-lane words (R136 to R151) -/

/-- The floating lane words write, in every element of every lane of A, the operation's result rounded once, and raise its flags;
with no enabled flag among them the word goes on (R118, R138 to R142).
A holds the lanes that a memory word of the same clause has just parked (the model's reading, notes/assumptions/62.md). -/
def Obligations.LaneFloatResults : Prop :=
  ∀ (s : State) (r : CpRef) (p : Pop) (c : Cp) (rnd : Rnd) (o : Lv2) (o1 : Lv1), Standing s r p c →
    let env := envOf c rnd
    let f := fpOf o.ty
    let f1 := fpOf o1.ty
    let a := fun i k => elemOf o.ty (p.pat i o.ty o.va.toNat) k
    let b := fun i k => elemOf o.ty (bPat p c i o.ty o.b) k
    let d := fun i k => elemOf o.ty (p.pat i o.ty o.vd.toNat) k
    let a1 := fun i k => elemOf o1.ty (p.pat i o1.ty o1.va.toNat) k
    let n := fun i k => match o.b with
      | .imm v => v.toInt
      | .reg _ | .scalar _ => senseOf true o.ty.bits (b i k)
    let puts := fun (i : Instr) (g : Nat → Nat → Nat × Flags) =>
      wordOk p.regs i = true → Untrapped p c o.mask o.ty g → Elementwise i s r p c o.mask o.ty o.vd g
    let puts1 := fun (i : Instr) (g : Nat → Nat → Nat × Flags) =>
      wordOk p.regs i = true → Untrapped p c o1.mask o1.ty g → Elementwise i s r p c o1.mask o1.ty o1.vd g
    puts (.vfadd rnd o) (fun i k => fAdd f env (a i k) (b i k))
    ∧ puts (.vfsub rnd o) (fun i k => fSub f env (a i k) (b i k))
    ∧ puts (.vfmul rnd o) (fun i k => fMul f env (a i k) (b i k))
    ∧ puts (.vfma rnd o) (fun i k => fFma f env false false (a i k) (b i k) (d i k))
    ∧ puts (.vfms rnd o) (fun i k => fFma f env false true (a i k) (b i k) (d i k))
    ∧ puts (.vfnma rnd o) (fun i k => fFma f env true false (a i k) (b i k) (d i k))
    ∧ puts (.vfdiv rnd o) (fun i k => fDiv f env (a i k) (b i k))
    ∧ puts (.vfmin o) (fun i k => fMinMax f (envOf c .mode) false (a i k) (b i k))
    ∧ puts (.vfmax o) (fun i k => fMinMax f (envOf c .mode) true (a i k) (b i k))
    ∧ puts (.vfscale rnd o) (fun i k => fScale f env (a i k) (n i k))
    ∧ puts1 (.vfsqrt rnd o1) (fun i k => fSqrt f1 env (a1 i k))
    ∧ puts1 (.vfrnd rnd o1) (fun i k => fRound f1 env (a1 i k))
    ∧ puts1 (.vfabs o1) (fun i k => (a1 i k % f1.signW, 0))
    ∧ puts1 (.vfneg o1) (fun i k => (if a1 i k < f1.signW then a1 i k + f1.signW else a1 i k - f1.signW, 0))
    ∧ puts1 (.vfclass o1) (fun i k => (fClass f1 (a1 i k), 0))

/-- Rounding a magnitude m of units 2^0 to units of 2^n: an exact one stays; an inexact one goes to the neighbour that the direction
chooses (R91).
The first NaN among the operands, made quiet, is the result of the arithmetic words, with IV for a signalling one (R95). -/
def Obligations.RoundingAndNanOperands : Prop :=
  (∀ (d : Dir) (neg : Bool) (m n : Nat), 0 < n →
      let u := 2 ^ n
      let x := (roundAt d neg m 0 false n).1
      ((roundAt d neg m 0 false n).2 = true ↔ m % u ≠ 0)
      ∧ (m % u = 0 → x * u = m)
      ∧ (m % u ≠ 0 →
          (x = m / u ∨ x = m / u + 1)
          ∧ (d = .rtz → x = m / u)
          ∧ (d = .rdn → x = if neg then m / u + 1 else m / u)
          ∧ (d = .rup → x = if neg then m / u else m / u + 1)
          ∧ (d = .rto → x % 2 = 1)
          ∧ (d = .rne ∨ d = .rna → 2 * (m % u) < u → x = m / u)
          ∧ (d = .rne ∨ d = .rna → u < 2 * (m % u) → x = m / u + 1)
          ∧ (d = .rne → 2 * (m % u) = u → x % 2 = 0)
          ∧ (d = .rna → 2 * (m % u) = u → x = m / u + 1)))
  ∧ (∀ (f : FpFmt) (env : FpEnv) (negP negC : Bool) (x y z : Nat),
      let a := unpack f env.daz x
      let b := unpack f env.daz y
      let d := unpack f env.daz z
      let iv : Flags := if isSnan f a || isSnan f b then 1 else 0
      (∀ q, a = .nan q → fAdd f env x y = (quiet f q, iv) ∧ fSub f env x y = (quiet f q, iv) ∧ fMul f env x y = (quiet f q, iv)
          ∧ fDiv f env x y = (quiet f q, iv) ∧ fMinMax f env false x y = (quiet f q, iv) ∧ fMinMax f env true x y = (quiet f q, iv)
          ∧ (fFma f env negP negC x y z).1 = quiet f q)
      ∧ (∀ q, isNan a = false → b = .nan q → fAdd f env x y = (quiet f q, iv) ∧ fSub f env x y = (quiet f q, iv)
          ∧ fMul f env x y = (quiet f q, iv) ∧ fDiv f env x y = (quiet f q, iv) ∧ fMinMax f env false x y = (quiet f q, iv)
          ∧ fMinMax f env true x y = (quiet f q, iv) ∧ (fFma f env negP negC x y z).1 = quiet f q)
      ∧ (∀ q, isNan a = false → isNan b = false → d = .nan q → (fFma f env negP negC x y z).1 = quiet f q)
      ∧ (isSnan f a || isSnan f b || isSnan f d → (fFma f env negP negC x y z).2 = 1))

/-- VCVT converts each of the k elements, source element j from its register and place and destination element j to its own (R143,
R144).
A holds the lanes that a memory word of the same clause has just parked (the model's reading, notes/assumptions/62.md).
VRAND writes to every lane of A the four words of Philox-4×32 with 10 rounds (R108, R145). -/
def Obligations.LaneConversionsAndGenerator : Prop :=
  (∀ (s : State) (r : CpRef) (p : Pop) (c : Cp) (rnd : Rnd) (dst src : Ty) (mask : MReg) (vd va : VReg), Standing s r p c →
      wordOk p.regs (.vcvt rnd dst src mask vd va) = true →
      let n := max dst.elems src.elems
      let elem := fun (t : Ty) (q : Pop) (i reg j : Nat) => elemOf t (q.pat i t (reg + j / t.elems * t.regs)) (j % t.elems)
      let conv := fun i j =>
        let x := elem src p i va.toNat j
        if src.isFloat then
          if dst.isFloat then fConv (fpOf src) (fpOf dst) (envOf c rnd) x
          else
            let v := fToInt (fpOf src) (envOf c rnd) dst.isSigned dst.bits x
            ((v.1 % 2 ^ dst.bits).toNat, v.2)
        else intToF (fpOf dst) (envOf c rnd) (sense src x)
      (∀ i j, (acting p c mask).getLsbD i = true → j < n → (conv i j).2 &&& c.enables = 0) →
      Completes (.vcvt rnd dst src mask vd va) s (fun u => ∃ v fl,
        Leaves s r p { p with v := v } (c.raise fl) c.follows u
        ∧ RaisedBy (acting p c mask) n (fun i j => (conv i j).2) fl
        ∧ (∀ i reg, reg < 2048 →
            ¬((acting p c mask).getLsbD i = true ∧ vd.toNat ≤ reg ∧ reg < vd.toNat + n / dst.elems * dst.regs) →
            Tab.get 0 v (2048 * i + reg) = p.getV i reg)
        ∧ (∀ i j, (acting p c mask).getLsbD i = true → j < n →
            elem dst { p with v := v } i vd.toNat j = (conv i j).1 % 2 ^ dst.bits)))
  ∧ (∀ (s : State) (r : CpRef) (p : Pop) (c : Cp) (mask : MReg) (vd va : VReg) (sb : SReg), Standing s r p c →
      wordOk p.regs (.vrand mask vd va sb) = true →
      ∀ (x : Nat → Nat → Nat → Word32) (k0 k1 : Nat → Word32),
      (∀ i j, j < 4 → x i 0 j = p.getV i (va.toNat + j)) →
      k0 0 = (c.getS sb).extractLsb' 0 32 → k1 0 = (c.getS sb).extractLsb' 32 32 →
      (∀ n, k0 (n + 1) = k0 n + 0x9E3779B9 ∧ k1 (n + 1) = k1 n + 0xBB67AE85) →
      (∀ i n,
        let lo := fun (m : Word32) (y : Word32) => BitVec.ofNat 32 (m.toNat * y.toNat)
        let hi := fun (m : Word32) (y : Word32) => BitVec.ofNat 32 (m.toNat * y.toNat / 2 ^ 32)
        x i (n + 1) 0 = hi 0xCD9E8D57 (x i n 2) ^^^ x i n 1 ^^^ k0 n ∧ x i (n + 1) 1 = lo 0xCD9E8D57 (x i n 2)
        ∧ x i (n + 1) 2 = hi 0xD2511F53 (x i n 0) ^^^ x i n 3 ^^^ k1 n ∧ x i (n + 1) 3 = lo 0xD2511F53 (x i n 0)) →
      Completes (.vrand mask vd va sb) s (fun u => ∃ v, Leaves s r p { p with v := v } c c.follows u
        ∧ LaneRegs p (acting p c mask) vd.toNat 4 (fun i k => x i 10 k) v))

/-- The cross-lane words, once their JOIN has nothing to do: VBCAST and VSHFL give each lane of A the register of the lane its index
names, 0 from T on; VCOMPACT gives the h-th lane of m0 ∧ L the register of the h-th lane of A (R147 to R149, R151).
VSCAN leaves in each lane of A the running sum of the elements of the lanes of A up to it: the first as it stands, each later
one by fit or by the rounded addition (R107, R150).
Where it goes beyond the rules it states the model's choice: log entry 62. -/
def Obligations.CrossLaneWords : Prop :=
  (∀ (s : State) (r : CpRef) (p : Pop) (c : Cp) (o : Lv2) (o1 : Lv1), Standing s r p c → JoinFree s p c →
      let index := fun i => match o.b with
        | .reg vb => (p.getV i vb.toNat).toNat
        | .scalar sb => (c.getS sb).toNat % 2 ^ 32
        | .imm v => v.toNat
      let moved := fun (i : Instr) => wordOk p.regs i = true →
        Completes i s (fun u => ∃ v, Leaves s r p { p with v := v } c.opened c.follows u
          ∧ LaneRegs p (acting p c o.mask) o.vd.toNat o.ty.regs (fun l k =>
              if index l < p.lanes then p.getV (index l) (o.va.toNat + k) else 0) v)
      let rank := fun (a : LaneSet) (l : Nat) => ((List.range l).filter (fun j => a.getLsbD j)).length
      moved (.vbcast o) ∧ moved (.vshfl o)
      ∧ (wordOk p.regs (.vcompact o1) = true →
          Completes (.vcompact o1) s (fun u => ∃ v, Leaves s r p { p with v := v } c.opened c.follows u
            ∧ (∀ d a, (acting p c 0).getLsbD d = true → (acting p c o1.mask).getLsbD a = true →
                rank (acting p c 0) d = rank (acting p c o1.mask) a →
                ∀ k, k < o1.ty.regs → Tab.get 0 v (2048 * d + (o1.vd.toNat + k)) = p.getV a (o1.va.toNat + k))
            ∧ (∀ d reg, reg < 2048 →
                ((acting p c 0).getLsbD d = false ∨ p.card (acting p c o1.mask) ≤ rank (acting p c 0) d
                  ∨ reg < o1.vd.toNat ∨ o1.vd.toNat + o1.ty.regs ≤ reg) →
                Tab.get 0 v (2048 * d + reg) = p.getV d reg))))
  ∧ (∀ (s : State) (r : CpRef) (p : Pop) (c : Cp) (m : ScanMode) (o : Lv1), Standing s r p c → JoinFree s p c →
      wordOk p.regs (.vscan m o) = true →
      let a := acting p c o.mask
      let x := fun i k => elemOf o.ty (p.pat i o.ty o.va.toNat) k
      let op := fun (u v : Nat) => match m with
        | .int im => fit im o.ty.isSigned o.ty.bits (sense o.ty u + sense o.ty v)
        | .fp rnd => fAdd (fpOf o.ty) (envOf c rnd) u v
      let next := fun j i => a.getLsbD j = true ∧ a.getLsbD i = true ∧ j < i ∧ ∀ l, j < l → l < i → a.getLsbD l = false
      ∀ sum : Nat → Nat → Nat,
      (∀ i k, a.getLsbD i = true → k < o.ty.elems → (∀ j, j < i → a.getLsbD j = false) → sum i k = x i k) →
      (∀ j i k, next j i → k < o.ty.elems →
        sum i k = (op (sum j k) (x i k)).1 % 2 ^ o.ty.bits ∧ (op (sum j k) (x i k)).2 &&& c.enables = 0) →
      Completes (.vscan m o) s (fun u => ∃ v fl, Leaves s r p { p with v := v } (c.opened.raise fl) c.follows u
        ∧ (∀ b, fl.getLsbD b = true ↔ ∃ j i k, next j i ∧ k < o.ty.elems ∧ (op (sum j k) (x i k)).2.getLsbD b = true)
        ∧ (∀ i k, a.getLsbD i = true → k < o.ty.elems →
            elemOf o.ty (({ p with v := v } : Pop).pat i o.ty o.vd.toNat) k = sum i k)
        ∧ (∀ i reg, reg < 2048 → ¬(a.getLsbD i = true ∧ o.vd.toNat ≤ reg ∧ reg < o.vd.toNat + o.ty.regs) →
            Tab.get 0 v (2048 * i + reg) = p.getV i reg)))

/-! ### Searches, sets and folds (R183 to R200) -/

/-- A search writes md for every lane from the lanes of ms ∧ L that respond, as comb says (R188, R189, R190).
Comparisons in a type's sense: integers by their value; floating patterns with −0 equal to +0, and with a NaN only NE holds
(R73, R189). -/
def Obligations.SearchWords : Prop :=
  (∀ (s : State) (r : CpRef) (p : Pop) (c : Cp) (cc : Cond) (o : Ls) (sk sk2 : SReg) (imm : BitVec 24) (vb : VReg), Standing s r p c →
      let e := fun l => elemOf o.ty (p.pat l o.ty o.va.toNat) o.sel.toNat
      let key := (c.getS sk).toNat % 2 ^ o.ty.bits
      let key2 := (c.getS sk2).toNat % 2 ^ o.ty.bits
      (wordOk p.regs (.srch cc o sk) = true → Searches (.srch cc o sk) s r p c o (fun l => compareAs o.ty cc (e l) key))
      ∧ (wordOk p.regs (.srchi cc o imm) = true →
          Searches (.srchi cc o imm) s r p c o (fun l => compareAs o.ty cc (e l) (imm24Pat o.ty imm)))
      ∧ (wordOk p.regs (.srchv cc o vb) = true →
          Searches (.srchv cc o vb) s r p c o
            (fun l => compareAs o.ty cc (e l) (elemOf o.ty (p.pat l o.ty vb.toNat) o.sel.toNat)))
      ∧ (wordOk p.regs (.srchm o sk sk2) = true →
          Searches (.srchm o sk sk2) s r p c o (fun l => decide ((e l ^^^ key) &&& key2 = 0)))
      ∧ (wordOk p.regs (.srchr o sk sk2) = true →
          Searches (.srchr o sk sk2) s r p c o (fun l => compareAs o.ty .le key (e l) && compareAs o.ty .le (e l) key2)))
  ∧ (∀ (t : Ty) (x y : Nat),
      (t.isFloat = false →
        (compareAs t .eq x y = decide (sense t x = sense t y)) ∧ (compareAs t .ne x y = decide (sense t x ≠ sense t y))
        ∧ (compareAs t .lt x y = decide (sense t x < sense t y)) ∧ (compareAs t .le x y = decide (sense t x ≤ sense t y))
        ∧ (compareAs t .gt x y = decide (sense t y < sense t x)) ∧ (compareAs t .ge x y = decide (sense t y ≤ sense t x)))
      ∧ (t.isFloat = true →
        let a := unpack (fpOf t) false x
        let b := unpack (fpOf t) false y
        (∀ cc, isNan a = true ∨ isNan b = true → compareAs t cc x y = (cc == .ne))
        ∧ (∀ na nb ea eb, a = .fin na 0 ea → b = .fin nb 0 eb → compareAs t .eq x y = true ∧ compareAs t .lt x y = false)
        ∧ (isNan a = false → isNan b = false →
            compareAs t .ne x y = !compareAs t .eq x y ∧ compareAs t .gt x y = compareAs t .lt y x
            ∧ compareAs t .ge x y = compareAs t .le y x ∧ compareAs t .le x y = (compareAs t .lt x y || compareAs t .eq x y))))

/-- SETOP acts on the whole patterns, SETC writes L or nothing, SETV the lanes of m0 ∧ L by their register (R193, R194, R195).
FIRST and FIRSTK write the lowest lanes of ma ∧ L, FIRSTK the number it found (R196).
WITH, ELSE and POPSET on the set stack, and the SETSTACK traps at depth 32 and 0, with nothing changed (R185).
Whichever set word writes m0, it stays inside the top level and the levels stay nested (R185). -/
def Obligations.SetWords : Prop :=
  (∀ (s : State) (r : CpRef) (p : Pop) (c : Cp) (md ma mb : MReg) (va : VReg), Standing s r p c →
      let writes := fun (i : Instr) (d : LaneSet) => wordOk p.regs i = true → GoesOn i s r p c p (c.writeM md d)
      writes (.setop md (.and ma mb)) (c.getM ma &&& c.getM mb)
      ∧ writes (.setop md (.or ma mb)) (c.getM ma ||| c.getM mb)
      ∧ writes (.setop md (.andn ma mb)) (c.getM ma &&& ~~~(c.getM mb))
      ∧ writes (.setop md (.xor ma mb)) (c.getM ma ^^^ c.getM mb)
      ∧ writes (.setop md (.not ma)) (launched p.lanes &&& ~~~(c.getM ma))
      ∧ writes (.setop md (.mov ma)) (c.getM ma)
      ∧ writes (.setc md true) p.live
      ∧ writes (.setc md false) 0
      ∧ (wordOk p.regs (.setv md va) = true → ∃ d : LaneSet, GoesOn (.setv md va) s r p c p (c.writeM md d)
          ∧ ∀ l, l < maxLanes → d.getLsbD l =
              if (c.getM 0 &&& p.live).getLsbD l then decide (p.getV l va.toNat ≠ 0) else (c.getM md).getLsbD l))
  ∧ (∀ (s : State) (r : CpRef) (p : Pop) (c : Cp) (md ma : MReg) (sa : SReg), Standing s r p c → JoinFree s p c →
      let a := c.getM ma &&& p.live
      let n := min (c.getS sa).toNat (p.card a)
      let lowest := fun (d : LaneSet) (k : Nat) => ∀ l, l < maxLanes →
        d.getLsbD l = (a.getLsbD l && decide (((List.range l).filter (fun j => a.getLsbD j)).length < k))
      (wordOk p.regs (.first md ma) = true → ∃ d, lowest d 1 ∧ GoesOn (.first md ma) s r p c p (c.opened.writeM md d))
      ∧ (wordOk p.regs (.firstk md ma sa) = true →
          ∃ d, lowest d n ∧ GoesOn (.firstk md ma sa) s r p c p ((c.opened.setS sa (BitVec.ofNat 64 n)).writeM md d)))
  ∧ (∀ (s : State) (r : CpRef) (p : Pop) (c : Cp) (ma : MReg), Standing s r p c →
      (c.stack.length ≠ 32 →
        GoesOn (.withSet ma) s r p c p ((c.setM 0 (c.getM 0 &&& c.getM ma)).withStack (c.stack ++ [c.getM 0])))
      ∧ (∀ below top, c.stack = below ++ [top] →
          GoesOn .elseSet s r p c p (c.setM 0 (top &&& ~~~(c.getM 0)))
          ∧ GoesOn .popset s r p c p ((c.setM 0 top).withStack below))
      ∧ (c.stack.length = 32 → Completes (.withSet ma) s (Trapped s r p c .setStack c.wordAddr 0 allOnes64 0))
      ∧ (c.stack = [] → Completes .elseSet s (Trapped s r p c .setStack c.wordAddr 0 allOnes64 0)
          ∧ Completes .popset s (Trapped s r p c .setStack c.wordAddr 0 allOnes64 0)))
  ∧ (∀ (s t : State) (r : CpRef) (p : Pop) (c : Cp) (i : Instr), Standing s r p c → c.nested →
      (match i with
        | .srch _ _ _ | .srchi _ _ _ | .srchv _ _ _ | .srchm _ _ _ | .srchr _ _ _ | .setop _ _ | .setc _ _ | .setv _ _ | .first _ _
        | .firstk _ _ _ | .withSet _ | .elseSet | .popset => JoinFree s p c
        | _ => False) →
      exec i s = .next t → ∃ q d, t.cpOf r = some (q, d) ∧ d.nested)

/-- RCOUNT, RFIND and RBIT write their scalar from the lanes of ma ∧ L (R197, R200).
The element folds over an integer type: RSUM wraps in 64 bits, RMIN and RMAX give the least and the greatest element, an empty
set the type's greatest and least value (R198, R199). -/
def Obligations.FoldIntegerWords : Prop :=
  (∀ (s : State) (r : CpRef) (p : Pop) (c : Cp) (sd : SReg) (ma : MReg) (va : VReg), Standing s r p c → JoinFree s p c →
      let a := c.getM ma &&& p.live
      let lanes := (List.range p.lanes).filter (fun l => a.getLsbD l)
      let writes := fun (i : Instr) (v : Word64) => wordOk p.regs i = true → GoesOn i s r p c p (c.opened.setS sd v)
      writes (.rcount sd ma) (BitVec.ofNat 64 lanes.length)
      ∧ (a = 0 → writes (.rfind sd ma) (BitVec.allOnes 64))
      ∧ (∀ l, a.getLsbD l = true → (∀ j, j < l → a.getLsbD j = false) → writes (.rfind sd ma) (BitVec.ofNat 64 l))
      ∧ (∀ op, wordOk p.regs (.rbit op sd ma va) = true →
          ∃ v : Word32, GoesOn (.rbit op sd ma va) s r p c p (c.opened.setS sd (v.zeroExtend 64))
            ∧ ∀ j, j < 32 → v.getLsbD j = match op with
                | .and => lanes.all (fun l => (p.getV l va.toNat).getLsbD j)
                | .or => lanes.any (fun l => (p.getV l va.toNat).getLsbD j)
                | .xor => (lanes.filter (fun l => (p.getV l va.toNat).getLsbD j)).length % 2 == 1))
  ∧ (∀ (s : State) (r : CpRef) (p : Pop) (c : Cp) (ty : Ty) (sd : SReg) (ma : MReg) (va : VReg), Standing s r p c → JoinFree s p c →
      ty.isInt = true → wordOk p.regs (.rsum ty sd ma va) = true →
      let a := c.getM ma &&& p.live
      let xs := ((List.range p.lanes).filter (fun l => a.getLsbD l)).flatMap (fun l =>
        (List.range ty.elems).map (fun k => sense ty (elemOf ty (p.pat l ty va.toNat) k)))
      let writes := fun (i : Instr) (v : Int) => GoesOn i s r p c p (c.opened.setS sd (BitVec.ofInt 64 v))
      let lo : Int := if ty.isSigned then -(2 ^ (ty.bits - 1)) else 0
      let hi : Int := if ty.isSigned then 2 ^ (ty.bits - 1) - 1 else 2 ^ ty.bits - 1
      writes (.rsum ty sd ma va) xs.sum
      ∧ (xs = [] → writes (.rmin ty sd ma va) hi ∧ writes (.rmax ty sd ma va) lo)
      ∧ (xs ≠ [] → ∃ least most, least ∈ xs ∧ most ∈ xs ∧ (∀ x, x ∈ xs → least ≤ x ∧ x ≤ most)
          ∧ writes (.rmin ty sd ma va) least ∧ writes (.rmax ty sd ma va) most))

/-- RSUM of a floating type reduces the list by rounds of pairs, each addition rounded by the mode register (R106, R198).
RMIN and RMAX of a floating type: a NaN element gives the first NaN made quiet, an empty set +∞ and −∞, else the element that
none precedes, −0 below +0, as read after DAZ (R199).
Where it goes beyond the rules it states the model's choice: log entry 65. -/
def Obligations.FoldFloatingWords : Prop :=
  (∀ (s : State) (r : CpRef) (p : Pop) (c : Cp) (ty : Ty) (sd : SReg) (ma : MReg) (va : VReg), Standing s r p c → JoinFree s p c →
      ty.isFloat = true → wordOk p.regs (.rsum ty sd ma va) = true →
      let a := c.getM ma &&& p.live
      let xs := ((List.range p.lanes).filter (fun l => a.getLsbD l)).flatMap (fun l =>
        (List.range ty.elems).map (fun k => elemOf ty (p.pat l ty va.toNat) k))
      let add := fAdd (fpOf ty) (envOf c .mode)
      ∀ round : Nat → List Nat,
      round 0 = xs →
      (∀ n k, (round (n + 1))[k]? = match (round n)[2 * k]?, (round n)[2 * k + 1]? with
        | some x, some y => some (add x y).1
        | some x, none => some x
        | none, _ => none) →
      (∀ n k x y, (round n)[2 * k]? = some x → (round n)[2 * k + 1]? = some y → (add x y).2 &&& c.enables = 0) →
      ∃ n fl, (round n).length ≤ 1
        ∧ (∀ b, fl.getLsbD b = true ↔ ∃ m k x y, m < n ∧ (round m)[2 * k]? = some x ∧ (round m)[2 * k + 1]? = some y
            ∧ (add x y).2.getLsbD b = true)
        ∧ GoesOn (.rsum ty sd ma va) s r p c p ((c.opened.setS sd (BitVec.ofNat 64 ((round n).headD 0))).raise fl))
  ∧ (∀ (s : State) (r : CpRef) (p : Pop) (c : Cp) (ty : Ty) (sd : SReg) (ma : MReg) (va : VReg), Standing s r p c → JoinFree s p c →
      ty.isFloat = true → wordOk p.regs (.rmin ty sd ma va) = true → c.mode.getLsbD 6 = false →
      let a := c.getM ma &&& p.live
      let xs := ((List.range p.lanes).filter (fun l => a.getLsbD l)).flatMap (fun l =>
        (List.range ty.elems).map (fun k => elemOf ty (p.pat l ty va.toNat) k))
      let f := fpOf ty
      let val := fun x => unpack f c.daz x
      let writes := fun (i : Instr) (v : Nat) (fl : Flags) =>
        GoesOn i s r p c p ((c.opened.setS sd (BitVec.ofNat 64 v)).raise fl)
      let iv : Flags := if xs.any (fun x => isSnan f (val x)) then 1 else 0
      (xs = [] → writes (.rmin ty sd ma va) f.infP 0 ∧ writes (.rmax ty sd ma va) (f.infP + f.signW) 0)
      ∧ (∀ before x after q, xs = before ++ x :: after → (∀ y, y ∈ before → isNan (val y) = false) → val x = .nan q →
          writes (.rmin ty sd ma va) (quiet f q) iv ∧ writes (.rmax ty sd ma va) (quiet f q) iv)
      ∧ (∀ x rest, xs = x :: rest → (∀ y, y ∈ xs → isNan (val y) = false) →
          writes (.rmin ty sd ma va)
            (repack f c.daz (rest.foldl (fun best y => if valLtZ (val y) (val best) then y else best) x)) 0
          ∧ writes (.rmax ty sd ma va)
            (repack f c.daz (rest.foldl (fun best y => if valLtZ (val best) (val y) then y else best) x)) 0))

/-! ### Control words (R156 to R175) -/

/-- NOP, the branches, calls, jumps, LOOP and YIELD: where the control program goes and the one scalar that CALL, CALLI and LOOP write;
no transfer opens or closes a region (R168, R171).
BSET branches on the number of lanes of ms ∧ L; taken, the region it opens begins at the target (R168, R172).
Where it goes beyond the rules it states the model's choice: log entry 64. -/
def Obligations.ControlTransfers : Prop :=
  (∀ (s : State) (r : CpRef) (p : Pop) (c : Cp) (sa sb : SReg) (cc : BCond) (imm : BitVec 8) (off : BitVec 32), Standing s r p c →
      let target := c.hdr + 8 * off.signExtend 64
      let link := c.hdr + 8 * BitVec.ofNat 64 (c.clause.length + 1)
      let test := fun (a b : Word64) => match cc with
        | .eq => decide (a = b)
        | .ne => decide (a ≠ b)
        | .lt => decide (a.toInt < b.toInt)
        | .le => decide (a.toInt ≤ b.toInt)
        | .gt => decide (b.toInt < a.toInt)
        | .ge => decide (b.toInt ≤ a.toInt)
        | .ltn => decide (a.toNat < b.toNat)
        | .len => decide (a.toNat ≤ b.toNat)
        | .gtn => decide (b.toNat < a.toNat)
        | .gen => decide (b.toNat ≤ a.toNat)
      let goes := fun (i : Instr) (c' : Cp) (to' : Word64) =>
        wordOk p.regs i = true → Completes i s (Leaves s r p p c' (Cp.boundaryAt to'))
      GoesOn .nop s r p c p c
      ∧ GoesOn .yield s r p c p c
      ∧ goes (.bra off) c target
      ∧ goes (.bsc cc sa sb off) c (if test (c.getS sa) (c.getS sb) then target else link)
      ∧ goes (.bsi cc sa imm off) c (if test (c.getS sa) (imm.signExtend 64) then target else link)
      ∧ goes (.call sb off) (c.setS sb link) target
      ∧ goes (.calli sa sb) (c.setS sb link) (c.getS sa)
      ∧ goes (.jmp sa) c (c.getS sa)
      ∧ goes (.ret sa) c (c.getS sa)
      ∧ goes (.loop sa off) (c.setS sa (c.getS sa - 1)) (if c.getS sa = 1 then link else target))
  ∧ (∀ (s : State) (r : CpRef) (p : Pop) (c : Cp) (cond : SetCond) (ms : MReg) (off : BitVec 32), Standing s r p c → JoinFree s p c →
      let target := c.hdr + 8 * off.signExtend 64
      let link := c.hdr + 8 * BitVec.ofNat 64 (c.clause.length + 1)
      let n := ((List.range p.lanes).filter (fun l => (c.getM ms &&& p.live).getLsbD l)).length
      let taken := match cond with
        | .any => decide (1 ≤ n)
        | .none => decide (n = 0)
        | .one => decide (n = 1)
        | .many => decide (2 ≤ n)
      Completes (.bset cond ms off) s (fun u =>
        if taken then Leaves s r p p (c.opened.withEntry target) (Cp.boundaryAt target) u
        else Leaves s r p p (c.opened.withEntry link) (Cp.boundaryAt link) u))

/-- TRAP after its JOIN and BRK raise SOFTWARE and BREAK with taddr the immediate and tpc at the word (R170).
A word that fails a check of R67 takes ILLEGAL, with tpc at the word, and nothing of it performs.
After a trap the policy decides: ABORT ends the population; under RESUME a BRK at the end of its clause leaves its control program
held at the clause that follows; VECTOR goes to the handler; an attached debugger takes the halt in place of the policy (R161, R170).
Where it goes beyond the rules it states the model's choice: log entries 26 and 64. -/
def Obligations.TrapsAndPolicies : Prop :=
  (∀ (s : State) (r : CpRef) (p : Pop) (c : Cp) (code : BitVec 32), Standing s r p c →
      Completes (.brk code) s (Trapped s r p c .brk c.wordAddr (code.zeroExtend 64) allOnes64 0)
      ∧ (JoinFree s p c → Completes (.trap code) s (Trapped s r p c.opened .software c.wordAddr (code.zeroExtend 64) allOnes64 0)))
  ∧ (∀ (s : State) (r : CpRef) (p : Pop) (c : Cp) (i : Instr), Standing s r p c → isCpWord i = true → wordOk p.regs i = false →
      Completes i s (Trapped s r p c .illegal c.wordAddr 0 allOnes64 0))
  ∧ (∀ (s : State) (r : CpRef) (p : Pop) (c : Cp) (code : BitVec 32), Standing s r p c → c.widx + 1 = c.clause.length → c.save = none →
      let next := c.hdr + 8 * BitVec.ofNat 64 (c.clause.length + 1)
      let after := fun (post : Pop → Cp → Prop) => Completes (.brk code) s (fun u => ∃ q d, u.cpOf r = some (q, d) ∧ post q d)
      (c.undebugged →
        (p.policy = .abort → after (fun q _ => q.aborted = true))
        ∧ (p.policy = .resume → after (fun q d => q.aborted = p.aborted ∧ d.held = some { code := .brk, repairable := false }
            ∧ Cp.boundaryAt next d))
        ∧ (p.policy = .vector → after (fun q d => q.aborted = p.aborted ∧ d.held = none ∧ Cp.boundaryAt p.handler d)))
      ∧ (c.attached = true → after (fun q d => q.aborted = p.aborted ∧ d.halted = true ∧ Cp.boundaryAt next d)))

/-- An enabled flag of a floating word gives FPTRAP after the word, its result and flags written first: the scalar words with tlane all
ones, SDIV and SREM by zero among them, the lane words that compute element by element with the lowest lane that raised an enabled flag
(R88, R98, R157, R165).
Where it goes beyond the rules it states the model's choice: log entry 62. -/
def Obligations.EnabledFlagsTrap : Prop :=
  ∀ (s : State) (r : CpRef) (p : Pop) (c : Cp) (rnd : Rnd) (cc : Cond) (o : X2) (o1 : X1) (o3 : X3) (dst src : Ty) (sd sa : SReg)
    (ol : Lv2) (ol1 : Lv1), Standing s r p c →
    let env := envOf c rnd
    let x := xpat o.ty (c.getS o.sa)
    let y := xpat o.ty (xsrc c o.ty o.b)
    let z := xpat src (c.getS sa)
    let traps := fun (i : Instr) (sd : SReg) (v : Word64) (fl : Flags) => wordOk p.regs i = true → fl &&& c.enables ≠ 0 →
      Completes i s (Trapped s r p ((c.setS sd v).raise fl) .fpTrap c.wordAddr 0 allOnes64 0)
    let float := fun (i : Instr) (sd : SReg) (v : Nat × Flags) => traps i sd (BitVec.ofNat 64 v.1) v.2
    let f := fpOf ol.ty
    let f1 := fpOf ol1.ty
    let a := fun i k => elemOf ol.ty (p.pat i ol.ty ol.va.toNat) k
    let b := fun i k => elemOf ol.ty (bPat p c i ol.ty ol.b) k
    let d := fun i k => elemOf ol.ty (p.pat i ol.ty ol.vd.toNat) k
    let a1 := fun i k => elemOf ol1.ty (p.pat i ol1.ty ol1.va.toNat) k
    let n := fun i k => match ol.b with
      | .imm v => v.toInt
      | .reg _ | .scalar _ => senseOf true ol.ty.bits (b i k)
    let lanes := fun (i : Instr) (mask : MReg) (t : Ty) (vd : VReg) (g : Nat → Nat → Nat × Flags) =>
      let trapping := fun l => (acting p c mask).getLsbD l = true ∧ ∃ k, k < t.elems ∧ (g l k).2 &&& c.enables ≠ 0
      wordOk p.regs i = true → ∀ l, trapping l → (∀ j, j < l → ¬trapping j) →
        Completes i s (fun u => ∃ v fl,
          Trapped s r { p with v := v } (c.raise fl) .fpTrap c.wordAddr 0 (BitVec.ofNat 64 l) 0 u
          ∧ RaisedBy (acting p c mask) t.elems (fun l k => (g l k).2) fl
          ∧ (∀ l reg, reg < 2048 → ¬((acting p c mask).getLsbD l = true ∧ vd.toNat ≤ reg ∧ reg < vd.toNat + t.regs) →
              Tab.get 0 v (2048 * l + reg) = p.getV l reg)
          ∧ ∀ l k, (acting p c mask).getLsbD l = true → k < t.elems →
              elemOf t (({ p with v := v } : Pop).pat l t vd.toNat) k = (g l k).1 % 2 ^ t.bits)
    let puts := fun (i : Instr) (g : Nat → Nat → Nat × Flags) => lanes i ol.mask ol.ty ol.vd g
    let puts1 := fun (i : Instr) (g : Nat → Nat → Nat × Flags) => lanes i ol1.mask ol1.ty ol1.vd g
    (float (.sfadd rnd o) o.sd (fAdd (fpOf o.ty) env x y)
      ∧ float (.sfmul rnd o) o.sd (fMul (fpOf o.ty) env x y)
      ∧ float (.sfdiv rnd o) o.sd (fDiv (fpOf o.ty) env x y)
      ∧ float (.sfsqrt rnd o1) o1.sd (fSqrt (fpOf o1.ty) env (xpat o1.ty (c.getS o1.sa)))
      ∧ float (.sfma rnd o3) o3.sd (fFma (fpOf o3.ty) env false false (xpat o3.ty (c.getS o3.sa)) (xpat o3.ty (c.getS o3.sb))
          (xpat o3.ty (c.getS o3.sc)))
      ∧ (src.isFloat = true → dst.isFloat = true → float (.sfcvt rnd dst src sd sa) sd (fConv (fpOf src) (fpOf dst) env z))
      ∧ (src.isFloat = true → dst.isFloat = false →
          let v := fToInt (fpOf src) env dst.isSigned dst.bits z
          traps (.sfcvt rnd dst src sd sa) sd (ext dst (v.1 % 2 ^ dst.bits).toNat) v.2)
      ∧ (src.isFloat = false → float (.sfcvt rnd dst src sd sa) sd (intToF (fpOf dst) env (sense src z))))
    ∧ (o.ty.isFloat = true →
        let u := unpack (fpOf o.ty) c.daz x
        let w := unpack (fpOf o.ty) c.daz y
        let nan := isNan u || isNan w
        (isSnan (fpOf o.ty) u || isSnan (fpOf o.ty) w || (nan && cc != .eq && cc != .ne)) = true →
        traps (.sset cc o) o.sd (if (if nan then cc == .ne else condFp cc u w) then 1 else 0) 1)
    ∧ (o.ty.isFloat = false → sense o.ty y = 0 →
        traps (.sdiv o) o.sd 0 2 ∧ traps (.srem o) o.sd (ext o.ty (sense o.ty x % 2 ^ o.ty.bits).toNat) 2)
    ∧ puts (.vfadd rnd ol) (fun i k => fAdd f env (a i k) (b i k))
    ∧ puts (.vfsub rnd ol) (fun i k => fSub f env (a i k) (b i k))
    ∧ puts (.vfmul rnd ol) (fun i k => fMul f env (a i k) (b i k))
    ∧ puts (.vfma rnd ol) (fun i k => fFma f env false false (a i k) (b i k) (d i k))
    ∧ puts (.vfms rnd ol) (fun i k => fFma f env false true (a i k) (b i k) (d i k))
    ∧ puts (.vfnma rnd ol) (fun i k => fFma f env true false (a i k) (b i k) (d i k))
    ∧ puts (.vfdiv rnd ol) (fun i k => fDiv f env (a i k) (b i k))
    ∧ puts (.vfmin ol) (fun i k => fMinMax f (envOf c .mode) false (a i k) (b i k))
    ∧ puts (.vfmax ol) (fun i k => fMinMax f (envOf c .mode) true (a i k) (b i k))
    ∧ puts (.vfscale rnd ol) (fun i k => fScale f env (a i k) (n i k))
    ∧ puts1 (.vfsqrt rnd ol1) (fun i k => fSqrt f1 env (a1 i k))
    ∧ puts1 (.vfrnd rnd ol1) (fun i k => fRound f1 env (a1 i k))

/-- GETC writes the value of its control register; PUTC writes mode but its reserved and forced bits, clears flags, and traps where it
may not write (R157, R158, R160). -/
def Obligations.ControlRegisters : Prop :=
  ∀ (s : State) (r : CpRef) (p : Pop) (c : Cp) (sd sa : SReg) (n : BitVec 8), Standing s r p c →
    let num := fun (k : Nat) => BitVec.ofNat 64 k
    let values : List Word64 :=
      [c.mode, c.flags.zeroExtend 64, num r.cid, num p.ncp, num p.popix, num p.npop, num p.lanes, num p.regs, num (524288 * p.banks),
       num p.coreid, num p.cluid, num p.vf, s.clock, num (p.card (p.lanesWith (·.dead))), num (p.card (p.lanesWith (·.parked))),
       num c.stack.length, c.tpc, c.tcause, c.taddr, c.tlane, c.gen, p.key.zeroExtend 64, num p.nest]
    let v := c.getS sa
    let forced := (s.vfWord p.vf 0).getLsbD 62
    (wordOk p.regs (.getc sd n) = true → ∃ x, values[n.toNat]? = some x ∧ GoesOn (.getc sd n) s r p c p (c.setS sd x))
    ∧ (sa.toNat < 192 → v.extractLsb' 0 3 ≠ 7 → GoesOn (.putc 0 sa) s r p c p
        (c.withMode ((v &&& 0xFFF) ||| (if forced then 0x20 else 0))))
    ∧ (sa.toNat < 192 → v.extractLsb' 0 3 = 7 → Completes (.putc 0 sa) s (Trapped s r p c .illegal c.wordAddr 0 allOnes64 0))
    ∧ (sa.toNat < 192 → GoesOn (.putc 1 sa) s r p c p (c.withFlags (c.flags &&& ~~~(v.extractLsb' 0 6))))
    ∧ (wordOk p.regs (.putc n sa) = true → 2 ≤ n.toNat →
        Completes (.putc n sa) s (Trapped s r p c .priv c.wordAddr (n.zeroExtend 64) allOnes64 0))

/-- A JOIN with lanes that became ready starts a replay pass: the state is saved, m0 and level d0 become the lanes, which are no longer
parked, the lanes of dead entries become dead, every entry is freed and the pass begins at the region's entry (R173).
At the word that closes the region a replay pass ends with the merge: sets and the levels above d0 take the replayed lanes' new
bits, everything else is the saved state, at the word that began the JOIN (R173). -/
def Obligations.JoinReplay : Prop :=
  (∀ (s : State) (r : CpRef) (p : Pop) (c : Cp), Standing s r p c → c.save = none → c.d0 ≤ c.stack.length → c.loadTickets = 0 → c.storeFault = none →
      (∀ e ∈ s.fragsOf p.home c.ctx, e.2.state = .pending → e.2.lanes = 0) →
      ((s.ovf p.home c.ctx).state = .pending → (s.ovf p.home c.ctx).lanes = 0) →
      (∃ l, l < p.lanes ∧ l < maxLanes ∧ s.joinLanes p c .ready l) →
      Completes .join s (fun u => ∃ q d, ∃ f : LaneSet, u.cpOf r = some (q, d)
        ∧ (∀ l, l < maxLanes → (f.getLsbD l = true ↔ s.joinLanes p c .ready l))
        ∧ d.save = some { s := c.s, m := c.m, stack := c.stack, hdr := c.hdr, widx := c.widx, clause := c.clause }
        ∧ d.replayF = f ∧ d.getM 0 = f ∧ (∀ k : MReg, k ≠ 0 → d.getM k = c.getM k)
        ∧ d.stack.length = c.d0 ∧ (∀ k, k + 1 < c.d0 → d.stack[k]? = c.stack[k]?) ∧ (0 < c.d0 → d.stack.getLast? = some f)
        ∧ Cp.boundaryAt c.entry d
        ∧ (∀ l, l < p.lanes → l < maxLanes → s.joinLanes p c .dead l → ¬s.joinLanes p c .ready l → (q.statusOf l).dead = true)
        ∧ (∀ l, l < p.lanes → l < maxLanes → s.joinLanes p c .ready l → (q.statusOf l).parked = false)
        ∧ (∀ l, ¬s.joinLanes p c .dead l → ¬s.joinLanes p c .ready l → q.statusOf l = p.statusOf l)
        ∧ u.fragsOf p.home c.ctx = [] ∧ (u.ovf p.home c.ctx).state = .free ∧ q.v = p.v ∧ u.hbm = s.hbm ∧ u.cstore = s.cstore))
  ∧ (∀ (s : State) (r : CpRef) (p : Pop) (c : Cp) (v : SaveArea), Standing s r p c → c.save = some v →
      (c.stack.length = v.stack.length → Completes .join s (fun u => ∃ q d, u.cpOf r = some (q, d) ∧ q = { p with cps := q.cps }
        ∧ (∀ k : MReg, d.getM k = (Tab.get 0 v.m k.toNat &&& ~~~c.replayF) ||| (c.getM k &&& c.replayF))
        ∧ d.stack.length = v.stack.length
        ∧ (∀ k a b, v.stack[k]? = some a → c.stack[k]? = some b →
            d.stack[k]? = some (if k < c.d0 then a else (a &&& ~~~c.replayF) ||| (b &&& c.replayF)))
        ∧ d.s = v.s ∧ d.hdr = v.hdr ∧ d.widx = v.widx ∧ d.clause = v.clause ∧ d.save = none ∧ d.mode = c.mode ∧ d.flags = c.flags
        ∧ u.hbm = s.hbm ∧ u.cstore = s.cstore))
      ∧ (c.stack.length ≠ v.stack.length → Completes .join s (Trapped s r p c .setStack c.wordAddr 0 allOnes64 0)))

/-- REGION and JOIN with nothing to replay record the next clause and the depth; END frees the control program (R172, R175).
A JOIN below the region's depth traps SETSTACK; with a ticket or a pending lane it parks and tries again at its word (R20, R173).
Where it goes beyond the rules it states the model's choice: log entry 69. -/
def Obligations.RegionsAndJoinWaits : Prop :=
  (∀ (s : State) (r : CpRef) (p : Pop) (c : Cp), Standing s r p c → JoinFree s p c →
      let link := c.hdr + 8 * BitVec.ofNat 64 (c.clause.length + 1)
      let fresh := (c.opened.withEntry link)
      GoesOn .region s r p c p { fresh with fresh := false } ∧ GoesOn .join s r p c p { fresh with fresh := false }
      ∧ (c.held = none → Completes .endCp s (Leaves s r p p fresh.over (Cp.boundaryAt link)))
      ∧ fresh.d0 = c.stack.length)
  ∧ (∀ (s : State) (r : CpRef) (p : Pop) (c : Cp), Standing s r p c → c.save = none →
      (c.stack.length < c.d0 → Completes .join s (Trapped s r p c .setStack c.wordAddr 0 allOnes64 0))
      ∧ (c.d0 ≤ c.stack.length → (∀ a ∈ c.pend, a.fault = none) →
          (c.loadTickets ≠ 0 ∨ (∃ e ∈ s.fragsOf p.home c.ctx, e.2.state = .pending ∧ e.2.lanes ≠ 0)
            ∨ ((s.ovf p.home c.ctx).state = .pending ∧ (s.ovf p.home c.ctx).lanes ≠ 0)) →
          Completes .join s (fun u => ∃ q d w, u.cpOf r = some (q, d) ∧ q = { p with cps := q.cps } ∧ d.wait = some w ∧ w.kind = .join
            ∧ d.hdr = c.hdr ∧ d.widx = c.widx ∧ d.clause = c.clause ∧ d.issuing = false ∧ d.s = c.s ∧ d.m = c.m ∧ d.stack = c.stack
            ∧ u.hbm = s.hbm ∧ u.cstore = s.cstore)))

/-! ### Memory words (R203 to R237) -/

/-- LD, ST, ATOM and RED, when the checks of R206 pass, every lane has its place and no stamp refuses one: the access enters the
pipeline with a part for each lane of m0 ∧ L (RED: for each group and address), at sbase + index·2^sh + imm, with the lane's registers
as its data (R206, R219, R224, R227, R229).
A lane of LD or ST whose translation meets a cause (R28, R29, R154, R221). A lane with a data cause or PERMISSION is dead with that
cause; under FATALP a PERMISSION lane gives PERMISSION after the word instead (R314). The NOTPRESENT lanes park: in a new PENDING entry of
their context, while it has fewer than four live ones and its core a free one; in its newest PENDING or READY entry, while it has four;
else in its overflow slot, with FRAGFULL after the word where no entry was free. Every other lane's status is the same.
Where it goes beyond the rules it states the model's choice: log entries 22, 24 and 27. -/
def Obligations.LaneMemoryWords : Prop :=
  (∀ (s : State) (r : CpRef) (p : Pop) (c : Cp) (o : MLane) (oa : MAtom), Standing s r p c →
      let lanes := (List.range p.lanes).filter (fun l => (c.getM 0 &&& p.live).getLsbD l)
      let ea := fun (sbase : SReg) (idx : Option Index) (imm : Word64) (l : Nat) =>
        c.getS sbase + (match idx with
          | some x => (p.getV l x.vidx.toNat).zeroExtend 64 <<< x.sh.toNat
          | none => 0) + imm
      let wants := fun (space : Space) (size : Nat) (write : Bool) (addr : Nat → Word64) =>
        lanes.map (fun l => ({ space := space, lane := some l, ea := addr l, size := size, write := write } : Want))
      let lane := fun (w : Want) => w.lane.getD 0
      let plain := fun (i : Instr) (write : Bool) (need : Need) (op : AccOp) (ticket : Bool) (data : Nat → BitVec 128) =>
        let ws := wants o.space o.width.size write (ea o.sbase o.idx (o.imm.signExtend 64))
        let x := s.placeEach p need ws
        wordOk p.regs i = true → s.checkWants p ws = none → missed x.2 = [] →
        (o.order ≠ .plain → x.1.unrefused r p o.scope ((placed x.2).map (fun e => e.2))) →
        Enters i s r p c (fun n => c.withAccess (newAccess n c op o.scope o.order ticket
          ((placed x.2).map (fun e => item [lane e.1] e.1.ea e.2 o.width.size (data (lane e.1)) 0))).entered)
      let wa := wants oa.space oa.width.size true (ea oa.sbase oa.idx (oa.imm.signExtend 64))
      let regs := oa.width.regs
      let y := s.placeEach p .atomic wa
      plain (.ld o) false .read (.ld o.vdat o.width) true (fun _ => 0)
      ∧ plain (.st o) true .write .st false (fun l => p.laneData l o.vdat.toNat o.width.regs)
      ∧ (JoinFree s p c → s.checkWants p wa = none → missed y.2 = [] → y.1.unrefused r p oa.scope ((placed y.2).map (fun e => e.2)) →
          (wordOk p.regs (.atom oa) = true →
            Enters (.atom oa) s r p c (fun n => c.opened.withAccess (newAccess n c (.atom oa.op oa.vdat oa.width) oa.scope oa.order true
              ((placed y.2).map (fun e => item [lane e.1] e.1.ea e.2 oa.width.size (p.laneData (lane e.1) oa.vdat.toNat regs)
                (if oa.op = .cas then (p.laneData (lane e.1) (oa.vdat.toNat + regs) regs).extractLsb' 0 64 else 0)))).entered))
          ∧ (wordOk p.regs (.red oa) = true →
              (c.mode.getLsbD 5 = false ∨ (oa.op ≠ .fadd ∧ oa.op ≠ .fmin ∧ oa.op ≠ .fmax)) →
              ∃ its : List Item,
                Enters (.red oa) s r p c (fun n => c.opened.withAccess
                  (newAccess n c (.red oa.op oa.width) oa.scope oa.order false its).entered)
                ∧ (∀ l ∈ lanes, ∃ it ∈ its, l ∈ it.lanes)
                ∧ ∀ it ∈ its, it.size = oa.width.size ∧ it.done = false ∧ ∃ l rest g e, it.lanes = l :: rest
                    ∧ it.lanes = lanes.filter (fun k => decide (k / 256 = g) && ea oa.sbase oa.idx (oa.imm.signExtend 64) k == it.addr)
                    ∧ e ∈ placed y.2 ∧ lane e.1 = l ∧ it.loc = e.2
                    ∧ it.data = BitVec.ofNat 128 (rest.foldl (fun acc k =>
                        (atomicNew oa.op (8 * oa.width.size) (envOfMode c.mode) acc (p.laneData k oa.vdat.toNat regs).toNat 0).1)
                        (p.laneData l oa.vdat.toNat regs).toNat))))
  ∧ (∀ (s : State) (r : CpRef) (p : Pop) (c : Cp) (o : MLane) (i : Instr) (write : Bool), Standing s r p c →
      ((i = .ld o ∧ write = false) ∨ (i = .st o ∧ write = true)) → wordOk p.regs i = true →
      let lanes := (List.range p.lanes).filter (fun l => (c.getM 0 &&& p.live).getLsbD l)
      let ea := fun (l : Nat) => c.getS o.sbase + (match o.idx with
        | some x => (p.getV l x.vidx.toNat).zeroExtend 64 <<< x.sh.toNat
        | none => 0) + o.imm.signExtend 64
      let ws := lanes.map (fun l => ({ space := o.space, lane := some l, ea := ea l, size := o.width.size, write := write } : Want))
      let x := s.placeEach p (if write then .write else .read) ws
      let es := missed x.2
      s.checkWants p ws = none → (o.order ≠ .plain → x.1.unrefused r p o.scope ((placed x.2).map (fun e => e.2))) →
      let core := p.home
      let np := (es.filter (fun e => e.2.2 == .notPresent)).map (fun e => (e.1, e.2.1))
      let dead := fun (e : Nat × Word64 × LaneCause) => e.2.2 ≠ .notPresent ∧ (e.2.2 = .permission → c.mode.getLsbD 11 = false)
      let live := s.fragsOf core c.ctx
      let slot := s.ovf core c.ctx
      let page := fun (w : Word64) => w.extractLsb' 16 40
      let pages := fun (f : BitVec 40) => np.any (fun e => page e.2 != f)
      let parked := fun (q : Pop) (ovf : Bool) (f : Nat) => ∀ e ∈ np, q.statusOf e.1 =
        { ovf := ovf, dead := false, parked := true, frag := BitVec.ofNat 8 f, cause := LaneCause.notPresent.code }
      let post := fun (more : State → Pop → Cp → Prop) => Completes i s (fun t =>
        t = { s with pops := t.pops, pmc := t.pmc, tlb := t.tlb, frags := t.frags, ovfs := t.ovfs, hline := t.hline, serial := t.serial,
                     tick := t.tick, issuer := .none }
        ∧ ∃ q d, t.cpOf r = some (q, d)
          ∧ q = { p with cps := q.cps, status := q.status, faults := q.faults, aborted := q.aborted }
          ∧ q.faults.toNat = min (2 ^ 32 - 1) (p.faults.toNat + np.length)
          ∧ (∀ e ∈ es, dead e → q.statusOf e.1 = { ovf := false, dead := true, parked := false, frag := 0, cause := e.2.2.code })
          ∧ (∀ l, (∀ e ∈ es, e.1 ≠ l) → slot.state ≠ .dead → q.statusOf l = p.statusOf l)
          ∧ d.s = c.s ∧ d.m = c.m ∧ d.stack = c.stack ∧ more t q d)
      let made := fun (f : Frag) => f.state = .pending ∧ f.ctx = c.ctx ∧ f.lanes = np.length ∧ f.wordaddr = c.wordAddr
        ∧ (∀ e, np.head? = some e → f.page = page e.2 ∧ f.more = pages (page e.2))
      let joined := fun (b f : Frag) => f.state = .pending ∧ f.lanes = b.lanes + np.length ∧ f.wordaddr = b.wordaddr ∧ f.page = b.page
        ∧ f.more = (b.more || pages b.page)
      let inSlot := fun (t : State) (q : Pop) => parked q true c.ctx ∧ (∀ j, t.frag core j = s.frag core j)
        ∧ (if slot.state = .pending ∨ slot.state = .ready then joined slot (t.ovf core c.ctx) else made (t.ovf core c.ctx))
        ∧ (slot.state = .dead → ∀ l, (p.lanesIn true c.ctx).getLsbD l = true → (∀ e ∈ es, e.1 ≠ l) → l < p.lanes → (q.statusOf l).dead = true)
      let open_ := fun (e : Nat × Frag) => e ∈ live ∧ (e.2.state = .pending ∨ e.2.state = .ready)
      let calm := c.mode.getLsbD 11 = false ∨ ∀ e ∈ es, e.2.2 ≠ .permission
      (np = [] → calm → post (fun t _ d => t.frags = s.frags ∧ t.ovfs = s.ovfs ∧ c.follows d))
      ∧ (∀ e es', c.mode.getLsbD 11 = true → es.filter (fun e => e.2.2 == .permission) = e :: es' →
          post (fun _ _ d => d.tpc = c.wordAddr ∧ d.tcause = 0x209 ∧ d.taddr = e.2.1 ∧ d.tlane = BitVec.ofNat 64 e.1 ∧ d.issuing = false))
      ∧ (np ≠ [] → calm →
          (live.length < 4 → (∃ j, j < 256 ∧ (s.frag core j).state = .free) → post (fun t q d =>
            ∃ j, j < 256 ∧ (s.frag core j).state = .free ∧ made (t.frag core j) ∧ parked q false j ∧ t.ovfs = s.ovfs ∧ c.follows d))
          ∧ (live.length < 4 → (∀ j, j < 256 → (s.frag core j).state ≠ .free) → post (fun t q d =>
              inSlot t q ∧ d.tpc = c.wordAddr ∧ d.tcause = 0x107 ∧ d.issuing = false
              ∧ ∀ e, np.head? = some e → d.taddr = (page e.2).zeroExtend 64 ∧ d.tlane = BitVec.ofNat 64 e.1))
          ∧ (4 ≤ live.length → (∃ e, open_ e) → post (fun t q d => ∃ e, open_ e ∧ (∀ e', open_ e' → e'.2.born ≤ e.2.born)
              ∧ joined e.2 (t.frag core e.1) ∧ parked q false e.1 ∧ t.ovfs = s.ovfs ∧ c.follows d))
          ∧ (4 ≤ live.length → (∀ e, ¬open_ e) → post (fun t q d => inSlot t q ∧ c.follows d))))

/-- LDS, STS, SATOM, ARRIVE and RWGET, when the checks of R206 pass, the address has its place and no stamp refuses it: one access enters
the pipeline, at sbase + imm or at sa, with the scalar's data (R225, R228, R329, R332). RWSET performs at its word, once no earlier access
of its control program stands in its way: target becomes sb[31:0], count and status 0, the generation stays, and no other byte changes
(R221, R331).
Where it goes beyond the rules it states the model's choice: log entries 22 and 24. -/
def Obligations.ScalarMemoryWords : Prop :=
  ∀ (s : State) (r : CpRef) (p : Pop) (c : Cp) (o : MScalar) (oa : MSatom) (a : KAddr) (sd sb : SReg) (n : KSrc), Standing s r p c →
    let want := fun (space : Space) (addr : Word64) (size : Nat) (write : Bool) =>
      ({ space := space, lane := none, ea := addr, size := size, write := write } : Want)
    let enters := fun (i : Instr) (c' : Cp) (w : Want) (need : Need) (scope : Scope) (sync fault : Bool) (op : AccOp) (order : MOrder)
        (ticket : Bool) (data : BitVec 128) (data2 : Word64) =>
      wordOk p.regs i = true → s.checkWants p [w] = none → ∀ s1 loc, s.place p w need = (s1, .ok loc) →
      (sync = true → s1.stampRefuses r.pid p.cluster scope loc = false) →
      (fault = true → (s1.lineCheck loc w.size).2 = .ok ()) →
      Enters i s r p c (fun k => c'.withAccess (newAccess k c op scope order ticket [item [] w.ea loc w.size data data2]))
    let ws := want o.space (c.getS o.sbase + o.imm.signExtend 64) o.width.size
    let wa := want oa.space (c.getS oa.sbase + oa.imm.signExtend 64) oa.width.size true
    let m := 2 ^ (8 * oa.width.size)
    let wk := want a.space (c.getS a.sa) 16
    let count := match n with
      | .reg k => (c.getS k).extractLsb' 0 32
      | .imm v => v.zeroExtend 32
    enters (.lds o) c (ws false) .read o.scope (o.order != .plain) false (.lds o.sd) o.order true 0 0
    ∧ (wordOk p.regs (.rwset a sb) = true → s.checkWants p [wk true] = none → ∀ s1 loc, s.place p (wk true) .write = (s1, .ok loc) →
        s1.mayPerform p c (newAccess s1.serial c (.rwset ((c.getS sb).extractLsb' 0 32)) a.scope .plain false
          [item [] (wk true).ea loc 16 0 0]) = true →
        s1.stampRefuses r.pid p.cluster a.scope loc = false → s1.sound loc 16 → s.memWf →
        Completes (.rwset a sb) s (fun t =>
          t = { s with pops := t.pops, pmc := t.pmc, tlb := t.tlb, cstore := t.cstore, hbm := t.hbm, l2 := t.l2, ccache := t.ccache,
                       stamps := t.stamps, rels := t.rels, olds := t.olds, hvWords := t.hvWords, vers := t.vers, serial := t.serial,
                       tick := t.tick, issuer := .none }
          ∧ (∃ k, CpGoes s t r p p c { c with know := k })
          ∧ ∀ x, t.cell x = match loc.cell with
            | some y =>
              if x.1 = y.1 ∧ y.2 ≤ x.2 ∧ x.2 < y.2 + 16 then
                let j := x.2 - y.2
                if j < 4 then (c.getS sb).extractLsb' (8 * j) 8 else if 8 ≤ j ∧ j < 12 then s.cell x else 0
              else s.cell x
            | none => s.cell x))
    ∧ enters (.rwget a sd) c (wk false) .read a.scope true false (.rwget sd) .acq true 0 0
    ∧ (JoinFree s p c →
        enters (.sts o) c.opened (ws true) .write o.scope (o.order != .plain) true .sts o.order false ((c.getS o.sd).zeroExtend 128) 0
        ∧ enters (.satom oa) c.opened wa .atomic oa.scope true false (.satom oa.op oa.sd oa.width) oa.order true
            (BitVec.ofNat 128 ((c.getS oa.sd).toNat % m)) (BitVec.ofNat 64 ((c.getSn oa.sd 1).toNat % m))
        ∧ enters (.arrive a sd n) c.opened (wk true) .both a.scope true false (.arrive sd count) .rel true 0 0)

/-- The checks of R206 in their order, for the CP-level words LDS, STS, SATOM, ARRIVE, RWSET and RWGET (STS, SATOM and ARRIVE once their
JOIN has nothing to do): a misaligned address gives ALIGN, a window access beyond the window WINDOW, one to a bank of another role
BANKROLE, one that meets a lock RANGELOCK, with nothing of the word performed. A place that is not present or not permitted gives
RCIFAULT at the word; so does a data cause of the walk of a word without a ticket, where one of a ticketed word is kept with its ticket
(R221).
Where a memory word is refused. ATOM and RED with a lane whose page is not present or not permitted give RCIFAULT with that lane and
its cause, and RED of a floating operation under DET gives DETVIOL, with no lane performed (R206, R221, R229). An ordered LDS that a stamp
refuses at its home takes its ticket and performs nothing; the SCOPE trap is due, and comes at the end of its clause (R219). While it is
due the clause's later memory and rennet words go on without effect.
Where it goes beyond the rules it states the model's choice: log entries 22, 24 and 26. -/
def Obligations.MemoryChecksInOrder : Prop :=
  (∀ (s : State) (r : CpRef) (p : Pop) (c : Cp) (o : MScalar) (oa : MSatom) (a : KAddr) (sd sb : SReg) (n : KSrc), Standing s r p c →
      let checks := fun (i : Instr) (c' : Cp) (space : Space) (ea : Word64) (size : Nat) (write ticket : Bool) (need : Need) =>
        wordOk p.regs i = true →
        let w : Want := { space := space, lane := none, ea := ea, size := size, write := write }
        let bank := p.base + ea.toNat / 524288
        let lock := s.lockHit p (524288 * p.base + ea.toNat) size write
        let traps := fun (t : Trap) (taddr : Word64) => Completes i s (Trapped s r p c t c.wordAddr taddr allOnes64 0)
        (ea.toNat % size ≠ 0 → traps .align ea)
        ∧ (ea.toNat % size = 0 → space = .w →
            (524288 * p.banks < ea.toNat + size → traps .window ea)
            ∧ (ea.toNat + size ≤ 524288 * p.banks →
              (s.roleOf p.cluster bank ≠ .scratch → traps .bankRole ea)
              ∧ (s.roleOf p.cluster bank = .scratch →
                  (∀ x, lock = some x → traps .rangeLock (BitVec.ofNat 64 x)) ∧ (lock = none → s.checkWants p [w] = none))))
        ∧ (ea.toNat % size = 0 → space = .g → ∀ s1 e, s.place p w need = (s1, .error e) →
            (ticket = false ∨ e = .notPresent ∨ e = .permission →
              Completes i s (fun t =>
                t = { s with pops := t.pops, pmc := t.pmc, hline := t.hline, tick := t.tick, issuer := .none }
                ∧ ∃ q d, t.cpOf r = some (q, d) ∧ d.tpc = c.wordAddr ∧ d.tcause = 0x08 ∧ d.taddr = ea ∧ d.tlane = allOnes64
                  ∧ d.issuing = false ∧ d.s = c.s ∧ d.m = c.m ∧ d.stack = c.stack ∧ d.mode = c.mode ∧ d.pend = c.pend))
            ∧ (ticket = true → e ≠ .notPresent → e ≠ .permission → Completes i s (fun t => ∃ q d b, t.cpOf r = some (q, d)
                ∧ d.pend = c.pend ++ [b] ∧ b.ticket = true ∧ b.complete = false ∧ b.fault = some e ∧ d.s = c.s ∧ c'.follows d)))
      let ea := c.getS o.sbase + o.imm.signExtend 64
      checks (.lds o) c o.space ea o.width.size false true .read
      ∧ checks (.rwset a sb) c a.space (c.getS a.sa) 16 true false .write
      ∧ checks (.rwget a sd) c a.space (c.getS a.sa) 16 false true .read
      ∧ (JoinFree s p c →
          checks (.sts o) c.opened o.space ea o.width.size true false .write
          ∧ checks (.satom oa) c.opened oa.space (c.getS oa.sbase + oa.imm.signExtend 64) oa.width.size true true .atomic
          ∧ checks (.arrive a sd n) c.opened a.space (c.getS a.sa) 16 true true .both))
  ∧ (∀ (s : State) (r : CpRef) (p : Pop) (c : Cp) (oa : MAtom) (o : MScalar), Standing s r p c →
      let lanes := (List.range p.lanes).filter (fun l => (c.getM 0 &&& p.live).getLsbD l)
      let ea := fun (l : Nat) => c.getS oa.sbase + (match oa.idx with
        | some x => (p.getV l x.vidx.toNat).zeroExtend 64 <<< x.sh.toNat
        | none => 0) + oa.imm.signExtend 64
      let wa := lanes.map (fun l => ({ space := oa.space, lane := some l, ea := ea l, size := oa.width.size, write := true } : Want))
      let y := s.placeEach p .atomic wa
      let faulty := fun (e : Nat × Word64 × LaneCause) => e.2.2 = .notPresent ∨ e.2.2 = .permission
      let traps := fun (i : Instr) (code taddr tlane : Word64) => Completes i s (fun t => ∃ q d, t.cpOf r = some (q, d)
        ∧ d.tpc = c.wordAddr ∧ d.tcause = code ∧ d.taddr = taddr ∧ d.tlane = tlane ∧ d.issuing = false
        ∧ q.v = p.v ∧ q.status = p.status ∧ d.s = c.s ∧ d.m = c.m ∧ d.stack = c.stack ∧ d.pend = c.pend
        ∧ t.hbm = s.hbm ∧ t.l2 = s.l2 ∧ t.cstore = s.cstore ∧ t.frags = s.frags)
      (JoinFree s p c → s.checkWants p wa = none →
        (∀ i e es, (i = .atom oa ∨ i = .red oa) → wordOk p.regs i = true →
          (missed y.2).filter (fun e => e.2.2 == .notPresent || e.2.2 == .permission) = e :: es →
          traps i (0x08 ||| (e.2.2.code.zeroExtend 64 <<< 8)) e.2.1 (BitVec.ofNat 64 e.1))
        ∧ (∀ l ls, wordOk p.regs (.red oa) = true → c.mode.getLsbD 5 = true → (oa.op = .fadd ∨ oa.op = .fmin ∨ oa.op = .fmax) →
            (∀ e ∈ missed y.2, ¬faulty e) → lanes = l :: ls → traps (.red oa) 0x13 (ea l) (BitVec.ofNat 64 l)))
      ∧ (let w : Want :=
          { space := o.space, lane := none, ea := c.getS o.sbase + o.imm.signExtend 64, size := o.width.size, write := false }
        ∀ s1 loc, wordOk p.regs (.lds o) = true → o.order ≠ .plain → s.checkWants p [w] = none → s.place p w .read = (s1, .ok loc) →
          s1.mayPerform p c (newAccess s1.serial c (.lds o.sd) o.scope o.order true [item [] w.ea loc w.size 0 0]) = true →
          s1.stampRefuses r.pid p.cluster o.scope loc = true →
          Completes (.lds o) s (fun t => ∃ q d, t.cpOf r = some (q, d) ∧ q.v = p.v ∧ d.s = c.s ∧ d.m = c.m
            ∧ (∀ b ∈ d.pend, b ∈ c.pend ∨ (b.items = [] ∧ b.complete = true))
            ∧ t.hbm = s.hbm ∧ t.l2 = s.l2 ∧ t.cstore = s.cstore ∧ t.stamps = s.stamps
            ∧ (c.widx + 1 < c.clause.length →
                d.scopeTrap = some { tpc := c.wordAddr, taddr := w.ea, tlane := allOnes64 } ∧ d.tcause = c.tcause ∧ c.follows d)
            ∧ (c.clause.length ≤ c.widx + 1 → d.scopeTrap = none ∧ d.tpc = c.wordAddr ∧ d.tcause = 0x06 ∧ d.taddr = w.ea
                ∧ d.tlane = allOnes64 ∧ d.issuing = false)))
      ∧ (∀ (k : ScopeTrap) (i : Instr) (u : State), s.setCp r { c with scopeTrap := some k } = u → discarded i = true →
          wordOk p.regs i = true → c.widx + 1 < c.clause.length → GoesOn i u r p { c with scopeTrap := some k } p
            { c with scopeTrap := some k }))

/-- FENCE goes on at once and leaves a fence pending while an earlier access that it orders has not performed (R217, R230); one that has
nothing to wait for is done: an acquire then knows what earlier plain reads have observed within its scope, and at DEV or SYS uses no
line held before it; a release stands for the later stores.
PREF and INVAL touch the cluster cache alone, BANKCFG the bank (R231, R234, R237); FLUSH enters its operation (R234).
Where it goes beyond the rules it states the model's choice: log entries 17, 23 and 61. -/
def Obligations.FenceAndCacheWords : Prop :=
  ∀ (s : State) (r : CpRef) (p : Pop) (c : Cp) (scope : Scope) (order : MOrder) (op : MPref) (o : MRange) (role : CfgRole)
    (bank : BitVec 5), Standing s r p c →
    let releases := order = .rel ∨ order = .ar
    let acquires := order = .acq ∨ order = .ar
    let wide := scope = .dev ∨ scope = .sys
    let lo := (c.getS o.sbase + o.imm.signExtend 64).toNat
    let n := (c.getS o.sl).toNat
    let off := BitVec.ofNat 64 (524288 * bank.toNat)
    let b := p.base + bank.toNat
    let empty := c.pend = [] ∧ ∀ x ∈ c.asyncs, transferring x = false
    let near := ((match scope with
      | .pop => [0]
      | .clu => [0, 1]
      | .dev | .sys => [0, 1, 2]) : List Nat).foldl (fun k i => k.merge (Tab.get Know.zero c.observed i)) c.know
    let new := match role with
      | .scratch => BankRole.scratch
      | .fifo => BankRole.fifo
    let px := s.placeEach p .read (((List.range p.lanes).filter (fun l => (c.getM 0 &&& p.live).getLsbD l)).map (fun l =>
      ({ space := .g, lane := some l, size := 1, write := false,
         ea := c.getS op.sbase + (match op.idx with
           | some x => (p.getV l x.vidx.toNat).zeroExtend 64 <<< x.sh.toNat
           | none => 0) + op.imm.signExtend 64 } : Want)))
    (wordOk p.regs (.fence scope order) = true → ∃ l k learned bar f,
      Enters (.fence scope order) s r p c (fun _ => { c with pend := l, know := k, learned := learned, bar := bar, fenced := f })
      ∧ (empty → l = [] ∧ (acquires → wide → s.serial ≤ bar ∧ k = near.merge s.handed) ∧ (acquires → ¬wide → k = near)
          ∧ (¬acquires → k = c.know ∧ bar = c.bar) ∧ (releases → (scope, k.merge c.carried) ∈ f))
      ∧ (∀ e ∈ c.pend, e.op ≠ .fence → e.performed = false → e.complete = false → e ∈ l)
      ∧ ((∃ e ∈ c.pend, e.op ≠ .fence ∧ e.performed = false ∧ e.complete = false
            ∧ (releases ∨ (∃ v w, e.op = .ld v w) ∨ (∃ v, e.op = .lds v))) →
          ∃ e ∈ l, e.op = .fence ∧ e.scope = scope ∧ e.order = order ∧ e.complete = false))
    ∧ (wordOk p.regs (.pref op) = true → Completes (.pref op) s (fun t =>
        t = { s with pops := t.pops, pmc := t.pmc, tlb := t.tlb, hline := t.hline, ccache := t.ccache, serial := t.serial, tick := t.tick,
                     issuer := .none }
        ∧ ((∀ e ∈ missed px.2, e.2.2 ≠ .uncorrectable) → t.hline = s.hline ∧ CpGoes s t r p p c c)
        ∧ ∃ q d, t.cpOf r = some (q, d) ∧ q.v = p.v ∧ q.status = p.status ∧ d.s = c.s ∧ d.m = c.m ∧ d.pend = c.pend ∧ c.follows d))
    ∧ (wordOk p.regs (.inval o) = true → Completes (.inval o) s (fun t =>
        t = { s with pops := t.pops, pmc := t.pmc, ccache := t.ccache, issuer := .none } ∧ CpGoes s t r p p c c
        ∧ ∀ l, l ∈ t.ccache ↔ l ∈ s.ccache ∧ ¬(l.cluster = p.cluster ∧ l.vf = p.vf
            ∧ (n = 0 ∨ lineInRange (s.leaves p.vf p.asid lo (lo + n)) lo (lo + n) l.line = true))))
    ∧ (wordOk p.regs (.flush o) = true → Enters (.flush o) s r p c (fun k =>
        c.withAsync (newAsync k (.flush lo n (n == 0)) false false s.clock)))
    ∧ (wordOk p.regs (.bankcfg role bank) = true →
        (p.banks ≤ bank.toNat → Completes (.bankcfg role bank) s (Trapped s r p c .window c.wordAddr off allOnes64 0))
        ∧ (bank.toNat < p.banks →
          (s.roleOf p.cluster b = new → GoesOn (.bankcfg role bank) s r p c p c)
          ∧ (s.roleOf p.cluster b ≠ new → ((s.lockHit p (524288 * b) 524288 true).isSome = true ∨ (s.fifo p.cluster b).waiters ≠ []) →
              Completes (.bankcfg role bank) s (Trapped s r p c .bankRole c.wordAddr off allOnes64 0))
          ∧ (s.roleOf p.cluster b ≠ new → s.lockHit p (524288 * b) 524288 true = none → (s.fifo p.cluster b).waiters = [] →
              empty → Completes (.bankcfg role bank) s (fun t =>
                t = { s with pops := t.pops, pmc := t.pmc, cstore := t.cstore, cline := t.cline, rels := t.rels, fifos := t.fifos,
                             role := t.role, issuer := .none }
                ∧ CpGoes s t r p p c c
                ∧ (∀ x, Tab.get 0 t.cstore x = if x / 524288 = 32 * p.cluster + b then 0 else Tab.get 0 s.cstore x)
                ∧ t.roleOf p.cluster b = new ∧ t.fifo p.cluster b = Fifo.empty
                ∧ (∀ k, k ≠ 32 * p.cluster + b → Tab.find t.role k = Tab.find s.role k ∧ Tab.find t.fifos k = Tab.find s.fifos k)))))

/-- STPL and LDPL, when base, PS and RS are multiples of 32 and the checks of R206 pass: one access whose parts are the 16-byte plane
pieces of the lanes of m0 ∧ L; bit i of plane j byte k of a lane's group stands for the lane's bit 8k + 7 − j (R236).
Where it goes beyond the rules it states the model's choice: log entries 23 and 68. -/
def Obligations.PlaneWords : Prop :=
  ∀ (s : State) (r : CpRef) (p : Pop) (c : Cp) (o : MPlane), Standing s r p c →
    let base := c.getS o.sbase + o.imm.signExtend 64
    let ps := c.getSn o.sbase 1
    let rs := c.getSn o.sbase 2
    let lanes := (List.range p.lanes).filter (fun l => (c.getM 0 &&& p.live).getLsbD l)
    let off := fun (l j k : Nat) =>
      base + BitVec.ofNat 64 j * ps + BitVec.ofNat 64 k * rs + BitVec.ofNat 64 (32 * (l / 256) + 16 * (l % 256 / 128))
    let fits := fun (write : Bool) => ∀ ws : List Want, (∀ w ∈ ws, ∃ l ∈ lanes, ∃ j k h, j < 8 ∧ k < 4 ∧ h < 2 ∧ w =
      { space := .w, lane := w.lane, size := 16, write := write,
        ea := base + BitVec.ofNat 64 j * ps + BitVec.ofNat 64 k * rs + BitVec.ofNat 64 (32 * (l / 256) + 16 * h) }) →
      s.checkWants p ws = none
    let part := fun (it : Item) => it.loc = p.winLoc it.addr.toNat ∧ it.size = 16 ∧ it.done = false
      ∧ ∃ l ∈ lanes, it.lanes = lanes.filter (fun i => i / 256 == l / 256)
    base.toNat % 32 = 0 → ps.toNat % 32 = 0 → rs.toNat % 32 = 0 →
    (wordOk p.regs (.stpl o) = true → fits true → ∃ its,
      Enters (.stpl o) s r p c (fun n => c.withAccess (newAccess n c .stpl .pop .plain false its).entered)
      ∧ (∀ it ∈ its, part it)
      ∧ (∀ l ∈ lanes, ∀ j k, j < 8 → k < 4 → ∃ it ∈ its, it.addr = off l j k ∧ it.bits.getLsbD (l % 128) = true
          ∧ it.data.getLsbD (l % 128) = (p.getV l o.vdat.toNat).getLsbD (8 * k + (7 - j)))
      ∧ (∀ it ∈ its, ∀ b, b < 128 → it.bits.getLsbD b = true → ∃ l ∈ lanes, ∃ j k, j < 8 ∧ k < 4 ∧ l % 128 = b ∧ it.addr = off l j k))
    ∧ (wordOk p.regs (.ldpl o) = true → fits false → ∃ its,
      Enters (.ldpl o) s r p c (fun n => c.withAccess (newAccess n c (.ldpl o.vdat) .pop .plain true its).entered)
      ∧ (∀ it ∈ its, part it ∧ it.bits = BitVec.allOnes 128)
      ∧ ∀ l ∈ lanes, ∀ j k, j < 8 → k < 4 → ∃ it ∈ its, it.addr = off l j k ∧ l ∈ it.lanes
          ∧ it.data2 = planeKey (l / 256) (l % 256 / 128) j k)

/-- CPY, CPY2, SETLD and SETST enter their operation with an async ticket: a copy with its descriptor, a read lock over a window source
and a write lock over a window destination, entered together after every other entry but those of the same clk that come after
them by engine and lowest byte; it waits where and only where they meet an entry that stands before them. A transfer enters with its
lanes' places (R220, R232, R235).
Where it goes beyond the rules it states the model's choice: log entries 29 and 68. -/
def Obligations.CopyWords : Prop :=
  ∀ (s : State) (r : CpRef) (p : Pop) (c : Cp) (sb : SReg) (o : MSet), Standing s r p c →
    let x := c.getSn sb 2
    let rw := c.getSn sb 3
    let copies := fun (i : Instr) (two : Bool) =>
      let y : Word64 := if two then c.getSn sb 4 else 1
      let d : CopyDesc :=
        { dst := c.getSn sb 0, src := c.getSn sb 1, len := x.toNat % 2 ^ 32, rows := y.toNat % 2 ^ 32, dstW := x.getLsbD 32,
          srcW := x.getLsbD 33, dstStride := if two then c.getSn sb 5 else 0, srcStride := if two then c.getSn sb 6 else 0,
          cw := if rw = allOnes64 then none else some rw.toNat }
      let span := fun (a stride : Word64) => ((a.toNat : Int) + min 0 (stride.toInt * (d.rows - 1 : Nat)),
        (a.toNat : Int) + max 0 (stride.toInt * (d.rows - 1 : Nat)) + d.len)
      let inWindow := fun (sp : Int × Int) => 0 ≤ sp.1 ∧ sp.2 ≤ 524288 * p.banks
        ∧ ∀ b, b < p.banks → (524288 * b : Int) < sp.2 → sp.1 < 524288 * (b + 1 : Nat) → s.roleOf p.cluster (p.base + b) = .scratch
      let lock := fun (write : Bool) (n : Nat) (sp : Int × Int) =>
        { cluster := p.cluster, write := write, engine := .copy, first := 524288 * p.base + sp.1.toNat,
          last := 524288 * p.base + sp.2.toNat - 1, owner := n, entered := s.clock : Lock }
      let locks := fun (n : Nat) => (if d.srcW then [lock false n (span d.src d.srcStride)] else [])
        ++ (if d.dstW then [lock true n (span d.dst d.dstStride)] else [])
      wordOk p.regs i = true → 1 ≤ d.len → d.len ≤ 16777216 → 1 ≤ d.rows → d.rows ≤ 65536 → x.toNat / 2 ^ 34 = 0 → y.toNat / 2 ^ 32 = 0 →
      (∀ off, d.cw = some off → off % 16 = 0 ∧ inWindow ((off : Int), (off : Int) + 16)) →
      (d.srcW = true → inWindow (span d.src d.srcStride)) → (d.dstW = true → inWindow (span d.dst d.dstStride)) →
      (s.locks.filter (fun l => l.cluster == p.cluster)).length + (locks 0).length ≤ 64 →
      EntersLocked i s r locks (fun n u c => c.withAsync (newAsync n (.copy d) (u.blocked [] n) false s.clock))
      ∧ ∀ n, (∀ l ∈ s.locks, l.owner ≠ n) → locks n ≠ [] → ∃ pre post, (s.enterLocks [] (locks n)).locks = pre ++ locks n ++ post
        ∧ s.locks = pre ++ post
        ∧ (∀ l ∈ post, l.cluster = p.cluster → l.entered = s.clock
            ∧ ∀ m ∈ s.locks, m.owner = l.owner → m.engine ≠ .copy ∨ ∃ k ∈ locks n, k.first < m.first)
        ∧ ((s.enterLocks [] (locks n)).blocked [] n = true ↔
            ∃ l ∈ pre, ∃ k ∈ locks n, l.cluster = k.cluster ∧ k.first ≤ l.last ∧ l.first ≤ k.last)
    let lanes := (List.range p.lanes).filter (fun l => (c.getM 0 &&& p.live).getLsbD l)
    let ea := fun (l : Nat) => c.getS o.sbase + (match o.idx with
      | some x => (p.getV l x.vidx.toNat).zeroExtend 64 <<< x.sh.toNat
      | none => 0) + o.imm.signExtend 64
    let transfers := fun (i : Instr) (load : Bool) =>
      let gs := lanes.map (fun l => ({ space := .g, lane := some l, ea := ea l, size := o.width.size, write := !load } : Want))
      let ws := lanes.map (fun l => ({ space := .w, lane := some l, ea := (p.getV l o.vdat.toNat).zeroExtend 64, size := o.width.size,
                                       write := load } : Want))
      let y := s.placeEach p (if load then .read else .write) gs
      let items := (placed y.2).map (fun e =>
        { lane := e.1.lane.getD 0, off := (p.getV (e.1.lane.getD 0) o.vdat.toNat).toNat, addr := e.1.ea, loc := e.2,
          size := o.width.size, got := none : SetItem })
      wordOk p.regs i = true → s.checkWants p ((ws.zip gs).flatMap (fun e => [e.1, e.2])) = none → missed y.2 = [] →
      Enters i s r p c (fun n => c.withAsync (newAsync n (.setTransfer load items) false (items == []) s.clock))
    copies (.cpy sb) false ∧ copies (.cpy2 sb) true ∧ transfers (.setld o) true ∧ transfers (.setst o) false

/-! ### The events of a control program's pipeline (R23, R216 to R236) -/

/-- STORE_PERFORM writes every byte of the store's parts, in their order and under their masks, and nothing else, or one of its parts
before the rest (R217, R219, R224, R225, R236, R345).
ATOMIC_PERFORM of every part of an atomic, or of one, reads the old value and writes the new one of R226, and keeps the old value and
the flags for the completion; RED_UPDATE_APPLY does the same for one update, which has no result. At a cluster's atomic unit a part may
read its old value before: it then changes no byte, and the old value it has read is the one it goes by (R218, R226, R227, R229, R345).
Where it goes beyond the rules it states the model's choice: log entries 23, 24 and 67. -/
def Obligations.AccessesPerform : Prop :=
  (∀ (s : State) (op : OpRef) (p : Pop) (c : Cp) (a : Access), Pending s op p c a → a.performed = false → s.mayPerform p c a = true →
      (∀ it ∈ a.items, it.done = false ∧ it.size ≤ 16 ∧ s.sound it.loc it.size) → s.memWf →
      (a.syncs = true → s.unrefused { pid := op.pid, cid := op.cid } p a.scope (a.items.map (fun it => it.loc))) →
      let frame := fun (t : State) (more : Cp → Prop) =>
        t = { s with pops := t.pops, pmc := t.pmc, cstore := t.cstore, cline := t.cline, hbm := t.hbm, l2 := t.l2, ccache := t.ccache,
                     stamps := t.stamps, rels := t.rels, olds := t.olds, hvWords := t.hvWords, vers := t.vers, serial := t.serial,
                     tick := t.tick }
        ∧ (∀ l, t.lineState l = s.lineState l) ∧ PipeLeaves s t { pid := op.pid, cid := op.cid } p p c more
      let performs := fun (data bits : Item → BitVec 128) =>
        Completes (.storePerform ⟨op, none⟩) s (fun t => frame t (fun d => ∀ b ∈ d.pend, b.serial = op.serial → b.performed = true)
          ∧ ∀ x, t.cell x = a.items.foldl (fun v it => it.stored (data it) (bits it) x v) (s.cell x))
      ((a.op = .st ∨ a.op = .sts ∨ a.op = .stpl) → performs (fun it => it.data) (fun it => it.bits))
      ∧ (∀ k it, (a.op = .st ∨ a.op = .sts ∨ a.op = .stpl) → a.items[k]? = some it →
          (∀ j b, j < k → a.items[j]? = some b → overlap [it] [b] = false) →
          Completes (.storePerform ⟨op, some k⟩) s (fun t =>
            frame t (fun d => ∀ b ∈ d.pend, b.serial = op.serial → b.items = a.items.set k { it with done := true, res := none, maj := [] })
            ∧ ∀ x, t.cell x = it.stored it.data it.bits x (s.cell x))))
  ∧ (∀ (s : State) (op : OpRef) (p : Pop) (c : Cp) (a : Access) (aop : AOp) (w : Width), Pending s op p c a →
      (w = .b32 ∨ w = .b64) → s.coherent p.cluster (max c.bar c.know.mark) → s.memWf → a.performed = false → s.unshared op p a →
      (∀ it ∈ a.items, it.size = w.size ∧ s.sound it.loc it.size) →
      s.unrefused { pid := op.pid, cid := op.cid } p a.scope (a.items.map (fun it => it.loc)) →
      let bits := 8 * w.size
      let env : FpEnv := { dir := dirOfRm (a.mode.extractLsb' 0 3), ftz := a.mode.getLsbD 3, daz := a.mode.getLsbD 4 }
      let f := if w = .b64 then fpF64 else fpF32
      let new : Nat → Nat → Nat → Nat × Flags := fun o v v2 => match aop with
        | .swap => (v, 0)
        | .cas => (if o = v then v2 else o, 0)
        | .add => ((o + v) % 2 ^ bits, 0)
        | .and => (o &&& v, 0)
        | .or => (o ||| v, 0)
        | .xor => (o ^^^ v, 0)
        | .min => (if senseOf true bits v < senseOf true bits o then v else o, 0)
        | .max => (if senseOf true bits o < senseOf true bits v then v else o, 0)
        | .minn => (min o v, 0)
        | .maxn => (max o v, 0)
        | .fadd => fAdd f env o v
        | .fmin => fMinMax f env false o v
        | .fmax => fMinMax f env true o v
      let old := fun (it : Item) => it.res.getD (BitVec.ofNat 128 (natOfBytes (match it.loc.cell with
        | some x => s.cells x w.size
        | none => [])))
      let result := fun (it : Item) => new (old it).toNat it.data.toNat it.data2.toNat
      let frame := fun (t : State) =>
        t = { s with pops := t.pops, pmc := t.pmc, cstore := t.cstore, hbm := t.hbm, l2 := t.l2, ccache := t.ccache, stamps := t.stamps,
                     rels := t.rels, olds := t.olds, hvWords := t.hvWords, vers := t.vers, serial := t.serial, tick := t.tick }
      let writes := fun (t : State) (its : List Item) =>
        (∀ it ∈ its, ∀ x y, it.loc.cell = some (x.1, y) → y ≤ x.2 → x.2 < y + w.size →
          t.cell x = BitVec.ofNat 8 ((result it).1 / 2 ^ (8 * (x.2 - y))))
        ∧ ∀ x, (∀ it ∈ its, ¬it.touches x) → t.cell x = s.cell x
      let r : CpRef := { pid := op.pid, cid := op.cid }
      (∀ (vd : VReg) (sd : SReg), (a.op = .atom aop vd w ∨ a.op = .satom aop sd w) → a.complete = false →
          a.ticket = true → s.mayPerform p c a = true → (∀ it ∈ a.items, it.done = false) →
          (∀ (i j : Nat) (x y : Item) (k : Bool × Nat), i < j → a.items[i]? = some x → a.items[j]? = some y → ¬(x.touches k ∧ y.touches k)) →
          Completes (.atomicPerform ⟨op, none⟩) s (fun t => frame t ∧ writes t a.items
            ∧ PipeLeaves s t r p p c (fun d => ∃ b ∈ d.pend, b.serial = op.serial ∧ b.performed = true ∧ b.complete = false
              ∧ b.items.Perm (a.items.map (fun it => { it with done := true, res := some (old it), maj := [] }))
              ∧ ∀ k, b.flags.getLsbD k = (a.flags.getLsbD k || a.items.any (fun it => (result it).2.getLsbD k)))))
      ∧ (∀ (i : Instr) k it res (vd : VReg),
          (a.op = .red aop w ∧ i = .redUpdateApply op k ∧ res = none
            ∨ a.op = .atom aop vd w ∧ i = .atomicPerform ⟨op, some k⟩ ∧ res = some (old it)) →
          a.items[k]? = some it → s.mayPart a k it = true → s.mayPerform p c { a with items := [it] } = true →
          Completes i s (fun t => frame t ∧ writes t [it]
            ∧ PipeLeaves s t r p p c (fun d => ∀ b ∈ d.pend, b.serial = op.serial →
                b.items = a.items.set k { it with done := true, res := res, maj := [] })))
      ∧ (∀ (i : Instr) k it (vd : VReg) (sd : SReg),
          (a.op = .red aop w ∧ i = .redUpdateApply op (a.items.length + k)
            ∨ (a.op = .atom aop vd w ∨ a.op = .satom aop sd w) ∧ i = .atomicPerform ⟨op, some (a.items.length + k)⟩) →
          a.items[k]? = some it → it.res = none → atUnit a it = true → s.mayPart a k it = true →
          s.mayPerform p c { a with items := [it] } = true →
          Completes i s (fun t => frame t ∧ (∀ x, t.cell x = s.cell x)
            ∧ PipeLeaves s t r p p c (fun d => ∀ b ∈ d.pend, b.serial = op.serial →
                b.items = a.items.set k { it with res := some (old it) }))))

/-- LOAD_COMPLETE between clauses: a load that reads at its completion takes the bytes at its places, an access that has performed its
results, and the destination registers are written; parked and dead lanes are not (R23, R153, R205, R227, R228, R236, R286, R288, R329,
R332).
Where it goes beyond the rules it states the model's choice: log entries 23 and 61. -/
def Obligations.LoadsComplete : Prop :=
  ∀ (s : State) (op : OpRef) (p : Pop) (c : Cp) (a : Access), Pending s op p c a → a.ticket = true → a.complete = false →
    a.fault = none → p.quiet = true → p.aborted = false →
    (a.syncs = true → s.unrefused { pid := op.pid, cid := op.cid } p a.scope (a.items.map (fun it => it.loc))) →
    let apart := (a.items.flatMap (fun it => it.lanes)).Nodup
    let r : CpRef := { pid := op.pid, cid := op.cid }
    let value := fun (it : Item) => natOfBytes (match it.loc.cell with
      | some x => s.cells x it.size
      | none => [])
    let done := fun (d : Cp) => ∀ b ∈ d.pend, b.serial = op.serial → b.complete = true
    let written := fun (vd n : Nat) (val : Item → BitVec 128) (v : Tab Word32) =>
      (∀ it ∈ a.items, ∀ l ∈ it.lanes, p.live.getLsbD l = true → ∀ k, k < n →
        Tab.get 0 v (2048 * l + (vd + k)) = (val it).extractLsb' (32 * k) 32)
      ∧ ∀ l reg, reg < 2048 → ((∀ it ∈ a.items, l ∉ it.lanes) ∨ p.live.getLsbD l = false ∨ reg < vd ∨ vd + n ≤ reg) →
          Tab.get 0 v (2048 * l + reg) = p.getV l reg
    let reads := fun (v : Tab Word32 → Prop) (c' : Cp) => Completes (.loadComplete ⟨op, none⟩) s (fun t =>
      t = { s with pops := t.pops, pmc := t.pmc, ccache := t.ccache, stamps := t.stamps, rels := t.rels, serial := t.serial, tick := t.tick }
      ∧ ∃ w, PipeLeaves s t r p { p with v := w } c' done ∧ v w)
    let same := fun (w : Tab Word32) => w = p.v
    (a.performed = false → s.mayPerform p c a = true → a.majWait = [] → s.coherent p.cluster (max c.bar c.know.mark) →
        (∀ it ∈ a.items, it.done = false ∧ s.sound it.loc it.size) →
      (∀ vd w, a.op = .ld vd w → apart → (∀ it ∈ a.items, it.size = w.size) → vd.toNat + w.regs ≤ 2048 →
          reads (written vd.toNat w.regs (fun it => BitVec.ofNat 128 (value it))) c)
      ∧ (∀ sd it, a.op = .lds sd → a.items = [it] → it.size ≤ 8 → reads same (c.setS sd (BitVec.ofNat 64 (value it))))
      ∧ (∀ sd it, a.op = .rwget sd → a.items = [it] → it.size = 16 →
          reads same ((c.setS sd (BitVec.ofNat 64 (value it))).setSn sd 1 (BitVec.ofNat 64 (value it / 2 ^ 64))))
      ∧ (∀ sd n it k x, a.op = .arrive sd n → a.items = [it] → it.size = 16 → it.loc = .store k x →
          Completes (.loadComplete ⟨op, none⟩) s (fun t => Arrived s t (16777216 * k + x) n 0 ∧ t.hbm = s.hbm ∧ t.l2 = s.l2
            ∧ ∃ q d, t.cpOf r = some (q, d) ∧ q.v = p.v ∧ q.status = p.status ∧ d.m = c.m ∧ d.stack = c.stack ∧ d.hdr = c.hdr
              ∧ d.s = (c.setS sd ((s.rennetField (16777216 * k + x) 2).zeroExtend 64)).s ∧ done d)))
    ∧ (∀ vd, a.op = .ldpl vd → a.performed = false → s.mayPerform p c a = true → a.majWait = [] → (a.items.map (fun it => it.data2)).Nodup →
        (∀ it ∈ a.items, it.done = false ∧ it.size = 16 ∧ s.sound it.loc 16) →
        reads (fun w =>
          (∀ x ∈ a.items, ∀ l ∈ x.lanes, p.live.getLsbD l = true → ∀ it ∈ a.items, ∀ j k, j < 8 → k < 4 →
            it.data2 = planeKey (l / 256) (l % 256 / 128) j k →
            (Tab.get 0 w (2048 * l + vd.toNat)).getLsbD (8 * k + (7 - j)) = (value it).testBit (l % 128))
          ∧ ∀ l reg, reg < 2048 → ((∀ it ∈ a.items, l ∉ it.lanes) ∨ p.live.getLsbD l = false ∨ reg ≠ vd.toNat) →
              Tab.get 0 w (2048 * l + reg) = p.getV l reg) c)
    ∧ (a.performed = true → s.majBusy a.majWait = false → (∀ it ∈ a.items, it.res.isSome = true) →
      let val := fun (it : Item) => it.res.getD 0
      (∀ aop vd w, a.op = .atom aop vd w → apart → vd.toNat + w.regs ≤ 2048 → reads (written vd.toNat w.regs val) (c.raise a.flags))
      ∧ (∀ vd, a.op = .lanes vd → apart → reads (written vd.toNat 1 val) c)
      ∧ (∀ aop sd w it, a.op = .satom aop sd w → a.items = [it] → reads same ((c.setS sd ((val it).extractLsb' 0 64)).raise a.flags))
      ∧ (∀ ws, a.op = .scalars ws → reads same (ws.foldl (fun d e => d.setS e.1 e.2) c)))


/-- Copies (R220, R233, R345). Each COPY_COMPLETE of a copy that waits for nothing moves some of its lines, ends it, or is held at a page
that is not present; one of no line reads the next line's bytes of the source ahead. One that goes through moves its bytes, between windows one after the other in ascending order, within one line
between any two places; at its end it releases its locks and completes. After a repair it goes on from where it was held; where the
page of its source cannot be repaired it stops there with status bit 0. A copy that waits for locks proceeds when none is left before
its own.
FLUSH_COMPLETE leaves no dirty line of its range in L2 and changes no byte; SET_TRANSFER_COMPLETE moves every lane's bytes between
the window and its global place, the later lane last, or one lane's before the
rest; a lane's bytes may be read before they are written (R214, R216, R234, R235, R345).
Where it goes beyond the rules it states the model's choice: log entries 29 and 30. -/
def Obligations.CopyFlushAndTransferEvents : Prop :=
  (∀ (s : State) (op : OpRef) (p : Pop) (c : Cp) (a : AsyncOp) (d : CopyDesc) (lines : Nat), Outstanding s op p c a → a.kind = .copy d →
      1 ≤ d.len →
      let r : CpRef := { pid := op.pid, cid := op.cid }
      let total := d.len * d.rows
      let free := s.majBusy a.majWait = false
      let mine := fun (t : State) (f : AsyncOp → Prop) => ∃ q e, t.cpOf r = some (q, e) ∧ ∀ b ∈ e.asyncs, b.serial = op.serial → f b
      let ended := fun (t : State) (f : AsyncOp → Prop) => (∀ l ∈ t.locks, l.owner ≠ op.serial) ∧ mine t (fun b => b.complete = true ∧ f b)
      let kept := fun (t : State) (f : AsyncOp → Prop) =>
        t.locks = s.locks ∧ ∃ q e, t.cpOf r = some (q, e) ∧ ∃ b ∈ e.asyncs, b.serial = op.serial ∧ b.complete = false ∧ f b
      let moves := fun (t : State) => ended t (fun _ => True) ∨ kept t (fun b => b.held.isSome = true) ∨ kept t (fun b => a.moved < b.moved)
      let addr := fun (base stride : Word64) (j : Nat) => (false, 16777216 * p.cluster + 524288 * p.base
        + (base + BitVec.ofNat 64 (j / d.len) * stride + BitVec.ofNat 64 (j % d.len)).toNat)
      let src := d.src + BitVec.ofNat 64 (a.moved / d.len) * d.srcStride + BitVec.ofNat 64 (a.moved % d.len)
      (a.waiting = false → a.held = none → s.earlierDone c op.serial = true →
        p.windowBusy (s.locks.filter (fun l => l.owner == op.serial)) = false → free →
        (1 ≤ lines → Completes (.copyComplete ⟨op, lines⟩) s moves)
        ∧ (d.srcW = true → a.got = none → a.moved < total → (∀ x, s.lineState (.store p.cluster x) = LineState.clean) →
            Completes (.copyComplete ⟨op, 0⟩) s (fun t => t = { s with pops := t.pops }
              ∧ PipeLeaves s t r p p c (fun e => ∀ b ∈ e.asyncs, b.serial = op.serial → b.moved = a.moved ∧ b.complete = false
                ∧ ∃ n, 1 ≤ n ∧ n ≤ 128 ∧ b.got = some (some ((List.range n).map (fun j => s.cell (addr d.src d.srcStride (a.moved + j))))))))
        ∧ (d.dstW = true → d.srcW = true → d.cw = none → a.got = none → a.moved = 0 → 1 ≤ lines → total ≤ lines →
            (∀ x, s.lineState (.store p.cluster x) = LineState.clean) →
            Completes (.copyComplete ⟨op, lines⟩) s (fun t =>
              t = { s with pops := t.pops, cstore := t.cstore, cline := t.cline, rels := t.rels,
                           locks := s.locks.filter (fun l => l.owner != op.serial) }
              ∧ (∀ l, t.lineState l = s.lineState l)
              ∧ PipeLeaves s t r p p c (fun e => ∀ b ∈ e.asyncs, b.serial = op.serial → b.complete = true ∧ b.status = a.status)
              ∧ ∀ x, t.cell x = (List.range total).foldl (fun (m : Bool × Nat → Byte) j =>
                  fun y => if y = addr d.dst d.dstStride j then m (addr d.src d.srcStride j) else m y) s.cell x))
        ∧ (let x := s.sidePlace p d.srcW d.src .read
          let y := x.1.sidePlace p d.dstW d.dst .write
          ∀ ls ld, x.2 = .ok ls → y.2 = .ok ld → s.sound ls d.len → s.sound ld d.len → s.memWf → d.rows = 1 → a.got = none → a.moved = 0 → d.cw = none →
            d.src.toNat % 128 + d.len ≤ 128 → d.dst.toNat % 128 + d.len ≤ 128 → 1 ≤ lines →
            (d.dstW = d.srcW → d.dst = d.src ∨ d.len ≤ (d.dst - d.src).toNat) →
            Completes (.copyComplete ⟨op, lines⟩) s (fun t =>
              t = { s with pops := t.pops, tlb := t.tlb, cstore := t.cstore, cline := t.cline, hbm := t.hbm, hline := t.hline, l2 := t.l2,
                           ccache := t.ccache, rels := t.rels, olds := t.olds, hvWords := t.hvWords, vers := t.vers, serial := t.serial, tick := t.tick,
                           locks := s.locks.filter (fun l => l.owner != op.serial) }
              ∧ (∀ l, t.lineState l = s.lineState l)
              ∧ PipeLeaves s t r p p c (fun e => ∀ b ∈ e.asyncs, b.serial = op.serial → b.complete = true ∧ b.status = a.status)
              ∧ ∀ z, t.cell z = match ls.cell, ld.cell with
                  | some u, some w => if z.1 = w.1 ∧ w.2 ≤ z.2 ∧ z.2 < w.2 + d.len then s.cell (u.1, u.2 + (z.2 - w.2)) else s.cell z
                  | _, _ => s.cell z)))
      ∧ (∀ x, a.held = some x →
        Completes (.copyRepairResume op true) s (fun t => t.locks = s.locks
          ∧ ∃ q e, t.cpOf r = some (q, e) ∧ (∀ b ∈ e.asyncs, b.serial = op.serial → b.held = none ∧ b.moved = a.moved) ∧ e.s = c.s ∧ e.m = c.m)
        ∧ (a.moved < total → Completes (.copyRepairResume op false) s moves)
        ∧ (a.moved < total → free → a.got = none → x = src → (s.sidePlace p d.srcW src .read).2 = .error .notPresent →
            Completes (.copyRepairResume op false) s (fun t => ended t (fun b => b.status = a.status ||| 1)
              ∧ (d.cw = none → ∀ z, t.cell z = s.cell z))))
      ∧ (a.waiting = true → s.blocked [] op.serial = false →
        Completes (.engineLockProceed (.copy op)) s (fun t => t = { s with pops := t.pops }
          ∧ PipeLeaves s t r p p c (fun e => ∀ b ∈ e.asyncs, b.serial = op.serial → b.waiting = false))))
  ∧ (∀ (s : State) (op : OpRef) (p : Pop) (c : Cp) (a : AsyncOp), Outstanding s op p c a → s.memWf →
      let r : CpRef := { pid := op.pid, cid := op.cid }
      let done := fun (e : Cp) => ∀ b ∈ e.asyncs, b.serial = op.serial → b.complete = true
      (∀ lo len all, a.kind = .flush lo len all → Completes (.flushComplete op) s (fun t =>
        t = { s with pops := t.pops, l2 := t.l2, hbm := t.hbm } ∧ PipeLeaves s t r p p c done ∧ (∀ x, t.cell x = s.cell x)
        ∧ (∀ e ∈ t.l2, e ∈ s.l2 ∧ ¬(e.2.vf = p.vf
            ∧ (all = true ∨ lineInRange (s.leaves p.vf p.asid lo (lo + len)) lo (lo + len) e.1 = true)))))
      ∧ (∀ load ts, a.kind = .setTransfer load ts → a.majWait = [] →
          (∀ t ∈ ts, (∀ bs, t.got = some bs → bs.length = t.size) ∧ t.size ≤ 8 ∧ s.sound t.loc t.size ∧ s.sound (p.winLoc t.off) t.size ∧ ∃ x g, t.loc = .hbm x g) →
          let bytes := fun (t : SetItem) (y : Bool × Nat) => t.got.getD (s.cells y t.size)
          let moves := fun (part : Option Nat) (us : List SetItem) (more : Cp → Prop) =>
            Completes (.setTransferComplete ⟨op, part⟩) s (fun u =>
              u = { s with pops := u.pops, pmc := u.pmc, cstore := u.cstore, hbm := u.hbm, l2 := u.l2, ccache := u.ccache, rels := u.rels,
                           olds := u.olds, hvWords := u.hvWords, vers := u.vers, serial := u.serial, tick := u.tick }
              ∧ PipeLeaves s u r p p c more
              ∧ ∀ x, u.cell x = us.foldl (fun v t =>
                  let src := if load then t.loc.cell else (p.winLoc t.off).cell
                  let dst := if load then (p.winLoc t.off).cell else t.loc.cell
                  match src, dst with
                  | some y, some z => if x.1 = z.1 ∧ z.2 ≤ x.2 ∧ x.2 < z.2 + t.size then (bytes t y).getD (x.2 - z.2) 0 else v
                  | _, _ => v) (s.cell x))
          (p.quiet = true → (∀ t ∈ ts, mayMove p c a.serial load [] t = true) → moves none ts done)
          ∧ (∀ k t, ts[k]? = some t → mayMove p c a.serial load (ts.take k) t = true →
              moves (some k) [t] (fun e => ∀ b ∈ e.asyncs, b.serial = op.serial →
                b.kind = .setTransfer load (ts.eraseIdx k) ∧ (b.complete = true ↔ ts.eraseIdx k = [])))
          ∧ (∀ k t y, ts[k]? = some t → t.got = none → mayMove p c a.serial load (ts.take k) t = true →
              (if load then t.loc else p.winLoc t.off).cell = some y →
              Completes (.setTransferComplete ⟨op, some (ts.length + k)⟩) s (fun u =>
                u = { s with pops := u.pops, pmc := u.pmc, tick := u.tick }
                ∧ PipeLeaves s u r p p c (fun e => ∀ b ∈ e.asyncs, b.serial = op.serial →
                  b.complete = false ∧ b.kind = .setTransfer load (ts.set k { t with got := some (s.cells y t.size) }))))))

/-! ### Queues and FIFOs (R277 to R291) -/

/-- QPUSH and QPUSH.try push an entry that fits behind the entries of its key, with the cave's number, depth and source filled in; where
it does not fit and no segment can be linked, QPUSH parks at its word, and QPUSH.try never parks: it gives 1, or in start-up, test and
recovery modes its ticket waits for the management processor (R278, R279, R280, R283, R285).
Where it goes beyond the rules it states the model's choice: log entries 37 and 38. -/
def Obligations.QueuePushes : Prop :=
  ∀ (s : State) (r : CpRef) (p : Pop) (c : Cp) (cave : BitVec 6) (sd sa : SReg), Standing s r p c → JoinFree s p c → c.pend = [] →
    (∀ x ∈ c.asyncs, transferring x = false) →
    let k := cave.toNat
    let v := s.cave k
    let ws := (List.range 18).map (fun i => c.getSn sa i)
    let key := (c.getS sa).extractLsb' 0 32
    v.enable = true → v.vf = p.vf → v.set = false → p.nest < 8 → badEntry ws = false →
    let frame := fun (t : State) =>
      t = { s with pops := t.pops, pmc := t.pmc, caves := t.caves, taken := t.taken, serial := t.serial, tick := t.tick, hbm := t.hbm,
                   l2 := t.l2, olds := t.olds, hvWords := t.hvWords, vers := t.vers, issuer := .none }
      ∧ ∀ j, j ≠ k → t.cave j = s.cave j
    let pushed := fun (t : State) => frame t ∧ ∃ e : CaveEntry,
      (t.cave k).entries = v.entries.takeWhile (fun x => decide (x.key.toNat ≤ key.toNat)) ++ e
        :: v.entries.dropWhile (fun x => decide (x.key.toNat ≤ key.toNat))
      ∧ (t.cave k).seq = v.seq + 1 ∧ e.key = key ∧ e.seq = v.seq ∧ e.words.length = 18
      ∧ (∀ (i : Nat) (w : Word64), e.words[i]? = some w →
          (i = 0 → w = v.seq ++ key)
          ∧ (i = 2 → w.extractLsb' 0 16 = (c.getSn sa 2).extractLsb' 0 16 ∧ (w.extractLsb' 16 4).toNat = (p.nest + 1) % 16
              ∧ w.extractLsb' 20 12 = (c.getSn sa 2).extractLsb' 20 12 ∧ w.extractLsb' 32 32 = 0)
          ∧ (i ≠ 0 → i ≠ 2 → w = c.getSn sa i))
    let result := fun (n : Nat) (x : Word64) =>
      c.opened.withAccess { newAccess n c (.scalars [(sd, x)]) .dev .plain true [] with performed := true }
    ((v.room (p.nest + 1)).isSome = true →
      (wordOk p.regs (.qpush cave sa) = true → Completes (.qpush cave sa) s (fun t => pushed t ∧ CpGoes s t r p p c c.opened))
      ∧ (wordOk p.regs (.qpushTry sd cave sa) = true → Completes (.qpushTry sd cave sa) s (fun t => pushed t
          ∧ ∃ n, s.serial ≤ n ∧ CpGoes s t r p p c (result n (v.seq ++ 0#32)))))
    ∧ (v.room (p.nest + 1) = none → v.npool = 0 →
      (wordOk p.regs (.qpush cave sa) = true → Completes (.qpush cave sa) s (fun t =>
          t = { s with pops := t.pops, pmc := t.pmc, issuer := .none }
          ∧ ∃ q d, t.cpOf r = some (q, d) ∧ q = { p with cps := q.cps } ∧ d.wait = some (queueWait .qpush k 0 sa.toNat)
            ∧ d.hdr = c.hdr ∧ d.widx = c.widx ∧ d.clause = c.clause ∧ d.issuing = false ∧ d.s = c.s ∧ d.m = c.m))
      ∧ (wordOk p.regs (.qpushTry sd cave sa) = true → s.mpServes = false → Completes (.qpushTry sd cave sa) s (fun t =>
          frame t ∧ t.cave k = v ∧ ∃ n, s.serial ≤ n ∧ CpGoes s t r p p c (result n 1)))
      ∧ (wordOk p.regs (.qpushTry sd cave sa) = true → s.mpServes = true → Completes (.qpushTry sd cave sa) s (fun t =>
          frame t ∧ t.cave k = v ∧ ∃ n, s.serial ≤ n ∧ CpGoes s t r p p c
            (c.opened.withAccess (newAccess n c (.tryPush sd k (p.nest + 1) ws) .dev .plain true [])))))

/-- QPOP takes an entry of rank at most W, QPOPB keys in push order for the lanes of A, QINS adds the new keys of the lanes of A, each
once, or takes reason 6 where they do not fit, and QSTAT reads the cave's status; an empty cave gives zeros and all ones, and a pop is an
acquire at DEV that learns what the pushes of what it takes had released (R280, R281, R286 to R289).
Where it goes beyond the rules it states the model's choice: log entries 38 and 55. -/
def Obligations.QueuePopsAndSets : Prop :=
  ∀ (s : State) (r : CpRef) (p : Pop) (c : Cp) (cave : BitVec 6) (sd : SReg) (mask : MReg) (vd va : VReg), Standing s r p c →
    let k := cave.toNat
    let v := s.cave k
    let w := if c.mode.getLsbD 5 then 1 else match v.wcode with
      | 0 => 1
      | 1 => 4
      | 2 => 16
      | _ => 64
    v.enable = true → v.vf = p.vf →
    let frame := fun (t : State) =>
      t = { s with pops := t.pops, pmc := t.pmc, caves := t.caves, taken := t.taken, serial := t.serial, tick := t.tick, hbm := t.hbm,
                   l2 := t.l2, olds := t.olds, hvWords := t.hvWords, vers := t.vers, issuer := .none }
      ∧ ∀ j, j ≠ k → t.cave j = s.cave j
    let learnt := fun (m : Know) (b : Nat) => { Cp.learn s.handed (Cp.learn m c.opened) with bar := b }
    let popped := fun (m : Know) (b n : Nat) (ws : List Word64) => (learnt m b).withAccess
      { newAccess n c (.scalars (ws.zipIdx.map (fun (e : Word64 × Nat) => (sd + BitVec.ofNat 8 e.2, e.1)))) .dev .plain true [] with performed := true }
    let lanes := (List.range p.lanes).filter (fun l => (c.getM 0 &&& c.getM mask &&& p.live).getLsbD l)
    let n := min lanes.length v.entries.length
    let keys := ((lanes.map (fun l => p.getV l va.toNat)).eraseDups).filter (fun x =>
      x != 0xFFFFFFFF#32 && v.entries.all (fun e => e.key != x))
    (wordOk p.regs (.qstat sd cave) = true → Enters (.qstat sd cave) s r p c (fun i => c.withAccess
      { newAccess i c (.scalars [(sd, BitVec.ofNat 64 (2 ^ 53 * min v.npool 2047 + 2 ^ 51 * v.wcode + 2 ^ 50 + 2 ^ 49 * v.launch.toNat
          + 2 ^ 48 * v.set.toNat + 2 ^ 40 * v.segs.length + 2 ^ 32 * v.rsv + v.entries.length))]) .dev .plain true []
        with performed := true }))
    ∧ (JoinFree s p c →
      (wordOk p.regs (.qpop sd cave) = true → v.set = false →
        (v.entries = [] → Completes (.qpop sd cave) s (fun t => frame t ∧ (t.cave k).entries = []
          ∧ ∃ b i, s.serial ≤ b ∧ s.serial ≤ i ∧ CpGoes s t r p p c (popped Know.zero b i (List.replicate 18 0))))
        ∧ (v.entries ≠ [] → ∃ j e, j < w ∧ v.entries[j]? = some e ∧ Completes (.qpop sd cave) s (fun t => frame t
            ∧ (t.cave k).entries = v.entries.filter (fun x => x.born != e.born)
            ∧ ∃ b i, s.serial ≤ b ∧ s.serial ≤ i ∧ CpGoes s t r p p c (popped e.know b i e.words))))
      ∧ (wordOk p.regs (.qpopb mask vd cave) = true → v.set = true → ∃ es : List CaveEntry,
          es.Sublist (v.entries.take (n + w - 1)) ∧ es.length = n
          ∧ Completes (.qpopb mask vd cave) s (fun t => frame t
            ∧ (∀ x, x ∈ (t.cave k).entries ↔ x ∈ v.entries ∧ ∀ e ∈ es, x.born ≠ e.born)
            ∧ ∃ b i, s.serial ≤ b ∧ s.serial ≤ i ∧ ∃ its : List Item,
              CpGoes s t r p p c ((learnt (es.foldl (fun m e => m.merge e.know) Know.zero) b).withAccess
                { newAccess i c (.lanes vd) .dev .plain true its with performed := true, complete := decide (its = []) })
              ∧ its.length = lanes.length
              ∧ ∀ (j : Nat) (it : Item) (l : Nat), its[j]? = some it → lanes[j]? = some l →
                  it.lanes = [l] ∧ it.res = some (((es[j]?.map (fun (e : CaveEntry) => e.key)).getD 0xFFFFFFFF#32).zeroExtend 128)))
      ∧ (wordOk p.regs (.qins mask cave va) = true → v.set = true → c.pend = [] →
        (∀ x ∈ c.asyncs, transferring x = false) →
        (v.entries.length + keys.length ≤ 512 + 4096 * v.segs.length →
          ∃ es : List CaveEntry, es.map (fun e => e.key) = keys ∧ Completes (.qins mask cave va) s (fun t => frame t
            ∧ (t.cave k).entries = v.entries ++ es ∧ CpGoes s t r p p c c.opened))
        ∧ (512 + 4096 * v.segs.length < v.entries.length + keys.length → v.npool = 0 → v.segs = [] →
          Completes (.qins mask cave va) s (Trapped s r p c.opened .queue c.wordAddr 6 allOnes64 0))))

/-- SPILL_REFILL moves spilled entries into the head until it is full or none is left, losing none while every line reads good data.
MP_SEGMENT_LINK links a segment for the pushes held on a cave, of which a QPUSH.try and a LAUNCH that fit are then served, or refuses
them: a QPUSH.try gives 1, a LAUNCH is answered CAVEFULL, a blocking QPUSH stays parked (R283, R285, R293).
Where it goes beyond the rules it states the model's choice: log entries 37 and 38. -/
def Obligations.CaveEvents : Prop :=
  ∀ (s : State) (k : Nat),
    let v := s.cave k
    let held := s.cpsWith (fun _ c => heldOn k c)
    let bare := fun (e : CaveEntry) => (e.words, e.key, e.seq, e.slot, e.born)
    let noLaunch := ∀ h ∈ s.launches, h.cave ≠ k
    let frame := fun (t : State) =>
      t = { s with pops := t.pops, caves := t.caves, taken := t.taken, launches := t.launches, outbox := t.outbox, hbm := t.hbm,
                   l2 := t.l2, olds := t.olds, hvWords := t.hvWords, vers := t.vers, serial := t.serial, tick := t.tick }
      ∧ (∀ j, j ≠ k → t.cave j = s.cave j)
    let pushed := fun (t : State) (key : Word32) => ∃ e : CaveEntry, e.key = key ∧ e.seq = v.seq
      ∧ (t.cave k).entries = v.entries.takeWhile (fun x => decide (x.key.toNat ≤ key.toNat)) ++ e
          :: v.entries.dropWhile (fun x => decide (x.key.toNat ≤ key.toNat))
    (v.headUse < 512 → v.headUse < v.entries.length → s.hline = [] → Completes (.spillRefill k) s (fun t =>
      t = { s with caves := t.caves, taken := t.taken, hbm := t.hbm, l2 := t.l2, olds := t.olds, hvWords := t.hvWords, vers := t.vers,
                   serial := t.serial, tick := t.tick }
      ∧ (∀ j, j ≠ k → t.cave j = s.cave j)
      ∧ (t.cave k).entries.map bare = v.entries.map bare
      ∧ (512 ≤ (t.cave k).headUse ∨ ∀ e ∈ (t.cave k).entries, e.place = .head)))
    ∧ (held ≠ [] → noLaunch → s.heldTries k = [] →
      (∀ f : BitVec 36, s.mpServes = true → f.toNat ∉ v.segs → v.segs.length < 255 → Completes (.mpSegmentLink k (some f)) s (fun t =>
        t = { s with caves := t.caves, taken := t.taken } ∧ (∀ j, j ≠ k → t.cave j = s.cave j) ∧ t.cave k = { v with segs := v.segs ++ [f.toNat] }))
      ∧ Completes (.mpSegmentLink k none) s (fun t => t = s))
    ∧ (∀ r p c a sd depth ws, s.heldTries k = [(r, a, sd, depth, ws)] → noLaunch → s.cpOf r = some (p, c) → v.reason p.vf (some false) = none →
      let answer := fun (t : State) (x : Word64) => ∃ q d, t.cpOf r = some (q, d) ∧ q = { p with cps := q.cps }
        ∧ d = { c with pend := c.pend.map (fun b => if b.serial = a.serial then { a with op := .scalars [(sd, x)], performed := true } else b) }
      (v.room depth = none → v.npool = 0 → Completes (.mpSegmentLink k none) s (fun t => frame t ∧ t.cave k = v ∧ answer t 1))
      ∧ (∀ f : BitVec 36, s.mpServes = true → f.toNat ∉ v.segs → v.segs.length < 255 →
          (Cave.room { v with segs := v.segs ++ [f.toNat] } depth).isSome = true →
          Completes (.mpSegmentLink k (some f)) s (fun t =>
            frame t ∧ pushed t ((ws.getD 0 0).extractLsb' 0 32) ∧ answer t (v.seq ++ 0#32))))
    ∧ (∀ h, s.launches.filter (fun h => h.cave == k) = [h] → s.heldTries k = [] → v.reason h.msg.vf (some false) = none →
      let answer := fun (t : State) (st : Status) => t.pops = s.pops ∧ t.launches = s.launches.filter (fun h => h.cave != k)
        ∧ s.replies h.msg (responseType h.msg.type) st [] t
      (v.room 0 = none → v.npool = 0 → Completes (.mpSegmentLink k none) s (fun t => frame t ∧ t.cave k = v ∧ answer t .caveFull))
      ∧ (∀ f : BitVec 36, s.mpServes = true → f.toNat ∉ v.segs → v.segs.length < 255 →
          (Cave.room { v with segs := v.segs ++ [f.toNat] } 0).isSome = true →
          Completes (.mpSegmentLink k (some f)) s (fun t =>
            frame t ∧ pushed t ((h.entry.getD 0 0).extractLsb' 0 32) ∧ answer t .ok)))

/-- FPUSH and FPOP move a batch whole between the lanes of A, ascending, and the ring positions from tail and head on, when it fits and
no other waits before it; else, even where it fits, the CP parks behind the waiters. A push passes on what its CP knows, a pop takes what
the pushes passed on; a batch of no lane goes on at once (R290, R291, R342).
Where it goes beyond the rules it states the model's choice: log entries 39 and 61. -/
def Obligations.FifoWords : Prop :=
  ∀ (s : State) (r : CpRef) (p : Pop) (c : Cp) (mask : MReg) (bank : BitVec 5) (va : VReg), Standing s r p c → JoinFree s p c →
    let b := p.base + bank.toNat
    let f := s.fifo p.cluster b
    let lanes := (List.range p.lanes).filter (fun l => (c.getM 0 &&& c.getM mask &&& p.live).getLsbD l)
    let n := lanes.length
    let at_ := fun (x : Word32) (j : Nat) => 16777216 * p.cluster + 524288 * b + 4 * ((x + BitVec.ofNat 32 j).toNat % 131072)
    let left := f.waiters.filter (fun x => x != r)
    let first := f.waiters = [] ∨ f.waiters.head? = some r
    let parks := fun (i : Instr) (kind : WaitKind) => Completes i s (fun t =>
      t = { s with pops := t.pops, pmc := t.pmc, fifos := t.fifos, issuer := .none }
      ∧ t.fifo p.cluster b = { f with waiters := if r ∈ f.waiters then f.waiters else f.waiters ++ [r] }
      ∧ ∃ q d, t.cpOf r = some (q, d) ∧ q = { p with cps := q.cps } ∧ d.wait = some (queueWait kind bank.toNat n 0) ∧ d.hdr = c.hdr
        ∧ d.widx = c.widx ∧ d.clause = c.clause ∧ d.issuing = false ∧ d.s = c.s ∧ d.m = c.m)
    let passes := fun (i : Instr) => Completes i s (fun t =>
      t = { s with pops := t.pops, pmc := t.pmc, fifos := t.fifos, issuer := .none } ∧ t.fifo p.cluster b = { f with waiters := left }
      ∧ CpGoes s t r p p c c.opened)
    bank.toNat < p.banks → s.roleOf p.cluster b = .fifo → n ≤ 131072 →
    (∀ x, s.lineState (.store p.cluster x) = LineState.clean) →
    (wordOk p.regs (.fpush mask bank va) = true →
      (n = 0 → passes (.fpush mask bank va))
      ∧ (1 ≤ n → first → (f.tail - f.head).toNat + n ≤ 131072 → c.pend = [] → (∀ x ∈ c.asyncs, transferring x = false) →
          Completes (.fpush mask bank va) s (fun t =>
            t = { s with pops := t.pops, pmc := t.pmc, cstore := t.cstore, fifos := t.fifos, rels := t.rels, issuer := .none }
            ∧ t.fifo p.cluster b = { f with tail := f.tail + BitVec.ofNat 32 n, waiters := left, know := f.know.merge (c.know.merge c.carried) }
            ∧ (∀ j l i, lanes[j]? = some l → i < 4 → Tab.get 0 t.cstore (at_ f.tail j + i) = (p.getV l va.toNat).extractLsb' (8 * i) 8)
            ∧ (∀ x, (∀ j, j < n → x < at_ f.tail j ∨ at_ f.tail j + 4 ≤ x) → Tab.get 0 t.cstore x = Tab.get 0 s.cstore x)
            ∧ CpGoes s t r p p c c.opened))
      ∧ (1 ≤ n → (¬first ∨ 131072 < (f.tail - f.head).toNat + n) → parks (.fpush mask bank va) .fpush))
    ∧ (wordOk p.regs (.fpop mask va bank) = true →
      (n = 0 → passes (.fpop mask va bank))
      ∧ (1 ≤ n → first → n ≤ (f.tail - f.head).toNat → Completes (.fpop mask va bank) s (fun t =>
          t = { s with pops := t.pops, pmc := t.pmc, fifos := t.fifos, issuer := .none }
          ∧ t.fifo p.cluster b = { f with head := f.head + BitVec.ofNat 32 n, waiters := left }
          ∧ ∃ v, CpGoes s t r p { p with v := v } c (Cp.learn f.know c.opened)
            ∧ (∀ j l, lanes[j]? = some l →
                Tab.get 0 v (2048 * l + va.toNat) = BitVec.ofNat 32 (natOfBytes (s.cells (false, at_ f.head j) 4)))
            ∧ ∀ l reg, reg < 2048 → (l ∉ lanes ∨ reg ≠ va.toNat) → Tab.get 0 v (2048 * l + reg) = p.getV l reg))
      ∧ (1 ≤ n → (¬first ∨ (f.tail - f.head).toNat < n) → parks (.fpop mask va bank) .fpop))


/-! ### Network operations (R292, R325, R369) -/

/-- NPUT, NGET and NARRIVE, when their descriptor is valid and the local side passes the checks of R206 and translates: the operation
takes an async ticket. Where the peer table names a peer SW-7 its message is sent, NPUT's with its local bytes, and it stays outstanding;
an NPUT whose bytes cannot be read fails. Where the peer is not ready it fails at once: nothing is sent, its ticket is complete, and a
completion word in the window receives the arrival with NETFAIL (R292, R325, R369).
NET_COMPLETE and NET_TIMEOUT bring a network operation on. The data of an NPUT with a remote completion word is followed by its remote
arrival, whose answer is awaited anew; NGET's bytes land in the window. At its end the completion word, in the window or in global
memory, receives one arrival of its bytes (of 1 for NARRIVE), with NETFAIL where the peer refused, answered after 2^30 clk, or did not
answer within them, and the ticket completes (R292, R325, R326, R369).
Where it goes beyond the rules it states the model's choice: log entries 31 and 32. -/
def Obligations.NetworkOperations : Prop :=
  (∀ (s : State) (r : CpRef) (p : Pop) (c : Cp) (sa : SReg), Standing s r p c → JoinFree s p c → c.pend = [] →
      (∀ x ∈ c.asyncs, transferring x = false ∧ x.serial < s.serial) →
      let x := c.getSn sa 3
      let addr := c.getSn sa 2
      let len := x.toNat % 2 ^ 32
      let window := x.getLsbD 32
      let peer := (c.getSn sa 0).toNat
      let cw := c.getSn sa 4
      let space : Space := if window then .w else .g
      let word : List Want := if cw = allOnes64 then [] else [{ space := space, lane := none, ea := cw, size := 16, write := true }]
      let data := fun (write : Bool) => lineParts space addr len write
        ++ [({ space := space, lane := none, ea := addr + BitVec.ofNat 64 (len - 1), size := 1, write := write } : Want)]
      let sends := fun (i : Instr) (op : NetOp) (wants : List Want) (need : Need) =>
        let d : NetDesc :=
          { op := op, peer := peer, remote := c.getSn sa 1, localAddr := addr, len := len, window := window, cw := cw,
            remoteCw := c.getSn sa 5 }
        wordOk p.regs i = true → peer < 65536 → x.toNat / 2 ^ 33 = 0 → (op ≠ .arrive → 1 ≤ len ∧ len ≤ 16777216) → peer < s.npeers p.vf →
        s.checkWants p (word ++ wants) = none → ∀ s1 l1 s2 l2, s.placeAll p need wants = (s1, .ok l1) → s1.placeAll p .both word = (s2, .ok l2) →
        let entered := fun (n : Nat) (done : Bool) (k : Know) => { newAsync n (.net d) false done s.clock with know := k }
        let goes := fun (t : State) (n : Nat) (done : Bool) (k : Know) => ∃ q e, t.cpOf r = some (q, e) ∧ q.v = p.v ∧ e.s = c.s ∧ e.m = c.m
          ∧ e.stack = c.stack ∧ s.serial ≤ n ∧ e.asyncs = retireAsync (c.asyncs ++ [entered n done k]) ∧ c.follows e
        let sent := fun (bytes : List Byte) => s.outbox ++ [.rdma p.vf peer op (c.getSn sa 1) len bytes]
        let word_ := 16777216 * p.cluster + 524288 * p.base + cw.toNat
        (s.peerReady p.vf peer = true →
          (op ≠ .put → Completes i s (fun t => t.outbox = sent [] ∧ ∃ n, goes t n false (c.know.merge c.carried)))
          ∧ (op = .put → Completes i s (fun t => ∃ n k, (∃ bytes, t.outbox = sent bytes ∧ goes t n false k)
              ∨ (t.outbox = s.outbox ∧ goes t n true k)))
          ∧ (window = true → (∀ y, s.lineState (.store p.cluster y) = LineState.clean) →
              Completes i s (fun t => t = { s with pops := t.pops, pmc := t.pmc, serial := t.serial, outbox := t.outbox, issuer := .none }
                ∧ t.outbox = sent (if op = .put then (List.range len).map (fun j =>
                    Tab.get 0 s.cstore (16777216 * p.cluster + 524288 * p.base + (addr + BitVec.ofNat 64 j).toNat)) else [])
                ∧ ∃ n, s.serial ≤ n ∧ CpGoes s t r p p c (c.opened.withAsync (entered n false (c.know.merge c.carried))))))
        ∧ (s.peerReady p.vf peer = false →
            Completes i s (fun t => t.outbox = s.outbox ∧ ∃ n, goes t n true (c.know.merge c.carried))
            ∧ (cw = allOnes64 → Completes i s (fun t => ∀ y, t.cell y = s.cell y))
            ∧ (cw ≠ allOnes64 → window = true → s.sys.recovery = false → s.lineState (.store p.cluster (524288 * p.base + cw.toNat)) = LineState.clean →
                Completes i s (fun t => Arrived s t word_ (if op = .arrive then 1 else BitVec.ofNat 32 len) 0x10000000)))
      sends (.nput sa) .put (data false) .read ∧ sends (.nget sa) .get (data true) .write ∧ sends (.narrive sa) .arrive [] .read)
  ∧ (∀ (s : State) (op : OpRef) (p : Pop) (c : Cp) (a : AsyncOp) (d : NetDesc) (data : List Byte), Outstanding s op p c a →
      a.kind = .net d → s.sys.recovery = false → s.memWf → (∀ x, s.lineState (.store p.cluster x) = LineState.clean) →
      let r : CpRef := { pid := op.pid, cid := op.cid }
      let win := fun (x : Nat) => 16777216 * p.cluster + 524288 * p.base + x
      let n : Word32 := if d.op = .arrive then 1 else BitVec.ofNat 32 d.len
      let late := 2 ^ 30 ≤ (s.clock - a.since).toNat
      let cpAfter := fun (t : State) => ∃ q e, t.cpOf r = some (q, e) ∧ q.v = p.v ∧ e.s = c.s ∧ e.m = c.m
        ∧ ∀ b ∈ e.asyncs, b.serial = op.serial → b.complete = true
      let ends := fun (i : Instr) (u : State) (bits : Word32) =>
        (d.cw = allOnes64 → Completes i s (fun t => cpAfter t ∧ (∀ x, t.cell x = u.cell x) ∧ t.outbox = s.outbox))
        ∧ (d.cw ≠ allOnes64 → d.window = true → d.cw.toNat % 16 = 0 →
            Completes i s (fun t => cpAfter t ∧ Arrived u t (win d.cw.toNat) n bits ∧ (∀ x, t.cell (true, x) = u.cell (true, x))
              ∧ t.outbox = s.outbox))
        ∧ (∀ s1 pa g, d.cw ≠ allOnes64 → d.window = false → s.translate p.cpUnits p.vf p.asid d.cw .both = (s1, .ok (.hbm pa g)) →
            s.sound (.hbm pa g) 16 →
            Completes i s (fun t => cpAfter t ∧ ArrivedAt s.physByte t.physByte pa n bits ∧ t.cstore = s.cstore ∧ t.outbox = s.outbox))
      let landed := d.op = .get ∧ a.acked = true
      (¬late → d.op = .arrive → ends (.netComplete op true data) s 0)
      ∧ (¬late → d.op = .put → (a.acked = true ∨ d.remoteCw = allOnes64) → ends (.netComplete op true data) s 0)
      ∧ (¬late → d.op = .put → a.acked = false → d.remoteCw ≠ allOnes64 → Completes (.netComplete op true data) s (fun t =>
          t = { s with pops := t.pops, outbox := s.outbox ++ [.rdma p.vf d.peer .arrive d.remoteCw d.len []] }
          ∧ PipeLeaves s t r p p c (fun e => ∀ b ∈ e.asyncs, b.serial = op.serial → b.complete = false ∧ b.acked = true ∧ b.since = s.clock)))
      ∧ (∀ ok, (late ∨ ok = false) → ¬landed → ends (.netComplete op ok data) s 0x10000000)
      ∧ (late → ¬landed → ends (.netTimeout op) s 0x10000000)
      ∧ (∀ ok, landed → s.majBusy a.majWait = false → ends (.netComplete op ok data) s (if a.status = 0 then 0 else 0x10000000))
      ∧ (¬late → d.op = .get → a.acked = false → d.window = true → data.length = d.len → d.localAddr.toNat + d.len ≤ 2 ^ 64 →
          s.majBusy a.majWait = false →
          ends (.netComplete op true data)
            { s with cstore := Tab.putAll 0 s.cstore (win d.localAddr.toNat) data } 0))

/-! ### Rennet words, waits and counters (R324 to R337) -/

/-- WAITR passes when the generation has moved past g by less than 2^31 turns, bringing in the flags of finished streams on a window
word and acquiring at its scope what the releases it observes passed on, and else parks after its word; WAITT passes within its bounds and else parks; CP_WAKE readies the CP by
the same tests, and where its word was the clause's last a SCOPE trap that is due is taken and a step halts (R219, R262, R311, R322,
R330, R334, R343).
Where it goes beyond the rules it states the model's choice: log entries 28 and 61. -/
def Obligations.WaitWords : Prop :=
  ∀ (s : State) (r : CpRef) (p : Pop) (c : Cp) (a : KAddr) (g : KSrc) (wt wa : BitVec 6) (w : Wait) (loc : Loc),
    let gen := match g with
      | .reg k => (c.getS k).extractLsb' 0 32
      | .imm v => v.zeroExtend 32
    let want : Want := { space := a.space, lane := none, ea := c.getS a.sa, size := 16, write := false }
    let word := fun (l : Loc) => natOfBytes (match l.cell with
      | some x => s.cells x 16
      | none => [])
    let turned := fun (l : Loc) (g : Word32) =>
      let k := (BitVec.ofNat 32 (word l / 2 ^ 64) - g).toNat
      1 ≤ k ∧ k < 2 ^ 31
    let after := fun (d : Cp) => (c.widx + 1 < c.clause.length → d.hdr = c.hdr ∧ d.widx = c.widx + 1 ∧ d.clause = c.clause)
      ∧ (c.clause.length ≤ c.widx + 1 → Cp.boundaryAt (c.hdr + 8 * BitVec.ofNat 64 (c.clause.length + 1)) d)
    let parks := fun (d : Cp) => after d ∧ d.issuing = false ∧ d.waitWord = c.wordAddr ∧ d.s = c.s ∧ d.m = c.m ∧ d.stack = c.stack
      ∧ d.pend = c.pend ∧ d.asyncs = c.asyncs ∧ d.flags = c.flags
    let flagsIn := fun (space : Space) (addr : Word64) (fl : Flags) (due : List FlagsDue) =>
      (space ≠ .w → fl = 0 ∧ due = p.flagsDue)
      ∧ (space = .w → due = p.flagsDue.filter (fun d => !(d.starter == r.cid && d.cw == addr.toNat))
          ∧ ∀ b, fl.getLsbD b = true ↔ ∃ d ∈ p.flagsDue, d.starter = r.cid ∧ d.cw = addr.toNat ∧ d.flags.getLsbD b = true)
    (Standing s r p c → wordOk p.regs (.waitr a g) = true → s.checkWants p [want] = none → c.pend = [] →
      ∀ s1, s.place p want .read = (s1, .ok loc) → s1.stampRefuses r.pid p.cluster a.scope loc = false → s.sound loc 16 →
      let frame := fun (t : State) => t = { s with pops := t.pops, pmc := t.pmc, tlb := t.tlb, stamps := t.stamps, serial := t.serial,
                                                   tick := t.tick, issuer := .none }
      (turned loc gen → Completes (.waitr a g) s (fun t => frame t ∧ ∃ fl due c', Waited s r p c a.scope loc c'
        ∧ CpGoes s t r p { p with flagsDue := due } c (c'.raise fl) ∧ flagsIn a.space (c.getS a.sa) fl due))
      ∧ (¬turned loc gen → Completes (.waitr a g) s (fun t => frame t ∧ ∃ q d, t.cpOf r = some (q, d) ∧ q = { p with cps := q.cps }
          ∧ d.wait = some { kind := .waitr, space := a.space, addr := c.getS a.sa, value := gen, aux := 0 } ∧ d.waitLoc = some loc
          ∧ d.waitDue = false ∧ d.waitScope = a.scope ∧ parks d)))
    ∧ (Standing s r p c → c.faultWithin (if wt = 63 then 64 else wt.toNat) = none →
      let fits := (wt = 63 ∨ c.loadTickets ≤ wt.toNat) ∧ (wa = 63 ∨ c.asyncs.length ≤ wa.toNat)
      (fits → GoesOn (.waitt wt wa) s r p c p c)
      ∧ (¬fits → Completes (.waitt wt wa) s (fun t => t = { s with pops := t.pops, pmc := t.pmc, issuer := .none }
          ∧ ∃ q d, t.cpOf r = some (q, d) ∧ q = { p with cps := q.cps } ∧ parks d
            ∧ ∃ x, d.wait = some x ∧ x.kind = .waitt ∧ x.aux.toNat = wt.toNat + 256 * wa.toNat)))
    ∧ (s.cpOf r = some (p, c) → c.wait = some w → p.preempting = false → p.aborted = false → c.halted = false →
      let whole := c.clause ≠ [] ∨ (c.scopeTrap = none ∧ c.haltDue = false ∧ c.stepping = false)
      let frame := fun (t : State) => t = { s with pops := t.pops, pmc := t.pmc, stamps := t.stamps, serial := t.serial, tick := t.tick }
      let ready := fun (q : Pop) (fl : Flags) (d : Cp → Prop) => Completes (.cpWake r) s (fun t => frame t
        ∧ (∀ k, k ≠ r.pid → t.pop k = s.pop k) ∧ ∃ q' e d', t.cpOf r = some (q', e) ∧ q' = { q with cps := q'.cps }
          ∧ (∀ k, k ≠ r.cid → q'.cp k = p.cp k) ∧ d d'
          ∧ e = { d'.raise fl with wait := none, waitLoc := none, waitDue := false, readySince := s.clock, promoted := false })
      (w.kind = .waitr → c.waitLoc = some loc → c.waitDue = true → (∀ b ∈ c.pend, b.complete = true) → s.sound loc 16 →
        s.stampRefuses r.pid p.cluster c.waitScope loc = false →
        (turned loc w.value → whole → ∃ fl due, flagsIn w.space w.addr fl due
            ∧ ready { p with flagsDue := due } fl (Waited s r p c c.waitScope loc))
        ∧ (¬turned loc w.value → Completes (.cpWake r) s (fun t => frame t
            ∧ ∃ q d m, t.cpOf r = some (q, d) ∧ d = { c with waitDue := false, know := m })))
      ∧ (w.kind = .waitt → (∀ b ∈ c.pend, b.fault = none) →
          (w.aux.toNat % 64 = 63 ∨ c.loadTickets ≤ w.aux.toNat % 64) →
          (w.aux.toNat / 256 % 64 = 63 ∨ c.asyncs.length ≤ w.aux.toNat / 256 % 64) →
          (whole → ready p 0 (fun d => d = c))
          ∧ (c.clause = [] → ∀ k, c.scopeTrap = some k → Completes (.cpWake r) s (fun t => ∃ q d, t.cpOf r = some (q, d)
              ∧ d.wait = none ∧ d.scopeTrap = none ∧ d.tpc = k.tpc ∧ d.tcause = 0x06 ∧ d.taddr = k.taddr ∧ d.tlane = k.tlane
              ∧ d.issuing = false ∧ d.s = c.s ∧ d.m = c.m))
          ∧ (c.clause = [] → c.scopeTrap = none → (c.haltDue = true ∨ c.stepping = true) → Completes (.cpWake r) s (fun t =>
              ∃ q d, t.cpOf r = some (q, d) ∧ d.wait = none ∧ d.halted = true ∧ d.stepping = false ∧ d.s = c.s ∧ d.m = c.m)))
      ∧ (w.kind = .header → (∀ b ∈ c.pend, b.fault = none) → c.loadTickets ≤ w.value.toNat % 256 →
          c.asyncs.length ≤ w.value.toNat / 256 → ready p 0 (fun d => d = c))
      ∧ (w.kind = .join → (∀ b ∈ c.pend, b.fault = none) → c.loadTickets = 0 →
          (∀ e ∈ s.fragsOf p.home c.ctx, e.2.state = .pending → e.2.lanes = 0) →
          ((s.ovf p.home c.ctx).state = .pending → (s.ovf p.home c.ctx).lanes = 0) → ready p 0 (fun d => d = c)))

/-- PMCS sets a counter's selector and clears it, PMCR reads it, and every clk adds 1 to the clock, to counters of clk, and the parked
control programs to counters of those (R157, R337).
Where it goes beyond the rules it states the model's choice: log entry 40. -/
def Obligations.CounterWords : Prop :=
  ∀ (s : State) (r : CpRef) (p : Pop) (c : Cp) (sd sa : SReg) (n : BitVec 4),
    let key := 16 * p.home + n.toNat
    let v := c.getS sa
    (Standing s r p c → wordOk p.regs (.pmcr sd n) = true →
      GoesOn (.pmcr sd n) s r p c p (c.setS sd (Tab.get 0 (s.count p.home r.pid 0x003 1).pmc key)))
    ∧ (Standing s r p c → wordOk p.regs (.pmcs n sa) = true →
      (v.toNat / 2 ^ 13 = 0 → v.toNat % 4096 ≤ 0x012 → Completes (.pmcs n sa) s (fun t =>
        t = { s with pops := t.pops, pmc := t.pmc, pmcSel := t.pmcSel, issuer := .none } ∧ CpGoes s t r p p c c
        ∧ Tab.get PmcSel.zero t.pmcSel key = { code := v.toNat % 4096, only := if v.getLsbD 12 then some r.pid else none }
        ∧ Tab.get 0 t.pmc key = 0
        ∧ ∀ k, k ≠ key → Tab.find t.pmcSel k = Tab.find s.pmcSel k))
      ∧ ((v.toNat / 2 ^ 13 ≠ 0 ∨ 0x012 < v.toNat % 4096) →
          Completes (.pmcs n sa) s (Trapped s r p c .illegal c.wordAddr 0 allOnes64 0)))
    ∧ Completes .clockIncrement s (fun t => t = { s with clock := s.clock + 1, pmc := t.pmc, sys := { s.sys with idle := t.sys.idle } }
        ∧ (Tab.rises 0 s.pmcSel = true → ∀ k sel, Tab.find s.pmcSel k = some sel →
            (sel.code = 0x001 → Tab.get 0 t.pmc k = Tab.get 0 s.pmc k + 1)
            ∧ (sel.code = 0x00F → sel.only = none → Tab.get 0 t.pmc k = Tab.get 0 s.pmc k + BitVec.ofNat 64
                ((s.pops.map (fun e => if e.2.home = k / 16 then (e.2.cps.filter (fun x => x.2.wait.isSome)).length else 0)).sum))
            ∧ (sel.code ≠ 0x001 → sel.code ≠ 0x00F → Tab.get 0 t.pmc k = Tab.get 0 s.pmc k)))

/-! ### Issue, restart and successors (R18, R32, R59 to R63, R161, R176 to R181) -/

/-- CLAUSE_ISSUE begins the chosen control program's clause, in its turn, when it is fetched whole and passes the checks of R61; a failed
check traps at the header, a SCOPE trap or a data cause that is due is taken first. A control program that comes to a header whose wait
fields are not met parks there and is not ready (R17, R20, R59). CONTINUATION_CLAUSE goes on inside a clause (R63), CP_PROMOTION marks a
control program ready for 48 clk (R18), TRAP_RESUME restarts a held one where its trap's row says or ends its population (R161, R314).
Where it goes beyond the rules it states the model's choice: log entries 1, 10 and 28. -/
def Obligations.IssueEvents : Prop :=
  ∀ (s : State) (core part : Nat) (r : CpRef) (p : Pop) (c : Cp), s.cpOf r = some (p, c) →
    let carried := fun (ws : List Word64) => if touchesLanes ws then c.carried.merge (p.carries r.cid) else c.carried
    let cpIs := fun (t : State) (d : Cp) => ∃ q e, t.cpOf r = some (q, e) ∧ q = { p with cps := q.cps, code := q.code, lastCp := q.lastCp } ∧ e = d
    (s.chosen core part = some (r, p, c) → s.enters r p = true →
      (c.clause = [] → ∀ k, c.scopeTrap = some k → Completes (.clauseIssue core part) s (fun t => ∃ q d, t.cpOf r = some (q, d)
          ∧ d.scopeTrap = none ∧ d.tpc = k.tpc ∧ d.tcause = 0x06 ∧ d.taddr = k.taddr ∧ d.tlane = k.tlane ∧ d.issuing = false))
      ∧ (c.clause = [] → c.scopeTrap = none → c.storeFault = none → ∀ s1 x, s.fetchClause r.pid p c.hdr = (s1, x) →
        (∀ h ws, x = .ok (h, ws) →
          let loads := countWords takesLoad ws
          let asyncs := countWords takesAsync ws
          let bound := fun (f n : Nat) => min (if f = 63 then 64 else f) (64 - n)
          let wt := (h.extractLsb' 46 6).toNat
          let wa := (h.extractLsb' 40 6).toNat
          (clauseCheck h ws = none →
            (c.faultWithin (bound wt loads) = none → c.loadTickets ≤ bound wt loads → c.asyncs.length ≤ bound wa asyncs →
              Completes (.clauseIssue core part) s (fun t => t = { s1 with pops := t.pops, pmc := t.pmc }
                ∧ cpIs t { c with clause := ws, widx := 0, issuing := true, fresh := false, readySince := s.clock, promoted := false,
                                  late := 0, carried := carried ws }))
            ∧ (∀ a, c.faultWithin (bound wt loads) = some a → Completes (.clauseIssue core part) s (fun t =>
                ∃ q d, t.cpOf r = some (q, d) ∧ d.tpc = a.word ∧ d.tcause = 0x08 ∧ d.tlane = allOnes64 ∧ d.issuing = false
                  ∧ d.s = c.s ∧ d.m = c.m ∧ ∀ b ∈ d.pend, b.serial ≠ a.serial)))
          ∧ (∀ trap, clauseCheck h ws = some trap → Completes (.clauseIssue core part) s (fun t =>
              ∃ q d, t.cpOf r = some (q, d) ∧ d.tpc = c.hdr ∧ d.tcause = BitVec.ofNat 64 trap.code ∧ d.taddr = 0 ∧ d.tlane = allOnes64
                ∧ d.issuing = false ∧ d.s = c.s ∧ d.m = c.m)))
        ∧ (∀ f, x = .error f → Completes (.clauseIssue core part) s (fun t =>
            ∃ q d, t.cpOf r = some (q, d) ∧ d.tpc = c.hdr ∧ d.tcause = 0x02 ∧ d.taddr = f.addr ∧ d.tlane = allOnes64
              ∧ d.issuing = false ∧ d.s = c.s ∧ d.m = c.m)))
      ∧ (c.clause ≠ [] → Completes (.continuationClause core part) s (fun t => t = { s with pops := t.pops }
          ∧ cpIs t { c with issuing := true, readySince := s.clock, promoted := false, late := 0,
                            carried := carried (c.clause.drop c.widx) })))
    ∧ (Tab.rises 0 s.pops = true → Tab.rises 0 p.cps = true → c.ready p = true → c.clause = [] → c.scopeTrap = none → c.storeFault = none →
      ∀ s1 h ws, s.fetchClause r.pid p c.hdr = (s1, .ok (h, ws)) → clauseCheck h ws = none → c.faultWithin (loadBound h ws) = none →
        ¬(c.loadTickets ≤ loadBound h ws ∧ c.asyncs.length ≤ asyncBound h ws) →
        ∃ q d w, s.parkHeaders.cpOf r = some (q, d) ∧ d.wait = some w ∧ w.kind = .header ∧ d = { c with wait := some w, waitWord := d.waitWord })
    ∧ (c.ready p = true → (s.headerUnmet r.pid p c).isNone = true → c.promoted = false → 48 ≤ (s.clock - c.readySince).toNat →
      Completes (.cpPromotion r) s (fun t => t = { s with pops := t.pops } ∧ cpIs t { c with promoted := true }))
    ∧ (∀ h repaired, c.held = some h → p.policy = .resume → c.halted = false → p.aborted = false →
      let restarts := fun (d : Cp) => d = { c with held := none, readySince := s.clock, promoted := false }
      let aborts := Completes (.trapResume r repaired) s (fun t => t = { s with pops := t.pops }
        ∧ ∃ q, t.pop r.pid = some q ∧ q.aborted = true ∧ ∀ e ∈ q.cps, e.2.wait = none)
      ((h.code = .clauseCrc ∨ h.code = .rangeLock ∨ h.code = .fragFull ∨ h.code = .fpTrap ∨ h.code = .software ∨ h.code = .brk
          ∨ h.code = .priv ∨ h.code = .queue ∨ h.code = .bankRole) →
        Completes (.trapResume r repaired) s (fun t => t = { s with pops := t.pops } ∧ ∃ q d, t.cpOf r = some (q, d) ∧ restarts d))
      ∧ ((h.code = .clause ∨ h.code = .rciFault) → h.repairable = true →
          let present := (s.makePresent p.vf p.asid c.taddr).present p.vf p.asid c.taddr
          (repaired = true → present = true → Completes (.trapResume r repaired) s (fun t =>
            t = { s with pops := t.pops, hbm := t.hbm, l2 := t.l2, olds := t.olds, hvWords := t.hvWords, vers := t.vers, serial := t.serial,
                         tick := t.tick }
            ∧ ∃ q d, t.cpOf r = some (q, d) ∧ restarts d))
          ∧ (repaired = false ∨ present = false → aborts))
      ∧ ((h.code = .illegal ∨ h.code = .setStack ∨ h.code = .scope ∨ h.code = .permission ∨ h.code = .shape ∨ h.code = .align
          ∨ h.code = .window ∨ h.code = .detViol ∨ ((h.code = .clause ∨ h.code = .rciFault) ∧ h.repairable = false)) → aborts))

/-- SUCC checks its operands and waits for the other control programs; PSTART checks its operands in order and enters a stream with the
captured rounding mode and what the control program knows (R32, R33, R176, R181, R342). -/
def Obligations.SuccessorAndStreamWords : Prop :=
  ∀ (s : State) (r : CpRef) (p : Pop) (c : Cp) (sa sb : SReg), Standing s r p c → JoinFree s p c →
    let a := c.getS sa
    let b := c.getS sb
    let traps := fun (i : Instr) (t : Trap) (taddr : Word64) =>
      Completes i s (Trapped s r p c.opened t c.wordAddr taddr allOnes64 0)
    let others := p.cps.any (fun e => e.1 != r.cid && (match e.2.wait with
      | some w => w.kind == .succ2 || w.kind == .succ3
      | none => false))
    (wordOk p.regs (.succ sa sb) = true →
      (a.toNat % 64 ≠ 0 → traps (.succ sa sb) .align a)
      ∧ (a.toNat % 64 = 0 → b.toNat % 8 ≠ 0 → traps (.succ sa sb) .align b)
      ∧ (a.toNat % 64 = 0 → b.toNat % 8 = 0 → others = true → traps (.succ sa sb) .shape 1)
      ∧ (a.toNat % 64 = 0 → b.toNat % 8 = 0 → others = false → Completes (.succ sa sb) s (fun t =>
          t = { s with pops := t.pops, pmc := t.pmc, issuer := .none } ∧ ∃ q d w, t.cpOf r = some (q, d) ∧ q = { p with cps := q.cps }
            ∧ d.wait = some w ∧ w.kind = .succ2 ∧ d.succ = some (a, b) ∧ d.hdr = c.hdr ∧ d.widx = c.widx ∧ d.issuing = false
            ∧ d.s = c.s ∧ d.m = c.m)))
    ∧ (wordOk p.regs (.pstart sa sb) = true →
      (a.toNat % 8 ≠ 0 → traps (.pstart sa sb) .align a)
      ∧ (a.toNat % 8 = 0 → b.toNat % 16 ≠ 0 → traps (.pstart sa sb) .align b)
      ∧ (a.toNat % 8 = 0 → b.toNat % 16 = 0 →
        (524288 * p.banks < b.toNat + 16 → traps (.pstart sa sb) .window b)
        ∧ (b.toNat + 16 ≤ 524288 * p.banks →
          (p.stream.isSome = true → traps (.pstart sa sb) .shape 13)
          ∧ (p.stream = none → p.tiles = 0 → traps (.pstart sa sb) .shape 14)
          ∧ (p.stream = none → p.tiles ≠ 0 → c.pend = [] → (∀ x ∈ c.asyncs, transferring x = false) →
            Completes (.pstart sa sb) s (fun t =>
              t = { s with pops := t.pops, pmc := t.pmc, issuer := .none } ∧ ∃ x : Stream,
                CpGoes s t r p { p with stream := some x } c c.opened
                ∧ x.hdr = a ∧ x.widx = 0 ∧ x.clause = [] ∧ x.started = false ∧ (∀ k, x.reg k = 0) ∧ x.flags = 0 ∧ x.err = false
                ∧ x.poison = false ∧ x.code = 0 ∧ x.ops = [] ∧ x.stopped = false ∧ x.cw = b.toNat ∧ x.starter = r.cid
                ∧ x.rm = c.mode.extractLsb' 0 3 ∧ x.ftz = c.mode.getLsbD 3 ∧ x.daz = c.mode.getLsbD 4
                ∧ x.know = c.know.merge c.carried)))))

/-- SUCCESSOR_HANDOVER, once the population is idle: a record or descriptor that breaks R179 raises SHAPE with its code; else the
successor keeps the lane registers and dead lanes its record names, all else is 0, and its control programs start at its entry with
popix and their index in s15 and s16; the trap registers stand where a control program of the same index was (R32, R178 to R180, R182).
Where it goes beyond the rules it states the model's choice: log entries 36 and 69. -/
def Obligations.SuccessorHandover : Prop :=
  ∀ (s : State) (pid cid : Nat) (p : Pop) (c : Cp) (da xa : Word64) (s1 s2 : State) (ws x : List Word64), s.pop pid = some p →
    p.naming = some (cid, c, da, xa) → p.idle = true → p.aborted = false → p.preempting = false → c.halted = false →
    s.canRelease pid p = true → s.succWords { pid := pid, cid := cid } p da 8 = (s1, some (.ok ws)) →
    s1.succWords { pid := pid, cid := cid } p xa 9 = (s2, some (.ok x)) →
    let d := descOf ws
    let revive := (x.getD 0 0).getLsbD 0
    let kept := fun (reg : Nat) => ∃ w ∈ (x.drop 1).take 4,
      (w.extractLsb' 0 16).toNat ≤ reg ∧ reg < (w.extractLsb' 0 16).toNat + (w.extractLsb' 16 16).toNat
    (∀ n, s2.succShape pid p ws x = some n → p.cp cid = some c → Completes (.successorHandover pid) s (fun t =>
      ∃ q e, t.cpOf { pid := pid, cid := cid } = some (q, e) ∧ e.tpc = c.waitWord ∧ e.tcause = 0x0B ∧ e.taddr = BitVec.ofNat 64 n
        ∧ e.tlane = allOnes64 ∧ e.wait = none ∧ q.v = p.v ∧ t.cstore = s2.cstore ∧ t.hbm = s2.hbm))
    ∧ (s2.succShape pid p ws x = none → (∀ e ∈ p.cps, e.2.pend = []) → Completes (.successorHandover pid) s (fun t =>
        ∃ q, t.pop pid = some q ∧ q.lanes = p.lanes ∧ q.groups = p.groups ∧ q.regs = d.regs ∧ q.ncp = d.ncp ∧ q.banks = d.banks
          ∧ q.tiles = d.tiles ∧ q.asid = d.asid ∧ q.policy = d.policy ∧ q.handler = d.handler ∧ q.stream = none
          ∧ (∀ lane reg, reg < 2048 → (kept reg ∧ ¬(revive = true ∧ (p.statusOf lane).dead = true) → q.getV lane reg = p.getV lane reg)
              ∧ (¬(kept reg ∧ ¬(revive = true ∧ (p.statusOf lane).dead = true)) → q.getV lane reg = 0))
          ∧ (∀ j e, q.cp j = some e → e.hdr = d.entry ∧ e.clause = [] ∧ e.stack = [] ∧ e.pend = [] ∧ e.asyncs = [] ∧ e.wait = none
              ∧ e.flags = 0 ∧ e.entry = d.entry ∧ e.d0 = 0
              ∧ (∀ b, p.cp j = some b → e.tpc = b.tpc ∧ e.tcause = b.tcause ∧ e.taddr = b.taddr ∧ e.tlane = b.tlane)
              ∧ Tab.get 0 e.s 15 = BitVec.ofNat 64 p.popix ∧ Tab.get 0 e.s 16 = BitVec.ofNat 64 j ∧ e.getM 0 = q.live)
          ∧ t.hbm = s2.hbm))


/-! ### Streams and the press (R254 to R275) -/

/-- The register, format and loop words set what R266 and R267 say and go on at the next word or clause, PLOOP at its target while its
counter is not 0; PWAIT passes or stops the sequencer, PARRIVE waits for earlier operations, PEND stops the stream; a rennet word that is
misaligned, beyond the window or in a bank of another role is a stream error of code 4, 3 or 6 (R263, R266, R267, R272, R273). -/
def Obligations.StreamRegisterWords : Prop :=
  ∀ (s : State) (pid : Nat) (p : Pop) (x : Stream) (f : Fmt) (xa xb : XReg) (imm : BitVec 32), Streaming s pid p x →
    let past := fun (y : Stream) => if x.widx + 1 < x.clause.length then { y with widx := x.widx + 1 }
      else { y with hdr := x.hdr + 8 * BitVec.ofNat 64 (x.clause.length + 1), widx := 0, clause := [] }
    let sets := fun (v : Word32) (y : Stream) =>
      y = { x with x := y.x } ∧ ∀ k, Tab.get 0 y.x k = if k = xa.toNat then v else Tab.get 0 x.x k
    let v := x.reg xa - 1
    let off := (x.reg xa).toNat
    let at_ := 524288 * p.base + off
    let moved := (s.rennetField (16777216 * p.cluster + at_) 2 - x.reg xb).toNat
    let stops := fun (i : Instr) (code : Nat) => Completes i s (fun t =>
      t = { s with pops := t.pops, issuer := .none,
                   errRecords := s.errRecords ++ [{ vf := p.vf, popid := pid, addr := x.hdr + 8 + 8 * BitVec.ofNat 64 x.widx, code := code }] }
      ∧ (∀ k, k ≠ pid → t.pop k = s.pop k)
      ∧ t.pop pid = some { p with stream := some { x with
          err := true, code := if x.code = 0 then BitVec.ofNat 3 code else x.code, stopped := true, pwait := false, parrive := none,
          lockWait := false, held := none } })
    let word := fun (i : Instr) (fits : Prop) => wfInstr i = true →
      (off % 16 ≠ 0 → stops i 4)
      ∧ (off % 16 = 0 → 524288 * p.banks < off + 16 → stops i 3)
      ∧ (off % 16 = 0 → off + 16 ≤ 524288 * p.banks → s.roleOf p.cluster (p.base + off / 524288) ≠ .scratch → stops i 6)
      ∧ (off % 16 = 0 → off + 16 ≤ 524288 * p.banks → s.roleOf p.cluster (p.base + off / 524288) = .scratch → fits)
    (wfInstr (.pfmtA f) = true → StreamGoes (.pfmtA f) s pid p (past { x with fa := f }))
    ∧ (wfInstr (.pfmtB f) = true → StreamGoes (.pfmtB f) s pid p (past { x with fb := f }))
    ∧ (wfInstr (.psetx xa imm) = true → ∃ y, sets imm y ∧ StreamGoes (.psetx xa imm) s pid p (past y))
    ∧ (wfInstr (.paddx xa imm) = true → ∃ y, sets (x.reg xa + imm) y ∧ StreamGoes (.paddx xa imm) s pid p (past y))
    ∧ (wfInstr (.ploop xa imm) = true → ∃ y, sets v y ∧ StreamGoes (.ploop xa imm) s pid p
        (if v = 0 then past y else { y with hdr := x.hdr + 8 * imm.signExtend 64, widx := 0, clause := [] }))
    ∧ StreamGoes .pend s pid p { x with stopped := true }
    ∧ word (.pwait xa xb) (s.lineState (.store p.cluster at_) = LineState.clean →
        (1 ≤ moved ∧ moved < 2 ^ 31 → Completes (.pwait xa xb) s (fun t => ∃ k, t = { s with pops := t.pops, issuer := .none }
          ∧ (∀ n, n ≠ pid → t.pop n = s.pop n) ∧ t.pop pid = some { p with stream := some (past { x with know := k }) }
          ∧ (s.rels = [] → k = x.know)))
        ∧ (¬(1 ≤ moved ∧ moved < 2 ^ 31) → StreamGoes (.pwait xa xb) s pid p { x with pwait := true }))
    ∧ word (.parrive xa imm) (StreamGoes (.parrive xa imm) s pid p { x with parrive := some (off, imm) })

/-- A tile operation that names owned tiles and whose ranges pass their checks enters its range locks at once, after every other but those
of the same clk that come after them, never before those of its own stream; it captures its operands, and waits at the press for the locks
of others that stand before its own. Without room, or while an access of the window that was checked before is yet to perform, it waits in
the sequencer, where TILE_LOCK_ENTER tries it again; a gathered pass whose index vector is locked for writing waits there with its locks
held; a tile that is not owned is a stream error of code 5, a range that fails one of code 4, 3 or 6 (R259, R263, R265, R267, R269).
Where it goes beyond the rules it states the model's choice: log entry 41. -/
def Obligations.TileWords : Prop :=
  ∀ (s : State) (pid : Nat) (p : Pop) (x : Stream) (t : TReg) (xa xb xc : XReg) (kc : BitVec 8) (mask : BitVec 16) (ty : PstTy),
    HasStream s pid p x → (∀ l ∈ s.locks, l.owner < s.serial) →
    let past := fun (y : Stream) => if y.widx + 1 < y.clause.length then { y with widx := y.widx + 1 }
      else { y with hdr := y.hdr + 8 * BitVec.ofNat 64 (y.clause.length + 1), widx := 0, clause := [] }
    let operand := fun (f : Fmt) (b : XReg) =>
      ({ fmt := f, base := (x.reg b).toNat, rs := (x.reg f.xr).toNat, ps := (x.reg f.xp).toNat, sc := (x.reg f.xs).toNat } : Operand)
    let code := fun (g : Range) => if g.aligned = false then 4
      else if ∃ e ∈ g.runs, 524288 * p.banks < e.1 + e.2 then 3
      else if ∃ e ∈ g.runs, s.roleOf p.cluster (p.base + e.1 / 524288) ≠ .scratch
          ∨ s.roleOf p.cluster (p.base + (e.1 + e.2 - 1) / 524288) ≠ .scratch then 6
      else 0
    let room := fun (rs gs : List Range) => x.ops.length < 2
      ∧ (s.locks.filter (fun l => l.cluster == p.cluster)).length + ((rs ++ gs).filter (fun g => g.runs != [])).length ≤ 64
      ∧ p.windowBusy (rangeLocks p 0 s.clock gs) = false
    let same := fun (u : State) (y : Stream) => (∀ k, k ≠ pid → u.pop k = s.pop k) ∧ u.pop pid = some { p with stream := some y }
    let entered := fun (u : State) (o : TileOp) (kind : TileKind) (locks : Nat → List Lock) (goes : Stream → Stream) =>
      let n := o.serial
      let v := s.enterLocks x.owners (locks n)
      let other := fun (l : Lock) => ∀ q ∈ x.ops, q.serial ≠ l.owner
      s.serial ≤ n ∧ u = { v with pops := u.pops, serial := u.serial, issuer := .none } ∧ (∀ k, k ≠ pid → u.pop k = v.pop k)
      ∧ (∃ q y, v.pop pid = some q ∧ q.stream = some y ∧ y.x = x.x ∧ y.ops.map TileOp.kind = x.ops.map TileOp.kind
          ∧ u.pop pid = some { q with stream := some (goes { y with ops := y.ops ++ [o] }) })
      ∧ o.kind = kind ∧ o.granted = false ∧ o.parts = [] ∧ o.got = [] ∧ o.issued = s.clock
      ∧ o.mark = { hdr := x.hdr, widx := x.widx, clause := x.clause, x := x.x, fa := x.fa, fb := x.fb }
      ∧ ∃ pre post, v.locks = pre ++ locks n ++ post ∧ s.locks = pre ++ post
        ∧ (∀ l ∈ post, l.cluster = p.cluster → l.entered = s.clock ∧ other l)
        ∧ ((∃ l ∈ pre, ∃ m ∈ locks n, other l ∧ l.cluster = m.cluster ∧ l.first ≤ m.last ∧ m.first ≤ l.last) → o.waiting = true)
        ∧ (o.waiting = true → o.unread = true
            ∨ ∃ l ∈ pre, ∃ m ∈ locks n, other l ∧ l.cluster = m.cluster ∧ l.first ≤ m.last ∧ m.first ≤ l.last)
    let enters := fun (i : Instr) (kind : TileKind) (gs : List Range) => Completes i s (fun u => ∃ o,
      entered u o kind (fun n => rangeLocks p n s.clock gs) (fun y => past { y with lockWait := false }))
    let holds := fun (i : Instr) => Completes i s (fun u =>
      u = { s with pops := u.pops, serial := u.serial, issuer := .none } ∧ same u { x with lockWait := true })
    let stops := fun (i : Instr) (k : Nat) => Completes i s (fun u => ∃ y, same u y ∧ y.stopped = true ∧ y.err = true
      ∧ y.code = (if x.code = 0 then BitVec.ofNat 3 k else x.code) ∧ y.ops = x.ops ∧ y.x = x.x ∧ u.locks = s.locks
      ∧ u.errRecords = s.errRecords ++ [{ vf := p.vf, popid := pid, addr := x.hdr + 8 + 8 * BitVec.ofNat 64 x.widx, code := k }])
    let index := (x.reg xc).toNat
    let byte := fun (k : Nat) => (Tab.get 0 s.cstore (16777216 * p.cluster + 524288 * p.base + index + k)).toNat
    let rows := (List.range 128).map (fun r => byte (2 * r) + 256 * byte (2 * r + 1))
    let a := operand x.fa xa
    let b := operand x.fb xb
    let issue := fun (i : Instr) (kind : TileKind) (rs gs checks : List Range) (ready : Prop) =>
      let runs := fun (j : Instr) =>
        (tilesNamed kind &&& ~~~p.tiles = 0 → ready →
          ((∀ g ∈ checks, code g = 0) → room rs gs → enters j kind gs)
          ∧ (∀ g, checks.find? (fun g => code g != 0) = some g → stops j (code g)))
        ∧ (tilesNamed kind &&& ~~~p.tiles ≠ 0 → stops j 5)
      (wfInstr i = true → s.issuer = .stream pid → runs i
        ∧ (tilesNamed kind &&& ~~~p.tiles = 0 → ready → (∀ g ∈ checks, code g = 0) → ¬room rs gs → holds i))
      ∧ ((x.clause[x.widx]?).map decode = some (.ok i) → x.lockWait = true → x.unread = none → x.stopped = false →
          p.aborted = false → p.preempting = false → runs (.tileLockEnter pid))
    let dense := fun (i : Instr) (kind : TileKind) => issue i kind [] (tileRanges kind) (tileRanges kind) True
    let gather := TileKind.pmm t.toNat a b kc.toNat (some rows) false
    let named := rows.filter (fun r => r != 0xFFFF)
    let vector : Range := { runs := [(index, 256)], aligned := index % 2 = 0, write := false, engine := .ladle }
    let indexHeld := ∃ l ∈ s.locks, l.cluster = p.cluster ∧ l.write = true ∧ 524288 * p.base + index ≤ l.last
      ∧ l.first < 524288 * p.base + index + 256
    dense (.pmm t xa xb kc) (.pmm t.toNat a b kc.toNat none false)
    ∧ dense (.pzero mask) (.pzero mask)
    ∧ dense (.pld t xa) (.pld t.toNat (x.reg xa).toNat)
    ∧ dense (.pst ty t xa) (.pst ty t.toNat a)
    ∧ issue (.pmmg t xa xb xc kc) gather [vector]
        (planeRange a kc.toNat named .ladle :: scaleRange a kc.toNat named .ladle ++ tileRanges gather)
        (named.flatMap (fun r => planeRange a kc.toNat [r] .ladle :: scaleRange a kc.toNat [r] .ladle) ++ tileRanges gather)
        (code vector = 0 ∧ x.ops.length < 2 ∧ (∀ k, s.lineState (.store p.cluster k) = LineState.clean) ∧ ¬indexHeld
          ∧ p.windowBusy (rangeLocks p 0 s.clock [vector]) = false)
    ∧ (wfInstr (.pmmg t xa xb xc kc) = true → s.issuer = .stream pid → tilesNamed gather &&& ~~~p.tiles = 0 → code vector = 0 →
        x.ops.length < 2 → indexHeld →
        (s.locks.filter (fun l => l.cluster == p.cluster)).length + (vector :: tileRanges gather).length
          + (if a.fmt.sc then 2 else 1) ≤ 64 →
        let locks := fun (n : Nat) => rangeLocks p n s.clock [vector] ++ rowPlaces p n s.clock a ++ rangeLocks p n s.clock (tileRanges gather)
        p.windowBusy (locks 0) = false →
        Completes (.pmmg t xa xb xc kc) s (fun u => ∃ o, o.waiting = true
          ∧ entered u o (.gather t.toNat a b kc.toNat index) locks (fun y => { y with lockWait := true })))


/-- The events of a stream: STREAM_FETCH brings a checked clause in, is held on a page that is not present, or stops with code 1, or 2
where the stream had started and the word at its place is no header;
STREAM_FETCH_RESUME, PWAIT_PASS, PARRIVE_PERFORM and ENGINE_LOCK_PROCEED let it go on, and STREAM_COMPLETION makes the arrival of R261 and frees the reservation entry (R258, R259, R261 to R263, R266, R272).
Where it goes beyond the rules it states the model's choice: log entries 42 and 43. -/
def Obligations.StreamEvents : Prop :=
  ∀ (s : State) (pid : Nat) (p : Pop) (x : Stream), HasStream s pid p x → p.aborted = false →
    let past := fun (y : Stream) => if x.widx + 1 < x.clause.length then { y with widx := x.widx + 1 }
      else { y with hdr := x.hdr + 8 * BitVec.ofNat 64 (x.clause.length + 1), widx := 0, clause := [] }
    let place := fun (off : Nat) => 16777216 * p.cluster + (524288 * p.base + off)
    let is := fun (t : State) (y : Stream) => (∀ k, k ≠ pid → t.pop k = s.pop k) ∧ t.pop pid = some { p with stream := some y }
    let error := fun (t : State) (addr : Word64) (k : Nat) => ∃ q y, t.pop pid = some q ∧ q.stream = some y
      ∧ y = { x with err := true, code := if x.code = 0 then BitVec.ofNat 3 k else x.code, stopped := true, pwait := false,
                     parrive := none, lockWait := false, held := none }
      ∧ t.errRecords = s.errRecords ++ [{ vf := p.vf, popid := pid, addr := addr, code := k }]
    let waiting := fun (t : State) => ∀ r q d, s.cpOf r = some (q, d) →
      ∃ q' d', t.cpOf r = some (q', d') ∧ d' = { d with waitDue := d'.waitDue } ∧ q'.v = q.v
    (p.preempting = false → x.stopped = false → x.pwait = false → x.parrive = none → x.lockWait = false → x.held = none →
      x.clause = [] → ∀ s1 y, s.fetchClause pid p x.hdr = (s1, y) →
        (∀ h ws, y = .ok (h, ws) →
          (streamClauseOk h ws = true → Completes (.streamFetch pid) s (fun t => t = { s1 with pops := t.pops }
            ∧ ∃ q, t.pop pid = some { p with code := q, stream := some { x with clause := ws, started := true } }))
          ∧ (streamClauseOk h ws = false → Completes (.streamFetch pid) s (fun t => error t x.hdr 1)))
        ∧ (∀ f, y = .error f →
          (f.cause = some .notPresent → Completes (.streamFetch pid) s (fun t => t = { s1 with pops := t.pops }
            ∧ ∃ q, t.pop pid = some { p with code := q, stream := some { x with held := some f.addr } }))
          ∧ (∀ k, f.cause = some k → k ≠ .notPresent → Completes (.streamFetch pid) s (fun t => error t f.addr 1))
          ∧ (f.cause = none → Completes (.streamFetch pid) s (fun t =>
              error t f.addr (if x.started = true ∧ x.hdr.toNat % 8 = 0 ∧ x.hdr.toNat < 2 ^ 56 then 2 else 1)))))
    ∧ (∀ a, x.held = some a →
        Completes (.streamFetchResume pid true) s (fun t =>
          t = { s with pops := t.pops, hbm := t.hbm, l2 := t.l2, tick := t.tick, olds := t.olds, hvWords := t.hvWords, vers := t.vers,
                       serial := t.serial }
          ∧ is t { x with held := none })
        ∧ Completes (.streamFetchResume pid false) s (fun t => error t a 1))
    ∧ (∀ xa xb, x.pwait = true → x.stopped = false → p.preempting = false →
        (x.clause[x.widx]?).map decode = some (.ok (.pwait xa xb)) →
        let moved := (s.rennetField (place (x.reg xa).toNat) 2 - x.reg xb).toNat
        1 ≤ moved → moved < 2 ^ 31 → s.lineState (.store p.cluster (524288 * p.base + (x.reg xa).toNat)) = LineState.clean →
        Completes (.pwaitPass pid) s (fun t => t = { s with pops := t.pops } ∧ ∃ k, is t { past { x with know := k } with pwait := false }
          ∧ (s.rels = [] → k = x.know)))
    ∧ (∀ off n, x.parrive = some (off, n) → x.ops = [] → p.preempting = false → s.sys.recovery = false →
        s.sound (.store p.cluster (524288 * p.base + off)) 16 →
        Completes (.parrivePerform pid) s (fun t => t = { s with pops := t.pops, cstore := t.cstore, rels := t.rels }
          ∧ Arrived s t (place off) n 0 ∧ waiting t
          ∧ ∃ q, t.pop pid = some q ∧ q = { p with cps := q.cps, stream := some { past x with parrive := none } }))
    ∧ (∀ o, x.ops.find? (fun o => o.waiting && !o.unread && !s.blocked x.owners o.serial) = some o →
        Completes (.engineLockProceed (.tile pid)) s (fun t => t = { s with pops := t.pops }
          ∧ is t { x with ops := x.ops.map (fun q => if q.serial = o.serial then { q with waiting := false } else q) }))
    ∧ (x.stopped = true → x.ops = [] → s.sys.recovery = false → s.sound (.store p.cluster (524288 * p.base + x.cw)) 16 →
        Completes (.streamCompletion pid) s (fun t => t = { s with pops := t.pops, cstore := t.cstore, rels := t.rels }
          ∧ Arrived s t (place x.cw) 1
              (BitVec.ofNat 32 (65536 * x.code.toNat + 256 * x.flags.toNat + (if x.poison then 2 else 0) + (if x.err then 1 else 0)))
          ∧ waiting t ∧ ∃ q, t.pop pid = some q ∧ q.stream = none
          ∧ q.flagsDue = p.flagsDue ++ (if ∃ c, p.cp x.starter = some c ∧ c.ended = false then
              [{ starter := x.starter, cw := x.cw, flags := x.flags }] else [])))

/-- PRESS_GRANT starts the one operation that is ready. When it completes, PZERO has cleared its tiles, PLD filled a tile with the
window's 64-bit words, PST written every element converted to its place, and a pass added to every element the products of its row's and
column's blocks in ascending K; other tiles and bytes are the same, its locks are released and its flags reach the stream (R100 to R105,
R259, R264, R268 to R271).
The sum a block contributes is that of its elements' products, each element a weighted sum of its bits in the planes read, plus a half
where its operand is centred: four times it is Σ (2u + c)(2w + d) (R100, R105).
A block's step in ACC mode adds the exact product of its partial sum and its scales, rounded to a multiple of 2^−8, and saturates; in
F32 mode it rounds the exact sum once. PST reads an ACC pattern as a multiple of 1/256 and rounds it to its integer, clamped, or to its
floating type; an F32 pattern is copied, converted, or rounded to its integer (R91, R97, R102, R103, R105, R271).
Where it goes beyond the rules it states the model's choice: log entries 42, 54 and 60. -/
def Obligations.PressGrant : Prop :=
  ((∀ (s : State) (cl pid : Nat) (p : Pop) (x : Stream) (o : TileOp), HasStream s pid p x → s.pressReady cl = [(pid, p, x, o)] →
      s.pressBusy cl = false →
      Completes (.pressGrant cl) s (fun u => u = { s with pops := u.pops, pmc := u.pmc } ∧ (∀ k, k ≠ pid → u.pop k = s.pop k)
        ∧ ∃ g, g.serial = o.serial ∧ g.kind = o.kind ∧ g.granted = true ∧ g = s.grantTile p x o
          ∧ u.pop pid = some { p with stream := some { x with
              granted := s.clock, ops := x.ops.map (fun q => if q.serial = o.serial then g else q) } }))
    ∧ ∀ (s : State) (pid : Nat) (p : Pop) (x : Stream) (o : TileOp) (l : List TileOp), HasStream s pid p x →
      x.ops = s.grantTile p x o :: l → (∀ q ∈ l, q.serial ≠ o.serial) → o.parts = [] → o.got = [] → o.poison = false →
      Tab.rises 0 s.tiles = true → (∀ y, s.lineState (.store p.cluster y) = LineState.clean) →
      let win := 16777216 * p.cluster + 524288 * p.base
      let byte := fun (off : Nat) => (Tab.get 0 s.cstore (win + off) : Byte)
      let nat := fun (off n : Nat) => natOfBytes ((List.range n).map (fun j => byte (off + j)))
      let old := fun (t k : Nat) => (Tab.get 0 s.tiles (262144 * p.cluster + 16384 * t + k) : Word64)
      let grants := fun (fl : Flags → Prop) (post : State → Prop) => Completes (.tileOpComplete ⟨pid, none⟩) s (fun u => post u
        ∧ u.locks = s.locks.filter (fun k => k.owner != o.serial)
        ∧ (∀ k, k ≠ pid → u.pop k = s.pop k) ∧ ∃ f, fl f ∧ u.pop pid = some { p with stream := some { x with
            ops := l, flags := x.flags ||| f } })
      let frame := fun (u : State) => u = { s with pops := u.pops, locks := u.locks, tiles := u.tiles, tilePoison := u.tilePoison }
      let tileIs := fun (u : State) (t : Nat) (f : Nat → Word64) => ∀ k, Tab.get 0 u.tiles k =
        if 262144 * p.cluster + 16384 * t ≤ k ∧ k < 262144 * p.cluster + 16384 * t + 16384 then f (k - (262144 * p.cluster + 16384 * t))
        else Tab.get 0 s.tiles k
      let raised := fun (l : List (Nat × Flags)) (f : Flags) => ∀ b, f.getLsbD b = true ↔ ∃ e ∈ l, e.2.getLsbD b = true
      (∀ m, o.kind = .pzero m → grants (fun f => f = 0) (fun u => frame u
        ∧ (∀ k, Tab.get 0 u.tiles k =
            if k / 262144 = p.cluster ∧ m.getLsbD (k / 16384 % 16) = true then 0 else Tab.get 0 s.tiles k)
        ∧ ∀ t, t < 16 → m.getLsbD t = true → u.tileBad p.cluster t = false))
      ∧ (∀ t base, o.kind = .pld t base → grants (fun f => f = 0) (fun u => frame u
          ∧ tileIs u t (fun k => BitVec.ofNat 64 (nat (base + 8 * k) 8)) ∧ u.tileBad p.cluster t = false))
      ∧ (∀ ty t a, o.kind = .pst ty t a → s.tileBad p.cluster t = false → a.base % 128 = 0 →
          let e := fun (k : Nat) => pstElem a.fmt (streamEnv a.fmt x.rm x.ftz x.daz) ty (old t k).toNat
          let n := match ty with
            | .f32 | .s32 => 4
            | .f16 | .b16 | .s16 => 2
            | .s8 | .nb8 => 1
          let same := fun (u : State) => u = { s with pops := u.pops, locks := u.locks, cstore := u.cstore, cline := u.cline, rels := u.rels }
          let row := fun (j r : Nat) => (a.base + j * a.ps + r * a.rs) % 2 ^ 32
          (ty ≠ .nb8 → grants (raised ((List.range 16384).map e)) (fun u => same u ∧ ∀ y, Tab.get 0 u.cstore y =
            if win + a.base ≤ y ∧ y < win + a.base + 16384 * n then
              BitVec.ofNat 8 ((e ((y - (win + a.base)) / n)).1 / 256 ^ ((y - (win + a.base)) % n))
            else Tab.get 0 s.cstore y))
          ∧ (ty = .nb8 → a.rs % 16 = 0 → a.ps % 16 = 0 →
              (∀ j j' r r', j < 8 → j' < 8 → r < 128 → r' < 128 → row j r = row j' r' → j = j' ∧ r = r') →
              grants (raised ((List.range 16384).map e)) (fun u => same u
                ∧ (∀ j r n, j < 8 → r < 128 → n < 128 →
                    (Tab.get 0 u.cstore (win + row j r + n / 8)).getLsbD (n % 8) = (e (128 * r + n)).1.testBit (7 - j))
                ∧ ∀ y, (∀ j r, j < 8 → r < 128 → y < win + row j r ∨ win + row j r + 16 ≤ y) → Tab.get 0 u.cstore y = Tab.get 0 s.cstore y)))
      ∧ (∀ t a b kc rows, o.kind = .pmm t a b kc rows false → kc < 256 → (∀ l, rows = some l → l.length = 128) →
          let l := min (blkCount a.fmt.len) (blkCount b.fmt.len)
          let daz := a.fmt.f32 && x.daz
          let blocks := fun (q : Operand) (r : Nat) => blocksOf q.fmt
            ((List.range (q.fmt.n1.toNat + 1)).map (fun j => nat ((q.base + j * q.ps + r * q.rs) % 2 ^ 32) (32 * kc)))
            ((List.range (256 * kc / l)).map (fun n =>
              if q.fmt.sc then unpack fpB16 daz
                (nat ((q.sc + 2 * r * (256 * kc / blkCount q.fmt.len)) % 2 ^ 32 + 2 * (n * l / blkCount q.fmt.len)) 2)
              else .fin false 1 0)) l
          let row := fun (r : Nat) => match rows with
            | none => some r
            | some v => if v.getD r 0 = 0xFFFF then none else some (v.getD r 0)
          let e := fun (r n : Nat) => match row r with
            | some k => elemSteps a.fmt b.fmt (streamEnv a.fmt x.rm x.ftz x.daz) l (old t (128 * r + n)).toNat (blocks a k) (blocks b n)
            | none => ((old t (128 * r + n)).toNat, 0)
          grants (raised ((List.range 16384).map (fun k => e (k / 128) (k % 128)))) (fun u => frame u ∧ u.tilePoison = s.tilePoison
            ∧ tileIs u t (fun k => BitVec.ofNat 64 (e (k / 128) (k % 128)).1))))
  ∧ (∀ (fa fb : Fmt) (l : Nat) (pa pb : List Nat) (sa sb : List FVal) (n : Nat) (a b : Block),
      (blocksOf fa pa sa l)[n]? = some a → (blocksOf fb pb sb l)[n]? = some b →
      let elem := fun (f : Fmt) (planes : List Nat) (k : Nat) =>
        ((planes.zipIdx.take (f.n1.toNat + 1)).map (fun e =>
          let w : Int := if e.1.testBit (l * n + k) then 2 ^ (f.n1.toNat - e.2) else 0
          if e.2 = 0 ∧ f.sg then -w else w)).sum
      partial4 fa fb l a b =
        ((List.range l).map (fun k => (2 * elem fa pa k + (if fa.ce then 1 else 0)) * (2 * elem fb pb k + (if fb.ce then 1 else 0)))).sum)
  ∧ ((∀ (d : Dir) (x : Nat) (p4 : Int) (na nb : Bool) (ma mb : Nat) (ea eb : Int),
      let r := accStep d x p4 (.fin na ma ea) (.fin nb mb eb)
      let exact := p4 * (if na then -(ma : Int) else ma) * (if nb then -(mb : Int) else mb) * 2 ^ (ea + eb + 6).toNat
      let unit := 2 ^ (-(ea + eb + 6)).toNat
      ∃ k : Int, Rounds d exact unit k
        ∧ (let sum := clamp (-(2 ^ 63)) (2 ^ 63 - 1) (senseOf true 64 x + k)
          r = (patOf 64 sum.1, sum.2 ||| (if k * unit = exact then 0 else 16))))
    ∧ (∀ (d : Dir) (x : Nat) (p4 : Int) (sa sb : FVal), ¬(isFinite sa = true ∧ isFinite sb = true) → accStep d x p4 sa sb = (x, 1))
    ∧ (∀ (env : FpEnv) (x : Nat) (p4 : Int) (na nb nc : Bool) (ma mb mc : Nat) (ea eb ec : Int),
      unpack fpF32 env.daz (x % 2 ^ 32) = .fin na ma ea →
      let r := f32Step env x p4 (.fin nb mb eb) (.fin nc mc ec)
      let e := min ea (eb + ec - 2)
      let exact := (if na then -(ma : Int) else ma) * 2 ^ (ea - e).toNat
        + p4 * (if nb then -(mb : Int) else mb) * (if nc then -(mc : Int) else mc) * 2 ^ (eb + ec - 2 - e).toNat
      (exact ≠ 0 → r = roundPack fpF32 env (decide (exact < 0)) exact.natAbs e false)
      ∧ (exact = 0 → r.1 % 2 ^ 31 = 0 ∧ r.2 = 0))
    ∧ (∀ (env : FpEnv) (x : Nat) (p4 : Int) (sa sb : FVal), isNan (unpack fpF32 env.daz (x % 2 ^ 32)) = false →
      (isNan sa = true ∨ isNan sb = true → f32Step env x p4 sa sb = (genNan fpF32 3, 1))
      ∧ (isNan sa = false → isNan sb = false → mulVals sa sb = none → f32Step env x p4 sa sb = (genNan fpF32 2, 1))
      ∧ (f32Step env x p4 sa sb).1 < 2 ^ 32)
    ∧ ∀ (f : Fmt) (env : FpEnv) (x : Nat),
      let v := senseOf true 64 x
      let ints : List (PstTy × Bool × Nat) := [(.s8, true, 8), (.s16, true, 16), (.s32, true, 32), (.nb8, f.sg, 8)]
      (f.f32 = false → ∀ ty sg w, (ty, sg, w) ∈ ints → ∃ k : Int, Rounds env.dir v 256 k
        ∧ (let y := clamp (loBound sg w) (hiBound sg w) k
          pstElem f env ty x = (patOf w y.1, y.2 ||| (if k * 256 = v then 0 else 16))))
      ∧ (f.f32 = false → ∀ ty g, (ty, g) ∈ [(PstTy.f32, fpF32), (.f16, fpF16), (.b16, fpB16)] →
          pstElem f env ty x = if v = 0 then (0, 0) else roundPack g env (decide (v < 0)) v.natAbs (-8) false)
      ∧ (f.f32 = true → pstElem f env .f32 x = (x % 2 ^ 32, 0) ∧ pstElem f env .f16 x = fConv fpF32 fpF16 env (x % 2 ^ 32)
          ∧ pstElem f env .b16 x = fConv fpF32 fpB16 env (x % 2 ^ 32))
      ∧ (f.f32 = true → ∀ ty sg w, (ty, sg, w) ∈ ints → ∀ n m e, unpack fpF32 env.daz (x % 2 ^ 32) = .fin n m e →
          let exact := (if n then -(m : Int) else m) * 2 ^ e.toNat
          let unit := 2 ^ (-e).toNat
          ∃ k : Int, Rounds env.dir exact unit k ∧ pstElem f env ty x =
            if k < loBound sg w then (patOf w (loBound sg w), 1) else if hiBound sg w < k then (patOf w (hiBound sg w), 1)
            else (patOf w k, if k * unit = exact then 0 else 16)))

/-! ### The distributor (R293 to R298) -/

/-- DISTRIBUTOR_TAKEUP pops an entry of the cave that comes next and advances the visit of its function; a task whose descriptor is
misaligned, unreadable or invalid, or whose asid has no valid entry, is refused with BADDESC, one that could never fit with NOFIT, with one
arrival of npop and one notify where asked; else its populations are placed in ascending index until one does not fit now, each with the
entry's arguments, its index and the CP's index in s0 to s16, m0 full, and a zeroed window; a refused task's arrival goes where asid 0 maps
a14 (R15, R294, R295, R297, R298).
Where it goes beyond the rules it states the model's choice: log entries 6, 32, 33 and 35. -/
def Obligations.DistributorTakesUp : Prop :=
  ∀ (s s1 : State) (vf k : Nat) (e : CaveEntry), s.memWf → s.sys.recovery = false → s.nextVf = some vf → s.nextCave vf = some k →
    s.cavePop k (s.forcesDet vf) = some (s1, e) → e.words.length = 18 → Tab.find s.tasks s1.serial = none →
    let w := fun (i : Nat) => (e.words.getD i 0 : Word64)
    let npop := ((w 2).extractLsb' 0 16).toNat
    let slot := 4 * vf + (s.cave k).prio
    let served := fun (t : State) => t.lastVf = vf
      ∧ t.taken = (if t.canServe vf = false then 63 else if vf = s.lastVf ∧ s.taken < s.vfWeight vf then s.taken + 1 else 1)
      ∧ (∀ j, Tab.get 63 t.lastCave j = if j = slot then k else Tab.get 63 s.lastCave j)
      ∧ t.caves = s1.caves ∧ ∀ j, j ≠ s1.serial → Tab.find t.tasks j = Tab.find s.tasks j
    let gone := fun (t : State) (bits : Word32) => served t ∧ Tab.find t.tasks s1.serial = none ∧ (∀ j, Tab.find t.pending j = Tab.find s.pending j)
      ∧ t.outbox = s.outbox ++ (if (w 2).getLsbD 22 = true ∧ (w 2).extractLsb' 32 16 ≠ 0 then
          [.notify vf ((w 2).extractLsb' 32 16).toNat ((w 0).extractLsb' 0 32) e.seq bits 0] else [])
    let refuses := fun (s2 : State) (bits : Word32) =>
      ((w 2).getLsbD 21 = false → Completes .distributorTakeup s (fun t => gone t bits
        ∧ (∀ pid q, s.pop pid = some q → ∃ q', t.pop pid = some q' ∧ q' = { q with cps := q'.cps }) ∧ ∀ x, t.cell x = s1.cell x))
      ∧ (∀ pa c, (w 2).getLsbD 21 = true → (w 17).toNat % 16 = 0 → (s2.translate [] vf 0 (w 17) .both).2 = .ok (.hbm pa c) →
          s2.sound (.hbm pa c) 16 →
          Completes .distributorTakeup s (fun t => gone t bits ∧ ArrivedAt s1.physByte t.physByte pa (BitVec.ofNat 32 npop) bits
            ∧ t.cstore = s.cstore))
    ((w 1).toNat % 64 ≠ 0 → refuses s1 0x04000000)
    ∧ ((w 1).toNat % 64 = 0 → ∀ s2 x, s1.loadWords [] vf 0 (w 1) 8 = (s2, x) →
      (∀ f, x = .error f → f.2 ≠ .majority → refuses s2 0x04000000)
      ∧ (∀ ws, x = .ok ws →
        let d := descOf ws
        let ok := descOk ws && s2.asidValid vf d.asid
        let created := fun (t : State) (j : Nat) => ∃ pid q, s.pop pid = none ∧ t.pop pid = some q ∧ q.vf = vf ∧ q.task = s1.serial
          ∧ q.cave = k ∧ q.seq = e.seq ∧ q.popix = j ∧ q.npop = npop ∧ q.key = (w 0).extractLsb' 0 32
          ∧ q.lanes = d.lanes ∧ q.regs = d.regs ∧ q.ncp = d.ncp ∧ q.banks = d.banks ∧ q.tiles = d.tiles ∧ q.prio = d.prio
          ∧ q.asid = d.asid ∧ q.policy = d.policy ∧ q.handler = d.handler ∧ q.v = [] ∧ q.status = [] ∧ q.stream = none
          ∧ (∀ y, y < 524288 * q.banks → Tab.get 0 t.cstore (16777216 * q.cluster + 524288 * q.base + y) = 0)
          ∧ ∀ n c, q.cp n = some c → c.hdr = d.entry ∧ c.clause = [] ∧ c.stack = [] ∧ c.flags = 0 ∧ c.wait = none
            ∧ c.getM 0 = BitVec.ofNat 16384 (2 ^ d.lanes - 1) ∧ (∀ i, i < 15 → Tab.get 0 c.s i = w (3 + i))
            ∧ Tab.get 0 c.s 15 = BitVec.ofNat 64 j ∧ Tab.get 0 c.s 16 = BitVec.ofNat 64 n
            ∧ c.mode = (if s.forcesDet vf then d.mode ||| 0x20 else d.mode)
        let takes := fun (t : State) (n : Nat) => served t ∧ t.outbox = s.outbox
          ∧ (∃ u, Tab.find t.tasks s1.serial = some u ∧ u.words = e.words ∧ u.desc = ws ∧ u.vf = vf ∧ u.cave = k ∧ u.seq = e.seq
            ∧ u.next = n ∧ u.run = n ∧ u.left = npop ∧ u.status = 0)
          ∧ (Tab.find t.pending vf = if n < npop then some s1.serial else none)
          ∧ (∀ pid q, s.pop pid = some q → t.pop pid = some q) ∧ ∀ j, j < n → created t j
        (ok = false → refuses s2 0x04000000)
        ∧ (ok = true → (w 2).getLsbD 20 = false → s2.vacant.placeDesc vf d = none → refuses s2 0x02000000)
        ∧ (ok = true → s.pops.length + s.images.length + npop < 16383 →
            ((w 2).getLsbD 20 = false → s2.vacant.placeDesc vf d ≠ none → Completes .distributorTakeup s (fun t => ∃ n, n ≤ npop ∧ takes t n
              ∧ (n < npop → t.placeDesc vf d = none)))
            ∧ ((w 2).getLsbD 20 = true → (w 2).getLsbD 21 = false →
                Completes .distributorTakeup s (fun t => gone t 0x02000000 ∨ takes t 0 ∨ takes t npop)))))

/-- PENDING_PLACE places more of a pending task, POPULATION_RETIRE frees an ended or aborted population and
reports it, with an arrival of 1 and its ABORTED and DEAD bits where the task asks for one, PREEMPT stops one at its next
boundaries, and PREEMPT_IMAGE writes a drained one's sections to the save area and frees it (R34, R175, R295,
R298, R316, R318).
Where it goes beyond the rules it states the model's choice: log entries 8, 43 and 57. -/
def Obligations.PopulationEvents : Prop :=
  ∀ (s : State) (pid vf id : Nat) (p : Pop) (u : Task), s.memWf →
    let npop := ((u.words.getD 2 0).extractLsb' 0 16).toNat
    let cores := (u.words.getD 2 0).getLsbD 20
    let others := fun (t : State) => ∀ k, k ≠ pid → t.pop k = s.pop k
    (Tab.find s.pending vf = some id → Tab.find s.tasks id = some u → u.vf = vf →
      (s.sys.recovery = false → cores = false → u.next < npop → s.pops.length + s.images.length + npop < 16383 →
        s.placeDesc vf (descOf u.desc) ≠ none → Completes (.pendingPlace vf) s (fun t => ∃ n, 0 < n ∧ u.next + n ≤ npop
          ∧ Tab.find t.tasks id = some { u with next := u.next + n, run := u.run + n }
          ∧ (Tab.find t.pending vf = if u.next + n < npop then some id else none) ∧ t.pops.length = s.pops.length + n
          ∧ (∀ k q, s.pop k = some q → t.pop k = some q) ∧ t.outbox = s.outbox ∧ t.hbm = s.hbm))
      ∧ (cores = true → ∀ t, exec (.pendingPlace vf) s = .next t → ∃ v, Tab.find t.tasks id = some v ∧ npop ≤ v.next))
    ∧ (s.pop pid = some p → (∀ e ∈ p.cps, (p.aborted = true ∨ e.2.ended = true) ∧ e.2.asyncs = [] ∧ e.2.pend = [] ∧ e.2.issuing = false) →
      p.stream = none → Tab.find s.tasks p.task = some u → (∀ w ∈ s.majWrites, w.serial < s.serial) →
      let bits := (if p.aborted then 0x01000000 else 0) ||| (if p.deadCount = 0 then 0 else 0x08000000)
      let status := u.status ||| bits
      let retires := fun (others : State → Prop) (memory : State → Prop) => Completes (.populationRetire pid) s (fun t =>
        t.pop pid = none ∧ others t ∧ memory t
        ∧ (∀ y, y < 16777216 * p.cluster + 524288 * p.base ∨ 16777216 * p.cluster + 524288 * (p.base + p.banks) ≤ y →
            Tab.get 0 t.cstore y = Tab.get 0 s.cstore y)
        ∧ (∀ i, i < 16 → p.tiles.getLsbD i = true → ∀ j, j < 16384 → Tab.get 0 t.tiles (262144 * p.cluster + 16384 * i + j) = 0)
        ∧ (p.aborted = false → t.frags = s.frags) ∧ t.errCounts = { s.errCounts with
            poisoned := s.errCounts.poisoned + p.errors.toNat, faults := s.errCounts.faults + p.faults.toNat }
        ∧ (1 < u.left → Tab.find t.tasks p.task = some { u with status := status, left := u.left - 1 } ∧ t.outbox = s.outbox)
        ∧ (u.left ≤ 1 → Tab.find t.tasks p.task = none ∧ t.outbox = s.outbox ++
            (if (u.words.getD 2 0).getLsbD 22 = true ∧ (u.words.getD 2 0).extractLsb' 32 16 ≠ 0 then
              [.notify u.vf ((u.words.getD 2 0).extractLsb' 32 16).toNat ((u.words.getD 0 0).extractLsb' 0 32) u.seq status u.run]
            else [])))
      let a14 := u.words.getD 17 0
      ((u.words.getD 2 0).getLsbD 21 = false → retires others (fun t => ∀ x, t.cell (true, x) = s.cell (true, x)))
      ∧ (∀ pa c, (u.words.getD 2 0).getLsbD 21 = true → a14.toNat % 16 = 0 → (s.translate [] u.vf 0 a14 .both).2 = .ok (.hbm pa c) →
          s.sound (.hbm pa c) 16 →
          retires (fun t => ∀ k q, k ≠ pid → s.pop k = some q → ∃ q', t.pop k = some q' ∧ q' = { q with cps := q'.cps })
            (fun t => ArrivedAt s.physByte t.physByte pa 1 bits)))
    ∧ (s.pop pid = some p → p.aborted = false → p.preempting = false → ((s.savePlace p.vf (imageBound p)).isSome = true ∨ s.checkpointNext p.vf = true) →
      Completes (.preempt pid) s (fun t => t = { s with pops := t.pops } ∧ others t ∧ t.pop pid = some { p with preempting := true }))
    ∧ (s.pop pid = some p → p.aborted = false → p.preempting = true → p.drained = true → (∀ e ∈ p.cps, e.2.pend = []) →
      Tab.rises 0 p.cps = true →
      let q := { p with stream := p.stream.map (fun x => x.rolledBack) }
      ∀ addr, s.savePlace p.vf (s.mapOf q).len = some addr → addr % 128 = 0 →
      let bs := s.imageHead pid q ++ s.imageTail pid q
      Completes (.preemptImage pid) s (fun t => t.pop pid = none ∧ others t ∧ t.physBytes addr bs.length = bs
        ∧ (∀ x, x < addr ∨ addr + bs.length ≤ x → t.physByte x = s.physByte x)
        ∧ ∃ m, t.images = s.images ++ [m] ∧ m.vf = p.vf ∧ m.popid = pid ∧ m.addr = addr ∧ m.len = (s.mapOf q).len))

/-- RESTORE places a population from its image where it fits: lane registers, window, tiles, and for each control program scalars, sets,
set-stack levels, place in the program, region, wait and registers of a trap, at the offsets of the image's sections, DET set where the
function forces it; a CHECKPOINT writes the sections of every population of a function under the next generation, sealed by a CRC,
and CHECKPOINT_RESTORE takes only a sealed one of the generation named (R37, R111, R318 to R320, R336).
Where it goes beyond the rules it states the model's choice: log entries 8, 9, 44 and 70. -/
def Obligations.RestoreAndCheckpoint : Prop :=
  ∀ (s : State) (vf pid : Nat) (m : Image) (at_ : Nat × List Nat × Nat) (a : Auth) (dst : Nat) (gen : Word64), s.memWf →
    let bs := s.physBytes m.addr m.len
    let h := imageHeadOf bs
    let g := imageMapOf h bs
    (s.images.find? (fun x => x.vf == vf && x.popid == pid) = some m → h.vf = vf → h.popid = pid → s.pop pid = none → h.desc.regs ≤ 2048 →
      s.readable m.addr g h.banks = true →
      s.restorePlaces h ((m.record.cps.filter (fun e => !e.2.ended)).length) (imageIndices bs g.status h.desc.lanes).length = [at_] →
      Completes (.restore vf pid) s (fun t => ∃ q, t.pop pid = some q ∧ q.cluster = at_.1 ∧ q.groups = at_.2.1 ∧ q.base = at_.2.2
        ∧ q.vf = vf ∧ q.lanes = h.desc.lanes ∧ q.regs = h.desc.regs ∧ q.banks = h.banks ∧ q.tiles = h.tiles
        ∧ q.popix = ((wordAt bs 8).extractLsb' 24 16).toNat ∧ q.seq = (wordAt bs 16).extractLsb' 0 32
        ∧ q.faults = (wordAt bs 64).extractLsb' 0 32 ∧ q.errors = (wordAt bs 64).extractLsb' 32 32
        ∧ (Tab.rises 0 s.cstore = true → ∀ y, y < 524288 * q.banks →
            Tab.get 0 t.cstore (16777216 * q.cluster + 524288 * q.base + y) = bs.getD (g.win + y) 0)
        ∧ (Tab.rises 0 s.tiles = true → ∀ k i, (tileList h.tiles)[k]? = some i → ∀ j, j < 16384 →
            Tab.get 0 t.tiles (262144 * q.cluster + 16384 * i + j) = wordAt bs (g.tiles + 131072 * k + 8 * j))
        ∧ t.images = s.images.filter (fun x => !(x.vf == vf && x.popid == pid)) ∧ (∀ k, k ≠ pid → t.pop k = s.pop k)
        ∧ (∀ lane reg, lane < q.lanes → reg < q.regs →
            q.getV lane reg = BitVec.ofNat 32 (natOfBytes ((bs.drop (g.regs + 4 * (lane * q.regs + reg))).take 4)))
        ∧ ((∀ cid c0, m.record.cp cid = some c0 → c0.ended = false →
              let w0 := wordAt bs (128 + cid * cpBlock h.desc.lanes + 1616)
              w0.getLsbD 63 = false ∨ w0.extractLsb' 56 7 ≠ 0) →
          ∀ cid c0, m.record.cp cid = some c0 → c0.ended = false → ∃ c, q.cp cid = some c ∧
            let o := 128 + cid * cpBlock q.lanes
            let b := 8 * ((q.lanes + 63) / 64)
            let depths := wordAt bs (o + 1576)
            c.hdr = wordAt bs (o + 1552) ∧ c.widx = ((wordAt bs (o + 1560)).extractLsb' 0 4).toNat
            ∧ c.halted = (wordAt bs (o + 1560)).getLsbD 8 ∧ c.entry = wordAt bs (o + 1568) ∧ c.d0 = (depths.extractLsb' 0 6).toNat
            ∧ c.mode = (if s.forcesDet vf then wordAt bs (o + 1536) ||| 0x20 else wordAt bs (o + 1536))
            ∧ c.flags = (wordAt bs (o + 1544)).extractLsb' 0 6 ∧ c.tpc = wordAt bs (o + 1584) ∧ c.tcause = wordAt bs (o + 1592)
            ∧ c.taddr = wordAt bs (o + 1600) ∧ c.tlane = wordAt bs (o + 1608)
            ∧ c.wait = waitOfWords (wordAt bs (o + 1616)) (wordAt bs (o + 1624))
            ∧ c.depth = (depths.extractLsb' 8 6).toNat
            ∧ (∀ k x, c.stack[k]? = some x → x = BitVec.ofNat 16384 (natOfBytes ((bs.drop (o + 3200 + (16 + k) * b)).take b)))
            ∧ (∀ k, k < 192 → Tab.get 0 c.s k = wordAt bs (o + 8 * k))
            ∧ (∀ k, k < 16 → Tab.get 0 c.m k = BitVec.ofNat 16384 (natOfBytes ((bs.drop (o + 3200 + k * b)).take b))))))
    ∧ (Accepted s a → (∀ e ∈ s.popsOf vf, e.2.preempting = true ∧ e.2.aborted = false ∧ e.2.drained = true ∧ ∀ x ∈ e.2.cps, x.2.pend = []) →
      Tab.rises 0 s.pops = true → (∀ e ∈ s.pops, Tab.rises 0 e.2.cps = true) →
      let next := Tab.get 0 s.ckptGen vf + 1
      let out := s.checkpointBytes vf next
      (dst % 128 = 0 → dst + out.length ≤ 576 * 2 ^ 30 → Completes (.checkpoint a vf dst) s (fun t =>
        t.physBytes dst out.length = out ∧ (∀ x, x < dst ∨ dst + out.length ≤ x → t.physByte x = s.physByte x)
        ∧ (∀ k, Tab.get 0 t.ckptGen k = if k = vf then next else Tab.get 0 s.ckptGen k)
        ∧ (∀ k, t.pop k = (s.pop k).map (fun p => if p.vf = vf then { p with preempting := false } else p))
        ∧ t.outbox = s.outbox ++ [.mgmt 0x86 (authTag a) .ok []] ∧ t.mgmtSeq = a.seq ∧ t.cstore = s.cstore))
      ∧ (¬(dst % 128 = 0 ∧ dst + out.length ≤ 576 * 2 ^ 30) → Completes (.checkpoint a vf dst) s (fun t =>
        t.outbox = s.outbox ++ [.mgmt 0x86 (authTag a) .badMsg []] ∧ t.mgmtSeq = a.seq ∧ t.ckptGen = s.ckptGen ∧ (∀ x, t.cell x = s.cell x)
        ∧ ∀ k, t.pop k = (s.pop k).map (fun p => if p.vf = vf then { p with preempting := false } else p))))
    ∧ (Accepted s a → s.popsOf vf = [] →
      let head := s.physBytes dst 64
      let images := imagesFrom (s.physBytes dst (wordAt head 16).toNat) ((wordAt head 8).extractLsb' 16 16).toNat 64
      ((s.sealed vf dst gen = false ∨ wordAt head 0 ≠ gen) →
        Completes (.checkpointRestore a vf dst gen) s (fun t => t = s.answered a .badMsg []))
      ∧ (∀ s1, s.sealed vf dst gen = true → (∀ b ∈ images, (imageHeadOf b).vf = vf) →
          State.installAll gen images { s with mgmtSeq := a.seq } = some s1 →
          Completes (.checkpointRestore a vf dst gen) s (fun t => t = s1.mgmtReply (authTag a) .ok []
            ∧ ∀ b ∈ images, ∃ q, t.pop (imageHeadOf b).popid = some q ∧ q.vf = vf)))

/-- Firmware makes the pages of a PENDING fragment present and writes READY, which it writes only once every page is, or writes DEAD; every
other entry is the same (R303).
Where it goes beyond the rules it states the model's choice: log entries 7 and 11. -/
def Obligations.FragmentEvents : Prop :=
  ∀ (s : State) (f : FragRef) (r : CpRef) (p : Pop) (c : Cp), (s.fragAt f).state = .pending →
    let x := s.fragAt f
    let page : Word64 := (x.page ++ 0#16).zeroExtend 64
    let only := fun (t : State) (st : FragState) => t.fragAt f = { x with state := st }
      ∧ (f.ovf = true → t.frags = s.frags ∧ ∀ k, k ≠ 64 * f.core + f.idx → Tab.find t.ovfs k = Tab.find s.ovfs k)
      ∧ (f.ovf = false → t.ovfs = s.ovfs ∧ ∀ k, k ≠ 256 * f.core + f.idx → Tab.find t.frags k = Tab.find s.frags k)
    (s.fragOwner f.core x.ctx = some (r, p, c) →
      (x.more = false → s.fragPages f x r p c = some [page])
      ∧ ∀ pages, s.fragPages f x r p c = some pages →
        let repaired := pages.foldl (fun s a => s.makePresent p.vf p.asid a) s
        ((∀ a ∈ pages, repaired.present p.vf p.asid a = true) → Completes (.fragmentReady f) s (fun t => only t .ready
          ∧ t = { s with frags := t.frags, ovfs := t.ovfs, hbm := t.hbm, l2 := t.l2, tick := t.tick, olds := t.olds, hvWords := t.hvWords,
                         vers := t.vers, serial := t.serial }
          ∧ ∀ a ∈ pages, t.present p.vf p.asid a = true))
        ∧ ((∃ a ∈ pages, repaired.present p.vf p.asid a = false) → ∀ t, exec (.fragmentReady f) s ≠ .next t))
    ∧ Completes (.fragmentDead f) s (fun t => t = { s with frags := t.frags, ovfs := t.ovfs } ∧ only t .dead)

/-! ### The debugger (R321, R322) -/

/-- DEBUG_ATTACH, HALT, READ, WRITE, STEP, RESUME and DETACH, accepted, change the control program they name and nothing else, and
answer OK; a written set keeps the bits of lanes not launched 0 and the levels nested (R184, R185, R321, R322).
Where it goes beyond the rules it states the model's choice: log entries 12, 45 and 71. -/
def Obligations.DebuggerWords : Prop :=
  ∀ (s : State) (a : Auth) (cp : CpRef) (p : Pop) (c : Cp), Accepted s a → s.cpOf cp = some (p, c) → c.ended = false →
    let sets := fun (i : Instr) (q : Pop) (d : Cp) => Completes i s (fun t => t = ({ s with pops := t.pops } : State).answered a .ok []
      ∧ (∀ k, k ≠ cp.pid → t.pop k = s.pop k) ∧ ∃ q', t.cpOf cp = some (q', d) ∧ q' = { q with cps := q'.cps }
      ∧ ∀ k, k ≠ cp.cid → q'.cp k = p.cp k)
    let reads := fun (i : DebugItem) (bs : List Byte) => Completes (.debugRead a cp i) s (fun t => t = s.answered a .ok bs)
    sets (.debugAttach a cp) p { c with attached := true }
    ∧ sets (.debugHalt a p.vf cp) p (if c.issuing then { c with haltDue := true } else { c with halted := true })
    ∧ (c.halted = true →
      (∀ r : SReg, r.toNat < 192 → reads (.scalar r) (bytesOf 8 (c.getS r))
        ∧ ∀ v, sets (.debugWrite a cp (.scalar r v)) p (c.setS r v))
      ∧ (∀ r : MReg, reads (.set r) (bytesOf (8 * ((p.lanes + 63) / 64)) (c.getM r))
        ∧ ∀ v, sets (.debugWrite a cp (.set r v)) p (c.writeM r (v &&& BitVec.ofNat 16384 (2 ^ p.lanes - 1))))
      ∧ (∀ n, n < 32 → reads (.level n) (bytesOf (8 * ((p.lanes + 63) / 64)) (c.stack.getD n 0)))
      ∧ (∀ n v, n < c.depth → ∃ d, sets (.debugWrite a cp (.level n v)) p d ∧ d.nested ∧ d = { c with stack := d.stack, m := d.m }
        ∧ d.depth = c.depth ∧ (∀ k, k ≠ 0 → d.getM k = c.getM k)
        ∧ (∀ (k : Nat) (x : LaneSet) (l : Nat), d.stack[k]? = some x → (x.getLsbD l = true ↔
            l < p.lanes ∧ ∀ (j : Nat) (y : LaneSet), j ≤ k → (c.stack.set n v)[j]? = some y → y.getLsbD l = true))
        ∧ ∀ top, d.stack.getLast? = some top → d.getM 0 = c.getM 0 &&& top)
      ∧ reads .pc (bytesOf 8 c.hdr ++ bytesOf 8 (BitVec.ofNat 64 (512 * c.save.isSome.toNat + 256 + c.widx)))
      ∧ reads .region (bytesOf 8 c.entry ++ bytesOf 8 (BitVec.ofNat 64 (256 * c.depth + c.d0)))
      ∧ (∀ (i : Nat) (r : VReg), i < p.lanes → r.toNat < p.regs → reads (.lane i r) (bytesOf 4 (p.getV i r.toNat))
        ∧ (p.quiet = true → ∀ v, Completes (.debugWrite a cp (.lanes [(i, r, v)])) s (fun t =>
            t = ({ s with pops := t.pops } : State).answered a .ok [] ∧ (∀ k, k ≠ cp.pid → t.pop k = s.pop k)
            ∧ ∃ q, t.pop cp.pid = some q ∧ q = { p with v := q.v }
            ∧ ∀ l k, k < 2048 → q.getV l k = if l = i ∧ k = r.toNat then v else p.getV l k)))
      ∧ (∀ hdr, sets (.debugWrite a cp (.pc hdr)) p { c.atHdr s.clock hdr with succ := none })
      ∧ (c.held = none →
        sets (.debugStep a cp) p { c with halted := false, haltDue := false, stepping := true, readySince := s.clock, promoted := false }
        ∧ sets (.debugResume a cp) p { c with halted := false, haltDue := false, stepping := false, readySince := s.clock, promoted := false }))
    ∧ ((∀ r q d, s.cpOf r = some (q, d) → d.held = none) → Tab.rises 0 s.pops = true → (∀ e ∈ s.pops, Tab.rises 0 e.2.cps = true) →
      Completes (.debugDetach a) s (fun t => t = ({ s with pops := t.pops } : State).answered a .ok []
        ∧ ∀ r q d, s.cpOf r = some (q, d) → ∃ q' e, t.cpOf r = some (q', e) ∧ q' = { q with cps := q'.cps }
          ∧ e = { d with attached := false, haltDue := false, stepping := false, halted := false,
                         readySince := if d.halted then s.clock else d.readySince, promoted := if d.halted then false else d.promoted }))


/-! ### Majority cells (R240 to R251) and L2 ways (R214) -/

/-- Copies accept a write of a majority line, which completes with the q-th; a write-back repairs a copy that is older and is counted;
copies silent for 65,536 clk are reported, and given up once all are; failover and rejoin move a set's home to the lowest copy that has not
failed and its epoch on; the scrubber leaves a write-back due for a laggard and counts a failure of a lost set; a way the mask no longer
allows is drained and no byte changes (R214, R245, R246, R249 to R251).
A load of a majority line takes the newest data of q copies, or that of the write on its way, and leaves a write-back due for each
older copy; where fewer than q copies answer it fails with MAJORITY, is counted, and the line is poisoned; a store sends the line it makes
under the next tag of its home slice and is not accepted before that write completes (R241, R243, R245 to R248, R251).
Where it goes beyond the rules it states the model's choice: log entries 18, 19, 20 and 66. -/
def Obligations.MajorityEvents : Prop :=
  (∀ (s : State) (n : Nat) (accept : BitVec 5) (w : MajWrite) (b : MajBack) (q : MajAsk) (a : Auth) (k j stack line slice vf : Nat),
      let e := s.majEntry k
      let copy := fun (t : State) (l : Nat) (tag : Word64) (data : List Byte) (poison : Bool) => Tab.get 0 t.majTag l = tag
        ∧ (∀ i, i < 128 → t.physByte (128 * l + i) = data.getD i 0)
        ∧ Tab.get LineState.clean t.hline l = { poison := poison, bad := 0 }
      let others := fun (t : State) (ls : List Nat) => ∀ y, (∀ l ∈ ls, y / 128 ≠ l) → t.physByte y = s.physByte y
      let older := fun (l : Nat) (tag : Word64) => (Tab.get LineState.clean s.hline l).bad ≠ 0 ∨ (Tab.get 0 s.majTag l).toNat < tag.toNat
      let moved := fun (old new : Word64) (failed : Nat → Bool) => (∀ i, i < majCopies old → majFailed new i = failed i)
        ∧ majCopies new = majCopies old ∧ majValid new = majValid old ∧ (∀ i, i < 5 → majStack new i = majStack old i)
        ∧ majHome new = ((List.range (majCopies old)).filter (fun i => !failed i)).headD 0 ∧ majEpoch new = majEpoch old + 1
        ∧ majLost new = (majLost old || decide (((List.range (majCopies old)).filter (fun i => !failed i)).length < majQ old))
      (s.majWrite n = some w → w.data.length = 128 →
        let x := s.majEntry w.set
        let js := (majLive x).filter (fun i => accept.getLsbD i && !w.accepted.getLsbD i)
        let at_ := fun (i : Nat) => 12 * w.line + majStack x i
        (js ≠ [] → majLost x = false → (js.map (majStack x)).Nodup → (∀ i ∈ js, older (at_ i) w.tag) →
          (∀ v ∈ s.majWrites, v.set = w.set → v.line = w.line → v.complete = false → w.serial ≤ v.serial) →
          let took := fun (t : State) => (∀ i ∈ js, copy t (at_ i) w.tag w.data w.poison) ∧ others t (js.map at_)
            ∧ t = { s with pops := t.pops, hbm := t.hbm, l2 := t.l2, hline := t.hline, majTag := t.majTag, majOwn := t.majOwn,
                           majWrites := t.majWrites, olds := t.olds, hvWords := t.hvWords, vers := t.vers, serial := t.serial }
          (w.complete = false → majQ x ≤ ((List.range 5).filter (fun i => w.accepted.getLsbD i || js.contains i)).length →
            Completes (.majWriteComplete n accept) s (fun t => took t
              ∧ ∃ v, t.majWrite n = some v ∧ v = { w with accepted := v.accepted, complete := true, since := s.clock }
              ∧ ∀ i, i < 5 → v.accepted.getLsbD i = (w.accepted.getLsbD i || js.contains i)))
          ∧ (w.complete = true ∨ ((List.range 5).filter (fun i => w.accepted.getLsbD i || js.contains i)).length < majQ x →
            Completes (.majWriteComplete n accept) s (fun t => took t
              ∧ ∃ v, t.majWrite n = some v ∧ v = { w with accepted := v.accepted }
              ∧ ∀ i, i < 5 → v.accepted.getLsbD i = (w.accepted.getLsbD i || js.contains i))))
        ∧ (j < majCopies x → majFailed x j = false → w.accepted.getLsbD j = false → w.reported.getLsbD j = false →
            65536 ≤ (s.clock - w.sent).toNat → Completes (.copyLateReport n j) s (fun t => t = { s with majWrites := t.majWrites }
              ∧ t.majWrite n = some { w with reported := w.reported ||| BitVec.ofNat 5 (2 ^ j) }))
        ∧ (w.complete = true → (∀ i ∈ majLive x, w.accepted.getLsbD i = true ∨ w.reported.getLsbD i = true) →
            65536 ≤ (s.clock - w.since).toNat → Completes (.laggardTimeout n) s (fun t =>
            t = { s with majWrites := s.majWrites.filter (fun v => v.serial != n) })))
      ∧ (s.majBacks.find? (fun x => x.serial == n) = some b → b.data.length = 128 →
        let l := 12 * b.line + majStack (s.majEntry b.set) b.copy
        let rest := s.majBacks.filter (fun x => x.serial != n)
        (majFailed (s.majEntry b.set) b.copy = false → older l b.tag → Completes (.majWriteback n) s (fun t =>
          t.majBacks = rest ∧ copy t l b.tag b.data b.poison ∧ others t [l]
          ∧ ∀ i, Tab.get 0 t.majRepairs i = Tab.get 0 s.majRepairs i + (if i = b.set then 1 else 0)))
        ∧ (majFailed (s.majEntry b.set) b.copy = true ∨ ¬older l b.tag → Completes (.majWriteback n) s (fun t => t = { s with majBacks := rest })))
      ∧ (s.majWrite n = none → s.majAsks.find? (fun x => x.serial == n) = some q → q.copy = j → j ∈ majLive (s.majEntry q.set) →
          q.reported = false → 65536 ≤ (s.clock - q.since).toNat → Completes (.copyLateReport n j) s (fun t =>
            t = { s with majAsks := s.majAsks.map (fun x => if x.serial = n then { x with reported := true } else x) }))
      ∧ (s.majWrites = [] → (∀ i, i < 16 → majValid (s.majEntry i) = true → majEpoch (s.majEntry i) < 254) →
        (stack < 12 → (s.stackFailed.getLsbD stack = false ∨ ∃ i < 16, majValid (s.majEntry i) = true
            ∧ ∃ c ∈ majLive (s.majEntry i), majStack (s.majEntry i) c = stack) → Completes (.stackFailover stack) s (fun t =>
          t = { s with pops := t.pops, majSet := t.majSet, majBacks := t.majBacks, majAsks := t.majAsks, majFails := t.majFails,
                       stackFailed := s.stackFailed ||| BitVec.ofNat 12 (2 ^ stack) }
          ∧ (∀ i, Tab.get 0 t.majFails i = Tab.get 0 s.majFails i)
          ∧ ∀ i, i < 16 →
            let old := s.majEntry i
            let mine := (majLive old).find? (fun c => majStack old c == stack)
            (∀ c, majValid old = true → mine = some c → moved old (t.majEntry i) (fun q => majFailed old q || q == c))
            ∧ (majValid old = false ∨ mine = none → t.majEntry i = old)))
        ∧ (Accepted s a → k < 16 → majValid e = true → j < majCopies e → majFailed e j = true → Completes (.stackRejoin a k j) s (fun t =>
            moved e (t.majEntry k) (fun q => majFailed e q && q != j) ∧ (∀ i, i ≠ k → t.majEntry i = s.majEntry i)
            ∧ t.stackFailed = s.stackFailed &&& ~~~(BitVec.ofNat 12 (2 ^ majStack e j))
            ∧ t.outbox = s.outbox ++ [.mgmt 0x86 (authTag a) .ok []] ∧ t.mgmtSeq = a.seq ∧ ∀ x, t.cell x = s.cell x)))
      ∧ (k < 16 → majValid e = true → line ∈ s.majLines k → s.scrubRateOf (majStack e (majHome e)) ≠ 0 →
        (majLost e = true → Completes (.scrubRead k line) s (fun t => t = { s with majFails := t.majFails }
          ∧ ∀ i, Tab.get 0 t.majFails i = Tab.get 0 s.majFails i + (if i = k then 1 else 0)))
        ∧ (majLost e = false → s.majFlight k line = none → ∀ v : Word64 × List Byte × Bool,
          ((∀ i ∈ majLive e, s.copyView (12 * line + majStack e i) = some v) → majQ e ≤ (majLive e).length →
            Completes (.scrubRead k line) s (fun t => t = s))
          ∧ (∀ i ∈ majLive e, older (12 * line + majStack e i) v.1 → (∀ c ∈ majLive e, c ≠ i → s.copyView (12 * line + majStack e c) = some v) →
            majQ e < (majLive e).length → Completes (.scrubRead k line) s (fun t =>
              let b : MajBack := { serial := s.serial, set := k, line := line, copy := i, tag := v.1, data := v.2.1, poison := v.2.2 }
              t = { s with serial := s.serial + 1, majBacks := s.majBacks ++ [b] }))))
      ∧ (s.memWf → ∀ l ∈ s.l2, sliceOf l.1 = slice → l.2.vf = vf → (Tab.get 0xFFFF#16 s.wayMask (16 * slice + vf)).getLsbD l.2.way = false →
        Completes (.wayMaskDrain slice vf) s (fun t => t = { s with hbm := t.hbm, l2 := t.l2 } ∧ Tab.find t.l2 l.1 = none
          ∧ ∀ x, t.physByte x = s.physByte x)))
  ∧ (∀ (s : State) (op : OpRef) (p : Pop) (c : Cp) (a : Access) (it : Item) (k off : Nat), Pending s op p c a → a.items = [it] →
      it.loc = .maj k off → it.done = false → it.lanes = [] → it.size ≤ 8 → off % 128 + it.size ≤ 128 → a.performed = false →
      a.complete = false → a.fault = none → a.majWait = [] → s.mayPerform p c a = true → p.quiet = true → p.aborted = false →
      majLost (s.majEntry k) = false →
      (a.syncs = true → s.unrefused { pid := op.pid, cid := op.cid } p a.scope [it.loc]) →
      let r : CpRef := { pid := op.pid, cid := op.cid }
      let e := s.majEntry k
      let line := off / 128
      let view := fun (j : Nat) => s.copyView (12 * line + majStack e j)
      let agreed := fun (v : Word64 × List Byte × Bool) => majQ e ≤ ((majLive e).filter (fun j => view j == some v)).length
        ∧ ∀ j ∈ majLive e, ∀ u, view j = some u → u = v ∨ u.1.toNat < v.1.toNat
      let slice := 8 * majStack e (majHome e) + line % 8
      let version := Tab.get 0 s.version slice + 1
      let loads := fun (sd : SReg) (data : List Byte) (more : State → Prop) => a.op = .lds sd → a.ticket = true →
        Completes (.loadComplete ⟨op, none⟩) s (fun t => (∃ q d, t.cpOf r = some (q, d)
            ∧ d.s = (c.setS sd (BitVec.ofNat 64 (natOfBytes ((data.drop (off % 128)).take it.size)))).s)
          ∧ (∀ x, t.cell x = s.cell x) ∧ t.majWrites = s.majWrites ∧ more t)
      (∀ sd v, s.majFlight k line = none → agreed v → v.2.2 = false → loads sd v.2.1 (fun t =>
        ∀ j ∈ majLive e, view j ≠ some v → ∃ b ∈ t.majBacks, b.set = k ∧ b.line = line ∧ b.copy = j ∧ b.tag = v.1 ∧ b.data = v.2.1))
      ∧ (∀ sd w, s.majFlight k line = some w → w.poison = false → loads sd w.data (fun t => t.majBacks = s.majBacks))
      ∧ (∀ sd, a.op = .lds sd → a.ticket = true → s.majFlight k line = none → version < 2 ^ 48 →
          ((majLive e).filter (fun j => (view j).isSome)).length < majQ e → Completes (.loadComplete ⟨op, none⟩) s (fun t =>
            (∃ q d, t.cpOf r = some (q, d) ∧ d.s = c.s ∧ ∃ b ∈ d.pend, b.serial = op.serial ∧ b.fault = some .majority)
            ∧ (∃ w, t.majWrites = s.majWrites ++ [w] ∧ w.set = k ∧ w.line = line ∧ w.poison = true ∧ w.complete = false)
            ∧ Tab.get 0 t.majFails k = Tab.get 0 s.majFails k + 1 ∧ ∀ x, t.cell x = s.cell x))
      ∧ (∀ v, a.op = .sts → it.bits = BitVec.allOnes 128 → s.majFlight k line = none → agreed v → v.2.2 = false → version < 2 ^ 48 →
          Completes (.storePerform ⟨op, none⟩) s (fun t => (∃ w, t.majWrites = s.majWrites ++ [w] ∧ w.set = k ∧ w.line = line ∧ w.poison = false
              ∧ w.data = v.2.1.take (off % 128) ++ bytesOf it.size it.data ++ v.2.1.drop (off % 128 + it.size)
              ∧ w.tag = BitVec.ofNat 64 (2 ^ 56 * majEpoch e + 2 ^ 8 * version + slice) ∧ w.accepted = 0 ∧ w.complete = false)
            ∧ (∀ x, t.cell x = s.cell x)
            ∧ ∃ q d, t.cpOf r = some (q, d) ∧ ∃ b ∈ d.pend, b.serial = op.serial ∧ b.performed = true ∧ b.complete = false)))

/-! ### Messages of hosts and peers (R293, R360 to R368) -/

/-- A MGMT message is dropped in stage 0, on a port that is not of the management endpoint, or without security; it is refused with BADMSG
where RUDI carries it or its header is bad, and with BADSIG unless both signatures verify and its sequence number exceeds that of the last
accepted one, each with no effect; else it takes its sequence number (R360, R361, R364, R371, R372).
A message is dropped in stage 0, on a port its endpoint does not have and without a security it requires, answered STAGE in recovery
mode unless it is a QUERY, BADMSG where RUDI may not carry it, and DENIED and counted, with no effect, where its sender has no valid entry
or not the right; an answer bears the type and tag of its request; a bad MGMT message on the management endpoint is answered BADMSG there,
and a NOTIFY, a SUSPECT or an answer is not answered (R360, R361, R363, R364, R368, R371, R372, R377).
Where it goes beyond the rules it states the model's choice: log entries 52 and 53. -/
def Obligations.AdmissionOfMessages : Prop :=
  (∀ (s t : State) (i : Instr) (a : Auth), authOf i = some a → exec i s = .next t →
      let heard := a.secured = true ∧ (s.endpoint 16).ports.getLsbD a.port.toNat = true
      (s.sys.stage = 0 ∨ ¬heard → t = s)
      ∧ (s.sys.stage ≠ 0 → heard → authFormed a = false → t = { s with outbox := s.outbox ++ [.mgmt 0x86 (authTag a) .badMsg []] })
      ∧ (s.sys.stage ≠ 0 → heard → authFormed a = true → ¬(a.sigOk = true ∧ s.mgmtSeq.toNat < a.seq.toNat) →
          t = { s with outbox := s.outbox ++ [.mgmt 0x86 (authTag a) .badSig []] })
      ∧ (Accepted s a → t.mgmtSeq = a.seq))
  ∧ (∀ (s : State) (i : Instr) (m : Msg), msgOf i = some m → s.portHeld m = false → s.stuck s = false →
      let type : BitVec 8 := match i with
        | .hostLaunch _ _ _ => 0x81
        | .memw _ _ _ _ => 0x82
        | .memr _ _ _ _ => 0x83
        | .hostArrive _ _ _ _ => 0x84
        | .query _ => 0x85
        | .badMsg m _ => if m.type = 0 then 0 else m.type ||| 0x80
        | _ => 0
      let answer := fun (st : Status) => [Out.response m.vf m.sender type m.tag st []]
      let heard := (s.endpoint m.vf).ports.getLsbD m.port.toNat = true
        ∧ (m.secured = true ∨ (m.vf ≠ 16 ∧ (s.endpoint m.vf).secure = false))
      let u := s.readPeers m
      let denied := Completes i s (fun t => t = { u with errCounts := { u.errCounts with denied := s.errCounts.denied + 1 },
                                                         outbox := s.outbox ++ answer .denied })
      let query := i = .query m
      let silent := ∃ b, i = .badMsg m b ∧ answered m.type = false
      let bad := ∃ b, i = .badMsg m b ∧ m.type = 6 ∧ m.vf = 16
      (s.sys.stage = 0 ∨ ¬heard ∨ silent → Completes i s (fun t => t = s))
      ∧ (s.sys.stage ≠ 0 → heard → bad → Completes i s (fun t => t = { s with outbox := s.outbox ++ [.mgmt 0x86 m.tag .badMsg []] }))
      ∧ (s.sys.stage ≠ 0 → heard → ¬silent → ¬bad →
        (s.sys.recovery = true → ¬query → Completes i s (fun t => t = { s with outbox := s.outbox ++ answer .stage }))
        ∧ (s.sys.recovery = false ∨ query →
          (m.delivery = .rudi → rudiOk i = false → Completes i s (fun t => t = { s with outbox := s.outbox ++ answer .badMsg }))
          ∧ (m.delivery ≠ .rudi ∨ rudiOk i = true →
            (u.senderEntry m = none → m.vf < 16 → denied)
            ∧ (∀ src rights b, u.senderEntry m = some (src, rights) → rightOf i = some b → rights.getLsbD b = false → denied)))))

/-- What an admitted message does: LAUNCH pushes at depth 0 with the sender's index; MEMW, MEMR and RMA move bytes at the addresses their
asid maps; ARRIVE and the atomics act at the word and answer the old generation or value; QUERY answers the capabilities and the status; a
bad message performs nothing, MGMT on a function's endpoint is DENIED; a held message goes on within 2^30 clk or fails; a LAUNCH without room
is held where the management processor links segments (R283, R293, R360, R364 to R367, R375, R377).
Where it goes beyond the rules it states the model's choice: log entries 12 and 53. -/
def Obligations.HostMessages : Prop :=
  ∀ (s : State) (m : Msg) (src cave len n vf : Nat) (entry : List Word64) (asid : BitVec 12) (target v v2 : Word64) (body : List Byte)
    (inc : Word32) (op : AOp) (wd : Width) (pa : Nat) (c : BitVec 2) (h : HostHold), s.memWf → s.stuck s = false →
    let may := fun (right : Option Nat) (idem : Bool) => Admitted s m right src ∧ (idem = false → m.delivery ≠ .rudi)
    let place := fun (asid : BitVec 12) (need : Need) (k : Nat) => (s.translate [] m.vf asid (target + BitVec.ofNat 64 k) need).2
    let answer := fun (type : BitVec 8) => if type = 0 then 0 else type ||| 0x80
    let only := fun (i : Instr) (type : BitVec 8) (st : Status) (bs : List Byte) =>
      Completes i s (fun t => t = { s with outbox := s.outbox ++ [.response m.vf m.sender (answer type) m.tag st bs] })
    let writes := fun (i : Instr) (type : BitVec 8) (asid : BitVec 12) =>
      (target.toNat % 128 + body.length ≤ 128 → body ≠ [] → place asid .write 0 = .ok (.hbm pa c) → s.sound (.hbm pa c) body.length →
        Completes i s (fun t =>
          t = { s with hbm := t.hbm, l2 := t.l2, hline := t.hline, rels := t.rels, olds := t.olds, hvWords := t.hvWords, vers := t.vers,
                       hostKnows := t.hostKnows, serial := t.serial, tick := t.tick, outbox := t.outbox }
          ∧ s.replies m (answer type) .ok [] t
          ∧ ∀ x, t.physByte x = if pa ≤ x ∧ x < pa + body.length then body.getD (x - pa) 0 else s.physByte x))
      ∧ (body = [] → only i type .ok [])
      ∧ (target.toNat % 128 + body.length ≤ 128 → body ≠ [] → place asid .write 0 = .error .permission → only i type .fault [])
      ∧ (target.toNat % 128 + body.length ≤ 128 → body ≠ [] → place asid .write 0 = .error .notPresent → Completes i s (fun t =>
          ∃ x, t = { s with serial := s.serial + 1, holds := s.holds ++ [x] } ∧ x.msg = { m with type := type } ∧ x.addr = target ∧ x.body = body
            ∧ x.write = true ∧ x.serial = s.serial ∧ x.since = s.clock))
    let reads := fun (i : Instr) (type : BitVec 8) (asid : BitVec 12) =>
      (∀ at_ : Nat → Nat, (∀ k, k < len → ∃ c, place asid .read k = .ok (.hbm (at_ k) c) ∧ s.lineState (.hbm (at_ k) c) = LineState.clean) →
        only i type .ok ((List.range len).map (fun k => s.physByte (at_ k))))
      ∧ (0 < len → place asid .read 0 = .error .permission → only i type .fault [])
    (may (some 0) false →
      (¬(cave < 64 ∧ entry.length = 18) → only (.hostLaunch m cave entry) 1 .badMsg [])
      ∧ (cave < 64 → entry.length = 18 →
        let x := s.cave cave
        let ok := x.enable = true ∧ x.vf = m.vf ∧ x.set = false
        (¬ok → only (.hostLaunch m cave entry) 1 .badCave [])
        ∧ (ok → badHostEntry entry = true → only (.hostLaunch m cave entry) 1 .badMsg [])
        ∧ (ok → badHostEntry entry = false → (x.room 0).isSome = true → Completes (.hostLaunch m cave entry) s (fun t =>
            t = { s with caves := t.caves, taken := t.taken, serial := t.serial, tick := t.tick, hbm := t.hbm, l2 := t.l2, olds := t.olds,
                         hvWords := t.hvWords, vers := t.vers, outbox := t.outbox }
            ∧ s.replies m 0x81 .ok [] t ∧ (∀ j, j ≠ cave → t.cave j = s.cave j) ∧ (t.cave cave).seq = x.seq + 1
            ∧ ∃ e : CaveEntry, e ∈ (t.cave cave).entries ∧ (t.cave cave).entries.length = x.entries.length + 1
              ∧ e.key = (entry.getD 0 0).extractLsb' 0 32 ∧ e.seq = x.seq
              ∧ (e.words.getD 2 0).extractLsb' 16 4 = 0 ∧ ((e.words.getD 2 0).extractLsb' 32 16).toNat = src % 65536))
        ∧ (ok → badHostEntry entry = false → x.room 0 = none → x.npool = 0 →
            (s.mpServes = false → only (.hostLaunch m cave entry) 1 .caveFull [])
            ∧ (s.mpServes = true → Completes (.hostLaunch m cave entry) s (fun t => t = { s with
                launches := s.launches ++ [{ msg := { m with type := 1 }, cave := cave, entry := entry, src := src }] })))))
    ∧ (may (some 1) false → (body.length ≤ 1048576 → writes (.memw m asid target body) 2 asid)
        ∧ (1048576 < body.length → only (.memw m asid target body) 2 .badMsg []) ∧ writes (.rmaWrite m target body) 0 0)
    ∧ (may (some 2) true → (1 ≤ len → len ≤ 1048576 → reads (.memr m asid target len) 3 asid)
        ∧ (len = 0 ∨ 1048576 < len → only (.memr m asid target len) 3 .badMsg []) ∧ reads (.rmaRead m target len) 0 0)
    ∧ (may (some 3) false →
        (target.toNat % 16 ≠ 0 → only (.hostArrive m asid target inc) 4 .badMsg [])
        ∧ (target.toNat % 16 = 0 → place asid .both 0 = .ok (.hbm pa c) → s.sound (.hbm pa c) 16 →
            Completes (.hostArrive m asid target inc) s (fun t => ArrivedAt s.physByte t.physByte pa inc 0 ∧ t.cstore = s.cstore
              ∧ s.replies m 0x84 .ok (bytesOf 8 ((rennetOf s.physByte pa 2).zeroExtend 64)) t)))
    ∧ (may (some 4) true → Completes (.query m) s (fun t =>
        t = { s with tick := s.tick + 1, outbox := s.outbox ++
          [.response m.vf m.sender 0x85 m.tag .ok (capChain 0 (s.capability m.vf) ++ s.statusBytes)] }))
    ∧ (may (some 5) false →
        let ok := (wd = .b32 ∨ wd = .b64) ∧ op ≠ .fadd ∧ op ≠ .fmin ∧ op ≠ .fmax ∧ target.toNat % wd.size = 0
        (¬ok → only (.uetAtomic m op wd target v v2) 0 .badMsg [])
        ∧ (ok → place 0 .atomic 0 = .ok (.hbm pa c) → s.sound (.hbm pa c) wd.size →
            let old := natOfBytes (s.physBytes pa wd.size)
            let w := 8 * wd.size
            let new := (atomicNew op w (envOfMode 0) old (v.toNat % 2 ^ w) (v2.toNat % 2 ^ w)).1
            Completes (.uetAtomic m op wd target v v2) s (fun t => s.replies m 0 .ok (s.physBytes pa wd.size) t ∧ t.cstore = s.cstore
              ∧ ∀ x, t.physByte x = if pa ≤ x ∧ x < pa + wd.size then BitVec.ofNat 8 (new / 256 ^ (x - pa)) else s.physByte x)))
    ∧ (answered m.type = false → s.portHeld m = false → ∀ b, Completes (.badMsg m b) s (fun t => t = s))
    ∧ (may none true → answered m.type = true → ¬(m.type = 6 ∧ m.vf = 16) → only (.badMsg m false) m.type .badMsg [])
    ∧ (may none (m.type == 3 || m.type == 5) → answered m.type = true → ¬(m.type = 6 ∧ m.vf = 16) →
        Completes (.badMsg m true) s (fun t => t = { s with errCounts := { s.errCounts with denied := s.errCounts.denied + 1 },
                                                              outbox := s.outbox ++ [.response m.vf m.sender (answer m.type) m.tag .denied []] }))
    ∧ (s.sys.stage ≠ 0 → m.vf = 16 → s.reached m = true → s.readPeers m = s → s.senderEntry m = none → s.portHeld m = false →
        let all := capChain 0 (s.capability m.vf) ++ s.statusBytes
        Completes (.query m) s (fun t =>
          t = { s with tick := s.tick + 1, outbox := s.outbox ++ [.response m.vf m.sender 0x85 m.tag .ok all] }))
    ∧ (s.sys.stage ≠ 0 → Completes (.uudDrop vf) s (fun t => t = { s with errCounts := { s.errCounts with uud := s.errCounts.uud + 1 } }))
    ∧ (s.hold n = some h →
        let rest := s.holds.filter (fun x => x.serial != n)
        let fails := fun (i : Instr) => Completes i s (fun t => t = { s with holds := rest, outbox := s.outbox ++
          [.response h.msg.vf h.msg.sender (answer h.msg.type) h.msg.tag (if s.sys.recovery then .stage else .fault) []] })
        fails (.hostHoldResume n false)
        ∧ (2 ^ 30 ≤ (s.clock - h.since).toNat → fails (.hostHoldResume n true))
        ∧ (2 ^ 30 ≤ (s.clock - h.since).toNat → fails (.hostHoldTimeout n))
        ∧ (h.write = false → h.len ≠ 0 → s.sys.recovery = false → (s.clock - h.since).toNat < 2 ^ 30 → h.addr.toNat % 128 + h.len ≤ 128 →
            let u := s.makePresent h.msg.vf h.asid h.addr
            (u.translate [] h.msg.vf h.asid h.addr .read).2 = .ok (.hbm pa c) → u.sound (.hbm pa c) h.len →
            Completes (.hostHoldResume n true) s (fun t => t = { u with holds := rest, outbox := t.outbox }
              ∧ s.replies h.msg (answer h.msg.type) .ok (h.body ++ u.physBytes pa h.len) t)))


/-! ### Management (R209, R210, R214, R240, R277, R308, R309, R371 to R378) -/

/-- The hypervisor's writes of tables: the VF table, up to four words of a function's tables in memory, the region of the fatal dump, caves, way
masks, majority sets and bank roles take what their rules admit, answer OK, and leave everything else as it is; what a rule refuses changes
nothing and answers BADMSG (R111, R210, R214, R240, R277, R306, R307, R309, R336, R362, R377).
Where it goes beyond the rules it states the model's choice: log entries 46 and 47. -/
def Obligations.TableWrites : Prop :=
  ∀ (s : State) (a : Auth) (vf cave slice set cluster bank : Nat) (w0 w1 w2 w3 gen e : Word64) (mask : BitVec 16) (role : BankRole)
    (n : Nat), s.memWf →
    Accepted s a →
    let ok := fun (i : Instr) (f : State → State → Prop) => Completes i s (fun t => ∃ u, t = u.answered a .ok [] ∧ f t u)
    let refuses := fun (i : Instr) => Completes i s (fun t => t = s.answered a .badMsg [])
    let old := s.vfWord vf 0
    let fits := vf < 16 ∧ (w0.extractLsb' 0 32 = 0 ∧ w0.extractLsb' 56 6 ≠ 0 ∧ w1.extractLsb' 52 12 = 0 ∧ w1.extractLsb' 0 16 = 0
        ∧ w2.extractLsb' 52 12 = 0 ∧ w3.extractLsb' 52 12 = 0)
      ∧ (old.getLsbD 63 = true → w0.extractLsb' 32 24 = old.extractLsb' 32 24 ∧ w0.getLsbD 62 = old.getLsbD 62
          ∧ w0.extractLsb' 0 32 = old.extractLsb' 0 32 ∧ w1 = s.vfWord vf 1 ∧ w2 = s.vfWord vf 2 ∧ w3 = s.vfWord vf 3)
      ∧ ∀ k, k < 16 → k ≠ vf → (s.vfWord k 0).getLsbD 63 = true → w0.extractLsb' 32 24 &&& (s.vfWord k 0).extractLsb' 32 24 = 0
    let v := s.cave cave
    let caveOk := cave < 64 ∧ w0.extractLsb' 60 4 = 0 ∧ w0.extractLsb' 0 49 = 0 ∧ w1.extractLsb' 52 12 = 0
    let cur := s.majEntry set
    let inMemory := vf < 16 ∧ n ≤ 4 ∧ cave % 8 = 0 ∧ cave + 8 * n ≤ 576 * 2 ^ 30
      ∧ ∀ k, k < n → s.lineState (.hbm (cave + 8 * k) 1) = LineState.clean
    let fitsDump := set < 16 ∧ w0.toNat % 128 = 0 ∧ w0.toNat + w1.toNat ≤ 48 * 2 ^ 30
    let homes := (List.range (majCopies e)).map (majStack e)
    let ends := fun (t : State) => t.taken = if t.canServe s.lastVf then s.taken else 63
    (fits → ok (.vfTableWrite a (.entry vf) w0 w1 w2 w3 gen) (fun t u => u = { s with vft := t.vft, ckptGen := t.ckptGen, pops := t.pops, taken := t.taken }
        ∧ ends t
        ∧ (∀ k p, s.pop k = some p → ∃ q, t.pop k = some q ∧ q = { p with cps := q.cps } ∧ ∀ cid c, p.cp cid = some c → q.cp cid =
            some { c with mode := if p.vf = vf ∧ w0.getLsbD 62 = true then c.mode ||| 0x20 else c.mode })
        ∧ (∀ k j, j < 4 → t.vfWord k j = if k = vf then (match j with
            | 0 => w0
            | 1 => w1
            | 2 => w2
            | _ => w3) else s.vfWord k j)
        ∧ ∀ k, Tab.get 0 t.ckptGen k =
            if k = vf ∧ w0.getLsbD 63 = true ∧ old.getLsbD 63 = false then gen else Tab.get 0 s.ckptGen k))
    ∧ (¬fits → refuses (.vfTableWrite a (.entry vf) w0 w1 w2 w3 gen))
    ∧ ((inMemory → ok (.vfTableWrite a (.table vf cave n) w0 w1 w2 w3 gen) (fun t u =>
          u = { s with hbm := t.hbm, l2 := t.l2, olds := t.olds, hvWords := t.hvWords, vers := t.vers, serial := t.serial, tick := t.tick }
          ∧ (∀ x, t.physByte x = if cave ≤ x ∧ x < cave + 8 * n then
              ([w0, w1, w2, w3].getD ((x - cave) / 8) 0).extractLsb' (8 * ((x - cave) % 8)) 8 else s.physByte x)
          ∧ ∀ k, k < n → Tab.get 0 t.hvWords (cave / 8 + k) = vf + 1))
        ∧ (¬inMemory → refuses (.vfTableWrite a (.table vf cave n) w0 w1 w2 w3 gen)))
    ∧ (fitsDump → ok (.vfTableWrite a (.dump set) w0 w1 w2 w3 gen) (fun _ u =>
        u = { s with sys := { s.sys with dumpSet := set, dumpAddr := w0.toNat, dumpLen := w1.toNat } }))
    ∧ (¬fitsDump → refuses (.vfTableWrite a (.dump set) w0 w1 w2 w3 gen))
    ∧ (caveOk → v.enable = false → ok (.caveConfigWrite a cave w0 w1) (fun t u => u = { s with caves := t.caves, taken := t.taken } ∧ ends t
        ∧ (∀ k, k ≠ cave → t.cave k = s.cave k)
        ∧ t.cave cave = { vf := (w0.extractLsb' 56 4).toNat, prio := (w0.extractLsb' 54 2).toNat, wcode := (w0.extractLsb' 52 2).toNat,
                          set := w0.getLsbD 51, launch := w0.getLsbD 50, enable := w0.getLsbD 49, pool := (w1.extractLsb' 16 36).toNat,
                          npool := (w1.extractLsb' 0 16).toNat, segs := [], entries := [],
                          lost := if w0.getLsbD 49 then 0 else v.lost, seq := if w0.getLsbD 49 then 0 else v.seq }))
    ∧ (caveOk → v.enable = true → w0 = v.word0 &&& ~~~0x0002000000000000#64 → ok (.caveConfigWrite a cave w0 w1) (fun t _ =>
        (t.cave cave).enable = false ∧ (t.cave cave).entries = [] ∧ (t.cave cave).segs = [] ∧ (t.cave cave).npool = v.npool + v.segs.length
        ∧ ∀ k, k ≠ cave → t.cave k = s.cave k))
    ∧ (¬caveOk ∨ (v.enable = true ∧ w0 ≠ v.word0 &&& ~~~0x0002000000000000#64) → refuses (.caveConfigWrite a cave w0 w1))
    ∧ (slice < 96 ∧ vf < 16 → ok (.wayMaskWrite a slice vf mask) (fun t u => u = { s with wayMask := t.wayMask }
        ∧ ∀ k, Tab.get 0xFFFF#16 t.wayMask k = if k = 16 * slice + vf then mask else Tab.get 0xFFFF#16 s.wayMask k))
    ∧ (¬(slice < 96 ∧ vf < 16) → refuses (.wayMaskWrite a slice vf mask))
    ∧ (set < 16 → majValid cur = false → (∀ k ∈ homes, k < 12) → homes.Nodup → e.extractLsb' 53 3 = 0 → e.extractLsb' 40 5 = 0 →
        e.extractLsb' 3 17 = 0 →
        let due := Tab.get false s.majDue set = true ∧ majValid e = true
          ∧ majQ e ≤ ((List.range (majCopies e)).filter (fun j => !majFailed cur j)).length
        ok (.majSetWrite a set e) (fun t u => u.outbox = s.outbox
          ∧ (¬due → (∀ w ∈ s.majWrites, w.set ≠ set) → (∀ b ∈ s.majBacks, b.set ≠ set) → u = { s with majSet := t.majSet, pops := t.pops })
          ∧ (∀ k, k ≠ set → t.majEntry k = s.majEntry k) ∧ majValid (t.majEntry set) = majValid e
          ∧ majCopies (t.majEntry set) = majCopies e ∧ majLost (t.majEntry set) = false
          ∧ (due → majEpoch (t.majEntry set) = 1) ∧ (¬due → majEpoch (t.majEntry set) = majEpoch cur)
          ∧ (∀ j, j < majCopies e → majStack (t.majEntry set) j = majStack e j ∧ majFailed (t.majEntry set) j = majFailed cur j)
          ∧ majHome (t.majEntry set) = majHome cur))
    ∧ (set < 16 → majValid cur = true → e = cur &&& ~~~1#64 → ok (.majSetWrite a set e) (fun t u => u = { s with majSet := t.majSet }
          ∧ ∀ k, t.majEntry k = if k = set then cur &&& ~~~1#64 else s.majEntry k))
    ∧ (16 ≤ set ∨ (majValid cur = true ∧ e ≠ cur &&& ~~~1#64) ∨ (majValid cur = false ∧ ((∃ k ∈ homes, 12 ≤ k) ∨ ¬homes.Nodup)) →
        refuses (.majSetWrite a set e))
    ∧ (cluster < 24 → bank < 32 → role ≠ .fifo →
        (s.bankHeld cluster bank = true → ok (.bankRoleWrite a cluster bank role) (fun t u => u = { s with roleDue := t.roleDue }
          ∧ ∀ k, Tab.find t.roleDue k = if k = 32 * cluster + bank then some role else Tab.find s.roleDue k))
        ∧ (s.bankHeld cluster bank = false → ok (.bankRoleWrite a cluster bank role) (fun t _ => t.roleOf cluster bank = role
          ∧ (∀ c k, k < 32 → ¬(c = cluster ∧ k = bank) → t.roleOf c k = s.roleOf c k)
          ∧ (∀ x, x < 16777216 * cluster + 524288 * bank ∨ 16777216 * cluster + 524288 * (bank + 1) ≤ x →
              Tab.get 0 t.cstore x = Tab.get 0 s.cstore x)
          ∧ (∀ x, t.cell (true, x) = s.cell (true, x)) ∧ (s.roleOf cluster bank ≠ role → ∀ l ∈ t.ccache, ¬(l.cluster = cluster ∧ l.bank = bank)))))
    ∧ (¬(cluster < 24 ∧ bank < 32 ∧ role ≠ .fifo) → refuses (.bankRoleWrite a cluster bank role))

/-- A TLB invalidation is answered once no access that used an entry it names is left, and every such entry is gone; the other messages of
the management endpoint set what they name and answer OK, or BADMSG out of range (R308, R360, R361, R372, R374, R376, R378).
Where it goes beyond the rules it states the model's choice: log entries 48, 49 and 50. -/
def Obligations.ManagementWords : Prop :=
  ∀ (s : State) (a : Auth) (x : Inval) (n port : Nat) (two : Bool) (c : EndpointCfg) (image : FwImage),
    let sets := fun (i : Instr) (u : State) => Completes i s (fun t => t = u.answered a .ok [])
    let refuses := fun (i : Instr) => Completes i s (fun t => t = s.answered a .badMsg [])
    let bit : BitVec 24 := BitVec.ofNat 24 (2 ^ n)
    let slot : Slot := { version := image.version, security := image.security, sigOk := image.sigOk }
    let good := image.sigOk = true ∧ Config.fusedMinimum.toNat ≤ image.security.toNat
    (Accepted s a →
      Completes (.tlbInvalidate a x.range) s (fun t =>
        t = { s with mgmtSeq := a.seq, serial := s.serial + 1, invals := s.invals ++ [{ serial := s.serial, range := x.range, tag := authTag a }] })
      ∧ (port < 8 → Completes (.portConfig a (BitVec.ofNat 3 port) two) s (fun t =>
          t = ({ s with portTwo := t.portTwo } : State).answered a .ok []
          ∧ ∀ k, k < 8 → t.portTwo.getLsbD k = if k = port then two else s.portTwo.getLsbD k))
      ∧ (n < 17 → Completes (.endpointConfig a n c) s (fun t => t = ({ s with endpoints := t.endpoints } : State).answered a .ok []
          ∧ ∀ k, Tab.get EndpointCfg.zero t.endpoints k = if k = n then c else Tab.get EndpointCfg.zero s.endpoints k))
      ∧ (17 ≤ n → refuses (.endpointConfig a n c))
      ∧ (good → sets (.firmwareUpdate a image) { s with sys := { s.sys with
          slots := Tab.put Slot.empty s.sys.slots (1 - s.sys.active) slot, nextActive := 1 - s.sys.active } })
      ∧ (¬good → refuses (.firmwareUpdate a image))
      ∧ (1 ≤ n ∧ n ≤ 1440 → sets (.testPeriodSet a n) { s with sys := { s.sys with period := n } })
      ∧ (¬(1 ≤ n ∧ n ≤ 1440) → refuses (.testPeriodSet a n))
      ∧ (n < 24 → sets (.quarantineLift a n) { s with sys := { s.sys with quarantine := s.sys.quarantine &&& ~~~bit } })
      ∧ (24 ≤ n → refuses (.quarantineLift a n))
      ∧ (n ≤ 2300 → sets (.powerLimitSet a n) { s with sys := { s.sys with limit := n } })
      ∧ (2300 < n → refuses (.powerLimitSet a n))
      ∧ sets (.mgmtEnteredTest a) { s with sys := { s.sys with testMode := true } }
      ∧ (n < 24 → sets (.clusterDisable a n) { s with sys := { s.sys with
          disabled := s.sys.disabled ||| bit, enabled := s.sys.enabled &&& ~~~bit } })
      ∧ (24 ≤ n → refuses (.clusterDisable a n)))
    ∧ (s.invals.find? (fun i => i.serial == n) = some x → s.invalBusy x.range = false →
      Completes (.tlbInvalidateComplete n) s (fun t =>
        t.invals = s.invals.filter (fun i => i.serial != n) ∧ t.outbox = s.outbox ++ [.mgmt 0x86 x.tag .ok []])
      ∧ ((∀ g ∈ s.pops, ∀ d ∈ g.2.cps, ∀ w, d.2.wait = some w → ¬(w.kind = .waitr ∧ w.space = .g)) →
        Completes (.tlbInvalidateComplete n) s (fun t =>
          t = { s with tlb := t.tlb, invals := s.invals.filter (fun i => i.serial != n), outbox := s.outbox ++ [.mgmt 0x86 x.tag .ok []] }
          ∧ ∀ e, e ∈ t.tlb ↔ e ∈ s.tlb ∧ ¬(e.vf = x.range.vf ∧ (∀ y, x.range.asid = some y → e.asid = y)
              ∧ ∀ lo len, x.range.range = some (lo, len) →
                  e.page * pageBytes e.level < lo + len ∧ lo < (e.page + 1) * pageBytes e.level))))

/-- A cold start brings everything up at reset with HBM clear and the clock at 0; a warm start keeps HBM and the hypervisor's tables and moves every valid
set's epoch on; either enables the lowest cluster of each die that passed and counts a failed start. STAGE_ADVANCE comes to stage 2 once
every cluster that is not disabled has passed; START_TIMEOUT counts a start of more than 600 s (R157, R209, R243, R250, R336, R372 to R374).
Where it goes beyond the rules it states the model's choice: log entry 50. -/
def Obligations.Starts : Prop :=
  ∀ (s : State) (bist : BitVec 24) (slot : Nat),
    let verifies := fun (k : Nat) => (Tab.get Slot.empty s.sys.slots k).sigOk = true
      ∧ Config.fusedMinimum.toNat ≤ (Tab.get Slot.empty s.sys.slots k).security.toNat
    let boots := (slot = s.sys.nextActive ∧ verifies slot)
      ∨ (slot = 1 - s.sys.nextActive ∧ verifies slot ∧ ¬verifies s.sys.nextActive)
    let first := fun (passed : BitVec 24) (t : State) => ∀ k, k < 24 →
      (t.sys.enabled.getLsbD k = true ↔ passed.getLsbD k = true ∧ ∀ j, k / 6 * 6 ≤ j → j < k → passed.getLsbD j = false)
    let empty := fun (t : State) => t.pops = [] ∧ t.caves = [] ∧ t.frags = [] ∧ t.cstore = [] ∧ t.tiles = [] ∧ t.l2 = [] ∧ t.ccache = []
      ∧ t.tlb = [] ∧ t.locks = [] ∧ t.stamps = [] ∧ t.tasks = [] ∧ t.images = [] ∧ t.version = [] ∧ t.issuer = .none
      ∧ t.sys.testMode = false ∧ t.sys.recovery = false ∧ t.sys.quarantine = s.sys.quarantine
    let count := fun (bad : BitVec 24) => if bad = 0 then s.sys.failedStarts else s.sys.failedStarts + 1
    let recent := fun (k : Nat) => s.sys.passed.getLsbD k = true ∧ (s.clock - Tab.get 0 s.sys.lastPass k).toNat ≤ 86400 * 1700000000
    (boots → Completes (.coldStart bist) s (fun t => empty t ∧ t.hbm = [] ∧ t.hline = [] ∧ t.vft = [] ∧ t.majSet = [] ∧ t.role = []
        ∧ t.wayMask = [] ∧ t.ckptGen = [] ∧ t.sys.stage = 1 ∧ t.sys.active = slot ∧ t.clock = 0 ∧ t.sys.startClock = 0 ∧ t.sys.passed = bist
        ∧ t.sys.failing = ~~~bist ∧ t.sys.failedStarts = count (~~~bist) ∧ first bist t))
    ∧ (¬verifies s.sys.nextActive → ¬verifies (1 - s.sys.nextActive) → Completes (.coldStart bist) s (fun t => empty t ∧ t.clock = 0 ∧ t.sys.stage = 0))
    ∧ (boots → (∀ k, k < 16 → majValid (s.majEntry k) = true → majEpoch (s.majEntry k) < 254) → Completes (.warmStart bist) s (fun t =>
        empty t ∧ t.clock = s.clock ∧ t.hbm = s.hbm ∧ t.hline = s.hline ∧ t.vft = s.vft ∧ t.wayMask = s.wayMask ∧ t.ckptGen = s.ckptGen ∧ t.sys.stage = 1
        ∧ (∀ c k, k < 32 → Tab.rises 0 s.role = true → Tab.rises 0 s.roleDue = true →
            t.roleOf c k = match Tab.find s.roleDue (32 * c + k) with
              | some x => x
              | none => if s.roleOf c k = .fifo then .scratch else s.roleOf c k)
        ∧ (∀ k, k < 16 → majValid (s.majEntry k) = true → majEpoch (t.majEntry k) = majEpoch (s.majEntry k) + 1
            ∧ (t.majEntry k).extractLsb' 0 56 = (s.majEntry k).extractLsb' 0 56)
        ∧ (∀ k, k < 24 → (t.sys.passed.getLsbD k = true ↔ bist.getLsbD k = true ∨ recent k))
        ∧ t.sys.failedStarts = count (~~~t.sys.passed &&& ~~~s.sys.disabled) ∧ first (t.sys.passed &&& ~~~s.sys.disabled) t))
    ∧ (s.sys.stage = 1 → s.sys.recovery = false → s.sys.failedStarts < 3 →
        s.sys.startFailed = true ∨ (s.clock - s.sys.startClock).toNat < 600 * 1700000000 →
        (∀ k, k < 24 → s.sys.passed.getLsbD k = true ∨ bist.getLsbD k = true ∨ s.sys.disabled.getLsbD k = true) → s.majWrites = [] →
        (∀ k, k < 16 → majValid (s.majEntry k) = true → majEpoch (s.majEntry k) < 254) →
        Completes (.stageAdvance bist) s (fun t =>
          t = { s with sys := t.sys, majSet := t.majSet, majBacks := t.majBacks, majAsks := t.majAsks, majFails := t.majFails,
                       pops := t.pops, stackFailed := 0 }
          ∧ (∀ i, Tab.get 0 t.majFails i = Tab.get 0 s.majFails i)
          ∧ t.sys.stage = 2 ∧ t.sys.failedStarts = 0 ∧ t.sys.enabled = (s.sys.passed ||| bist) &&& ~~~s.sys.disabled
          ∧ (∀ k j, k < 16 → majValid (s.majEntry k) = true → j < majCopies (s.majEntry k) → majFailed (t.majEntry k) j = false)
          ∧ ∀ k, k < 16 → majLost (t.majEntry k) = majLost (s.majEntry k)))
    ∧ (s.sys.stage ≠ 2 → s.sys.startFailed = false → 600 * 1700000000 ≤ (s.clock - s.sys.startClock).toNat →
        Completes (.startTimeout) s (fun t =>
          t = { s with sys := { s.sys with startFailed := true, failedStarts := s.sys.failedStarts + 1 } }))

/-- A test of an idle cluster that passes clears its residency log; one that fails quarantines it and reports; a fatal error stops every
population as in an abort and leaves the part in recovery mode; the power manager withholds press passes, then issue slots, then
bandwidth, gives them back in turn, and changes nothing but its level and counts (R313, R376 to R378).
Where it goes beyond the rules it states the model's choice: log entries 12, 51 and 58. -/
def Obligations.DeviceHealth : Prop :=
  ∀ (s : State) (k : Nat) (level : Throttle),
    let log := Tab.get [] s.log k
    let due := s.sys.stage ≠ 0 ∧ s.sys.enabled.getLsbD k = true ∧ s.sys.quarantine.getLsbD k = false ∧ (∀ e ∈ s.pops, e.2.cluster ≠ k)
      ∧ 60 * 1700000000 * s.sys.period ≤ (s.clock - Tab.get 0 s.sys.lastPass k).toNat
    (due → Completes (.infieldTest k true) s (fun t =>
        t = { s with log := t.log, logOvf := t.logOvf, sys := { s.sys with lastPass := t.sys.lastPass, idle := t.sys.idle } }
        ∧ Tab.find t.sys.idle k = none
        ∧ (∀ j, Tab.get [] t.log j = if j = k then [] else Tab.get [] s.log j)
        ∧ (∀ j, Tab.get false t.logOvf j = if j = k then false else Tab.get false s.logOvf j)
        ∧ ∀ j, Tab.get 0 t.sys.lastPass j = if j = k then s.clock else Tab.get 0 s.sys.lastPass j))
    ∧ (due → Completes (.infieldTest k false) s (fun t =>
        t = { s with outbox := t.outbox, sys := { s.sys with
          quarantine := s.sys.quarantine ||| BitVec.ofNat 24 (2 ^ k), idle := t.sys.idle } }
        ∧ ∃ reports body, t.outbox = s.outbox ++ reports ++ [.mgmt 0x08 0 .ok body]
          ∧ ∀ o, o ∈ reports ↔ ∃ v i, v < 16 ∧ (∃ e ∈ log, e.vf = v) ∧ i ∈ s.reporters v
              ∧ o = .suspect v i k (Tab.get 0 s.sys.lastPass k) (Tab.get false s.logOvf k) (log.filter (fun e => e.vf == v))))
    ∧ Completes .fatalError s (fun t => t.sys.recovery = true ∧ t.tasks = [] ∧ t.pending = [] ∧ t.issuer = .none
        ∧ t.holds = [] ∧ t.launches = [] ∧ t.outbox = s.outbox ++ (s.holds.map (fun h => h.msg) ++ s.launches.map (fun h => h.msg)).map
            (fun m => .response m.vf m.sender (if m.type = 0 then 0 else m.type ||| 0x80) m.tag .stage [])
        ∧ (majValid (s.majEntry s.sys.dumpSet) = false → t.sys.dumpPresent = s.sys.dumpPresent ∧ (∀ x, t.cell x = s.cell x)
          ∧ ∀ pid p, s.pop pid = some p → ∃ q, t.pop pid = some q ∧ q = { p with aborted := true, cps := q.cps }
            ∧ ∀ cid c, p.cp cid = some c → ∃ d, q.cp cid = some d ∧ d = { c with wait := none, pend := d.pend })
        ∧ (majValid (s.majEntry s.sys.dumpSet) = true → majLost (s.majEntry s.sys.dumpSet) = false → t.sys.dumpPresent = true))
    ∧ (let old := throttleRank s.sys.throttle
      (throttleRank level = old + 1 → Completes (.powerThrottle level) s (fun t =>
        t = { s with sys := { s.sys with throttle := level, throttles := t.sys.throttles } }
        ∧ ∀ j, Tab.get 0 t.sys.throttles j = Tab.get 0 s.sys.throttles j + (if j = old then 1 else 0)))
      ∧ (throttleRank level + 1 = old → Completes (.powerThrottle level) s (fun t => t = { s with sys := { s.sys with throttle := level } }))
      ∧ (throttleRank level ≠ old + 1 → throttleRank level + 1 ≠ old → ∀ t, exec (.powerThrottle level) s ≠ .next t))

/-! ### Encoding, the step and its invariant (R51 to R81) -/

/-- Every well-formed instruction that has a word decodes from that word to itself, with every operand at every value (R51, R67). -/
def Obligations.EncodeDecode : Prop :=
  ∀ (i : Instr) (w : Word64), wfInstr i = true → encode i = some w → decode w = .ok i

/-- A step of an agent that issues runs the instruction that the word at its position decodes to; a word that decodes to none is ILLEGAL
at a control program and a stream error of code 2 at a stream (R51, R66, R67, R263).
Where it goes beyond the rules it states the model's choice: log entry 1. -/
def Obligations.StepRunsDecoded : Prop :=
  ∀ (s : State) (w : Word64),
    (∀ (r : CpRef) (p : Pop) (c : Cp), s.issuer = .cp r → s.cpOf r = some (p, c) → c.clause[c.widx]? = some w →
      (∀ i, decode w = .ok i → step s = exec i s)
      ∧ (∀ e, decode w = .error e → ∃ t, step s = .next t ∧ Trapped s r p c .illegal c.wordAddr 0 allOnes64 0 t))
    ∧ (∀ (pid : Nat) (p : Pop) (x : Stream), Streaming s pid p x → x.clause[x.widx]? = some w →
      (∀ i, decode w = .ok i → step s = exec i s)
      ∧ (∀ e, decode w = .error e → ∃ t y, step s = .next t ∧ t.pop pid = some { p with stream := some y }
          ∧ y.stopped = true ∧ y.err = true ∧ y.code = (if x.code = 0 then 2 else x.code) ∧ t.issuer = .none))

/-- What reset leaves: stage 0, no population, HBM and tiles clear, banks 0 to 7 of every cluster CACHE and the others SCRATCH, every
function invalid with weight 1, every way allowed, every cave disabled, every majority set invalid, a test period of 10 minutes, and
memory in its one form (R209, R214, R240, R277, R309, R372, R373, R376).
Where it goes beyond the rules it states the model's choice: log entries 4, 5 and 6. -/
def Obligations.ResetState : Prop :=
  let s := State.reset
  s.sys.stage = 0 ∧ s.pops = [] ∧ s.clock = 0 ∧ s.memWf ∧ (∀ x, s.physByte x = 0) ∧ (∀ k, Tab.get 0 s.tiles k = 0)
  ∧ (∀ c b, s.roleOf c b = if b < 8 then .cache else .scratch)
  ∧ (∀ v, (s.vfWord v 0).getLsbD 63 = false ∧ s.vfWeight v = 1) ∧ (∀ k v, s.mask k v = 0xFFFF)
  ∧ (∀ k, (s.cave k).enable = false) ∧ (∀ k, majValid (s.majEntry k) = false) ∧ s.sys.period = 10

/-- Every step keeps the one form of memory: rising addresses, no entry that equals an unlisted byte, and dirty lines that list bytes of
their own once.
Where it goes beyond the rules it states the model's choice: log entry 4. -/
def Obligations.StepKeepsMemoryForm : Prop :=
  ∀ (s t : State), s.memWf → step s = .next t → t.memWf

/-- Words written out field by field from the encoding tables decode to what they stand for (R51, R58, R68 to R81). -/
def Obligations.SpecWordsDecode : Prop :=
  decode 0x7B40000700000000#64 = .ok (.vid { ty := .s32, mask := 0, vd := 7 })
  ∧ decode 0x4144100007000064#64 = .ok (.srchi .gt { ty := .s32, md := 1, ms := 0, comb := .set, sel := 0, va := 7 } 100)
  ∧ decode 0x09000C00FFFFFFF0#64 = .ok (.loop 12 (-16))
  ∧ decode 0x2060141402000000#64 = .ok (.sadd { ty := .s64, sd := 20, sa := 20, b := .reg 2 })
  ∧ decode 0x624800010000000A#64 = .ok (.vmul .wrap { ty := .s32, mask := 0, vd := 1, va := 0, b := .imm 10 })
  ∧ decode 0x83A800020027E000#64 = .ok (.vfma .mode { ty := .f32, mask := 0, vd := 2, va := 1, b := .imm 0x7E000 })
  ∧ decode 0xA022000854004000#64 = .ok (.ld
      { width := .b32, space := .w, scope := .pop, order := .plain, vdat := 2, sbase := 21, idx := some { vidx := 0, sh := 2 }, imm := 0 })
  ∧ decode 0xE021151400000001#64 = .ok (.arrive { space := .w, scope := .pop, sa := 20 } 21 (.imm 1))
  ∧ decode 0xC121200100000000#64 = .ok (.pmm 2 1 2 1)
  ∧ decode 0xD300000000200005#64 = .ok (.qins 0 5 1)
end

