-- ==== Sys2Proof/Laws/State.lean ====
section
/-! SUPPORT. What each named update of the state, of a population and of a control program leaves as it was, field by field. -/

namespace Sys2Proof.Machine

/-! ### State.setPop -/

@[simp] theorem State.setPop_clock (s : State) (k : Nat) (p : Pop) : (s.setPop k p).clock = s.clock := rfl
@[simp] theorem State.setPop_pops (s : State) (k : Nat) (p : Pop) : (s.setPop k p).pops = Tab.insert s.pops k p := rfl
@[simp] theorem State.setPop_frags (s : State) (k : Nat) (p : Pop) : (s.setPop k p).frags = s.frags := rfl
@[simp] theorem State.setPop_ovfs (s : State) (k : Nat) (p : Pop) : (s.setPop k p).ovfs = s.ovfs := rfl
@[simp] theorem State.setPop_pmc (s : State) (k : Nat) (p : Pop) : (s.setPop k p).pmc = s.pmc := rfl
@[simp] theorem State.setPop_pmcSel (s : State) (k : Nat) (p : Pop) : (s.setPop k p).pmcSel = s.pmcSel := rfl
@[simp] theorem State.setPop_role (s : State) (k : Nat) (p : Pop) : (s.setPop k p).role = s.role := rfl
@[simp] theorem State.setPop_roleDue (s : State) (k : Nat) (p : Pop) : (s.setPop k p).roleDue = s.roleDue := rfl
@[simp] theorem State.setPop_cstore (s : State) (k : Nat) (p : Pop) : (s.setPop k p).cstore = s.cstore := rfl
@[simp] theorem State.setPop_cline (s : State) (k : Nat) (p : Pop) : (s.setPop k p).cline = s.cline := rfl
@[simp] theorem State.setPop_fifos (s : State) (k : Nat) (p : Pop) : (s.setPop k p).fifos = s.fifos := rfl
@[simp] theorem State.setPop_ccache (s : State) (k : Nat) (p : Pop) : (s.setPop k p).ccache = s.ccache := rfl
@[simp] theorem State.setPop_locks (s : State) (k : Nat) (p : Pop) : (s.setPop k p).locks = s.locks := rfl
@[simp] theorem State.setPop_tiles (s : State) (k : Nat) (p : Pop) : (s.setPop k p).tiles = s.tiles := rfl
@[simp] theorem State.setPop_tilePoison (s : State) (k : Nat) (p : Pop) : (s.setPop k p).tilePoison = s.tilePoison := rfl
@[simp] theorem State.setPop_tlb (s : State) (k : Nat) (p : Pop) : (s.setPop k p).tlb = s.tlb := rfl
@[simp] theorem State.setPop_invals (s : State) (k : Nat) (p : Pop) : (s.setPop k p).invals = s.invals := rfl
@[simp] theorem State.setPop_log (s : State) (k : Nat) (p : Pop) : (s.setPop k p).log = s.log := rfl
@[simp] theorem State.setPop_logOvf (s : State) (k : Nat) (p : Pop) : (s.setPop k p).logOvf = s.logOvf := rfl
@[simp] theorem State.setPop_hbm (s : State) (k : Nat) (p : Pop) : (s.setPop k p).hbm = s.hbm := rfl
@[simp] theorem State.setPop_hline (s : State) (k : Nat) (p : Pop) : (s.setPop k p).hline = s.hline := rfl
@[simp] theorem State.setPop_hvWords (s : State) (k : Nat) (p : Pop) : (s.setPop k p).hvWords = s.hvWords := rfl
@[simp] theorem State.setPop_olds (s : State) (k : Nat) (p : Pop) : (s.setPop k p).olds = s.olds := rfl
@[simp] theorem State.setPop_rels (s : State) (k : Nat) (p : Pop) : (s.setPop k p).rels = s.rels := rfl
@[simp] theorem State.setPop_vers (s : State) (k : Nat) (p : Pop) : (s.setPop k p).vers = s.vers := rfl
@[simp] theorem State.setPop_handed (s : State) (k : Nat) (p : Pop) : (s.setPop k p).handed = s.handed := rfl
@[simp] theorem State.setPop_hostKnows (s : State) (k : Nat) (p : Pop) : (s.setPop k p).hostKnows = s.hostKnows := rfl
@[simp] theorem State.setPop_l2 (s : State) (k : Nat) (p : Pop) : (s.setPop k p).l2 = s.l2 := rfl
@[simp] theorem State.setPop_wayMask (s : State) (k : Nat) (p : Pop) : (s.setPop k p).wayMask = s.wayMask := rfl
@[simp] theorem State.setPop_stamps (s : State) (k : Nat) (p : Pop) : (s.setPop k p).stamps = s.stamps := rfl
@[simp] theorem State.setPop_majSet (s : State) (k : Nat) (p : Pop) : (s.setPop k p).majSet = s.majSet := rfl
@[simp] theorem State.setPop_majTag (s : State) (k : Nat) (p : Pop) : (s.setPop k p).majTag = s.majTag := rfl
@[simp] theorem State.setPop_majOwn (s : State) (k : Nat) (p : Pop) : (s.setPop k p).majOwn = s.majOwn := rfl
@[simp] theorem State.setPop_majDue (s : State) (k : Nat) (p : Pop) : (s.setPop k p).majDue = s.majDue := rfl
@[simp] theorem State.setPop_version (s : State) (k : Nat) (p : Pop) : (s.setPop k p).version = s.version := rfl
@[simp] theorem State.setPop_majWrites (s : State) (k : Nat) (p : Pop) : (s.setPop k p).majWrites = s.majWrites := rfl
@[simp] theorem State.setPop_majBacks (s : State) (k : Nat) (p : Pop) : (s.setPop k p).majBacks = s.majBacks := rfl
@[simp] theorem State.setPop_majAsks (s : State) (k : Nat) (p : Pop) : (s.setPop k p).majAsks = s.majAsks := rfl
@[simp] theorem State.setPop_majRepairs (s : State) (k : Nat) (p : Pop) : (s.setPop k p).majRepairs = s.majRepairs := rfl
@[simp] theorem State.setPop_majFails (s : State) (k : Nat) (p : Pop) : (s.setPop k p).majFails = s.majFails := rfl
@[simp] theorem State.setPop_scrubRate (s : State) (k : Nat) (p : Pop) : (s.setPop k p).scrubRate = s.scrubRate := rfl
@[simp] theorem State.setPop_stackFailed (s : State) (k : Nat) (p : Pop) : (s.setPop k p).stackFailed = s.stackFailed := rfl
@[simp] theorem State.setPop_caves (s : State) (k : Nat) (p : Pop) : (s.setPop k p).caves = s.caves := rfl
@[simp] theorem State.setPop_lastVf (s : State) (k : Nat) (p : Pop) : (s.setPop k p).lastVf = s.lastVf := rfl
@[simp] theorem State.setPop_taken (s : State) (k : Nat) (p : Pop) : (s.setPop k p).taken = s.taken := rfl
@[simp] theorem State.setPop_lastCave (s : State) (k : Nat) (p : Pop) : (s.setPop k p).lastCave = s.lastCave := rfl
@[simp] theorem State.setPop_tasks (s : State) (k : Nat) (p : Pop) : (s.setPop k p).tasks = s.tasks := rfl
@[simp] theorem State.setPop_pending (s : State) (k : Nat) (p : Pop) : (s.setPop k p).pending = s.pending := rfl
@[simp] theorem State.setPop_vft (s : State) (k : Nat) (p : Pop) : (s.setPop k p).vft = s.vft := rfl
@[simp] theorem State.setPop_ckptGen (s : State) (k : Nat) (p : Pop) : (s.setPop k p).ckptGen = s.ckptGen := rfl
@[simp] theorem State.setPop_images (s : State) (k : Nat) (p : Pop) : (s.setPop k p).images = s.images := rfl
@[simp] theorem State.setPop_endpoints (s : State) (k : Nat) (p : Pop) : (s.setPop k p).endpoints = s.endpoints := rfl
@[simp] theorem State.setPop_portTwo (s : State) (k : Nat) (p : Pop) : (s.setPop k p).portTwo = s.portTwo := rfl
@[simp] theorem State.setPop_mgmtSeq (s : State) (k : Nat) (p : Pop) : (s.setPop k p).mgmtSeq = s.mgmtSeq := rfl
@[simp] theorem State.setPop_inbox (s : State) (k : Nat) (p : Pop) : (s.setPop k p).inbox = s.inbox := rfl
@[simp] theorem State.setPop_wire (s : State) (k : Nat) (p : Pop) : (s.setPop k p).wire = s.wire := rfl
@[simp] theorem State.setPop_outbox (s : State) (k : Nat) (p : Pop) : (s.setPop k p).outbox = s.outbox := rfl
@[simp] theorem State.setPop_holds (s : State) (k : Nat) (p : Pop) : (s.setPop k p).holds = s.holds := rfl
@[simp] theorem State.setPop_launches (s : State) (k : Nat) (p : Pop) : (s.setPop k p).launches = s.launches := rfl
@[simp] theorem State.setPop_errRecords (s : State) (k : Nat) (p : Pop) : (s.setPop k p).errRecords = s.errRecords := rfl
@[simp] theorem State.setPop_errCounts (s : State) (k : Nat) (p : Pop) : (s.setPop k p).errCounts = s.errCounts := rfl
@[simp] theorem State.setPop_sys (s : State) (k : Nat) (p : Pop) : (s.setPop k p).sys = s.sys := rfl
@[simp] theorem State.setPop_issuer (s : State) (k : Nat) (p : Pop) : (s.setPop k p).issuer = s.issuer := rfl
@[simp] theorem State.setPop_tick (s : State) (k : Nat) (p : Pop) : (s.setPop k p).tick = s.tick := rfl
@[simp] theorem State.setPop_serial (s : State) (k : Nat) (p : Pop) : (s.setPop k p).serial = s.serial := rfl

/-! ### State.setIssuer -/

@[simp] theorem State.setIssuer_clock (s : State) (i : Issuer) : (s.setIssuer i).clock = s.clock := rfl
@[simp] theorem State.setIssuer_pops (s : State) (i : Issuer) : (s.setIssuer i).pops = s.pops := rfl
@[simp] theorem State.setIssuer_frags (s : State) (i : Issuer) : (s.setIssuer i).frags = s.frags := rfl
@[simp] theorem State.setIssuer_ovfs (s : State) (i : Issuer) : (s.setIssuer i).ovfs = s.ovfs := rfl
@[simp] theorem State.setIssuer_pmc (s : State) (i : Issuer) : (s.setIssuer i).pmc = s.pmc := rfl
@[simp] theorem State.setIssuer_pmcSel (s : State) (i : Issuer) : (s.setIssuer i).pmcSel = s.pmcSel := rfl
@[simp] theorem State.setIssuer_role (s : State) (i : Issuer) : (s.setIssuer i).role = s.role := rfl
@[simp] theorem State.setIssuer_roleDue (s : State) (i : Issuer) : (s.setIssuer i).roleDue = s.roleDue := rfl
@[simp] theorem State.setIssuer_cstore (s : State) (i : Issuer) : (s.setIssuer i).cstore = s.cstore := rfl
@[simp] theorem State.setIssuer_cline (s : State) (i : Issuer) : (s.setIssuer i).cline = s.cline := rfl
@[simp] theorem State.setIssuer_fifos (s : State) (i : Issuer) : (s.setIssuer i).fifos = s.fifos := rfl
@[simp] theorem State.setIssuer_ccache (s : State) (i : Issuer) : (s.setIssuer i).ccache = s.ccache := rfl
@[simp] theorem State.setIssuer_locks (s : State) (i : Issuer) : (s.setIssuer i).locks = s.locks := rfl
@[simp] theorem State.setIssuer_tiles (s : State) (i : Issuer) : (s.setIssuer i).tiles = s.tiles := rfl
@[simp] theorem State.setIssuer_tilePoison (s : State) (i : Issuer) : (s.setIssuer i).tilePoison = s.tilePoison := rfl
@[simp] theorem State.setIssuer_tlb (s : State) (i : Issuer) : (s.setIssuer i).tlb = s.tlb := rfl
@[simp] theorem State.setIssuer_invals (s : State) (i : Issuer) : (s.setIssuer i).invals = s.invals := rfl
@[simp] theorem State.setIssuer_log (s : State) (i : Issuer) : (s.setIssuer i).log = s.log := rfl
@[simp] theorem State.setIssuer_logOvf (s : State) (i : Issuer) : (s.setIssuer i).logOvf = s.logOvf := rfl
@[simp] theorem State.setIssuer_hbm (s : State) (i : Issuer) : (s.setIssuer i).hbm = s.hbm := rfl
@[simp] theorem State.setIssuer_hline (s : State) (i : Issuer) : (s.setIssuer i).hline = s.hline := rfl
@[simp] theorem State.setIssuer_hvWords (s : State) (i : Issuer) : (s.setIssuer i).hvWords = s.hvWords := rfl
@[simp] theorem State.setIssuer_olds (s : State) (i : Issuer) : (s.setIssuer i).olds = s.olds := rfl
@[simp] theorem State.setIssuer_rels (s : State) (i : Issuer) : (s.setIssuer i).rels = s.rels := rfl
@[simp] theorem State.setIssuer_vers (s : State) (i : Issuer) : (s.setIssuer i).vers = s.vers := rfl
@[simp] theorem State.setIssuer_handed (s : State) (i : Issuer) : (s.setIssuer i).handed = s.handed := rfl
@[simp] theorem State.setIssuer_hostKnows (s : State) (i : Issuer) : (s.setIssuer i).hostKnows = s.hostKnows := rfl
@[simp] theorem State.setIssuer_l2 (s : State) (i : Issuer) : (s.setIssuer i).l2 = s.l2 := rfl
@[simp] theorem State.setIssuer_wayMask (s : State) (i : Issuer) : (s.setIssuer i).wayMask = s.wayMask := rfl
@[simp] theorem State.setIssuer_stamps (s : State) (i : Issuer) : (s.setIssuer i).stamps = s.stamps := rfl
@[simp] theorem State.setIssuer_majSet (s : State) (i : Issuer) : (s.setIssuer i).majSet = s.majSet := rfl
@[simp] theorem State.setIssuer_majTag (s : State) (i : Issuer) : (s.setIssuer i).majTag = s.majTag := rfl
@[simp] theorem State.setIssuer_majOwn (s : State) (i : Issuer) : (s.setIssuer i).majOwn = s.majOwn := rfl
@[simp] theorem State.setIssuer_majDue (s : State) (i : Issuer) : (s.setIssuer i).majDue = s.majDue := rfl
@[simp] theorem State.setIssuer_version (s : State) (i : Issuer) : (s.setIssuer i).version = s.version := rfl
@[simp] theorem State.setIssuer_majWrites (s : State) (i : Issuer) : (s.setIssuer i).majWrites = s.majWrites := rfl
@[simp] theorem State.setIssuer_majBacks (s : State) (i : Issuer) : (s.setIssuer i).majBacks = s.majBacks := rfl
@[simp] theorem State.setIssuer_majAsks (s : State) (i : Issuer) : (s.setIssuer i).majAsks = s.majAsks := rfl
@[simp] theorem State.setIssuer_majRepairs (s : State) (i : Issuer) : (s.setIssuer i).majRepairs = s.majRepairs := rfl
@[simp] theorem State.setIssuer_majFails (s : State) (i : Issuer) : (s.setIssuer i).majFails = s.majFails := rfl
@[simp] theorem State.setIssuer_scrubRate (s : State) (i : Issuer) : (s.setIssuer i).scrubRate = s.scrubRate := rfl
@[simp] theorem State.setIssuer_stackFailed (s : State) (i : Issuer) : (s.setIssuer i).stackFailed = s.stackFailed := rfl
@[simp] theorem State.setIssuer_caves (s : State) (i : Issuer) : (s.setIssuer i).caves = s.caves := rfl
@[simp] theorem State.setIssuer_lastVf (s : State) (i : Issuer) : (s.setIssuer i).lastVf = s.lastVf := rfl
@[simp] theorem State.setIssuer_taken (s : State) (i : Issuer) : (s.setIssuer i).taken = s.taken := rfl
@[simp] theorem State.setIssuer_lastCave (s : State) (i : Issuer) : (s.setIssuer i).lastCave = s.lastCave := rfl
@[simp] theorem State.setIssuer_tasks (s : State) (i : Issuer) : (s.setIssuer i).tasks = s.tasks := rfl
@[simp] theorem State.setIssuer_pending (s : State) (i : Issuer) : (s.setIssuer i).pending = s.pending := rfl
@[simp] theorem State.setIssuer_vft (s : State) (i : Issuer) : (s.setIssuer i).vft = s.vft := rfl
@[simp] theorem State.setIssuer_ckptGen (s : State) (i : Issuer) : (s.setIssuer i).ckptGen = s.ckptGen := rfl
@[simp] theorem State.setIssuer_images (s : State) (i : Issuer) : (s.setIssuer i).images = s.images := rfl
@[simp] theorem State.setIssuer_endpoints (s : State) (i : Issuer) : (s.setIssuer i).endpoints = s.endpoints := rfl
@[simp] theorem State.setIssuer_portTwo (s : State) (i : Issuer) : (s.setIssuer i).portTwo = s.portTwo := rfl
@[simp] theorem State.setIssuer_mgmtSeq (s : State) (i : Issuer) : (s.setIssuer i).mgmtSeq = s.mgmtSeq := rfl
@[simp] theorem State.setIssuer_inbox (s : State) (i : Issuer) : (s.setIssuer i).inbox = s.inbox := rfl
@[simp] theorem State.setIssuer_wire (s : State) (i : Issuer) : (s.setIssuer i).wire = s.wire := rfl
@[simp] theorem State.setIssuer_outbox (s : State) (i : Issuer) : (s.setIssuer i).outbox = s.outbox := rfl
@[simp] theorem State.setIssuer_holds (s : State) (i : Issuer) : (s.setIssuer i).holds = s.holds := rfl
@[simp] theorem State.setIssuer_launches (s : State) (i : Issuer) : (s.setIssuer i).launches = s.launches := rfl
@[simp] theorem State.setIssuer_errRecords (s : State) (i : Issuer) : (s.setIssuer i).errRecords = s.errRecords := rfl
@[simp] theorem State.setIssuer_errCounts (s : State) (i : Issuer) : (s.setIssuer i).errCounts = s.errCounts := rfl
@[simp] theorem State.setIssuer_sys (s : State) (i : Issuer) : (s.setIssuer i).sys = s.sys := rfl
@[simp] theorem State.setIssuer_issuer (s : State) (i : Issuer) : (s.setIssuer i).issuer = i := rfl
@[simp] theorem State.setIssuer_tick (s : State) (i : Issuer) : (s.setIssuer i).tick = s.tick := rfl
@[simp] theorem State.setIssuer_serial (s : State) (i : Issuer) : (s.setIssuer i).serial = s.serial := rfl

/-! ### State.count -/

@[simp] theorem State.count_clock (s : State) (core pid code n : Nat) : (s.count core pid code n).clock = s.clock := rfl
@[simp] theorem State.count_pops (s : State) (core pid code n : Nat) : (s.count core pid code n).pops = s.pops := rfl
@[simp] theorem State.count_frags (s : State) (core pid code n : Nat) : (s.count core pid code n).frags = s.frags := rfl
@[simp] theorem State.count_ovfs (s : State) (core pid code n : Nat) : (s.count core pid code n).ovfs = s.ovfs := rfl
@[simp] theorem State.count_pmcSel (s : State) (core pid code n : Nat) : (s.count core pid code n).pmcSel = s.pmcSel := rfl
@[simp] theorem State.count_role (s : State) (core pid code n : Nat) : (s.count core pid code n).role = s.role := rfl
@[simp] theorem State.count_roleDue (s : State) (core pid code n : Nat) : (s.count core pid code n).roleDue = s.roleDue := rfl
@[simp] theorem State.count_cstore (s : State) (core pid code n : Nat) : (s.count core pid code n).cstore = s.cstore := rfl
@[simp] theorem State.count_cline (s : State) (core pid code n : Nat) : (s.count core pid code n).cline = s.cline := rfl
@[simp] theorem State.count_fifos (s : State) (core pid code n : Nat) : (s.count core pid code n).fifos = s.fifos := rfl
@[simp] theorem State.count_ccache (s : State) (core pid code n : Nat) : (s.count core pid code n).ccache = s.ccache := rfl
@[simp] theorem State.count_locks (s : State) (core pid code n : Nat) : (s.count core pid code n).locks = s.locks := rfl
@[simp] theorem State.count_tiles (s : State) (core pid code n : Nat) : (s.count core pid code n).tiles = s.tiles := rfl
@[simp] theorem State.count_tilePoison (s : State) (core pid code n : Nat) : (s.count core pid code n).tilePoison = s.tilePoison := rfl
@[simp] theorem State.count_tlb (s : State) (core pid code n : Nat) : (s.count core pid code n).tlb = s.tlb := rfl
@[simp] theorem State.count_invals (s : State) (core pid code n : Nat) : (s.count core pid code n).invals = s.invals := rfl
@[simp] theorem State.count_log (s : State) (core pid code n : Nat) : (s.count core pid code n).log = s.log := rfl
@[simp] theorem State.count_logOvf (s : State) (core pid code n : Nat) : (s.count core pid code n).logOvf = s.logOvf := rfl
@[simp] theorem State.count_hbm (s : State) (core pid code n : Nat) : (s.count core pid code n).hbm = s.hbm := rfl
@[simp] theorem State.count_hline (s : State) (core pid code n : Nat) : (s.count core pid code n).hline = s.hline := rfl
@[simp] theorem State.count_hvWords (s : State) (core pid code n : Nat) : (s.count core pid code n).hvWords = s.hvWords := rfl
@[simp] theorem State.count_olds (s : State) (core pid code n : Nat) : (s.count core pid code n).olds = s.olds := rfl
@[simp] theorem State.count_rels (s : State) (core pid code n : Nat) : (s.count core pid code n).rels = s.rels := rfl
@[simp] theorem State.count_vers (s : State) (core pid code n : Nat) : (s.count core pid code n).vers = s.vers := rfl
@[simp] theorem State.count_handed (s : State) (core pid code n : Nat) : (s.count core pid code n).handed = s.handed := rfl
@[simp] theorem State.count_hostKnows (s : State) (core pid code n : Nat) : (s.count core pid code n).hostKnows = s.hostKnows := rfl
@[simp] theorem State.count_l2 (s : State) (core pid code n : Nat) : (s.count core pid code n).l2 = s.l2 := rfl
@[simp] theorem State.count_wayMask (s : State) (core pid code n : Nat) : (s.count core pid code n).wayMask = s.wayMask := rfl
@[simp] theorem State.count_stamps (s : State) (core pid code n : Nat) : (s.count core pid code n).stamps = s.stamps := rfl
@[simp] theorem State.count_majSet (s : State) (core pid code n : Nat) : (s.count core pid code n).majSet = s.majSet := rfl
@[simp] theorem State.count_majTag (s : State) (core pid code n : Nat) : (s.count core pid code n).majTag = s.majTag := rfl
@[simp] theorem State.count_majOwn (s : State) (core pid code n : Nat) : (s.count core pid code n).majOwn = s.majOwn := rfl
@[simp] theorem State.count_majDue (s : State) (core pid code n : Nat) : (s.count core pid code n).majDue = s.majDue := rfl
@[simp] theorem State.count_version (s : State) (core pid code n : Nat) : (s.count core pid code n).version = s.version := rfl
@[simp] theorem State.count_majWrites (s : State) (core pid code n : Nat) : (s.count core pid code n).majWrites = s.majWrites := rfl
@[simp] theorem State.count_majBacks (s : State) (core pid code n : Nat) : (s.count core pid code n).majBacks = s.majBacks := rfl
@[simp] theorem State.count_majAsks (s : State) (core pid code n : Nat) : (s.count core pid code n).majAsks = s.majAsks := rfl
@[simp] theorem State.count_majRepairs (s : State) (core pid code n : Nat) : (s.count core pid code n).majRepairs = s.majRepairs := rfl
@[simp] theorem State.count_majFails (s : State) (core pid code n : Nat) : (s.count core pid code n).majFails = s.majFails := rfl
@[simp] theorem State.count_scrubRate (s : State) (core pid code n : Nat) : (s.count core pid code n).scrubRate = s.scrubRate := rfl
@[simp] theorem State.count_stackFailed (s : State) (core pid code n : Nat) : (s.count core pid code n).stackFailed = s.stackFailed := rfl
@[simp] theorem State.count_caves (s : State) (core pid code n : Nat) : (s.count core pid code n).caves = s.caves := rfl
@[simp] theorem State.count_lastVf (s : State) (core pid code n : Nat) : (s.count core pid code n).lastVf = s.lastVf := rfl
@[simp] theorem State.count_taken (s : State) (core pid code n : Nat) : (s.count core pid code n).taken = s.taken := rfl
@[simp] theorem State.count_lastCave (s : State) (core pid code n : Nat) : (s.count core pid code n).lastCave = s.lastCave := rfl
@[simp] theorem State.count_tasks (s : State) (core pid code n : Nat) : (s.count core pid code n).tasks = s.tasks := rfl
@[simp] theorem State.count_pending (s : State) (core pid code n : Nat) : (s.count core pid code n).pending = s.pending := rfl
@[simp] theorem State.count_vft (s : State) (core pid code n : Nat) : (s.count core pid code n).vft = s.vft := rfl
@[simp] theorem State.count_ckptGen (s : State) (core pid code n : Nat) : (s.count core pid code n).ckptGen = s.ckptGen := rfl
@[simp] theorem State.count_images (s : State) (core pid code n : Nat) : (s.count core pid code n).images = s.images := rfl
@[simp] theorem State.count_endpoints (s : State) (core pid code n : Nat) : (s.count core pid code n).endpoints = s.endpoints := rfl
@[simp] theorem State.count_portTwo (s : State) (core pid code n : Nat) : (s.count core pid code n).portTwo = s.portTwo := rfl
@[simp] theorem State.count_mgmtSeq (s : State) (core pid code n : Nat) : (s.count core pid code n).mgmtSeq = s.mgmtSeq := rfl
@[simp] theorem State.count_inbox (s : State) (core pid code n : Nat) : (s.count core pid code n).inbox = s.inbox := rfl
@[simp] theorem State.count_wire (s : State) (core pid code n : Nat) : (s.count core pid code n).wire = s.wire := rfl
@[simp] theorem State.count_outbox (s : State) (core pid code n : Nat) : (s.count core pid code n).outbox = s.outbox := rfl
@[simp] theorem State.count_holds (s : State) (core pid code n : Nat) : (s.count core pid code n).holds = s.holds := rfl
@[simp] theorem State.count_launches (s : State) (core pid code n : Nat) : (s.count core pid code n).launches = s.launches := rfl
@[simp] theorem State.count_errRecords (s : State) (core pid code n : Nat) : (s.count core pid code n).errRecords = s.errRecords := rfl
@[simp] theorem State.count_errCounts (s : State) (core pid code n : Nat) : (s.count core pid code n).errCounts = s.errCounts := rfl
@[simp] theorem State.count_sys (s : State) (core pid code n : Nat) : (s.count core pid code n).sys = s.sys := rfl
@[simp] theorem State.count_issuer (s : State) (core pid code n : Nat) : (s.count core pid code n).issuer = s.issuer := rfl
@[simp] theorem State.count_tick (s : State) (core pid code n : Nat) : (s.count core pid code n).tick = s.tick := rfl
@[simp] theorem State.count_serial (s : State) (core pid code n : Nat) : (s.count core pid code n).serial = s.serial := rfl

/-! ### State.setFrag -/

@[simp] theorem State.setFrag_clock (s : State) (core k : Nat) (f : Frag) : (s.setFrag core k f).clock = s.clock := rfl
@[simp] theorem State.setFrag_pops (s : State) (core k : Nat) (f : Frag) : (s.setFrag core k f).pops = s.pops := rfl
@[simp] theorem State.setFrag_frags (s : State) (core k : Nat) (f : Frag) : (s.setFrag core k f).frags = Tab.put Frag.empty s.frags (256 * core + k) f := rfl
@[simp] theorem State.setFrag_ovfs (s : State) (core k : Nat) (f : Frag) : (s.setFrag core k f).ovfs = s.ovfs := rfl
@[simp] theorem State.setFrag_pmc (s : State) (core k : Nat) (f : Frag) : (s.setFrag core k f).pmc = s.pmc := rfl
@[simp] theorem State.setFrag_pmcSel (s : State) (core k : Nat) (f : Frag) : (s.setFrag core k f).pmcSel = s.pmcSel := rfl
@[simp] theorem State.setFrag_role (s : State) (core k : Nat) (f : Frag) : (s.setFrag core k f).role = s.role := rfl
@[simp] theorem State.setFrag_roleDue (s : State) (core k : Nat) (f : Frag) : (s.setFrag core k f).roleDue = s.roleDue := rfl
@[simp] theorem State.setFrag_cstore (s : State) (core k : Nat) (f : Frag) : (s.setFrag core k f).cstore = s.cstore := rfl
@[simp] theorem State.setFrag_cline (s : State) (core k : Nat) (f : Frag) : (s.setFrag core k f).cline = s.cline := rfl
@[simp] theorem State.setFrag_fifos (s : State) (core k : Nat) (f : Frag) : (s.setFrag core k f).fifos = s.fifos := rfl
@[simp] theorem State.setFrag_ccache (s : State) (core k : Nat) (f : Frag) : (s.setFrag core k f).ccache = s.ccache := rfl
@[simp] theorem State.setFrag_locks (s : State) (core k : Nat) (f : Frag) : (s.setFrag core k f).locks = s.locks := rfl
@[simp] theorem State.setFrag_tiles (s : State) (core k : Nat) (f : Frag) : (s.setFrag core k f).tiles = s.tiles := rfl
@[simp] theorem State.setFrag_tilePoison (s : State) (core k : Nat) (f : Frag) : (s.setFrag core k f).tilePoison = s.tilePoison := rfl
@[simp] theorem State.setFrag_tlb (s : State) (core k : Nat) (f : Frag) : (s.setFrag core k f).tlb = s.tlb := rfl
@[simp] theorem State.setFrag_invals (s : State) (core k : Nat) (f : Frag) : (s.setFrag core k f).invals = s.invals := rfl
@[simp] theorem State.setFrag_log (s : State) (core k : Nat) (f : Frag) : (s.setFrag core k f).log = s.log := rfl
@[simp] theorem State.setFrag_logOvf (s : State) (core k : Nat) (f : Frag) : (s.setFrag core k f).logOvf = s.logOvf := rfl
@[simp] theorem State.setFrag_hbm (s : State) (core k : Nat) (f : Frag) : (s.setFrag core k f).hbm = s.hbm := rfl
@[simp] theorem State.setFrag_hline (s : State) (core k : Nat) (f : Frag) : (s.setFrag core k f).hline = s.hline := rfl
@[simp] theorem State.setFrag_hvWords (s : State) (core k : Nat) (f : Frag) : (s.setFrag core k f).hvWords = s.hvWords := rfl
@[simp] theorem State.setFrag_olds (s : State) (core k : Nat) (f : Frag) : (s.setFrag core k f).olds = s.olds := rfl
@[simp] theorem State.setFrag_rels (s : State) (core k : Nat) (f : Frag) : (s.setFrag core k f).rels = s.rels := rfl
@[simp] theorem State.setFrag_vers (s : State) (core k : Nat) (f : Frag) : (s.setFrag core k f).vers = s.vers := rfl
@[simp] theorem State.setFrag_handed (s : State) (core k : Nat) (f : Frag) : (s.setFrag core k f).handed = s.handed := rfl
@[simp] theorem State.setFrag_hostKnows (s : State) (core k : Nat) (f : Frag) : (s.setFrag core k f).hostKnows = s.hostKnows := rfl
@[simp] theorem State.setFrag_l2 (s : State) (core k : Nat) (f : Frag) : (s.setFrag core k f).l2 = s.l2 := rfl
@[simp] theorem State.setFrag_wayMask (s : State) (core k : Nat) (f : Frag) : (s.setFrag core k f).wayMask = s.wayMask := rfl
@[simp] theorem State.setFrag_stamps (s : State) (core k : Nat) (f : Frag) : (s.setFrag core k f).stamps = s.stamps := rfl
@[simp] theorem State.setFrag_majSet (s : State) (core k : Nat) (f : Frag) : (s.setFrag core k f).majSet = s.majSet := rfl
@[simp] theorem State.setFrag_majTag (s : State) (core k : Nat) (f : Frag) : (s.setFrag core k f).majTag = s.majTag := rfl
@[simp] theorem State.setFrag_majOwn (s : State) (core k : Nat) (f : Frag) : (s.setFrag core k f).majOwn = s.majOwn := rfl
@[simp] theorem State.setFrag_majDue (s : State) (core k : Nat) (f : Frag) : (s.setFrag core k f).majDue = s.majDue := rfl
@[simp] theorem State.setFrag_version (s : State) (core k : Nat) (f : Frag) : (s.setFrag core k f).version = s.version := rfl
@[simp] theorem State.setFrag_majWrites (s : State) (core k : Nat) (f : Frag) : (s.setFrag core k f).majWrites = s.majWrites := rfl
@[simp] theorem State.setFrag_majBacks (s : State) (core k : Nat) (f : Frag) : (s.setFrag core k f).majBacks = s.majBacks := rfl
@[simp] theorem State.setFrag_majAsks (s : State) (core k : Nat) (f : Frag) : (s.setFrag core k f).majAsks = s.majAsks := rfl
@[simp] theorem State.setFrag_majRepairs (s : State) (core k : Nat) (f : Frag) : (s.setFrag core k f).majRepairs = s.majRepairs := rfl
@[simp] theorem State.setFrag_majFails (s : State) (core k : Nat) (f : Frag) : (s.setFrag core k f).majFails = s.majFails := rfl
@[simp] theorem State.setFrag_scrubRate (s : State) (core k : Nat) (f : Frag) : (s.setFrag core k f).scrubRate = s.scrubRate := rfl
@[simp] theorem State.setFrag_stackFailed (s : State) (core k : Nat) (f : Frag) : (s.setFrag core k f).stackFailed = s.stackFailed := rfl
@[simp] theorem State.setFrag_caves (s : State) (core k : Nat) (f : Frag) : (s.setFrag core k f).caves = s.caves := rfl
@[simp] theorem State.setFrag_lastVf (s : State) (core k : Nat) (f : Frag) : (s.setFrag core k f).lastVf = s.lastVf := rfl
@[simp] theorem State.setFrag_taken (s : State) (core k : Nat) (f : Frag) : (s.setFrag core k f).taken = s.taken := rfl
@[simp] theorem State.setFrag_lastCave (s : State) (core k : Nat) (f : Frag) : (s.setFrag core k f).lastCave = s.lastCave := rfl
@[simp] theorem State.setFrag_tasks (s : State) (core k : Nat) (f : Frag) : (s.setFrag core k f).tasks = s.tasks := rfl
@[simp] theorem State.setFrag_pending (s : State) (core k : Nat) (f : Frag) : (s.setFrag core k f).pending = s.pending := rfl
@[simp] theorem State.setFrag_vft (s : State) (core k : Nat) (f : Frag) : (s.setFrag core k f).vft = s.vft := rfl
@[simp] theorem State.setFrag_ckptGen (s : State) (core k : Nat) (f : Frag) : (s.setFrag core k f).ckptGen = s.ckptGen := rfl
@[simp] theorem State.setFrag_images (s : State) (core k : Nat) (f : Frag) : (s.setFrag core k f).images = s.images := rfl
@[simp] theorem State.setFrag_endpoints (s : State) (core k : Nat) (f : Frag) : (s.setFrag core k f).endpoints = s.endpoints := rfl
@[simp] theorem State.setFrag_portTwo (s : State) (core k : Nat) (f : Frag) : (s.setFrag core k f).portTwo = s.portTwo := rfl
@[simp] theorem State.setFrag_mgmtSeq (s : State) (core k : Nat) (f : Frag) : (s.setFrag core k f).mgmtSeq = s.mgmtSeq := rfl
@[simp] theorem State.setFrag_inbox (s : State) (core k : Nat) (f : Frag) : (s.setFrag core k f).inbox = s.inbox := rfl
@[simp] theorem State.setFrag_wire (s : State) (core k : Nat) (f : Frag) : (s.setFrag core k f).wire = s.wire := rfl
@[simp] theorem State.setFrag_outbox (s : State) (core k : Nat) (f : Frag) : (s.setFrag core k f).outbox = s.outbox := rfl
@[simp] theorem State.setFrag_holds (s : State) (core k : Nat) (f : Frag) : (s.setFrag core k f).holds = s.holds := rfl
@[simp] theorem State.setFrag_launches (s : State) (core k : Nat) (f : Frag) : (s.setFrag core k f).launches = s.launches := rfl
@[simp] theorem State.setFrag_errRecords (s : State) (core k : Nat) (f : Frag) : (s.setFrag core k f).errRecords = s.errRecords := rfl
@[simp] theorem State.setFrag_errCounts (s : State) (core k : Nat) (f : Frag) : (s.setFrag core k f).errCounts = s.errCounts := rfl
@[simp] theorem State.setFrag_sys (s : State) (core k : Nat) (f : Frag) : (s.setFrag core k f).sys = s.sys := rfl
@[simp] theorem State.setFrag_issuer (s : State) (core k : Nat) (f : Frag) : (s.setFrag core k f).issuer = s.issuer := rfl
@[simp] theorem State.setFrag_tick (s : State) (core k : Nat) (f : Frag) : (s.setFrag core k f).tick = s.tick := rfl
@[simp] theorem State.setFrag_serial (s : State) (core k : Nat) (f : Frag) : (s.setFrag core k f).serial = s.serial := rfl

/-! ### State.setOvf -/

@[simp] theorem State.setOvf_clock (s : State) (core k : Nat) (f : Frag) : (s.setOvf core k f).clock = s.clock := rfl
@[simp] theorem State.setOvf_pops (s : State) (core k : Nat) (f : Frag) : (s.setOvf core k f).pops = s.pops := rfl
@[simp] theorem State.setOvf_frags (s : State) (core k : Nat) (f : Frag) : (s.setOvf core k f).frags = s.frags := rfl
@[simp] theorem State.setOvf_ovfs (s : State) (core k : Nat) (f : Frag) : (s.setOvf core k f).ovfs = Tab.put Frag.empty s.ovfs (64 * core + k) f := rfl
@[simp] theorem State.setOvf_pmc (s : State) (core k : Nat) (f : Frag) : (s.setOvf core k f).pmc = s.pmc := rfl
@[simp] theorem State.setOvf_pmcSel (s : State) (core k : Nat) (f : Frag) : (s.setOvf core k f).pmcSel = s.pmcSel := rfl
@[simp] theorem State.setOvf_role (s : State) (core k : Nat) (f : Frag) : (s.setOvf core k f).role = s.role := rfl
@[simp] theorem State.setOvf_roleDue (s : State) (core k : Nat) (f : Frag) : (s.setOvf core k f).roleDue = s.roleDue := rfl
@[simp] theorem State.setOvf_cstore (s : State) (core k : Nat) (f : Frag) : (s.setOvf core k f).cstore = s.cstore := rfl
@[simp] theorem State.setOvf_cline (s : State) (core k : Nat) (f : Frag) : (s.setOvf core k f).cline = s.cline := rfl
@[simp] theorem State.setOvf_fifos (s : State) (core k : Nat) (f : Frag) : (s.setOvf core k f).fifos = s.fifos := rfl
@[simp] theorem State.setOvf_ccache (s : State) (core k : Nat) (f : Frag) : (s.setOvf core k f).ccache = s.ccache := rfl
@[simp] theorem State.setOvf_locks (s : State) (core k : Nat) (f : Frag) : (s.setOvf core k f).locks = s.locks := rfl
@[simp] theorem State.setOvf_tiles (s : State) (core k : Nat) (f : Frag) : (s.setOvf core k f).tiles = s.tiles := rfl
@[simp] theorem State.setOvf_tilePoison (s : State) (core k : Nat) (f : Frag) : (s.setOvf core k f).tilePoison = s.tilePoison := rfl
@[simp] theorem State.setOvf_tlb (s : State) (core k : Nat) (f : Frag) : (s.setOvf core k f).tlb = s.tlb := rfl
@[simp] theorem State.setOvf_invals (s : State) (core k : Nat) (f : Frag) : (s.setOvf core k f).invals = s.invals := rfl
@[simp] theorem State.setOvf_log (s : State) (core k : Nat) (f : Frag) : (s.setOvf core k f).log = s.log := rfl
@[simp] theorem State.setOvf_logOvf (s : State) (core k : Nat) (f : Frag) : (s.setOvf core k f).logOvf = s.logOvf := rfl
@[simp] theorem State.setOvf_hbm (s : State) (core k : Nat) (f : Frag) : (s.setOvf core k f).hbm = s.hbm := rfl
@[simp] theorem State.setOvf_hline (s : State) (core k : Nat) (f : Frag) : (s.setOvf core k f).hline = s.hline := rfl
@[simp] theorem State.setOvf_hvWords (s : State) (core k : Nat) (f : Frag) : (s.setOvf core k f).hvWords = s.hvWords := rfl
@[simp] theorem State.setOvf_olds (s : State) (core k : Nat) (f : Frag) : (s.setOvf core k f).olds = s.olds := rfl
@[simp] theorem State.setOvf_rels (s : State) (core k : Nat) (f : Frag) : (s.setOvf core k f).rels = s.rels := rfl
@[simp] theorem State.setOvf_vers (s : State) (core k : Nat) (f : Frag) : (s.setOvf core k f).vers = s.vers := rfl
@[simp] theorem State.setOvf_handed (s : State) (core k : Nat) (f : Frag) : (s.setOvf core k f).handed = s.handed := rfl
@[simp] theorem State.setOvf_hostKnows (s : State) (core k : Nat) (f : Frag) : (s.setOvf core k f).hostKnows = s.hostKnows := rfl
@[simp] theorem State.setOvf_l2 (s : State) (core k : Nat) (f : Frag) : (s.setOvf core k f).l2 = s.l2 := rfl
@[simp] theorem State.setOvf_wayMask (s : State) (core k : Nat) (f : Frag) : (s.setOvf core k f).wayMask = s.wayMask := rfl
@[simp] theorem State.setOvf_stamps (s : State) (core k : Nat) (f : Frag) : (s.setOvf core k f).stamps = s.stamps := rfl
@[simp] theorem State.setOvf_majSet (s : State) (core k : Nat) (f : Frag) : (s.setOvf core k f).majSet = s.majSet := rfl
@[simp] theorem State.setOvf_majTag (s : State) (core k : Nat) (f : Frag) : (s.setOvf core k f).majTag = s.majTag := rfl
@[simp] theorem State.setOvf_majOwn (s : State) (core k : Nat) (f : Frag) : (s.setOvf core k f).majOwn = s.majOwn := rfl
@[simp] theorem State.setOvf_majDue (s : State) (core k : Nat) (f : Frag) : (s.setOvf core k f).majDue = s.majDue := rfl
@[simp] theorem State.setOvf_version (s : State) (core k : Nat) (f : Frag) : (s.setOvf core k f).version = s.version := rfl
@[simp] theorem State.setOvf_majWrites (s : State) (core k : Nat) (f : Frag) : (s.setOvf core k f).majWrites = s.majWrites := rfl
@[simp] theorem State.setOvf_majBacks (s : State) (core k : Nat) (f : Frag) : (s.setOvf core k f).majBacks = s.majBacks := rfl
@[simp] theorem State.setOvf_majAsks (s : State) (core k : Nat) (f : Frag) : (s.setOvf core k f).majAsks = s.majAsks := rfl
@[simp] theorem State.setOvf_majRepairs (s : State) (core k : Nat) (f : Frag) : (s.setOvf core k f).majRepairs = s.majRepairs := rfl
@[simp] theorem State.setOvf_majFails (s : State) (core k : Nat) (f : Frag) : (s.setOvf core k f).majFails = s.majFails := rfl
@[simp] theorem State.setOvf_scrubRate (s : State) (core k : Nat) (f : Frag) : (s.setOvf core k f).scrubRate = s.scrubRate := rfl
@[simp] theorem State.setOvf_stackFailed (s : State) (core k : Nat) (f : Frag) : (s.setOvf core k f).stackFailed = s.stackFailed := rfl
@[simp] theorem State.setOvf_caves (s : State) (core k : Nat) (f : Frag) : (s.setOvf core k f).caves = s.caves := rfl
@[simp] theorem State.setOvf_lastVf (s : State) (core k : Nat) (f : Frag) : (s.setOvf core k f).lastVf = s.lastVf := rfl
@[simp] theorem State.setOvf_taken (s : State) (core k : Nat) (f : Frag) : (s.setOvf core k f).taken = s.taken := rfl
@[simp] theorem State.setOvf_lastCave (s : State) (core k : Nat) (f : Frag) : (s.setOvf core k f).lastCave = s.lastCave := rfl
@[simp] theorem State.setOvf_tasks (s : State) (core k : Nat) (f : Frag) : (s.setOvf core k f).tasks = s.tasks := rfl
@[simp] theorem State.setOvf_pending (s : State) (core k : Nat) (f : Frag) : (s.setOvf core k f).pending = s.pending := rfl
@[simp] theorem State.setOvf_vft (s : State) (core k : Nat) (f : Frag) : (s.setOvf core k f).vft = s.vft := rfl
@[simp] theorem State.setOvf_ckptGen (s : State) (core k : Nat) (f : Frag) : (s.setOvf core k f).ckptGen = s.ckptGen := rfl
@[simp] theorem State.setOvf_images (s : State) (core k : Nat) (f : Frag) : (s.setOvf core k f).images = s.images := rfl
@[simp] theorem State.setOvf_endpoints (s : State) (core k : Nat) (f : Frag) : (s.setOvf core k f).endpoints = s.endpoints := rfl
@[simp] theorem State.setOvf_portTwo (s : State) (core k : Nat) (f : Frag) : (s.setOvf core k f).portTwo = s.portTwo := rfl
@[simp] theorem State.setOvf_mgmtSeq (s : State) (core k : Nat) (f : Frag) : (s.setOvf core k f).mgmtSeq = s.mgmtSeq := rfl
@[simp] theorem State.setOvf_inbox (s : State) (core k : Nat) (f : Frag) : (s.setOvf core k f).inbox = s.inbox := rfl
@[simp] theorem State.setOvf_wire (s : State) (core k : Nat) (f : Frag) : (s.setOvf core k f).wire = s.wire := rfl
@[simp] theorem State.setOvf_outbox (s : State) (core k : Nat) (f : Frag) : (s.setOvf core k f).outbox = s.outbox := rfl
@[simp] theorem State.setOvf_holds (s : State) (core k : Nat) (f : Frag) : (s.setOvf core k f).holds = s.holds := rfl
@[simp] theorem State.setOvf_launches (s : State) (core k : Nat) (f : Frag) : (s.setOvf core k f).launches = s.launches := rfl
@[simp] theorem State.setOvf_errRecords (s : State) (core k : Nat) (f : Frag) : (s.setOvf core k f).errRecords = s.errRecords := rfl
@[simp] theorem State.setOvf_errCounts (s : State) (core k : Nat) (f : Frag) : (s.setOvf core k f).errCounts = s.errCounts := rfl
@[simp] theorem State.setOvf_sys (s : State) (core k : Nat) (f : Frag) : (s.setOvf core k f).sys = s.sys := rfl
@[simp] theorem State.setOvf_issuer (s : State) (core k : Nat) (f : Frag) : (s.setOvf core k f).issuer = s.issuer := rfl
@[simp] theorem State.setOvf_tick (s : State) (core k : Nat) (f : Frag) : (s.setOvf core k f).tick = s.tick := rfl
@[simp] theorem State.setOvf_serial (s : State) (core k : Nat) (f : Frag) : (s.setOvf core k f).serial = s.serial := rfl

/-! ### State.mgmtReply -/

@[simp] theorem State.mgmtReply_clock (s : State) (tag : Word32) (st : Status) (b : List Byte) : (s.mgmtReply tag st b).clock = s.clock := rfl
@[simp] theorem State.mgmtReply_pops (s : State) (tag : Word32) (st : Status) (b : List Byte) : (s.mgmtReply tag st b).pops = s.pops := rfl
@[simp] theorem State.mgmtReply_frags (s : State) (tag : Word32) (st : Status) (b : List Byte) : (s.mgmtReply tag st b).frags = s.frags := rfl
@[simp] theorem State.mgmtReply_ovfs (s : State) (tag : Word32) (st : Status) (b : List Byte) : (s.mgmtReply tag st b).ovfs = s.ovfs := rfl
@[simp] theorem State.mgmtReply_pmc (s : State) (tag : Word32) (st : Status) (b : List Byte) : (s.mgmtReply tag st b).pmc = s.pmc := rfl
@[simp] theorem State.mgmtReply_pmcSel (s : State) (tag : Word32) (st : Status) (b : List Byte) : (s.mgmtReply tag st b).pmcSel = s.pmcSel := rfl
@[simp] theorem State.mgmtReply_role (s : State) (tag : Word32) (st : Status) (b : List Byte) : (s.mgmtReply tag st b).role = s.role := rfl
@[simp] theorem State.mgmtReply_roleDue (s : State) (tag : Word32) (st : Status) (b : List Byte) : (s.mgmtReply tag st b).roleDue = s.roleDue := rfl
@[simp] theorem State.mgmtReply_cstore (s : State) (tag : Word32) (st : Status) (b : List Byte) : (s.mgmtReply tag st b).cstore = s.cstore := rfl
@[simp] theorem State.mgmtReply_cline (s : State) (tag : Word32) (st : Status) (b : List Byte) : (s.mgmtReply tag st b).cline = s.cline := rfl
@[simp] theorem State.mgmtReply_fifos (s : State) (tag : Word32) (st : Status) (b : List Byte) : (s.mgmtReply tag st b).fifos = s.fifos := rfl
@[simp] theorem State.mgmtReply_ccache (s : State) (tag : Word32) (st : Status) (b : List Byte) : (s.mgmtReply tag st b).ccache = s.ccache := rfl
@[simp] theorem State.mgmtReply_locks (s : State) (tag : Word32) (st : Status) (b : List Byte) : (s.mgmtReply tag st b).locks = s.locks := rfl
@[simp] theorem State.mgmtReply_tiles (s : State) (tag : Word32) (st : Status) (b : List Byte) : (s.mgmtReply tag st b).tiles = s.tiles := rfl
@[simp] theorem State.mgmtReply_tilePoison (s : State) (tag : Word32) (st : Status) (b : List Byte) : (s.mgmtReply tag st b).tilePoison = s.tilePoison := rfl
@[simp] theorem State.mgmtReply_tlb (s : State) (tag : Word32) (st : Status) (b : List Byte) : (s.mgmtReply tag st b).tlb = s.tlb := rfl
@[simp] theorem State.mgmtReply_invals (s : State) (tag : Word32) (st : Status) (b : List Byte) : (s.mgmtReply tag st b).invals = s.invals := rfl
@[simp] theorem State.mgmtReply_log (s : State) (tag : Word32) (st : Status) (b : List Byte) : (s.mgmtReply tag st b).log = s.log := rfl
@[simp] theorem State.mgmtReply_logOvf (s : State) (tag : Word32) (st : Status) (b : List Byte) : (s.mgmtReply tag st b).logOvf = s.logOvf := rfl
@[simp] theorem State.mgmtReply_hbm (s : State) (tag : Word32) (st : Status) (b : List Byte) : (s.mgmtReply tag st b).hbm = s.hbm := rfl
@[simp] theorem State.mgmtReply_hline (s : State) (tag : Word32) (st : Status) (b : List Byte) : (s.mgmtReply tag st b).hline = s.hline := rfl
@[simp] theorem State.mgmtReply_hvWords (s : State) (tag : Word32) (st : Status) (b : List Byte) : (s.mgmtReply tag st b).hvWords = s.hvWords := rfl
@[simp] theorem State.mgmtReply_olds (s : State) (tag : Word32) (st : Status) (b : List Byte) : (s.mgmtReply tag st b).olds = s.olds := rfl
@[simp] theorem State.mgmtReply_rels (s : State) (tag : Word32) (st : Status) (b : List Byte) : (s.mgmtReply tag st b).rels = s.rels := rfl
@[simp] theorem State.mgmtReply_vers (s : State) (tag : Word32) (st : Status) (b : List Byte) : (s.mgmtReply tag st b).vers = s.vers := rfl
@[simp] theorem State.mgmtReply_handed (s : State) (tag : Word32) (st : Status) (b : List Byte) : (s.mgmtReply tag st b).handed = s.handed := rfl
@[simp] theorem State.mgmtReply_hostKnows (s : State) (tag : Word32) (st : Status) (b : List Byte) : (s.mgmtReply tag st b).hostKnows = s.hostKnows := rfl
@[simp] theorem State.mgmtReply_l2 (s : State) (tag : Word32) (st : Status) (b : List Byte) : (s.mgmtReply tag st b).l2 = s.l2 := rfl
@[simp] theorem State.mgmtReply_wayMask (s : State) (tag : Word32) (st : Status) (b : List Byte) : (s.mgmtReply tag st b).wayMask = s.wayMask := rfl
@[simp] theorem State.mgmtReply_stamps (s : State) (tag : Word32) (st : Status) (b : List Byte) : (s.mgmtReply tag st b).stamps = s.stamps := rfl
@[simp] theorem State.mgmtReply_majSet (s : State) (tag : Word32) (st : Status) (b : List Byte) : (s.mgmtReply tag st b).majSet = s.majSet := rfl
@[simp] theorem State.mgmtReply_majTag (s : State) (tag : Word32) (st : Status) (b : List Byte) : (s.mgmtReply tag st b).majTag = s.majTag := rfl
@[simp] theorem State.mgmtReply_majOwn (s : State) (tag : Word32) (st : Status) (b : List Byte) : (s.mgmtReply tag st b).majOwn = s.majOwn := rfl
@[simp] theorem State.mgmtReply_majDue (s : State) (tag : Word32) (st : Status) (b : List Byte) : (s.mgmtReply tag st b).majDue = s.majDue := rfl
@[simp] theorem State.mgmtReply_version (s : State) (tag : Word32) (st : Status) (b : List Byte) : (s.mgmtReply tag st b).version = s.version := rfl
@[simp] theorem State.mgmtReply_majWrites (s : State) (tag : Word32) (st : Status) (b : List Byte) : (s.mgmtReply tag st b).majWrites = s.majWrites := rfl
@[simp] theorem State.mgmtReply_majBacks (s : State) (tag : Word32) (st : Status) (b : List Byte) : (s.mgmtReply tag st b).majBacks = s.majBacks := rfl
@[simp] theorem State.mgmtReply_majAsks (s : State) (tag : Word32) (st : Status) (b : List Byte) : (s.mgmtReply tag st b).majAsks = s.majAsks := rfl
@[simp] theorem State.mgmtReply_majRepairs (s : State) (tag : Word32) (st : Status) (b : List Byte) : (s.mgmtReply tag st b).majRepairs = s.majRepairs := rfl
@[simp] theorem State.mgmtReply_majFails (s : State) (tag : Word32) (st : Status) (b : List Byte) : (s.mgmtReply tag st b).majFails = s.majFails := rfl
@[simp] theorem State.mgmtReply_scrubRate (s : State) (tag : Word32) (st : Status) (b : List Byte) : (s.mgmtReply tag st b).scrubRate = s.scrubRate := rfl
@[simp] theorem State.mgmtReply_stackFailed (s : State) (tag : Word32) (st : Status) (b : List Byte) : (s.mgmtReply tag st b).stackFailed = s.stackFailed := rfl
@[simp] theorem State.mgmtReply_caves (s : State) (tag : Word32) (st : Status) (b : List Byte) : (s.mgmtReply tag st b).caves = s.caves := rfl
@[simp] theorem State.mgmtReply_lastVf (s : State) (tag : Word32) (st : Status) (b : List Byte) : (s.mgmtReply tag st b).lastVf = s.lastVf := rfl
@[simp] theorem State.mgmtReply_taken (s : State) (tag : Word32) (st : Status) (b : List Byte) : (s.mgmtReply tag st b).taken = s.taken := rfl
@[simp] theorem State.mgmtReply_lastCave (s : State) (tag : Word32) (st : Status) (b : List Byte) : (s.mgmtReply tag st b).lastCave = s.lastCave := rfl
@[simp] theorem State.mgmtReply_tasks (s : State) (tag : Word32) (st : Status) (b : List Byte) : (s.mgmtReply tag st b).tasks = s.tasks := rfl
@[simp] theorem State.mgmtReply_pending (s : State) (tag : Word32) (st : Status) (b : List Byte) : (s.mgmtReply tag st b).pending = s.pending := rfl
@[simp] theorem State.mgmtReply_vft (s : State) (tag : Word32) (st : Status) (b : List Byte) : (s.mgmtReply tag st b).vft = s.vft := rfl
@[simp] theorem State.mgmtReply_ckptGen (s : State) (tag : Word32) (st : Status) (b : List Byte) : (s.mgmtReply tag st b).ckptGen = s.ckptGen := rfl
@[simp] theorem State.mgmtReply_images (s : State) (tag : Word32) (st : Status) (b : List Byte) : (s.mgmtReply tag st b).images = s.images := rfl
@[simp] theorem State.mgmtReply_endpoints (s : State) (tag : Word32) (st : Status) (b : List Byte) : (s.mgmtReply tag st b).endpoints = s.endpoints := rfl
@[simp] theorem State.mgmtReply_portTwo (s : State) (tag : Word32) (st : Status) (b : List Byte) : (s.mgmtReply tag st b).portTwo = s.portTwo := rfl
@[simp] theorem State.mgmtReply_mgmtSeq (s : State) (tag : Word32) (st : Status) (b : List Byte) : (s.mgmtReply tag st b).mgmtSeq = s.mgmtSeq := rfl
@[simp] theorem State.mgmtReply_inbox (s : State) (tag : Word32) (st : Status) (b : List Byte) : (s.mgmtReply tag st b).inbox = s.inbox := rfl
@[simp] theorem State.mgmtReply_wire (s : State) (tag : Word32) (st : Status) (b : List Byte) : (s.mgmtReply tag st b).wire = s.wire := rfl
@[simp] theorem State.mgmtReply_outbox (s : State) (tag : Word32) (st : Status) (b : List Byte) : (s.mgmtReply tag st b).outbox = s.outbox ++ [.mgmt 0x86 tag st b] := rfl
@[simp] theorem State.mgmtReply_holds (s : State) (tag : Word32) (st : Status) (b : List Byte) : (s.mgmtReply tag st b).holds = s.holds := rfl
@[simp] theorem State.mgmtReply_launches (s : State) (tag : Word32) (st : Status) (b : List Byte) : (s.mgmtReply tag st b).launches = s.launches := rfl
@[simp] theorem State.mgmtReply_errRecords (s : State) (tag : Word32) (st : Status) (b : List Byte) : (s.mgmtReply tag st b).errRecords = s.errRecords := rfl
@[simp] theorem State.mgmtReply_errCounts (s : State) (tag : Word32) (st : Status) (b : List Byte) : (s.mgmtReply tag st b).errCounts = s.errCounts := rfl
@[simp] theorem State.mgmtReply_sys (s : State) (tag : Word32) (st : Status) (b : List Byte) : (s.mgmtReply tag st b).sys = s.sys := rfl
@[simp] theorem State.mgmtReply_issuer (s : State) (tag : Word32) (st : Status) (b : List Byte) : (s.mgmtReply tag st b).issuer = s.issuer := rfl
@[simp] theorem State.mgmtReply_tick (s : State) (tag : Word32) (st : Status) (b : List Byte) : (s.mgmtReply tag st b).tick = s.tick := rfl
@[simp] theorem State.mgmtReply_serial (s : State) (tag : Word32) (st : Status) (b : List Byte) : (s.mgmtReply tag st b).serial = s.serial := rfl

/-! ### Pop.setCp -/

@[simp] theorem Pop.setCp_vf (p : Pop) (k : Nat) (c : Cp) : (p.setCp k c).vf = p.vf := rfl
@[simp] theorem Pop.setCp_task (p : Pop) (k : Nat) (c : Cp) : (p.setCp k c).task = p.task := rfl
@[simp] theorem Pop.setCp_cave (p : Pop) (k : Nat) (c : Cp) : (p.setCp k c).cave = p.cave := rfl
@[simp] theorem Pop.setCp_seq (p : Pop) (k : Nat) (c : Cp) : (p.setCp k c).seq = p.seq := rfl
@[simp] theorem Pop.setCp_popix (p : Pop) (k : Nat) (c : Cp) : (p.setCp k c).popix = p.popix := rfl
@[simp] theorem Pop.setCp_npop (p : Pop) (k : Nat) (c : Cp) : (p.setCp k c).npop = p.npop := rfl
@[simp] theorem Pop.setCp_key (p : Pop) (k : Nat) (c : Cp) : (p.setCp k c).key = p.key := rfl
@[simp] theorem Pop.setCp_nest (p : Pop) (k : Nat) (c : Cp) : (p.setCp k c).nest = p.nest := rfl
@[simp] theorem Pop.setCp_lanes (p : Pop) (k : Nat) (c : Cp) : (p.setCp k c).lanes = p.lanes := rfl
@[simp] theorem Pop.setCp_regs (p : Pop) (k : Nat) (c : Cp) : (p.setCp k c).regs = p.regs := rfl
@[simp] theorem Pop.setCp_ncp (p : Pop) (k : Nat) (c : Cp) : (p.setCp k c).ncp = p.ncp := rfl
@[simp] theorem Pop.setCp_banks (p : Pop) (k : Nat) (c : Cp) : (p.setCp k c).banks = p.banks := rfl
@[simp] theorem Pop.setCp_tiles (p : Pop) (k : Nat) (c : Cp) : (p.setCp k c).tiles = p.tiles := rfl
@[simp] theorem Pop.setCp_prio (p : Pop) (k : Nat) (c : Cp) : (p.setCp k c).prio = p.prio := rfl
@[simp] theorem Pop.setCp_asid (p : Pop) (k : Nat) (c : Cp) : (p.setCp k c).asid = p.asid := rfl
@[simp] theorem Pop.setCp_policy (p : Pop) (k : Nat) (c : Cp) : (p.setCp k c).policy = p.policy := rfl
@[simp] theorem Pop.setCp_handler (p : Pop) (k : Nat) (c : Cp) : (p.setCp k c).handler = p.handler := rfl
@[simp] theorem Pop.setCp_word1 (p : Pop) (k : Nat) (c : Cp) : (p.setCp k c).word1 = p.word1 := rfl
@[simp] theorem Pop.setCp_cluster (p : Pop) (k : Nat) (c : Cp) : (p.setCp k c).cluster = p.cluster := rfl
@[simp] theorem Pop.setCp_base (p : Pop) (k : Nat) (c : Cp) : (p.setCp k c).base = p.base := rfl
@[simp] theorem Pop.setCp_groups (p : Pop) (k : Nat) (c : Cp) : (p.setCp k c).groups = p.groups := rfl
@[simp] theorem Pop.setCp_coreid (p : Pop) (k : Nat) (c : Cp) : (p.setCp k c).coreid = p.coreid := rfl
@[simp] theorem Pop.setCp_cluid (p : Pop) (k : Nat) (c : Cp) : (p.setCp k c).cluid = p.cluid := rfl
@[simp] theorem Pop.setCp_v (p : Pop) (k : Nat) (c : Cp) : (p.setCp k c).v = p.v := rfl
@[simp] theorem Pop.setCp_status (p : Pop) (k : Nat) (c : Cp) : (p.setCp k c).status = p.status := rfl
@[simp] theorem Pop.setCp_faults (p : Pop) (k : Nat) (c : Cp) : (p.setCp k c).faults = p.faults := rfl
@[simp] theorem Pop.setCp_errors (p : Pop) (k : Nat) (c : Cp) : (p.setCp k c).errors = p.errors := rfl
@[simp] theorem Pop.setCp_cps (p : Pop) (k : Nat) (c : Cp) : (p.setCp k c).cps = Tab.insert p.cps k c := rfl
@[simp] theorem Pop.setCp_stream (p : Pop) (k : Nat) (c : Cp) : (p.setCp k c).stream = p.stream := rfl
@[simp] theorem Pop.setCp_flagsDue (p : Pop) (k : Nat) (c : Cp) : (p.setCp k c).flagsDue = p.flagsDue := rfl
@[simp] theorem Pop.setCp_aborted (p : Pop) (k : Nat) (c : Cp) : (p.setCp k c).aborted = p.aborted := rfl
@[simp] theorem Pop.setCp_preempting (p : Pop) (k : Nat) (c : Cp) : (p.setCp k c).preempting = p.preempting := rfl
@[simp] theorem Pop.setCp_code (p : Pop) (k : Nat) (c : Cp) : (p.setCp k c).code = p.code := rfl
@[simp] theorem Pop.setCp_since (p : Pop) (k : Nat) (c : Cp) : (p.setCp k c).since = p.since := rfl
@[simp] theorem Pop.setCp_lastCp (p : Pop) (k : Nat) (c : Cp) : (p.setCp k c).lastCp = p.lastCp := rfl

/-! ### Pop.setV -/

@[simp] theorem Pop.setV_vf (p : Pop) (lane reg : Nat) (x : Word32) : (p.setV lane reg x).vf = p.vf := rfl
@[simp] theorem Pop.setV_task (p : Pop) (lane reg : Nat) (x : Word32) : (p.setV lane reg x).task = p.task := rfl
@[simp] theorem Pop.setV_cave (p : Pop) (lane reg : Nat) (x : Word32) : (p.setV lane reg x).cave = p.cave := rfl
@[simp] theorem Pop.setV_seq (p : Pop) (lane reg : Nat) (x : Word32) : (p.setV lane reg x).seq = p.seq := rfl
@[simp] theorem Pop.setV_popix (p : Pop) (lane reg : Nat) (x : Word32) : (p.setV lane reg x).popix = p.popix := rfl
@[simp] theorem Pop.setV_npop (p : Pop) (lane reg : Nat) (x : Word32) : (p.setV lane reg x).npop = p.npop := rfl
@[simp] theorem Pop.setV_key (p : Pop) (lane reg : Nat) (x : Word32) : (p.setV lane reg x).key = p.key := rfl
@[simp] theorem Pop.setV_nest (p : Pop) (lane reg : Nat) (x : Word32) : (p.setV lane reg x).nest = p.nest := rfl
@[simp] theorem Pop.setV_lanes (p : Pop) (lane reg : Nat) (x : Word32) : (p.setV lane reg x).lanes = p.lanes := rfl
@[simp] theorem Pop.setV_regs (p : Pop) (lane reg : Nat) (x : Word32) : (p.setV lane reg x).regs = p.regs := rfl
@[simp] theorem Pop.setV_ncp (p : Pop) (lane reg : Nat) (x : Word32) : (p.setV lane reg x).ncp = p.ncp := rfl
@[simp] theorem Pop.setV_banks (p : Pop) (lane reg : Nat) (x : Word32) : (p.setV lane reg x).banks = p.banks := rfl
@[simp] theorem Pop.setV_tiles (p : Pop) (lane reg : Nat) (x : Word32) : (p.setV lane reg x).tiles = p.tiles := rfl
@[simp] theorem Pop.setV_prio (p : Pop) (lane reg : Nat) (x : Word32) : (p.setV lane reg x).prio = p.prio := rfl
@[simp] theorem Pop.setV_asid (p : Pop) (lane reg : Nat) (x : Word32) : (p.setV lane reg x).asid = p.asid := rfl
@[simp] theorem Pop.setV_policy (p : Pop) (lane reg : Nat) (x : Word32) : (p.setV lane reg x).policy = p.policy := rfl
@[simp] theorem Pop.setV_handler (p : Pop) (lane reg : Nat) (x : Word32) : (p.setV lane reg x).handler = p.handler := rfl
@[simp] theorem Pop.setV_word1 (p : Pop) (lane reg : Nat) (x : Word32) : (p.setV lane reg x).word1 = p.word1 := rfl
@[simp] theorem Pop.setV_cluster (p : Pop) (lane reg : Nat) (x : Word32) : (p.setV lane reg x).cluster = p.cluster := rfl
@[simp] theorem Pop.setV_base (p : Pop) (lane reg : Nat) (x : Word32) : (p.setV lane reg x).base = p.base := rfl
@[simp] theorem Pop.setV_groups (p : Pop) (lane reg : Nat) (x : Word32) : (p.setV lane reg x).groups = p.groups := rfl
@[simp] theorem Pop.setV_coreid (p : Pop) (lane reg : Nat) (x : Word32) : (p.setV lane reg x).coreid = p.coreid := rfl
@[simp] theorem Pop.setV_cluid (p : Pop) (lane reg : Nat) (x : Word32) : (p.setV lane reg x).cluid = p.cluid := rfl
@[simp] theorem Pop.setV_v (p : Pop) (lane reg : Nat) (x : Word32) : (p.setV lane reg x).v = Tab.put 0 p.v (2048 * lane + reg) x := rfl
@[simp] theorem Pop.setV_status (p : Pop) (lane reg : Nat) (x : Word32) : (p.setV lane reg x).status = p.status := rfl
@[simp] theorem Pop.setV_faults (p : Pop) (lane reg : Nat) (x : Word32) : (p.setV lane reg x).faults = p.faults := rfl
@[simp] theorem Pop.setV_errors (p : Pop) (lane reg : Nat) (x : Word32) : (p.setV lane reg x).errors = p.errors := rfl
@[simp] theorem Pop.setV_cps (p : Pop) (lane reg : Nat) (x : Word32) : (p.setV lane reg x).cps = p.cps := rfl
@[simp] theorem Pop.setV_stream (p : Pop) (lane reg : Nat) (x : Word32) : (p.setV lane reg x).stream = p.stream := rfl
@[simp] theorem Pop.setV_flagsDue (p : Pop) (lane reg : Nat) (x : Word32) : (p.setV lane reg x).flagsDue = p.flagsDue := rfl
@[simp] theorem Pop.setV_aborted (p : Pop) (lane reg : Nat) (x : Word32) : (p.setV lane reg x).aborted = p.aborted := rfl
@[simp] theorem Pop.setV_preempting (p : Pop) (lane reg : Nat) (x : Word32) : (p.setV lane reg x).preempting = p.preempting := rfl
@[simp] theorem Pop.setV_code (p : Pop) (lane reg : Nat) (x : Word32) : (p.setV lane reg x).code = p.code := rfl
@[simp] theorem Pop.setV_since (p : Pop) (lane reg : Nat) (x : Word32) : (p.setV lane reg x).since = p.since := rfl
@[simp] theorem Pop.setV_lastCp (p : Pop) (lane reg : Nat) (x : Word32) : (p.setV lane reg x).lastCp = p.lastCp := rfl

/-! ### Cp.setS -/

@[simp] theorem Cp.setS_ctx (c : Cp) (k : SReg) (x : Word64) : (c.setS k x).ctx = c.ctx := rfl
@[simp] theorem Cp.setS_s (c : Cp) (k : SReg) (x : Word64) : (c.setS k x).s = Tab.put 0 c.s k.toNat x := rfl
@[simp] theorem Cp.setS_mode (c : Cp) (k : SReg) (x : Word64) : (c.setS k x).mode = c.mode := rfl
@[simp] theorem Cp.setS_flags (c : Cp) (k : SReg) (x : Word64) : (c.setS k x).flags = c.flags := rfl
@[simp] theorem Cp.setS_tpc (c : Cp) (k : SReg) (x : Word64) : (c.setS k x).tpc = c.tpc := rfl
@[simp] theorem Cp.setS_tcause (c : Cp) (k : SReg) (x : Word64) : (c.setS k x).tcause = c.tcause := rfl
@[simp] theorem Cp.setS_taddr (c : Cp) (k : SReg) (x : Word64) : (c.setS k x).taddr = c.taddr := rfl
@[simp] theorem Cp.setS_tlane (c : Cp) (k : SReg) (x : Word64) : (c.setS k x).tlane = c.tlane := rfl
@[simp] theorem Cp.setS_gen (c : Cp) (k : SReg) (x : Word64) : (c.setS k x).gen = c.gen := rfl
@[simp] theorem Cp.setS_hdr (c : Cp) (k : SReg) (x : Word64) : (c.setS k x).hdr = c.hdr := rfl
@[simp] theorem Cp.setS_widx (c : Cp) (k : SReg) (x : Word64) : (c.setS k x).widx = c.widx := rfl
@[simp] theorem Cp.setS_clause (c : Cp) (k : SReg) (x : Word64) : (c.setS k x).clause = c.clause := rfl
@[simp] theorem Cp.setS_issuing (c : Cp) (k : SReg) (x : Word64) : (c.setS k x).issuing = c.issuing := rfl
@[simp] theorem Cp.setS_entry (c : Cp) (k : SReg) (x : Word64) : (c.setS k x).entry = c.entry := rfl
@[simp] theorem Cp.setS_d0 (c : Cp) (k : SReg) (x : Word64) : (c.setS k x).d0 = c.d0 := rfl
@[simp] theorem Cp.setS_fresh (c : Cp) (k : SReg) (x : Word64) : (c.setS k x).fresh = c.fresh := rfl
@[simp] theorem Cp.setS_save (c : Cp) (k : SReg) (x : Word64) : (c.setS k x).save = c.save := rfl
@[simp] theorem Cp.setS_replayF (c : Cp) (k : SReg) (x : Word64) : (c.setS k x).replayF = c.replayF := rfl
@[simp] theorem Cp.setS_m (c : Cp) (k : SReg) (x : Word64) : (c.setS k x).m = c.m := rfl
@[simp] theorem Cp.setS_stack (c : Cp) (k : SReg) (x : Word64) : (c.setS k x).stack = c.stack := rfl
@[simp] theorem Cp.setS_pend (c : Cp) (k : SReg) (x : Word64) : (c.setS k x).pend = c.pend := rfl
@[simp] theorem Cp.setS_asyncs (c : Cp) (k : SReg) (x : Word64) : (c.setS k x).asyncs = c.asyncs := rfl
@[simp] theorem Cp.setS_wait (c : Cp) (k : SReg) (x : Word64) : (c.setS k x).wait = c.wait := rfl
@[simp] theorem Cp.setS_waitWord (c : Cp) (k : SReg) (x : Word64) : (c.setS k x).waitWord = c.waitWord := rfl
@[simp] theorem Cp.setS_waitLoc (c : Cp) (k : SReg) (x : Word64) : (c.setS k x).waitLoc = c.waitLoc := rfl
@[simp] theorem Cp.setS_waitDue (c : Cp) (k : SReg) (x : Word64) : (c.setS k x).waitDue = c.waitDue := rfl
@[simp] theorem Cp.setS_waitScope (c : Cp) (k : SReg) (x : Word64) : (c.setS k x).waitScope = c.waitScope := rfl
@[simp] theorem Cp.setS_held (c : Cp) (k : SReg) (x : Word64) : (c.setS k x).held = c.held := rfl
@[simp] theorem Cp.setS_attached (c : Cp) (k : SReg) (x : Word64) : (c.setS k x).attached = c.attached := rfl
@[simp] theorem Cp.setS_halted (c : Cp) (k : SReg) (x : Word64) : (c.setS k x).halted = c.halted := rfl
@[simp] theorem Cp.setS_haltDue (c : Cp) (k : SReg) (x : Word64) : (c.setS k x).haltDue = c.haltDue := rfl
@[simp] theorem Cp.setS_stepping (c : Cp) (k : SReg) (x : Word64) : (c.setS k x).stepping = c.stepping := rfl
@[simp] theorem Cp.setS_ended (c : Cp) (k : SReg) (x : Word64) : (c.setS k x).ended = c.ended := rfl
@[simp] theorem Cp.setS_readySince (c : Cp) (k : SReg) (x : Word64) : (c.setS k x).readySince = c.readySince := rfl
@[simp] theorem Cp.setS_promoted (c : Cp) (k : SReg) (x : Word64) : (c.setS k x).promoted = c.promoted := rfl
@[simp] theorem Cp.setS_scopeTrap (c : Cp) (k : SReg) (x : Word64) : (c.setS k x).scopeTrap = c.scopeTrap := rfl
@[simp] theorem Cp.setS_know (c : Cp) (k : SReg) (x : Word64) : (c.setS k x).know = c.know := rfl
@[simp] theorem Cp.setS_learned (c : Cp) (k : SReg) (x : Word64) : (c.setS k x).learned = c.learned := rfl
@[simp] theorem Cp.setS_carried (c : Cp) (k : SReg) (x : Word64) : (c.setS k x).carried = c.carried := rfl
@[simp] theorem Cp.setS_bar (c : Cp) (k : SReg) (x : Word64) : (c.setS k x).bar = c.bar := rfl
@[simp] theorem Cp.setS_observed (c : Cp) (k : SReg) (x : Word64) : (c.setS k x).observed = c.observed := rfl
@[simp] theorem Cp.setS_fenced (c : Cp) (k : SReg) (x : Word64) : (c.setS k x).fenced = c.fenced := rfl
@[simp] theorem Cp.setS_late (c : Cp) (k : SReg) (x : Word64) : (c.setS k x).late = c.late := rfl
@[simp] theorem Cp.setS_succ (c : Cp) (k : SReg) (x : Word64) : (c.setS k x).succ = c.succ := rfl

/-! ### Cp.setM -/

@[simp] theorem Cp.setM_ctx (c : Cp) (k : MReg) (x : LaneSet) : (c.setM k x).ctx = c.ctx := rfl
@[simp] theorem Cp.setM_s (c : Cp) (k : MReg) (x : LaneSet) : (c.setM k x).s = c.s := rfl
@[simp] theorem Cp.setM_mode (c : Cp) (k : MReg) (x : LaneSet) : (c.setM k x).mode = c.mode := rfl
@[simp] theorem Cp.setM_flags (c : Cp) (k : MReg) (x : LaneSet) : (c.setM k x).flags = c.flags := rfl
@[simp] theorem Cp.setM_tpc (c : Cp) (k : MReg) (x : LaneSet) : (c.setM k x).tpc = c.tpc := rfl
@[simp] theorem Cp.setM_tcause (c : Cp) (k : MReg) (x : LaneSet) : (c.setM k x).tcause = c.tcause := rfl
@[simp] theorem Cp.setM_taddr (c : Cp) (k : MReg) (x : LaneSet) : (c.setM k x).taddr = c.taddr := rfl
@[simp] theorem Cp.setM_tlane (c : Cp) (k : MReg) (x : LaneSet) : (c.setM k x).tlane = c.tlane := rfl
@[simp] theorem Cp.setM_gen (c : Cp) (k : MReg) (x : LaneSet) : (c.setM k x).gen = c.gen := rfl
@[simp] theorem Cp.setM_hdr (c : Cp) (k : MReg) (x : LaneSet) : (c.setM k x).hdr = c.hdr := rfl
@[simp] theorem Cp.setM_widx (c : Cp) (k : MReg) (x : LaneSet) : (c.setM k x).widx = c.widx := rfl
@[simp] theorem Cp.setM_clause (c : Cp) (k : MReg) (x : LaneSet) : (c.setM k x).clause = c.clause := rfl
@[simp] theorem Cp.setM_issuing (c : Cp) (k : MReg) (x : LaneSet) : (c.setM k x).issuing = c.issuing := rfl
@[simp] theorem Cp.setM_entry (c : Cp) (k : MReg) (x : LaneSet) : (c.setM k x).entry = c.entry := rfl
@[simp] theorem Cp.setM_d0 (c : Cp) (k : MReg) (x : LaneSet) : (c.setM k x).d0 = c.d0 := rfl
@[simp] theorem Cp.setM_fresh (c : Cp) (k : MReg) (x : LaneSet) : (c.setM k x).fresh = c.fresh := rfl
@[simp] theorem Cp.setM_save (c : Cp) (k : MReg) (x : LaneSet) : (c.setM k x).save = c.save := rfl
@[simp] theorem Cp.setM_replayF (c : Cp) (k : MReg) (x : LaneSet) : (c.setM k x).replayF = c.replayF := rfl
@[simp] theorem Cp.setM_m (c : Cp) (k : MReg) (x : LaneSet) : (c.setM k x).m = Tab.put 0 c.m k.toNat x := rfl
@[simp] theorem Cp.setM_stack (c : Cp) (k : MReg) (x : LaneSet) : (c.setM k x).stack = c.stack := rfl
@[simp] theorem Cp.setM_pend (c : Cp) (k : MReg) (x : LaneSet) : (c.setM k x).pend = c.pend := rfl
@[simp] theorem Cp.setM_asyncs (c : Cp) (k : MReg) (x : LaneSet) : (c.setM k x).asyncs = c.asyncs := rfl
@[simp] theorem Cp.setM_wait (c : Cp) (k : MReg) (x : LaneSet) : (c.setM k x).wait = c.wait := rfl
@[simp] theorem Cp.setM_waitWord (c : Cp) (k : MReg) (x : LaneSet) : (c.setM k x).waitWord = c.waitWord := rfl
@[simp] theorem Cp.setM_waitLoc (c : Cp) (k : MReg) (x : LaneSet) : (c.setM k x).waitLoc = c.waitLoc := rfl
@[simp] theorem Cp.setM_waitDue (c : Cp) (k : MReg) (x : LaneSet) : (c.setM k x).waitDue = c.waitDue := rfl
@[simp] theorem Cp.setM_waitScope (c : Cp) (k : MReg) (x : LaneSet) : (c.setM k x).waitScope = c.waitScope := rfl
@[simp] theorem Cp.setM_held (c : Cp) (k : MReg) (x : LaneSet) : (c.setM k x).held = c.held := rfl
@[simp] theorem Cp.setM_attached (c : Cp) (k : MReg) (x : LaneSet) : (c.setM k x).attached = c.attached := rfl
@[simp] theorem Cp.setM_halted (c : Cp) (k : MReg) (x : LaneSet) : (c.setM k x).halted = c.halted := rfl
@[simp] theorem Cp.setM_haltDue (c : Cp) (k : MReg) (x : LaneSet) : (c.setM k x).haltDue = c.haltDue := rfl
@[simp] theorem Cp.setM_stepping (c : Cp) (k : MReg) (x : LaneSet) : (c.setM k x).stepping = c.stepping := rfl
@[simp] theorem Cp.setM_ended (c : Cp) (k : MReg) (x : LaneSet) : (c.setM k x).ended = c.ended := rfl
@[simp] theorem Cp.setM_readySince (c : Cp) (k : MReg) (x : LaneSet) : (c.setM k x).readySince = c.readySince := rfl
@[simp] theorem Cp.setM_promoted (c : Cp) (k : MReg) (x : LaneSet) : (c.setM k x).promoted = c.promoted := rfl
@[simp] theorem Cp.setM_scopeTrap (c : Cp) (k : MReg) (x : LaneSet) : (c.setM k x).scopeTrap = c.scopeTrap := rfl
@[simp] theorem Cp.setM_know (c : Cp) (k : MReg) (x : LaneSet) : (c.setM k x).know = c.know := rfl
@[simp] theorem Cp.setM_learned (c : Cp) (k : MReg) (x : LaneSet) : (c.setM k x).learned = c.learned := rfl
@[simp] theorem Cp.setM_carried (c : Cp) (k : MReg) (x : LaneSet) : (c.setM k x).carried = c.carried := rfl
@[simp] theorem Cp.setM_bar (c : Cp) (k : MReg) (x : LaneSet) : (c.setM k x).bar = c.bar := rfl
@[simp] theorem Cp.setM_observed (c : Cp) (k : MReg) (x : LaneSet) : (c.setM k x).observed = c.observed := rfl
@[simp] theorem Cp.setM_fenced (c : Cp) (k : MReg) (x : LaneSet) : (c.setM k x).fenced = c.fenced := rfl
@[simp] theorem Cp.setM_late (c : Cp) (k : MReg) (x : LaneSet) : (c.setM k x).late = c.late := rfl
@[simp] theorem Cp.setM_succ (c : Cp) (k : MReg) (x : LaneSet) : (c.setM k x).succ = c.succ := rfl

/-! ### Cp.writeM -/

@[simp] theorem Cp.writeM_ctx (c : Cp) (k : MReg) (x : LaneSet) : (c.writeM k x).ctx = c.ctx := rfl
@[simp] theorem Cp.writeM_s (c : Cp) (k : MReg) (x : LaneSet) : (c.writeM k x).s = c.s := rfl
@[simp] theorem Cp.writeM_mode (c : Cp) (k : MReg) (x : LaneSet) : (c.writeM k x).mode = c.mode := rfl
@[simp] theorem Cp.writeM_flags (c : Cp) (k : MReg) (x : LaneSet) : (c.writeM k x).flags = c.flags := rfl
@[simp] theorem Cp.writeM_tpc (c : Cp) (k : MReg) (x : LaneSet) : (c.writeM k x).tpc = c.tpc := rfl
@[simp] theorem Cp.writeM_tcause (c : Cp) (k : MReg) (x : LaneSet) : (c.writeM k x).tcause = c.tcause := rfl
@[simp] theorem Cp.writeM_taddr (c : Cp) (k : MReg) (x : LaneSet) : (c.writeM k x).taddr = c.taddr := rfl
@[simp] theorem Cp.writeM_tlane (c : Cp) (k : MReg) (x : LaneSet) : (c.writeM k x).tlane = c.tlane := rfl
@[simp] theorem Cp.writeM_gen (c : Cp) (k : MReg) (x : LaneSet) : (c.writeM k x).gen = c.gen := rfl
@[simp] theorem Cp.writeM_hdr (c : Cp) (k : MReg) (x : LaneSet) : (c.writeM k x).hdr = c.hdr := rfl
@[simp] theorem Cp.writeM_widx (c : Cp) (k : MReg) (x : LaneSet) : (c.writeM k x).widx = c.widx := rfl
@[simp] theorem Cp.writeM_clause (c : Cp) (k : MReg) (x : LaneSet) : (c.writeM k x).clause = c.clause := rfl
@[simp] theorem Cp.writeM_issuing (c : Cp) (k : MReg) (x : LaneSet) : (c.writeM k x).issuing = c.issuing := rfl
@[simp] theorem Cp.writeM_entry (c : Cp) (k : MReg) (x : LaneSet) : (c.writeM k x).entry = c.entry := rfl
@[simp] theorem Cp.writeM_d0 (c : Cp) (k : MReg) (x : LaneSet) : (c.writeM k x).d0 = c.d0 := rfl
@[simp] theorem Cp.writeM_fresh (c : Cp) (k : MReg) (x : LaneSet) : (c.writeM k x).fresh = c.fresh := rfl
@[simp] theorem Cp.writeM_save (c : Cp) (k : MReg) (x : LaneSet) : (c.writeM k x).save = c.save := rfl
@[simp] theorem Cp.writeM_replayF (c : Cp) (k : MReg) (x : LaneSet) : (c.writeM k x).replayF = c.replayF := rfl
@[simp] theorem Cp.writeM_m (c : Cp) (k : MReg) (x : LaneSet) : (c.writeM k x).m = Tab.put 0 c.m k.toNat (c.cut k x) := rfl
@[simp] theorem Cp.writeM_stack (c : Cp) (k : MReg) (x : LaneSet) : (c.writeM k x).stack = c.stack := rfl
@[simp] theorem Cp.writeM_pend (c : Cp) (k : MReg) (x : LaneSet) : (c.writeM k x).pend = c.pend := rfl
@[simp] theorem Cp.writeM_asyncs (c : Cp) (k : MReg) (x : LaneSet) : (c.writeM k x).asyncs = c.asyncs := rfl
@[simp] theorem Cp.writeM_wait (c : Cp) (k : MReg) (x : LaneSet) : (c.writeM k x).wait = c.wait := rfl
@[simp] theorem Cp.writeM_waitWord (c : Cp) (k : MReg) (x : LaneSet) : (c.writeM k x).waitWord = c.waitWord := rfl
@[simp] theorem Cp.writeM_waitLoc (c : Cp) (k : MReg) (x : LaneSet) : (c.writeM k x).waitLoc = c.waitLoc := rfl
@[simp] theorem Cp.writeM_waitDue (c : Cp) (k : MReg) (x : LaneSet) : (c.writeM k x).waitDue = c.waitDue := rfl
@[simp] theorem Cp.writeM_waitScope (c : Cp) (k : MReg) (x : LaneSet) : (c.writeM k x).waitScope = c.waitScope := rfl
@[simp] theorem Cp.writeM_held (c : Cp) (k : MReg) (x : LaneSet) : (c.writeM k x).held = c.held := rfl
@[simp] theorem Cp.writeM_attached (c : Cp) (k : MReg) (x : LaneSet) : (c.writeM k x).attached = c.attached := rfl
@[simp] theorem Cp.writeM_halted (c : Cp) (k : MReg) (x : LaneSet) : (c.writeM k x).halted = c.halted := rfl
@[simp] theorem Cp.writeM_haltDue (c : Cp) (k : MReg) (x : LaneSet) : (c.writeM k x).haltDue = c.haltDue := rfl
@[simp] theorem Cp.writeM_stepping (c : Cp) (k : MReg) (x : LaneSet) : (c.writeM k x).stepping = c.stepping := rfl
@[simp] theorem Cp.writeM_ended (c : Cp) (k : MReg) (x : LaneSet) : (c.writeM k x).ended = c.ended := rfl
@[simp] theorem Cp.writeM_readySince (c : Cp) (k : MReg) (x : LaneSet) : (c.writeM k x).readySince = c.readySince := rfl
@[simp] theorem Cp.writeM_promoted (c : Cp) (k : MReg) (x : LaneSet) : (c.writeM k x).promoted = c.promoted := rfl
@[simp] theorem Cp.writeM_scopeTrap (c : Cp) (k : MReg) (x : LaneSet) : (c.writeM k x).scopeTrap = c.scopeTrap := rfl
@[simp] theorem Cp.writeM_know (c : Cp) (k : MReg) (x : LaneSet) : (c.writeM k x).know = c.know := rfl
@[simp] theorem Cp.writeM_learned (c : Cp) (k : MReg) (x : LaneSet) : (c.writeM k x).learned = c.learned := rfl
@[simp] theorem Cp.writeM_carried (c : Cp) (k : MReg) (x : LaneSet) : (c.writeM k x).carried = c.carried := rfl
@[simp] theorem Cp.writeM_bar (c : Cp) (k : MReg) (x : LaneSet) : (c.writeM k x).bar = c.bar := rfl
@[simp] theorem Cp.writeM_observed (c : Cp) (k : MReg) (x : LaneSet) : (c.writeM k x).observed = c.observed := rfl
@[simp] theorem Cp.writeM_fenced (c : Cp) (k : MReg) (x : LaneSet) : (c.writeM k x).fenced = c.fenced := rfl
@[simp] theorem Cp.writeM_late (c : Cp) (k : MReg) (x : LaneSet) : (c.writeM k x).late = c.late := rfl
@[simp] theorem Cp.writeM_succ (c : Cp) (k : MReg) (x : LaneSet) : (c.writeM k x).succ = c.succ := rfl

/-! ### Cp.raise -/

@[simp] theorem Cp.raise_ctx (c : Cp) (f : BitVec 6) : (c.raise f).ctx = c.ctx := rfl
@[simp] theorem Cp.raise_s (c : Cp) (f : BitVec 6) : (c.raise f).s = c.s := rfl
@[simp] theorem Cp.raise_mode (c : Cp) (f : BitVec 6) : (c.raise f).mode = c.mode := rfl
@[simp] theorem Cp.raise_flags (c : Cp) (f : BitVec 6) : (c.raise f).flags = c.flags ||| f := rfl
@[simp] theorem Cp.raise_tpc (c : Cp) (f : BitVec 6) : (c.raise f).tpc = c.tpc := rfl
@[simp] theorem Cp.raise_tcause (c : Cp) (f : BitVec 6) : (c.raise f).tcause = c.tcause := rfl
@[simp] theorem Cp.raise_taddr (c : Cp) (f : BitVec 6) : (c.raise f).taddr = c.taddr := rfl
@[simp] theorem Cp.raise_tlane (c : Cp) (f : BitVec 6) : (c.raise f).tlane = c.tlane := rfl
@[simp] theorem Cp.raise_gen (c : Cp) (f : BitVec 6) : (c.raise f).gen = c.gen := rfl
@[simp] theorem Cp.raise_hdr (c : Cp) (f : BitVec 6) : (c.raise f).hdr = c.hdr := rfl
@[simp] theorem Cp.raise_widx (c : Cp) (f : BitVec 6) : (c.raise f).widx = c.widx := rfl
@[simp] theorem Cp.raise_clause (c : Cp) (f : BitVec 6) : (c.raise f).clause = c.clause := rfl
@[simp] theorem Cp.raise_issuing (c : Cp) (f : BitVec 6) : (c.raise f).issuing = c.issuing := rfl
@[simp] theorem Cp.raise_entry (c : Cp) (f : BitVec 6) : (c.raise f).entry = c.entry := rfl
@[simp] theorem Cp.raise_d0 (c : Cp) (f : BitVec 6) : (c.raise f).d0 = c.d0 := rfl
@[simp] theorem Cp.raise_fresh (c : Cp) (f : BitVec 6) : (c.raise f).fresh = c.fresh := rfl
@[simp] theorem Cp.raise_save (c : Cp) (f : BitVec 6) : (c.raise f).save = c.save := rfl
@[simp] theorem Cp.raise_replayF (c : Cp) (f : BitVec 6) : (c.raise f).replayF = c.replayF := rfl
@[simp] theorem Cp.raise_m (c : Cp) (f : BitVec 6) : (c.raise f).m = c.m := rfl
@[simp] theorem Cp.raise_stack (c : Cp) (f : BitVec 6) : (c.raise f).stack = c.stack := rfl
@[simp] theorem Cp.raise_pend (c : Cp) (f : BitVec 6) : (c.raise f).pend = c.pend := rfl
@[simp] theorem Cp.raise_asyncs (c : Cp) (f : BitVec 6) : (c.raise f).asyncs = c.asyncs := rfl
@[simp] theorem Cp.raise_wait (c : Cp) (f : BitVec 6) : (c.raise f).wait = c.wait := rfl
@[simp] theorem Cp.raise_waitWord (c : Cp) (f : BitVec 6) : (c.raise f).waitWord = c.waitWord := rfl
@[simp] theorem Cp.raise_waitLoc (c : Cp) (f : BitVec 6) : (c.raise f).waitLoc = c.waitLoc := rfl
@[simp] theorem Cp.raise_waitDue (c : Cp) (f : BitVec 6) : (c.raise f).waitDue = c.waitDue := rfl
@[simp] theorem Cp.raise_waitScope (c : Cp) (f : BitVec 6) : (c.raise f).waitScope = c.waitScope := rfl
@[simp] theorem Cp.raise_held (c : Cp) (f : BitVec 6) : (c.raise f).held = c.held := rfl
@[simp] theorem Cp.raise_attached (c : Cp) (f : BitVec 6) : (c.raise f).attached = c.attached := rfl
@[simp] theorem Cp.raise_halted (c : Cp) (f : BitVec 6) : (c.raise f).halted = c.halted := rfl
@[simp] theorem Cp.raise_haltDue (c : Cp) (f : BitVec 6) : (c.raise f).haltDue = c.haltDue := rfl
@[simp] theorem Cp.raise_stepping (c : Cp) (f : BitVec 6) : (c.raise f).stepping = c.stepping := rfl
@[simp] theorem Cp.raise_ended (c : Cp) (f : BitVec 6) : (c.raise f).ended = c.ended := rfl
@[simp] theorem Cp.raise_readySince (c : Cp) (f : BitVec 6) : (c.raise f).readySince = c.readySince := rfl
@[simp] theorem Cp.raise_promoted (c : Cp) (f : BitVec 6) : (c.raise f).promoted = c.promoted := rfl
@[simp] theorem Cp.raise_scopeTrap (c : Cp) (f : BitVec 6) : (c.raise f).scopeTrap = c.scopeTrap := rfl
@[simp] theorem Cp.raise_know (c : Cp) (f : BitVec 6) : (c.raise f).know = c.know := rfl
@[simp] theorem Cp.raise_learned (c : Cp) (f : BitVec 6) : (c.raise f).learned = c.learned := rfl
@[simp] theorem Cp.raise_carried (c : Cp) (f : BitVec 6) : (c.raise f).carried = c.carried := rfl
@[simp] theorem Cp.raise_bar (c : Cp) (f : BitVec 6) : (c.raise f).bar = c.bar := rfl
@[simp] theorem Cp.raise_observed (c : Cp) (f : BitVec 6) : (c.raise f).observed = c.observed := rfl
@[simp] theorem Cp.raise_fenced (c : Cp) (f : BitVec 6) : (c.raise f).fenced = c.fenced := rfl
@[simp] theorem Cp.raise_late (c : Cp) (f : BitVec 6) : (c.raise f).late = c.late := rfl
@[simp] theorem Cp.raise_succ (c : Cp) (f : BitVec 6) : (c.raise f).succ = c.succ := rfl

/-! ### Cp.atHdr -/

@[simp] theorem Cp.atHdr_ctx (c : Cp) (clock target : Word64) : (c.atHdr clock target).ctx = c.ctx := rfl
@[simp] theorem Cp.atHdr_s (c : Cp) (clock target : Word64) : (c.atHdr clock target).s = c.s := rfl
@[simp] theorem Cp.atHdr_mode (c : Cp) (clock target : Word64) : (c.atHdr clock target).mode = c.mode := rfl
@[simp] theorem Cp.atHdr_flags (c : Cp) (clock target : Word64) : (c.atHdr clock target).flags = c.flags := rfl
@[simp] theorem Cp.atHdr_tpc (c : Cp) (clock target : Word64) : (c.atHdr clock target).tpc = c.tpc := rfl
@[simp] theorem Cp.atHdr_tcause (c : Cp) (clock target : Word64) : (c.atHdr clock target).tcause = c.tcause := rfl
@[simp] theorem Cp.atHdr_taddr (c : Cp) (clock target : Word64) : (c.atHdr clock target).taddr = c.taddr := rfl
@[simp] theorem Cp.atHdr_tlane (c : Cp) (clock target : Word64) : (c.atHdr clock target).tlane = c.tlane := rfl
@[simp] theorem Cp.atHdr_gen (c : Cp) (clock target : Word64) : (c.atHdr clock target).gen = c.gen := rfl
@[simp] theorem Cp.atHdr_hdr (c : Cp) (clock target : Word64) : (c.atHdr clock target).hdr = target := rfl
@[simp] theorem Cp.atHdr_widx (c : Cp) (clock target : Word64) : (c.atHdr clock target).widx = 0 := rfl
@[simp] theorem Cp.atHdr_clause (c : Cp) (clock target : Word64) : (c.atHdr clock target).clause = [] := rfl
@[simp] theorem Cp.atHdr_issuing (c : Cp) (clock target : Word64) : (c.atHdr clock target).issuing = false := rfl
@[simp] theorem Cp.atHdr_entry (c : Cp) (clock target : Word64) : (c.atHdr clock target).entry = c.entry := rfl
@[simp] theorem Cp.atHdr_d0 (c : Cp) (clock target : Word64) : (c.atHdr clock target).d0 = c.d0 := rfl
@[simp] theorem Cp.atHdr_fresh (c : Cp) (clock target : Word64) : (c.atHdr clock target).fresh = c.fresh := rfl
@[simp] theorem Cp.atHdr_save (c : Cp) (clock target : Word64) : (c.atHdr clock target).save = c.save := rfl
@[simp] theorem Cp.atHdr_replayF (c : Cp) (clock target : Word64) : (c.atHdr clock target).replayF = c.replayF := rfl
@[simp] theorem Cp.atHdr_m (c : Cp) (clock target : Word64) : (c.atHdr clock target).m = c.m := rfl
@[simp] theorem Cp.atHdr_stack (c : Cp) (clock target : Word64) : (c.atHdr clock target).stack = c.stack := rfl
@[simp] theorem Cp.atHdr_pend (c : Cp) (clock target : Word64) : (c.atHdr clock target).pend = c.pend := rfl
@[simp] theorem Cp.atHdr_asyncs (c : Cp) (clock target : Word64) : (c.atHdr clock target).asyncs = c.asyncs := rfl
@[simp] theorem Cp.atHdr_wait (c : Cp) (clock target : Word64) : (c.atHdr clock target).wait = c.wait := rfl
@[simp] theorem Cp.atHdr_waitWord (c : Cp) (clock target : Word64) : (c.atHdr clock target).waitWord = c.waitWord := rfl
@[simp] theorem Cp.atHdr_waitLoc (c : Cp) (clock target : Word64) : (c.atHdr clock target).waitLoc = c.waitLoc := rfl
@[simp] theorem Cp.atHdr_waitDue (c : Cp) (clock target : Word64) : (c.atHdr clock target).waitDue = c.waitDue := rfl
@[simp] theorem Cp.atHdr_waitScope (c : Cp) (clock target : Word64) : (c.atHdr clock target).waitScope = c.waitScope := rfl
@[simp] theorem Cp.atHdr_held (c : Cp) (clock target : Word64) : (c.atHdr clock target).held = c.held := rfl
@[simp] theorem Cp.atHdr_attached (c : Cp) (clock target : Word64) : (c.atHdr clock target).attached = c.attached := rfl
@[simp] theorem Cp.atHdr_halted (c : Cp) (clock target : Word64) : (c.atHdr clock target).halted = c.halted := rfl
@[simp] theorem Cp.atHdr_haltDue (c : Cp) (clock target : Word64) : (c.atHdr clock target).haltDue = c.haltDue := rfl
@[simp] theorem Cp.atHdr_stepping (c : Cp) (clock target : Word64) : (c.atHdr clock target).stepping = c.stepping := rfl
@[simp] theorem Cp.atHdr_ended (c : Cp) (clock target : Word64) : (c.atHdr clock target).ended = c.ended := rfl
@[simp] theorem Cp.atHdr_readySince (c : Cp) (clock target : Word64) : (c.atHdr clock target).readySince = clock := rfl
@[simp] theorem Cp.atHdr_promoted (c : Cp) (clock target : Word64) : (c.atHdr clock target).promoted = false := rfl
@[simp] theorem Cp.atHdr_scopeTrap (c : Cp) (clock target : Word64) : (c.atHdr clock target).scopeTrap = c.scopeTrap := rfl
@[simp] theorem Cp.atHdr_know (c : Cp) (clock target : Word64) : (c.atHdr clock target).know = c.know := rfl
@[simp] theorem Cp.atHdr_learned (c : Cp) (clock target : Word64) : (c.atHdr clock target).learned = c.learned := rfl
@[simp] theorem Cp.atHdr_carried (c : Cp) (clock target : Word64) : (c.atHdr clock target).carried = c.carried := rfl
@[simp] theorem Cp.atHdr_bar (c : Cp) (clock target : Word64) : (c.atHdr clock target).bar = c.bar := rfl
@[simp] theorem Cp.atHdr_observed (c : Cp) (clock target : Word64) : (c.atHdr clock target).observed = c.observed := rfl
@[simp] theorem Cp.atHdr_fenced (c : Cp) (clock target : Word64) : (c.atHdr clock target).fenced = c.fenced := rfl
@[simp] theorem Cp.atHdr_late (c : Cp) (clock target : Word64) : (c.atHdr clock target).late = c.late := rfl
@[simp] theorem Cp.atHdr_succ (c : Cp) (clock target : Word64) : (c.atHdr clock target).succ = c.succ := rfl

end Sys2Proof.Machine
end

