-- ==== Sys2Proof/Laws/Tab.lean ====
section
/-! SUPPORT. The laws of sparse tables: reading after writing, and that writing keeps the canonical form. -/

namespace Sys2Proof.Machine

variable {α : Type}

/-! ### Reading after writing -/

@[simp] theorem Tab.find_nil (k : Nat) : Tab.find ([] : Tab α) k = none := rfl

theorem Tab.find_insert_self (t : Tab α) (k : Nat) (v : α) : Tab.find (Tab.insert t k v) k = some v := by
  induction t with
  | nil => simp [Tab.insert, Tab.find]
  | cons e t ih =>
    obtain ⟨j, w⟩ := e
    unfold Tab.insert
    split
    · simp [Tab.find]
    · split
      · simp [Tab.find]
      · simp [Tab.find, *]

theorem Tab.find_insert_ne (t : Tab α) {j k : Nat} (v : α) (h : j ≠ k) : Tab.find (Tab.insert t k v) j = Tab.find t j := by
  induction t with
  | nil => simp [Tab.insert, Tab.find, Ne.symm h]
  | cons e t ih =>
    obtain ⟨i, w⟩ := e
    unfold Tab.insert
    split
    · simp [Tab.find, Ne.symm h]
    · split
      · subst_vars; simp [Tab.find, Ne.symm h]
      · simp [Tab.find, ih]

theorem Tab.find_insert (t : Tab α) (j k : Nat) (v : α) :
    Tab.find (Tab.insert t k v) j = if j = k then some v else Tab.find t j := by
  split
  · subst_vars; exact Tab.find_insert_self t _ v
  · exact Tab.find_insert_ne t v ‹_›

theorem Tab.find_erase (t : Tab α) (j k : Nat) : Tab.find (Tab.erase t k) j = if j = k then none else Tab.find t j := by
  induction t with
  | nil => simp [Tab.erase]
  | cons e t ih =>
    obtain ⟨i, w⟩ := e
    unfold Tab.erase
    split
    · subst_vars
      rw [ih]
      split
      · rfl
      · simp only [Tab.find, if_neg (Ne.symm ‹¬j = _›)]
    · simp only [Tab.find, ih]
      split <;> split <;> simp_all

theorem Tab.erase_of_find (t : Tab α) {k : Nat} (h : Tab.find t k = none) : Tab.erase t k = t := by
  induction t with
  | nil => rfl
  | cons e t ih =>
    obtain ⟨i, w⟩ := e
    simp only [Tab.find] at h
    split at h
    · cases h
    · simp [Tab.erase, *]

theorem Tab.get_insert (d : α) (t : Tab α) (j k : Nat) (v : α) :
    Tab.get d (Tab.insert t k v) j = if j = k then v else Tab.get d t j := by
  simp only [Tab.get, Tab.find_insert]
  split <;> rfl

theorem Tab.get_erase (d : α) (t : Tab α) (j k : Nat) :
    Tab.get d (Tab.erase t k) j = if j = k then d else Tab.get d t j := by
  simp only [Tab.get, Tab.find_erase]
  split <;> rfl

/-- A read after a write gives the value written at its number and leaves every other number alone. -/
theorem Tab.get_put [DecidableEq α] (d : α) (t : Tab α) (j k : Nat) (v : α) :
    Tab.get d (Tab.put d t k v) j = if j = k then v else Tab.get d t j := by
  unfold Tab.put
  split
  · subst_vars; exact Tab.get_erase _ t j k
  · exact Tab.get_insert d t j k v

@[simp] theorem Tab.get_put_self [DecidableEq α] (d : α) (t : Tab α) (k : Nat) (v : α) : Tab.get d (Tab.put d t k v) k = v := by
  simp [Tab.get_put]

theorem Tab.get_put_ne [DecidableEq α] (d : α) (t : Tab α) {j k : Nat} (v : α) (h : j ≠ k) :
    Tab.get d (Tab.put d t k v) j = Tab.get d t j := by
  simp [Tab.get_put, h]

/-- Consecutive writes give each number in the range its value and leave the others alone. -/
theorem Tab.get_putAll [DecidableEq α] (d : α) (vs : List α) (t : Tab α) (k j : Nat) :
    Tab.get d (Tab.putAll d t k vs) j = if k ≤ j ∧ j < k + vs.length then vs.getD (j - k) d else Tab.get d t j := by
  induction vs generalizing t k with
  | nil =>
    have h : ¬(k ≤ j ∧ j < k + ([] : List α).length) := by simp only [List.length_nil]; omega
    rw [if_neg h]; rfl
  | cons v vs ih =>
    simp only [Tab.putAll, ih, Tab.get_put, List.length_cons]
    by_cases hj : j = k
    · subst hj
      have h0 : ¬(j + 1 ≤ j ∧ j < j + 1 + vs.length) := by omega
      have h1 : j ≤ j ∧ j < j + (vs.length + 1) := by omega
      rw [if_neg h0, if_pos rfl, if_pos h1, Nat.sub_self]; rfl
    · by_cases hr : k + 1 ≤ j ∧ j < k + 1 + vs.length
      · have h1 : k ≤ j ∧ j < k + (vs.length + 1) := by omega
        have h2 : j - k = (j - (k + 1)) + 1 := by omega
        rw [if_pos hr, if_pos h1, h2]; rfl
      · have h1 : ¬(k ≤ j ∧ j < k + (vs.length + 1)) := by omega
        rw [if_neg hr, if_neg h1, if_neg hj]

theorem Tab.length_getAll (d : α) (t : Tab α) (k n : Nat) : (Tab.getAll d t k n).length = n := by
  induction n generalizing k with
  | zero => rfl
  | succ n ih => simp [Tab.getAll, ih]

/-! ### The canonical form -/

theorem Tab.rises_mono {lo hi : Nat} (t : Tab α) (h : lo ≤ hi) (hr : Tab.rises hi t = true) : Tab.rises lo t = true := by
  cases t with
  | nil => rfl
  | cons e t => simp only [Tab.rises, Bool.and_eq_true, decide_eq_true_eq] at *; exact ⟨by omega, hr.2⟩

theorem Tab.rises_insert (t : Tab α) {lo k : Nat} (v : α) (hk : lo ≤ k) (h : Tab.rises lo t = true) :
    Tab.rises lo (Tab.insert t k v) = true := by
  induction t generalizing lo with
  | nil => simp [Tab.insert, Tab.rises, hk]
  | cons e t ih =>
    obtain ⟨j, w⟩ := e
    simp only [Tab.rises, Bool.and_eq_true, decide_eq_true_eq] at h
    unfold Tab.insert
    split
    · simp only [Tab.rises, Bool.and_eq_true, decide_eq_true_eq]; exact ⟨hk, by omega, h.2⟩
    · split
      · subst_vars; simp [Tab.rises, hk, h.2]
      · simp only [Tab.rises, Bool.and_eq_true, decide_eq_true_eq]; exact ⟨h.1, ih (by omega) h.2⟩

theorem Tab.rises_filter (t : Tab α) (f : Nat × α → Bool) {lo : Nat} (h : Tab.rises lo t = true) :
    Tab.rises lo (t.filter f) = true := by
  induction t generalizing lo with
  | nil => rfl
  | cons e t ih =>
    simp only [Tab.rises, Bool.and_eq_true, decide_eq_true_eq] at h
    rw [List.filter_cons]
    split
    · simp only [Tab.rises, Bool.and_eq_true, decide_eq_true_eq]; exact ⟨h.1, ih h.2⟩
    · exact ih (Tab.rises_mono t (by omega) h.2)

theorem Tab.erase_eq_filter (t : Tab α) (k : Nat) : Tab.erase t k = t.filter (fun e => e.1 ≠ k) := by
  induction t with
  | nil => rfl
  | cons e t ih =>
    obtain ⟨j, w⟩ := e
    by_cases h : j = k <;> simp [Tab.erase, h, ih]

variable [DecidableEq α]

omit [DecidableEq α] in
theorem Tab.all_insert (t : Tab α) (f : α → Bool) (k : Nat) {v : α} (hv : f v = true) (h : t.all (fun e => f e.2) = true) :
    (Tab.insert t k v).all (fun e => f e.2) = true := by
  induction t with
  | nil => simp [Tab.insert, hv]
  | cons e t ih =>
    obtain ⟨j, w⟩ := e
    simp only [List.all_cons, Bool.and_eq_true] at h
    unfold Tab.insert
    split
    · simp [hv, h]
    · split
      · simp [hv, h]
      · simp [h, ih h.2]

theorem Tab.wf_filter (d : α) (t : Tab α) (f : Nat × α → Bool) (h : Tab.wf d t = true) : Tab.wf d (t.filter f) = true := by
  simp only [Tab.wf, Bool.and_eq_true, List.all_eq_true] at *
  exact ⟨Tab.rises_filter t f h.1, fun e he => h.2 e (List.mem_filter.1 he).1⟩

theorem Tab.wf_erase (d : α) (t : Tab α) (k : Nat) (h : Tab.wf d t = true) : Tab.wf d (Tab.erase t k) = true := by
  rw [Tab.erase_eq_filter]; exact Tab.wf_filter d t _ h

theorem Tab.wf_clear (d : α) (t : Tab α) (lo n : Nat) (h : Tab.wf d t = true) : Tab.wf d (Tab.clear t lo n) = true :=
  Tab.wf_filter d t _ h

/-- A write keeps the canonical form: the default is not listed, another value is listed once, in its place. -/
theorem Tab.wf_put (d : α) (t : Tab α) (k : Nat) (v : α) (h : Tab.wf d t = true) : Tab.wf d (Tab.put d t k v) = true := by
  unfold Tab.put
  split
  · exact Tab.wf_erase d t k h
  · simp only [Tab.wf, Bool.and_eq_true] at *
    exact ⟨Tab.rises_insert t v (Nat.zero_le k) h.1, Tab.all_insert t (fun x => decide (x ≠ d)) k (by simpa using ‹_›) h.2⟩

theorem Tab.wf_putAll (d : α) (vs : List α) (t : Tab α) (k : Nat) (h : Tab.wf d t = true) : Tab.wf d (Tab.putAll d t k vs) = true := by
  induction vs generalizing t k with
  | nil => exact h
  | cons v vs ih => exact ih _ _ (Tab.wf_put d t k v h)

theorem Tab.wf_foldl_put {β : Type} (d : α) (l : List β) (f : β → Nat) (g : β → α) (t : Tab α) (h : Tab.wf d t = true) :
    Tab.wf d (l.foldl (fun t e => Tab.put d t (f e) (g e)) t) = true := by
  induction l generalizing t with
  | nil => exact h
  | cons e l ih => exact ih _ (Tab.wf_put d t _ _ h)

omit [DecidableEq α] in
theorem Tab.rises_append (a b : Tab α) {lo m : Nat} (hlo : lo ≤ m) (ha : Tab.rises lo a = true) (hm : ∀ e ∈ a, e.1 < m)
    (hb : Tab.rises m b = true) : Tab.rises lo (a ++ b) = true := by
  induction a generalizing lo with
  | nil => exact Tab.rises_mono b hlo hb
  | cons e a ih =>
    simp only [Tab.rises, List.cons_append, Bool.and_eq_true, decide_eq_true_eq] at *
    have := hm e (by simp)
    exact ⟨ha.1, ih (by omega) ha.2 (fun x hx => hm x (by simp [hx]))⟩

omit [DecidableEq α] in
theorem Tab.rises_takeWhile (t : Tab α) (f : Nat × α → Bool) {lo : Nat} (h : Tab.rises lo t = true) :
    Tab.rises lo (t.takeWhile f) = true := by
  induction t generalizing lo with
  | nil => rfl
  | cons e t ih =>
    simp only [Tab.rises, Bool.and_eq_true, decide_eq_true_eq] at h
    rw [List.takeWhile_cons]
    split
    · simp only [Tab.rises, Bool.and_eq_true, decide_eq_true_eq]; exact ⟨h.1, ih h.2⟩
    · rfl

omit [DecidableEq α] in
theorem Tab.rises_dropWhile (t : Tab α) (m : Nat) {lo : Nat} (h : Tab.rises lo t = true) :
    Tab.rises m (t.dropWhile (fun e => decide (e.1 < m))) = true := by
  induction t generalizing lo with
  | nil => rfl
  | cons e t ih =>
    simp only [Tab.rises, Bool.and_eq_true, decide_eq_true_eq] at h
    rw [List.dropWhile_cons]
    split
    · exact ih h.2
    · simp only [Tab.rises, Bool.and_eq_true, decide_eq_true_eq] at *; exact ⟨by omega, h.2⟩

/-- The entries that a block of values lists. -/
theorem Tab.rises_block (d : α) (vs : List α) (lo k : Nat) :
    Tab.rises (lo + k) ((vs.zipIdx k).filterMap (fun e => if e.1 = d then none else some (lo + e.2, e.1))) = true
      ∧ ∀ e ∈ (vs.zipIdx k).filterMap (fun e => if e.1 = d then none else some (lo + e.2, e.1)),
          e.1 < lo + k + vs.length ∧ e.2 ≠ d := by
  induction vs generalizing k with
  | nil => simp [Tab.rises]
  | cons v vs ih =>
    obtain ⟨h1, h2⟩ := ih (k + 1)
    simp only [List.zipIdx_cons, List.length_cons]
    by_cases hv : v = d
    · simp only [List.filterMap_cons, hv, if_true]
      exact ⟨Tab.rises_mono _ (by omega) h1, fun e he => ⟨by have := (h2 e he).1; omega, (h2 e he).2⟩⟩
    · simp only [List.filterMap_cons, hv, if_false]
      refine ⟨?_, fun e he => ?_⟩
      · simp only [Tab.rises, Bool.and_eq_true, decide_eq_true_eq]; exact ⟨by omega, h1⟩
      · rcases List.mem_cons.1 he with rfl | he
        · exact ⟨by dsimp only; omega, hv⟩
        · exact ⟨by have := (h2 e he).1; omega, (h2 e he).2⟩

/-- Replacing a block of values keeps the canonical form. -/
theorem Tab.wf_splice (d : α) (t : Tab α) (lo : Nat) (vs : List α) (h : Tab.wf d t = true) :
    Tab.wf d (Tab.splice d t lo vs) = true := by
  obtain ⟨hb, hm⟩ := Tab.rises_block d vs lo 0
  simp only [Tab.wf, Bool.and_eq_true, List.all_eq_true, decide_eq_true_eq] at h ⊢
  have hlt : ∀ e ∈ t.takeWhile (fun e => decide (e.1 < lo)), e.1 < lo := fun e he => by
    have := List.all_takeWhile (l := t) (p := fun e => decide (e.1 < lo))
    simpa using List.all_eq_true.1 this e he
  unfold Tab.splice
  refine ⟨?_, fun e he => ?_⟩
  · rw [List.append_assoc]
    refine Tab.rises_append _ _ (Nat.zero_le lo) (Tab.rises_takeWhile t _ h.1) hlt ?_
    exact Tab.rises_append _ _ (by omega) (by simpa using hb) (fun e he => by simpa using (hm e he).1)
      (Tab.rises_dropWhile t _ h.1)
  · rcases List.mem_append.1 he with he | he
    · rcases List.mem_append.1 he with he | he
      · exact h.2 e (List.takeWhile_subset _ he)
      · exact (hm e he).2
    · exact h.2 e (List.dropWhile_subset _ he)

end Sys2Proof.Machine
end

