-- ==== Sys2Proof/Laws/Ops.lean ====
section
/-! SUPPORT. What the shared operations on populations, control programs and clause progress do: each lemma says once all that its
operation can change. -/

namespace Sys2Proof.Machine

/-! ### Finding populations and control programs -/

theorem State.cpOf_some {s : State} {r : CpRef} {p : Pop} {c : Cp} :
    s.cpOf r = some (p, c) ↔ s.pop r.pid = some p ∧ p.cp r.cid = some c := by
  unfold State.cpOf
  constructor
  · intro h
    split at h
    · split at h
      · cases h; exact ⟨‹_›, ‹_›⟩
      · cases h
    · cases h
  · rintro ⟨h1, h2⟩
    simp [h1, h2]

@[simp] theorem State.pop_setPop_self (s : State) (k : Nat) (p : Pop) : (s.setPop k p).pop k = some p :=
  Tab.find_insert_self s.pops k p

theorem State.pop_setPop_ne (s : State) {j k : Nat} (p : Pop) (h : j ≠ k) : (s.setPop k p).pop j = s.pop j :=
  Tab.find_insert_ne s.pops p h

@[simp] theorem Pop.cp_setCp_self (p : Pop) (k : Nat) (c : Cp) : (p.setCp k c).cp k = some c :=
  Tab.find_insert_self p.cps k c

theorem Pop.cp_setCp_ne (p : Pop) {j k : Nat} (c : Cp) (h : j ≠ k) : (p.setCp k c).cp j = p.cp j :=
  Tab.find_insert_ne p.cps c h

@[simp] theorem State.pop_count (s : State) (core pid code n k : Nat) : (s.count core pid code n).pop k = s.pop k := rfl

@[simp] theorem State.cpOf_count (s : State) (core pid code n : Nat) (r : CpRef) :
    (s.count core pid code n).cpOf r = s.cpOf r := rfl

@[simp] theorem State.cpOf_setIssuer (s : State) (i : Issuer) (r : CpRef) : (s.setIssuer i).cpOf r = s.cpOf r := rfl

theorem State.updPop_of_pop {s : State} {k : Nat} {p : Pop} (h : s.pop k = some p) (f : Pop → Pop) :
    s.updPop k f = s.setPop k (f p) := by
  simp [State.updPop, h]

theorem State.updCp_of_cpOf {s : State} {r : CpRef} {p : Pop} {c : Cp} (h : s.cpOf r = some (p, c)) (f : Cp → Cp) :
    s.updCp r f = s.setPop r.pid (p.setCp r.cid (f c)) := by
  obtain ⟨hp, hc⟩ := State.cpOf_some.1 h
  simp [State.updCp, State.updPop, Pop.updCp, hp, hc]

/-! ### States that differ in one control program and its population -/

/-- u is s but for population r.pid, which has become q with control program c at r.cid, and the performance counters. -/
def Near (s : State) (r : CpRef) (p q : Pop) (c : Cp) (u : State) : Prop :=
  u = { s with pops := u.pops, pmc := u.pmc }
  ∧ (∀ k, k ≠ r.pid → u.pop k = s.pop k)
  ∧ ∃ q', u.cpOf r = some (q', c) ∧ q' = { q with cps := q'.cps } ∧ ∀ k, k ≠ r.cid → q'.cp k = p.cp k

theorem Near.refl {s : State} {r : CpRef} {p : Pop} {c : Cp} (h : s.cpOf r = some (p, c)) : Near s r p p c s :=
  ⟨rfl, fun _ _ => rfl, p, h, rfl, fun _ _ => rfl⟩

theorem Near.count {s u : State} {r : CpRef} {p q : Pop} {c : Cp} (h : Near s r p q c u) (core pid code n : Nat) :
    Near s r p q c (u.count core pid code n) := by
  obtain ⟨h1, h2, h3⟩ := h
  refine ⟨?_, h2, h3⟩
  rw [h1]; rfl

/-- Counts at several cores. -/
theorem Near.counts {s u : State} {r : CpRef} {p q : Pop} {c : Cp} (h : Near s r p q c u) (pid code : Nat) (n : Nat → Nat)
    (ks : List Nat) : Near s r p q c (ks.foldl (fun s k => s.count k pid code (n k)) u) := by
  induction ks generalizing u with
  | nil => exact h
  | cons k ks ih => exact ih (h.count k pid code (n k))

theorem Near.countLanes {s u : State} {r : CpRef} {p q : Pop} {c : Cp} (h : Near s r p q c u) (pid : Nat) (p' : Pop) (code : Nat)
    (lanes : List Nat) : Near s r p q c (u.countLanes pid p' code lanes) := h.counts pid code _ _

theorem Near.countActing {s u : State} {r : CpRef} {p q : Pop} {c : Cp} (h : Near s r p q c u) (r' : CpRef) (p' : Pop)
    (lanes : List Nat) : Near s r p q c (u.countActing r' p' lanes) := (h.countLanes r'.pid p' 0x004 lanes).counts r'.pid 0x005 _ _

/-- Replacing the population and the control program. -/
theorem Near.set {s u : State} {r : CpRef} {p q : Pop} {c : Cp} (h : Near s r p q c u) (q1 : Pop) (c1 : Cp)
    {q2 : Pop} (hq : q2 = { q1 with cps := q2.cps }) (hc : q2.cp r.cid = some c1)
    (ho : ∀ k, k ≠ r.cid → q2.cp k = p.cp k) : Near s r p q1 c1 (u.setPop r.pid q2) := by
  obtain ⟨h1, h2, -⟩ := h
  refine ⟨?_, fun k hk => ?_, q2, ?_, hq, ho⟩
  · rw [h1]; rfl
  · rw [State.pop_setPop_ne _ _ hk, h2 k hk]
  · exact State.cpOf_some.2 ⟨by simp, hc⟩

/-- A change of the control program alone. -/
theorem Near.updCp {s u : State} {r : CpRef} {p q : Pop} {c : Cp} (h : Near s r p q c u) (f : Cp → Cp) :
    Near s r p q (f c) (u.updCp r f) := by
  have h0 := h
  obtain ⟨-, -, q', hq', hqq, ho⟩ := h0
  rw [State.updCp_of_cpOf hq']
  refine h.set q (f c) ?_ (by simp) (fun k hk => by rw [Pop.cp_setCp_ne _ _ hk, ho k hk])
  rw [hqq]; rfl

/-- A change of the population that leaves its control programs as they are. -/
theorem Near.updPop {s u : State} {r : CpRef} {p q : Pop} {c : Cp} (h : Near s r p q c u) (f : Pop → Pop)
    (hf : ∀ x, (f x).cps = x.cps) (hg : ∀ x cps, f { x with cps := cps } = { f x with cps := cps }) :
    Near s r p (f q) c (u.updPop r.pid f) := by
  have h0 := h
  obtain ⟨-, -, q', hq', hqq, ho⟩ := h0
  obtain ⟨hp, hc⟩ := State.cpOf_some.1 hq'
  rw [State.updPop_of_pop hp]
  have hcp : ∀ k, (f q').cp k = q'.cp k := fun k => by simp only [Pop.cp, hf]
  refine h.set (f q) c ?_ (by rw [hcp, hc]) (fun k hk => by rw [hcp, ho k hk])
  rw [hqq, hg]

theorem Near.cpOf {s u : State} {r : CpRef} {p q : Pop} {c : Cp} (h : Near s r p q c u) :
    ∃ q', u.cpOf r = some (q', c) ∧ q' = { q with cps := q'.cps } :=
  let ⟨_, _, q', h1, h2, _⟩ := h
  ⟨q', h1, h2⟩

/-- The turn of the control program is over: it stands where d does. -/
theorem Near.leaves {s u : State} {r : CpRef} {p q : Pop} {c d : Cp} {pos : Cp → Prop} (h : Near s r p q d u)
    (hs : c.sameBut d) (hp : pos d) : Leaves s r p q c pos (u.setIssuer .none) := by
  obtain ⟨h1, h2, q', h3, h4, h5⟩ := h
  refine ⟨?_, h2, q', d, h3, h4, h5, hs, hp⟩
  rw [h1]; rfl

/-! ### The end of a word -/

theorem Cp.sameBut_atHdr (c : Cp) (clock t : Word64) : c.sameBut (c.atHdr clock t) := rfl

theorem Cp.sameBut_boundary (c : Cp) (clock t : Word64) : c.sameBut ((c.atHdr clock t).boundary) := by
  unfold Cp.boundary
  split <;> rfl

theorem Cp.boundaryAt_boundary (c : Cp) (clock t : Word64) : Cp.boundaryAt t ((c.atHdr clock t).boundary) := by
  unfold Cp.boundary
  split <;> exact ⟨rfl, rfl, rfl, rfl⟩

/-- A clause ends with no SCOPE trap due: the control program is at the boundary before the target, all else as it was. -/
theorem Near.endClause {s u : State} {r : CpRef} {p q : Pop} {c : Cp} (h : Near s r p q c u) (hn : c.scopeTrap = none)
    (target : Word64) : Leaves s r p q c (Cp.boundaryAt target) (endClause u r target) := by
  obtain ⟨q', hq', -⟩ := h.cpOf
  simp only [Sys2Proof.Machine.endClause, hq', hn]
  exact (h.updCp _).leaves (Cp.sameBut_boundary c _ _) (Cp.boundaryAt_boundary c _ _)

/-- A word completes with no SCOPE trap due: the next word or the next clause follows, all else as it was. -/
theorem Near.advance {s u : State} {r : CpRef} {p q : Pop} {c : Cp} (h : Near s r p q c u) (hn : c.scopeTrap = none) :
    Leaves s r p q c c.follows (advance u r) := by
  obtain ⟨q', hq', -⟩ := h.cpOf
  simp only [Sys2Proof.Machine.advance, hq']
  split
  · exact (h.updCp _).leaves rfl ⟨fun _ => ⟨rfl, rfl, rfl, rfl⟩, fun h => by omega⟩
  · obtain ⟨h1, h2, q2, d, h3, h4, h5, h6, h7⟩ := h.endClause hn c.nextHdr
    exact ⟨h1, h2, q2, d, h3, h4, h5, h6, fun _ => by omega, fun _ => h7⟩

/-- A word has performed and raised flags none of which is enabled: they are ORed in and the next word follows. -/
theorem Near.finish {s u : State} {r : CpRef} {p q : Pop} {c : Cp} (h : Near s r p q c u) (hn : c.scopeTrap = none)
    (fl : BitVec 6) (tlane : Word64) (hf : fl &&& c.enables = 0) :
    Leaves s r p q (c.raise fl) c.follows (finish u r fl tlane) := by
  have h' := h.updCp (fun c => c.raise fl)
  obtain ⟨q', hq', -⟩ := h'.cpOf
  have he : (c.raise fl).enables = c.enables := rfl
  simp only [Sys2Proof.Machine.finish, hq', he, hf, if_true]
  exact h'.advance hn

/-! ### Words of a control program -/

/-- A well-formed word of the control program that issues has its own effect, after the count of the word. -/
theorem onCp_eq {mn : String} {i : Instr} {s : State} {r : CpRef} {p : Pop} {c : Cp} (h : Standing s r p c)
    (hw : wordOk p.regs i = true) (f : CpRef → Pop → Cp → State → State) :
    onCp mn i s f = .next (f r p c (s.count p.home r.pid 0x003 1)) := by
  simp [onCp, h.issuer, h.cpOf, hw, h.noScope]

theorem Standing.near {s : State} {r : CpRef} {p : Pop} {c : Cp} (h : Standing s r p c) :
    Near s r p p c (s.count p.home r.pid 0x003 1) := (Near.refl h.cpOf).count _ _ _ _

/-- A scalar word writes its scalar, raises its flags and goes on. -/
theorem Near.scalarDone {s u : State} {r : CpRef} {p q : Pop} {c : Cp} (h : Near s r p q c u) (hn : c.scopeTrap = none)
    (sd : SReg) (v : Word64) (fl : Flags) (hf : fl &&& c.enables = 0) :
    Leaves s r p q ((c.setS sd v).raise fl) c.follows (scalarDone u r sd v fl) :=
  (h.updCp (fun c => c.setS sd v)).finish hn fl allOnes64 hf

/-- A set word writes its set, cut to the top level, and goes on. -/
theorem Near.setDone {s u : State} {r : CpRef} {p q : Pop} {c : Cp} (h : Near s r p q c u) (hn : c.scopeTrap = none)
    (md : MReg) (v : LaneSet) : Leaves s r p q (c.writeM md v) c.follows (setDone u r md v) :=
  (h.updCp (fun c => c.writeM md v)).advance hn

end Sys2Proof.Machine
end

