-- ==== Sys2Proof/Laws/Lane.lean ====
section
/-! SUPPORT. What writing lane registers does: the lanes of A get their values in the destination's registers, every other lane
register stays; and what a lane word leaves. -/

namespace Sys2Proof.Machine

/-! ### Sets of lanes -/

theorem getLsbD_launched (t i : Nat) : (launched t).getLsbD i = (decide (i < 16384) && decide (i < t)) := by
  simp [launched, BitVec.getLsbD_ofNat, Nat.testBit_two_pow_sub_one]

theorem getLsbD_laneBit (j i : Nat) : (laneBit j).getLsbD i = (decide (i < 16384) && decide (j = i)) := by
  rw [laneBit, BitVec.getLsbD_ofNat, Nat.testBit_two_pow]

theorem mem_lanesOf {t : Nat} {a : LaneSet} {i : Nat} : i ∈ lanesOf t a ↔ i < t ∧ a.getLsbD i = true := by
  simp [lanesOf]

theorem Pop.mem_laneList {p : Pop} {a : LaneSet} {i : Nat} : i ∈ p.laneList a ↔ i < p.lanes ∧ a.getLsbD i = true := mem_lanesOf

theorem Pop.lt_of_live {p : Pop} {i : Nat} (h : p.live.getLsbD i = true) : i < p.lanes := by
  simp only [Pop.live, BitVec.getLsbD_and, getLsbD_launched, Bool.and_eq_true, decide_eq_true_eq] at h
  exact h.1.2

theorem Pop.lt_of_shown {p : Pop} {c : Cp} {i : Nat} (h : (p.shown c).getLsbD i = true) : i < p.lanes := by
  simp only [Pop.shown, BitVec.getLsbD_or, BitVec.getLsbD_and, Bool.or_eq_true, Bool.and_eq_true] at h
  rcases h with h | ⟨⟨-, h⟩, -⟩
  · exact Pop.lt_of_live h
  · simp only [getLsbD_launched, Bool.and_eq_true, decide_eq_true_eq] at h
    exact h.2

theorem mem_laneList_acting {p : Pop} {c : Cp} {mk : MReg} {i : Nat} :
    i ∈ p.laneList (acting p c mk) ↔ (acting p c mk).getLsbD i = true := by
  rw [Pop.mem_laneList]
  refine ⟨fun h => h.2, fun h => ⟨?_, h⟩⟩
  simp only [acting, BitVec.getLsbD_and, Bool.and_eq_true] at h
  exact Pop.lt_of_shown h.2

/-- The lanes of a list, as a set. -/
theorem getLsbD_setOf (l : List Nat) (i : Nat) : (setOf l).getLsbD i = (decide (i < 16384) && decide (i ∈ l)) := by
  have h : ∀ acc : LaneSet, (l.foldl (fun acc i => acc ||| laneBit i) acc).getLsbD i
      = (acc.getLsbD i || (decide (i < 16384) && decide (i ∈ l))) := by
    induction l with
    | nil => simp
    | cons j l ih =>
      intro acc
      rw [List.foldl_cons, ih]
      simp only [BitVec.getLsbD_or, getLsbD_laneBit, List.mem_cons]
      by_cases h2 : j = i
      · subst h2; by_cases h1 : j < 16384 <;> simp [h1]
      · have h2' : ¬i = j := fun h => h2 h.symm
        by_cases h1 : i < 16384 <;> by_cases h3 : i ∈ l <;> simp [h1, h2, h2', h3]
  rw [setOf, h 0]
  simp

/-! ### Lane registers -/

theorem Pop.getV_setV (p : Pop) (i j a b : Nat) (x : Word32) (ha : a < 2048) (hb : b < 2048) :
    (p.setV i a x).getV j b = if j = i ∧ b = a then x else p.getV j b := by
  simp only [Pop.getV, Pop.setV_v, Tab.get_put]
  have : (2048 * j + b = 2048 * i + a) ↔ (j = i ∧ b = a) := by omega
  simp [this]

/-- The 32-bit part k of a pattern. -/
def part (x k : Nat) : Word32 := BitVec.ofNat 32 (x / 2 ^ (32 * k))

theorem Pop.putPat_eq (p : Pop) (i : Nat) (t : Ty) (a x : Nat) : p.putPat i t a x = { p with v := (p.putPat i t a x).v } := by
  unfold Pop.putPat Pop.setPair Pop.setV
  split <;> rfl

theorem Ty.regs_of_wide {t : Ty} (h : t.wide = true) : t.regs = 2 := by simp [Ty.regs, h]
theorem Ty.regs_of_narrow {t : Ty} (h : ¬t.wide = true) : t.regs = 1 := by simp [Ty.regs, h]

theorem Pop.getV_putPat (p : Pop) (i : Nat) (t : Ty) (a x j b : Nat) (ha : a + t.regs ≤ 2048) (hb : b < 2048) :
    (p.putPat i t a x).getV j b = if j = i ∧ a ≤ b ∧ b < a + t.regs then part x (b - a) else p.getV j b := by
  unfold Pop.putPat
  split
  · rename_i h
    rw [Ty.regs_of_wide h] at *
    rw [Pop.setPair, Pop.getV_setV _ _ _ _ _ _ (by omega) hb, Pop.getV_setV _ _ _ _ _ _ (by omega) hb]
    by_cases hj : j = i
    · by_cases h1 : b = a + 1
      · subst h1
        have : BitVec.extractLsb' 32 32 (BitVec.ofNat 64 x) = part x 1 := by
          apply BitVec.eq_of_toNat_eq
          simp [part, Nat.shiftRight_eq_div_pow]
          omega
        simp [hj, this]
      · by_cases h2 : b = a
        · subst h2
          have : BitVec.extractLsb' 0 32 (BitVec.ofNat 64 x) = part x 0 := by
            apply BitVec.eq_of_toNat_eq
            simp [part]
          simp [hj, this]
        · have : ¬(a ≤ b ∧ b < a + 2) := by omega
          simp [hj, h1, h2, this]
    · simp [hj]
  · rename_i h
    rw [Ty.regs_of_narrow h] at *
    rw [Pop.getV_setV _ _ _ _ _ _ (by omega) hb]
    have : (b = a) ↔ (a ≤ b ∧ b < a + 1) := by omega
    by_cases hj : j = i
    · by_cases h2 : b = a
      · subst h2; simp [hj, part]
      · have h3 : ¬(a ≤ b ∧ b < a + 1) := by omega
        rw [if_neg fun h => h2 h.2, if_neg fun h => h3 h.2]
    · simp [hj]

theorem putLanes_eq (p : Pop) (t : Ty) (a : Nat) (rs : List (Nat × Nat × Flags)) :
    putLanes p t a rs = { p with v := (putLanes p t a rs).v } := by
  unfold putLanes
  induction rs generalizing p with
  | nil => rfl
  | cons e rs ih =>
    rw [List.foldl_cons, ih, Pop.putPat_eq]

/-- Writing lanes from a list of results that agree with one function: the lanes listed get it, the others stay. -/
theorem getV_putLanes (p : Pop) (t : Ty) (a : Nat) (l : List Nat) (f : Nat → Nat × Flags) (ha : a + t.regs ≤ 2048) (j b : Nat)
    (hb : b < 2048) :
    (putLanes p t a (l.map (fun i => (i, f i)))).getV j b
      = if j ∈ l ∧ a ≤ b ∧ b < a + t.regs then part (f j).1 (b - a) else p.getV j b := by
  unfold putLanes
  induction l generalizing p with
  | nil => simp
  | cons i l ih =>
    rw [List.map_cons, List.foldl_cons, ih, Pop.getV_putPat _ _ _ _ _ _ _ ha hb]
    by_cases h1 : j = i
    · subst h1
      by_cases h2 : j ∈ l <;> by_cases h3 : a ≤ b ∧ b < a + t.regs <;> simp [h2, h3]
    · simp [h1]

/-! ### Patterns and elements -/

theorem Ty.elems_bits (t : Ty) : t.bits * t.elems = 32 * t.regs := by cases t <;> rfl

/-- A sum of elements placed side by side, and its elements. -/
theorem elems_of_sum (b n : Nat) (g : Nat → Nat) :
    let x := (List.range n).foldl (fun acc k => acc + g k % 2 ^ b * 2 ^ (b * k)) 0
    x < 2 ^ (b * n) ∧ ∀ k, k < n → x / 2 ^ (b * k) % 2 ^ b = g k % 2 ^ b := by
  induction n with
  | zero => simp
  | succ n ih =>
    obtain ⟨h1, h2⟩ := ih
    simp only [List.range_succ, List.foldl_append, List.foldl_cons, List.foldl_nil] at *
    generalize (List.range n).foldl (fun acc k => acc + g k % 2 ^ b * 2 ^ (b * k)) 0 = x at *
    have hm : g n % 2 ^ b < 2 ^ b := Nat.mod_lt _ (Nat.two_pow_pos b)
    refine ⟨?_, fun k hk => ?_⟩
    · have : 2 ^ (b * (n + 1)) = 2 ^ b * 2 ^ (b * n) := by rw [← Nat.pow_add, Nat.mul_succ, Nat.add_comm]
      rw [this]
      calc x + g n % 2 ^ b * 2 ^ (b * n) < 2 ^ (b * n) + g n % 2 ^ b * 2 ^ (b * n) := by omega
        _ = (g n % 2 ^ b + 1) * 2 ^ (b * n) := by rw [Nat.succ_mul, Nat.add_comm]
        _ ≤ 2 ^ b * 2 ^ (b * n) := Nat.mul_le_mul_right _ hm
    · rcases Nat.lt_or_ge k n with hk' | hk'
      · have hs : 2 ^ (b * n) = 2 ^ (b * k) * (2 ^ b * 2 ^ (b * (n - k - 1))) := by
          rw [← Nat.pow_add, ← Nat.pow_add]
          congr 1
          have : n = k + 1 + (n - k - 1) := by omega
          rw [← Nat.add_assoc, ← Nat.mul_succ, ← Nat.mul_add, ← this]
        rw [hs, ← h2 k hk']
        have : g n % 2 ^ b * (2 ^ (b * k) * (2 ^ b * 2 ^ (b * (n - k - 1))))
            = 2 ^ (b * k) * (2 ^ b * (g n % 2 ^ b * 2 ^ (b * (n - k - 1)))) := by
          rw [Nat.mul_left_comm, Nat.mul_left_comm (g n % 2 ^ b)]
        rw [this, Nat.add_mul_div_left _ _ (Nat.two_pow_pos _), Nat.add_mul_mod_self_left]
      · have : k = n := by omega
        subst this
        rw [Nat.add_mul_div_right _ _ (Nat.two_pow_pos _), Nat.div_eq_of_lt h1, Nat.zero_add, Nat.mod_mod]

theorem mapElems_fst (t : Ty) (f : Nat → Nat → Nat → Nat × Flags) (a b c : Nat) :
    (mapElems t f a b c).1 = (List.range t.elems).foldl (fun acc k =>
      acc + (f (elemOf t a k) (elemOf t b k) (elemOf t c k)).1 % 2 ^ t.bits * 2 ^ (t.bits * k)) 0 := by
  unfold mapElems
  have h : ∀ (l : List Nat) (x : Nat × Flags), (l.foldl (fun acc k =>
      let r := f (elemOf t a k) (elemOf t b k) (elemOf t c k)
      (acc.1 + r.1 % 2 ^ t.bits * 2 ^ (t.bits * k), acc.2 ||| r.2)) x).1
      = l.foldl (fun acc k => acc + (f (elemOf t a k) (elemOf t b k) (elemOf t c k)).1 % 2 ^ t.bits * 2 ^ (t.bits * k)) x.1 := by
    intro l
    induction l with
    | nil => intro x; rfl
    | cons k l ih => intro x; rw [List.foldl_cons, ih, List.foldl_cons]
  exact h _ _

/-- The bits of flags ORed over a list. -/
theorem getLsbD_orAll {β : Type} (l : List β) (g : β → Flags) (x : Flags) (b : Nat) :
    (l.foldl (fun acc e => acc ||| g e) x).getLsbD b = true ↔ x.getLsbD b = true ∨ ∃ e ∈ l, (g e).getLsbD b = true := by
  induction l generalizing x with
  | nil => simp
  | cons e l ih =>
    rw [List.foldl_cons, ih]
    simp only [BitVec.getLsbD_or, Bool.or_eq_true, List.mem_cons, exists_eq_or_imp, or_assoc]

theorem getLsbD_mapElems_snd (t : Ty) (f : Nat → Nat → Nat → Nat × Flags) (a b c i : Nat) :
    (mapElems t f a b c).2.getLsbD i = true
      ↔ ∃ k, k < t.elems ∧ (f (elemOf t a k) (elemOf t b k) (elemOf t c k)).2.getLsbD i = true := by
  have h : ∀ (l : List Nat) (x : Nat × Flags), (l.foldl (fun acc k =>
      let r := f (elemOf t a k) (elemOf t b k) (elemOf t c k)
      (acc.1 + r.1 % 2 ^ t.bits * 2 ^ (t.bits * k), acc.2 ||| r.2)) x).2
      = l.foldl (fun acc k => acc ||| (f (elemOf t a k) (elemOf t b k) (elemOf t c k)).2) x.2 := by
    intro l
    induction l with
    | nil => intro x; rfl
    | cons k l ih => intro x; rw [List.foldl_cons, ih, List.foldl_cons]
  unfold mapElems
  rw [h, getLsbD_orAll]
  simp

theorem elemOf_mapElems (t : Ty) (f : Nat → Nat → Nat → Nat × Flags) (a b c k : Nat) (hk : k < t.elems) :
    elemOf t (mapElems t f a b c).1 k = (f (elemOf t a k) (elemOf t b k) (elemOf t c k)).1 % 2 ^ t.bits := by
  rw [mapElems_fst]
  exact (elems_of_sum t.bits t.elems (fun k => (f (elemOf t a k) (elemOf t b k) (elemOf t c k)).1)).2 k hk

theorem mapElems_lt (t : Ty) (f : Nat → Nat → Nat → Nat × Flags) (a b c : Nat) : (mapElems t f a b c).1 < 2 ^ (32 * t.regs) := by
  rw [mapElems_fst, ← Ty.elems_bits]
  exact (elems_of_sum t.bits t.elems (fun k => (f (elemOf t a k) (elemOf t b k) (elemOf t c k)).1)).1

/-- The pattern of a lane whose registers hold the parts of a number. -/
theorem Pop.pat_of_parts (p : Pop) (i : Nat) (t : Ty) (a x : Nat) (h : ∀ k, k < t.regs → p.getV i (a + k) = part x k) :
    p.pat i t a = x % 2 ^ (32 * t.regs) := by
  unfold Pop.pat
  split
  · rename_i hw
    rw [Ty.regs_of_wide hw] at *
    have h0 := h 0 (by omega)
    have h1 := h 1 (by omega)
    rw [Nat.add_zero] at h0
    simp only [Pop.getPair, h0, h1, part]
    rw [BitVec.toNat_append]
    simp only [BitVec.toNat_ofNat, Nat.mul_zero, Nat.pow_zero, Nat.div_one, Nat.mul_one]
    rw [Nat.shiftLeft_eq, ← Nat.shiftLeft_eq, ← Nat.shiftLeft_add_eq_or_of_lt (Nat.mod_lt _ (by decide)), Nat.shiftLeft_eq]
    omega
  · rename_i hw
    rw [Ty.regs_of_narrow hw] at *
    have h0 := h 0 (by omega)
    rw [Nat.add_zero] at h0
    simp [h0, part]

/-! ### Lane words -/

/-- A lane word that writes a pattern to each lane of A and raises flags none of which is enabled. -/
theorem Near.laneWord {s u : State} {r : CpRef} {p : Pop} {c : Cp} (h : Near s r p p c u) (hn : c.scopeTrap = none) (mk : MReg)
    (t : Ty) (vd : VReg) (f : Nat → Nat × Flags) (hv : vd.toNat + t.regs ≤ 2048)
    (hf : ∀ lane, (acting p c mk).getLsbD lane = true → (f lane).2 &&& c.enables = 0) :
    ∃ v fl, Leaves s r p { p with v := v } (c.raise fl) c.follows (Sys2Proof.Machine.laneWord u r p c mk t vd f)
      ∧ LaneRegs p (acting p c mk) vd.toNat t.regs (fun lane k => part (f lane).1 k) v
      ∧ (∀ b, fl.getLsbD b = true ↔ ∃ lane, (acting p c mk).getLsbD lane = true ∧ (f lane).2.getLsbD b = true) := by
  let rs := (p.laneList (acting p c mk)).map (fun i => (i, f i))
  let fl : Flags := rs.foldl (fun acc e => acc ||| e.2.2) 0
  have hfl : ∀ b, fl.getLsbD b = true ↔ ∃ lane, (acting p c mk).getLsbD lane = true ∧ (f lane).2.getLsbD b = true := by
    intro b
    rw [getLsbD_orAll rs (fun e => e.2.2) 0 b]
    simp only [BitVec.ofNat_eq_ofNat, BitVec.getLsbD_zero, Bool.false_eq_true, false_or, rs, List.mem_map]
    constructor
    · rintro ⟨e, ⟨i, hi, rfl⟩, hb⟩
      exact ⟨i, mem_laneList_acting.1 hi, hb⟩
    · rintro ⟨i, hi, hb⟩
      exact ⟨_, ⟨i, mem_laneList_acting.2 hi, rfl⟩, hb⟩
  have hen : fl &&& c.enables = 0 := by
    apply BitVec.eq_of_getLsbD_eq
    intro b hb
    rw [BitVec.getLsbD_and]
    by_cases h1 : fl.getLsbD b = true
    · obtain ⟨lane, h2, h3⟩ := (hfl b).1 h1
      have := congrArg (fun x => BitVec.getLsbD x b) (hf lane h2)
      simpa [BitVec.getLsbD_and, h1, h3] using this
    · simp [h1]
  have hnear := (h.countActing r p (p.laneList (acting p c mk))).updPop (fun q => putLanes q t vd.toNat rs)
      (fun x => by rw [putLanes_eq]) (fun x cps => by
        have : ∀ (l : List (Nat × Nat × Flags)) (x : Pop),
            putLanes { x with cps := cps } t vd.toNat l = { putLanes x t vd.toNat l with cps := cps } := by
          intro l
          unfold putLanes
          induction l with
          | nil => intro x; rfl
          | cons e l ih =>
            intro x
            rw [List.foldl_cons, List.foldl_cons, ← ih]
            unfold Pop.putPat Pop.setPair Pop.setV
            split <;> rfl
        exact this rs x)
  refine ⟨(putLanes p t vd.toNat rs).v, fl, ?_, ?_, hfl⟩
  · rw [← putLanes_eq]
    exact hnear.finish hn fl _ hen
  · intro lane reg hreg
    have := getV_putLanes p t vd.toNat (p.laneList (acting p c mk)) f hv lane reg hreg
    simp only [mem_laneList_acting] at this
    exact this

/-- The same for a word that computes element by element. -/
theorem Near.elementwise {s u : State} {r : CpRef} {p : Pop} {c : Cp} (h : Near s r p p c u) (hn : c.scopeTrap = none) (mk : MReg)
    (t : Ty) (vd : VReg) (g : Nat → Nat → Nat → Nat × Flags) (x y z : Nat → Nat) (hv : vd.toNat + t.regs ≤ 2048)
    (hf : Untrapped p c mk t (fun i k => g (elemOf t (x i) k) (elemOf t (y i) k) (elemOf t (z i) k))) :
    ∃ v fl, Leaves s r p { p with v := v } (c.raise fl) c.follows (Sys2Proof.Machine.laneWord u r p c mk t vd (fun i => mapElems t g (x i) (y i) (z i)))
      ∧ RaisedBy (acting p c mk) t.elems (fun i k => (g (elemOf t (x i) k) (elemOf t (y i) k) (elemOf t (z i) k)).2) fl
      ∧ (∀ lane reg, reg < 2048 → ¬((acting p c mk).getLsbD lane = true ∧ vd.toNat ≤ reg ∧ reg < vd.toNat + t.regs) →
          Tab.get 0 v (2048 * lane + reg) = p.getV lane reg)
      ∧ (∀ lane k, (acting p c mk).getLsbD lane = true → k < t.elems →
          elemOf t (({ p with v := v } : Pop).pat lane t vd.toNat) k
            = (g (elemOf t (x lane) k) (elemOf t (y lane) k) (elemOf t (z lane) k)).1 % 2 ^ t.bits) := by
  have hen : ∀ lane, (acting p c mk).getLsbD lane = true → (mapElems t g (x lane) (y lane) (z lane)).2 &&& c.enables = 0 := by
    intro lane hl
    apply BitVec.eq_of_getLsbD_eq
    intro b hb
    rw [BitVec.getLsbD_and]
    by_cases h1 : (mapElems t g (x lane) (y lane) (z lane)).2.getLsbD b = true
    · obtain ⟨k, h2, h3⟩ := (getLsbD_mapElems_snd t g _ _ _ b).1 h1
      have := congrArg (fun x => BitVec.getLsbD x b) (hf lane k hl h2)
      simpa [BitVec.getLsbD_and, h1, h3] using this
    · simp [h1]
  obtain ⟨v, fl, h1, h2, h3⟩ := h.laneWord hn mk t vd _ hv hen
  refine ⟨v, fl, h1, fun b => ?_, fun lane reg hr hno => ?_, fun lane k hl hk => ?_⟩
  · rw [h3]
    simp only [getLsbD_mapElems_snd]
    constructor
    · rintro ⟨lane, hl, k, hk, hb⟩; exact ⟨lane, k, hl, hk, hb⟩
    · rintro ⟨lane, k, hl, hk, hb⟩; exact ⟨lane, hl, k, hk, hb⟩
  · rw [h2 lane reg hr, if_neg hno]
  · have hp : ({ p with v := v } : Pop).pat lane t vd.toNat
        = (mapElems t g (x lane) (y lane) (z lane)).1 % 2 ^ (32 * t.regs) := by
      apply Pop.pat_of_parts
      intro k hk
      have := h2 lane (vd.toNat + k) (by omega)
      rw [if_pos ⟨hl, by omega, by omega⟩, Nat.add_sub_cancel_left] at this
      exact this
    rw [hp, Nat.mod_eq_of_lt (mapElems_lt t g _ _ _), elemOf_mapElems t g _ _ _ k hk]

end Sys2Proof.Machine
end

