-- ==== Sys2Proof/Laws/Join.lean ====
section
/-! SUPPORT. The JOIN of a region-closing word that has nothing to wait for and nothing to replay: it opens the next region and the
word has its own effect. -/

namespace Sys2Proof.Machine

theorem Cp.tickets_nil {c : Cp} (h : c.loadTickets = 0) : c.pend.filter (·.ticket) = [] := List.length_eq_zero_iff.1 h

theorem Cp.faultWithin_none {c : Cp} (h : c.loadTickets = 0) (hs : c.storeFault = none) (b : Nat) : c.faultWithin b = none := by
  simp [Cp.faultWithin, hs, Cp.tickets_nil h]

theorem Pop.laneList_zero (p : Pop) : p.laneList 0 = [] := by
  simp [Pop.laneList, lanesOf]

theorem Pop.kill_zero (p : Pop) (cause : Option LaneCause) : p.kill 0 cause = p := by
  unfold Pop.kill
  rw [Pop.laneList_zero]
  rfl

theorem State.setOvf_unlisted {s : State} {core k : Nat} (h : Tab.find s.ovfs (64 * core + k) = none) :
    s.setOvf core k Frag.empty = s := by
  simp [State.setOvf, Tab.put, Tab.erase_of_find _ h]

/-- With no fragment, ticket or replay pass the JOIN goes straight on to what follows it, in the region it opens. -/
theorem Near.joinThen {s u : State} {r : CpRef} {p : Pop} {c : Cp} (h : Near s r p p c u) (hj : JoinFree s p c) (k : State → State) :
    ∃ u', joinThen u r p c k = k u' ∧ Near s r p p c.opened u' := by
  have hfr : u.frags = s.frags := by rw [h.1]
  have hov : u.ovfs = s.ovfs := by rw [h.1]
  have hf : u.fragsOf p.home c.ctx = [] := by rw [← hj.frags]; simp only [State.fragsOf, hfr]
  have ho : Tab.find u.ovfs (64 * p.home + c.ctx) = none := by rw [hov]; exact hj.overflow
  have ho' : u.ovf p.home c.ctx = Frag.empty := by simp [State.ovf, Tab.get, ho]
  have hd : ¬c.depth < c.d0 := by have := hj.depth; omega
  have h1 := (h.updPop (fun p => p.kill 0 none) (fun _ => rfl) (fun x cps => by simp only [Pop.kill_zero])).countLanes
    r.pid p 0x00D (p.laneList 0)
  rw [Pop.kill_zero] at h1
  refine ⟨_, ?_, h1.updCp (fun c => { c with entry := c.nextHdr, d0 := c.depth, fresh := true, replayF := 0 })⟩
  simp [Sys2Proof.Machine.joinThen, hj.noReplay, hd, Cp.faultWithin_none hj.tickets hj.stores, hj.tickets, hf, ho', State.setOvf_unlisted ho,
    (show Frag.empty.state = .free from rfl), openRegion]

/-- A region-closing word whose JOIN has nothing to do has its own effect in the region that opens. -/
theorem onRci_eq {mn : String} {i : Instr} {s : State} {r : CpRef} {p : Pop} {c : Cp} (h : Standing s r p c) (hj : JoinFree s p c)
    (hw : wordOk p.regs i = true) (f : CpRef → Pop → Cp → State → State) :
    ∃ u p', onRci mn i s f = .next (f r p' c.opened u) ∧ Near s r p p c.opened u ∧ p' = { p with cps := p'.cps } := by
  obtain ⟨u, h1, h2⟩ := h.near.joinThen hj (fun s => match s.cpOf r with
      | some (p, c) => f r p c s
      | none => s)
  obtain ⟨p', h3, h4⟩ := h2.cpOf
  refine ⟨u, p', ?_, h2, h4⟩
  rw [onRci, onCp_eq h hw]
  exact congrArg _ (h1.trans (by rw [h3]))

end Sys2Proof.Machine
end

