-- ==== Sys2Proof/Laws/Memory.lean ====
section
/-! SUPPORT. Every memory operation keeps the one form of memory (DESIGN CHOICE, notes/assumptions/4.md): rising addresses, no entry equal to an
unlisted byte, and dirty lines that list bytes of their own once. -/

namespace Sys2Proof.Machine

/-! ### The form depends on HBM, the cluster stores and the dirty lines alone -/

theorem State.memWf_congr {s t : State} (h : s.memWf) (h1 : t.hbm = s.hbm) (h2 : t.cstore = s.cstore) (h3 : t.l2 = s.l2) : t.memWf := by
  unfold State.memWf at *
  rw [h1, h2, h3]
  exact h

theorem State.memWf_hbm {s : State} (h : s.memWf) {m : Memory} (hm : Memory.wf m = true) : ({ s with hbm := m } : State).memWf :=
  ⟨hm, h.2⟩

theorem State.memWf_cstore {s : State} (h : s.memWf) {m : Memory} (hm : Memory.wf m = true) : ({ s with cstore := m } : State).memWf :=
  ⟨h.1, hm, h.2.2⟩

/-- Reset lists nothing. -/
theorem State.memWf_reset : State.reset.memWf := ⟨rfl, rfl, rfl⟩

/-- A fold over a list keeps the form when each of its steps does. -/
theorem State.memWf_foldl {α : Type} (f : State → α → State) (hf : ∀ s a, s.memWf → (f s a).memWf) (l : List α) :
    ∀ s : State, s.memWf → (l.foldl f s).memWf := by
  induction l with
  | nil => exact fun _ h => h
  | cons a l ih => exact fun s h => ih _ (hf s a h)

theorem State.memWf_pick {s : State} (n : Nat) (h : s.memWf) : (s.pick n).2.memWf := by
  unfold State.pick
  split
  · exact h
  · exact memWf_congr h rfl rfl rfl

theorem State.memWf_fresh {s : State} (h : s.memWf) : s.fresh.2.memWf := memWf_congr h rfl rfl rfl

theorem State.memWf_signal {s : State} (f : Loc → Bool) (h : s.memWf) : (s.signal f).memWf := memWf_congr h rfl rfl rfl

theorem State.memWf_setLineState {s : State} (x : LineState) (loc : Loc) (h : s.memWf) : (s.setLineState x loc).memWf := by
  cases loc <;> exact memWf_congr h rfl rfl rfl

theorem State.memWf_touch {s : State} (loc : Loc) (n : Nat) (h : s.memWf) : (s.touch loc n).1.memWf := by
  unfold State.touch
  split
  · exact h
  · exact memWf_signal _ (memWf_setLineState _ _ h)
  · exact h

theorem State.memWf_updCp {s : State} (r : CpRef) (f : Cp → Cp) (h : s.memWf) : (s.updCp r f).memWf := by
  unfold State.updCp State.updPop
  split
  · exact memWf_congr h rfl rfl rfl
  · exact h

theorem State.memWf_overwrite {s : State} (loc : Loc) (n : Nat) (h : s.memWf) : (s.overwrite loc n).memWf := memWf_congr h rfl rfl rfl

theorem State.memWf_countFails {s : State} (set n : Nat) (h : s.memWf) : (s.countFails set n).memWf := memWf_congr h rfl rfl rfl

theorem State.memWf_newVersions {s : State} (pa n : Nat) (h : s.memWf) : (s.newVersions pa n).memWf := by
  unfold State.newVersions
  split
  · exact memWf_congr h rfl rfl rfl
  · exact h

theorem State.memWf_keepOld {s : State} (ws : List (Nat × Word64)) (h : s.memWf) : (s.keepOld ws).memWf := memWf_congr h rfl rfl rfl

theorem State.memWf_beforeWrite {s : State} (pa n : Nat) (h : s.memWf) : (s.beforeWrite pa n).memWf := by
  unfold State.beforeWrite
  exact memWf_newVersions pa n (memWf_congr h rfl rfl rfl)

/-! ### Dirty lines -/

/-- The list of a dirty line names bytes of its own line once, in their order. -/
def lineForm (l : L2Line) : Bool := Tab.rises 0 l.bytes && l.bytes.all (fun b => decide (b.1 < 128))

theorem State.memWf_l2 {s : State} (h : s.memWf) {t : Tab L2Line} (ht : t.all (fun e => lineForm e.2) = true) :
    ({ s with l2 := t } : State).memWf := ⟨h.1, h.2.1, ht⟩

theorem all_erase {α : Type} (t : Tab α) (f : α → Bool) (k : Nat) (h : t.all (fun e => f e.2) = true) :
    (Tab.erase t k).all (fun e => f e.2) = true := by
  rw [Tab.erase_eq_filter, List.all_eq_true]
  intro e he
  exact List.all_eq_true.mp h e (List.mem_filter.mp he).1

theorem all_find {α : Type} {t : Tab α} {f : α → Bool} {k : Nat} {v : α} (h : t.all (fun e => f e.2) = true)
    (hk : Tab.find t k = some v) : f v = true := by
  induction t with
  | nil => cases hk
  | cons e t ih =>
    rw [List.all_cons, Bool.and_eq_true] at h
    rw [Tab.find] at hk
    split at hk
    · cases hk; exact h.1
    · exact ih h.2 hk

theorem all_key_insert {α : Type} (t : Tab α) (k n : Nat) (v : α) (hk : k < n) (h : t.all (fun e => decide (e.1 < n)) = true) :
    (Tab.insert t k v).all (fun e => decide (e.1 < n)) = true := by
  induction t with
  | nil => simpa [Tab.insert] using hk
  | cons e t ih =>
    rw [List.all_cons, Bool.and_eq_true] at h
    unfold Tab.insert
    split
    · simp only [List.all_cons, Bool.and_eq_true]; exact ⟨by simpa using hk, h⟩
    · split
      · simp only [List.all_cons, Bool.and_eq_true]; exact ⟨by simpa using hk, h.2⟩
      · simp only [List.all_cons, Bool.and_eq_true]; exact ⟨h.1, ih h.2⟩

theorem insertAll_form {α : Type} (bs : List α) (n : Nat) : ∀ (t : Tab α) (k : Nat), k + bs.length ≤ n →
    Tab.rises 0 t = true → t.all (fun e => decide (e.1 < n)) = true →
    Tab.rises 0 (insertAll t k bs) = true ∧ (insertAll t k bs).all (fun e => decide (e.1 < n)) = true := by
  induction bs with
  | nil => exact fun _ _ _ h1 h2 => ⟨h1, h2⟩
  | cons b bs ih =>
    intro t k hn h1 h2
    simp only [List.length_cons] at hn
    exact ih _ _ (by omega) (Tab.rises_insert t b (Nat.zero_le k) h1) (all_key_insert t k n b (by omega) h2)

theorem all_key_filter {α : Type} (t : Tab α) (n : Nat) (f : Nat × α → Bool) (h : t.all (fun e => decide (e.1 < n)) = true) :
    (t.filter f).all (fun e => decide (e.1 < n)) = true := by
  rw [List.all_eq_true] at *
  exact fun e he => h e (List.mem_filter.mp he).1

/-- A dirty line written back keeps the form (R214, R234). -/
theorem State.memWf_writeBack {s : State} (line : Nat) (h : s.memWf) : (s.writeBack line).memWf := by
  unfold State.writeBack
  split
  · exact memWf_l2 (memWf_hbm h (Tab.wf_foldl_put (0 : Byte) _ _ _ _ h.1)) (all_erase s.l2 lineForm _ h.2.2)
  · exact h

/-- A line entered in a way keeps the form (R214). -/
theorem State.memWf_allocate {s : State} (vf line : Nat) (bytes : Tab Byte) (h : s.memWf)
    (hb : Tab.rises 0 bytes = true ∧ bytes.all (fun e => decide (e.1 < 128)) = true) : (s.allocate vf line bytes).memWf := by
  have hput : ∀ (t : State) (way : Nat), t.memWf →
      ({ t with l2 := Tab.insert t.l2 line { vf := vf, way := way, bytes := bytes } } : State).memWf := fun t way ht =>
    memWf_l2 ht (Tab.all_insert t.l2 lineForm _ (by simp only [lineForm, Bool.and_eq_true]; exact hb) ht.2.2)
  unfold State.allocate
  dsimp only
  refine hput _ _ ?_
  split
  · exact memWf_pick _ h
  · exact memWf_writeBack _ (memWf_pick _ (memWf_pick _ h))

/-- A write to a physical line keeps the form (R213, R214). -/
theorem State.memWf_writePhys {s : State} (vf : Nat) (cache : BitVec 2) (pa : Nat) (bs : List Byte) (h0 : s.memWf) :
    (s.writePhys vf cache pa bs).memWf := by
  have hlen : pa % 128 + (bs.take (128 - pa % 128)).length ≤ 128 := by
    simp only [List.length_take]; have := Nat.mod_lt pa (show 128 > 0 by decide); omega
  have h := memWf_beforeWrite pa (bs.take (128 - pa % 128)).length h0
  unfold State.writePhys
  dsimp only
  generalize s.beforeWrite pa (bs.take (128 - pa % 128)).length = t at h ⊢
  have hput := Tab.wf_putAll (0 : Byte) (bs.take (128 - pa % 128)) t.hbm pa h.1
  split
  · split
    · rename_i l hl
      have hf : lineForm l = true := all_find (f := lineForm) h.2.2 hl
      simp only [lineForm, Bool.and_eq_true] at hf
      have hi := insertAll_form _ 128 l.bytes (pa % 128) hlen hf.1 hf.2
      exact memWf_l2 h (Tab.all_insert t.l2 lineForm _ (by simp only [lineForm, Bool.and_eq_true]; exact hi) h.2.2)
    · exact memWf_allocate vf _ _ h (insertAll_form (bs.take (128 - pa % 128)) 128 [] (pa % 128) hlen rfl rfl)
  · split
    · rename_i l hl
      have hf : lineForm l = true := all_find (f := lineForm) h.2.2 hl
      simp only [lineForm, Bool.and_eq_true] at hf
      have hc : lineForm { l with bytes := Tab.clear l.bytes (pa % 128) (bs.take (128 - pa % 128)).length } = true := by
        simp only [lineForm, Bool.and_eq_true]
        exact ⟨Tab.rises_filter _ _ hf.1, all_key_filter _ _ _ hf.2⟩
      refine memWf_l2 (memWf_hbm h hput) ?_
      split
      · exact all_erase t.l2 lineForm _ h.2.2
      · exact Tab.all_insert t.l2 lineForm _ hc h.2.2
    · exact memWf_hbm h hput

/-! ### Majority lines (R240 to R250) -/

/-- The table of sets and what is on its way to the copies are no part of the form. -/
theorem State.memWf_majFields {s : State} (h : s.memWf) (a : Tab Word64) (b : Tab Bool) (c : List MajWrite) (d : List MajBack) (n : Nat) :
    ({ s with majSet := a, majDue := b, majWrites := c, majBacks := d, serial := n } : State).memWf := ⟨h.1, h.2.1, h.2.2⟩

theorem State.memWf_putCopy {s : State} (set line : Nat) (tag : Word64) (data : List Byte) (poison : Bool) (h : s.memWf) :
    (s.putCopy set line tag data poison).memWf := by
  have hb := memWf_beforeWrite (128 * line) 128 h
  exact ⟨Tab.wf_putAll (0 : Byte) data _ _ hb.1, hb.2.1, all_erase _ lineForm _ hb.2.2⟩

theorem State.memWf_offer {s : State} (set line : Nat) (tag : Word64) (data : List Byte) (poison : Bool) (h : s.memWf) :
    (s.offer set line tag data poison).1.memWf := by
  unfold State.offer
  split
  · exact memWf_putCopy _ _ _ _ _ h
  · split
    · exact memWf_putCopy _ _ _ _ _ h
    · exact h

theorem State.memWf_offerAll (e : Word64) (w : MajWrite) (js : List Nat) {s : State} (h : s.memWf) :
    (s.offerAll e w js).1.memWf := by
  unfold State.offerAll
  generalize (0 : BitVec 5) = m
  induction js generalizing s m with
  | nil => exact h
  | cons j js ih => exact ih (memWf_offer _ _ _ _ _ h) _

theorem State.memWf_setMajWrite {s : State} (w : MajWrite) (h : s.memWf) : (s.setMajWrite w).memWf := memWf_congr h rfl rfl rfl

/-- A write sent to copies keeps the form (R245). -/
theorem State.memWf_sendTo (w : MajWrite) (js : List Nat) {s : State} (h : s.memWf) : (s.sendTo w js).memWf := by
  unfold State.sendTo
  dsimp only
  split <;> exact memWf_setMajWrite _ (memWf_offerAll _ _ _ h)

theorem State.memWf_majSettle {s : State} (set : Nat) (h : s.memWf) : (s.majSettle set).memWf := by
  unfold State.majSettle
  dsimp only
  exact memWf_majFields (memWf_foldl _ (fun s b h => memWf_offer _ _ _ _ _ h) _ _
    (memWf_foldl _ (fun s w h => memWf_sendTo w _ h) _ s h)) _ _ _ _ _

theorem State.memWf_majAnswer {s : State} (e : Word64) (y : Nat) (h : s.memWf) : (s.majAnswer e y).1.memWf := by
  unfold State.majAnswer
  exact memWf_pick _ h

theorem State.memWf_majForget {s : State} (set : Nat) (h : s.memWf) : (s.majForget set).memWf := by
  unfold State.majForget
  dsimp only
  refine memWf_foldl _ ?_ _ _ h
  intro s l h
  split
  · exact h
  · split <;> exact memWf_congr h rfl rfl rfl

theorem State.memWf_majRebase {s : State} (set : Nat) (h : s.memWf) : (s.majRebase set).memWf := by
  have hs := memWf_majSettle set h
  unfold State.majRebase
  generalize s.majSettle set = u at hs
  dsimp only
  apply memWf_majFields
  apply memWf_majForget
  refine memWf_foldl _ ?_ _ _ hs
  intro s y h
  refine memWf_foldl _ ?_ _ _ ?_
  · intro s j h
    split <;> exact memWf_putCopy _ _ _ _ _ h
  · split
    · exact h
    · exact memWf_majAnswer _ y h

theorem State.memWf_bumpEpoch {s : State} (set : Nat) (h : s.memWf) : (s.bumpEpoch set).memWf := by
  unfold State.bumpEpoch
  dsimp only
  split
  · split
    · exact memWf_majRebase set h
    · exact memWf_congr h rfl rfl rfl
  · exact memWf_congr h rfl rfl rfl

theorem State.memWf_nextVersion {s : State} (slice : Nat) (h : s.memWf) : (s.nextVersion slice).1.memWf := by
  unfold State.nextVersion
  dsimp only
  split
  · exact h
  · exact memWf_foldl _ (fun s k h => memWf_bumpEpoch k h) _ _ (show State.memWf { s with version := _ } from h)

/-- The words of a line that a write changes are kept as they were (R65). -/
theorem State.memWf_keepLine {s : State} (set y : Nat) (h : s.memWf) :
    (if s.pops = [] then s
      else match s.majNow set y with
        | some d => s.keepOld ((List.range 16).map (fun k =>
            (majPlace set (128 * y + 8 * k), (wordOfBytes ((d.drop (8 * k)).take 8)).getD 0)))
        | none => s : State).memWf := by
  split
  · exact h
  · split
    · exact memWf_keepOld _ h
    · exact h

theorem State.memWf_majBegin {s : State} (set y : Nat) (data : List Byte) (poison : Bool) (h : s.memWf) :
    (s.majBegin set y data poison).1.memWf := by
  have hk := memWf_keepLine set y h
  unfold State.majBegin
  extract_lets t slice
  have hv := memWf_nextVersion (s := t) slice hk
  generalize t.nextVersion slice = r at hv
  exact memWf_majFields hv _ _ _ _ _

theorem State.memWf_majFail {s : State} (set y : Nat) (h : s.memWf) : (s.majFail set y).memWf := by
  unfold State.majFail
  dsimp only
  exact memWf_signal _ (memWf_majBegin set y (List.replicate 128 0) true (memWf_countFails set 1 h))

theorem State.memWf_majRead {s : State} (set y : Nat) (h : s.memWf) : (s.majRead set y).1.memWf := by
  have ha := memWf_majAnswer (s.majEntry set) y h
  unfold State.majRead
  dsimp only
  split
  · exact h
  · split
    · exact h
    · split
      · rename_i s' heq; rw [heq] at ha; exact memWf_majFail _ _ ha
      · rename_i s' v heq; rw [heq] at ha
        refine memWf_foldl _ ?_ _ _ ha
        intro s j h
        exact memWf_congr h rfl rfl rfl

/-- A write that an issuer waits for completes (R245). -/
theorem State.memWf_majFinish {s : State} (n : Nat) (h : s.memWf) : (s.majFinish n).memWf := by
  unfold State.majFinish
  split
  · exact h
  · dsimp only
    have hb := fun l js => memWf_foldl (fun (s : State) v => s.sendTo v js) (fun s v h => memWf_sendTo v _ h) l s h
    split
    · exact h
    · split
      · exact hb _ _
      · exact memWf_sendTo _ _ (memWf_pick _ (hb _ _))

theorem State.memWf_majFinishAll (l : List Nat) {s : State} (h : s.memWf) : (s.majFinishAll l).memWf :=
  memWf_foldl _ (fun _ n h => memWf_majFinish n h) l s h

/-! ### Reading and writing at a place -/

theorem State.memWf_readLoc {s : State} (loc : Loc) (n : Nat) (h : s.memWf) : (s.readLoc loc n).1.memWf := by
  cases loc with
  | maj set off =>
    have hr := memWf_majRead set (off / 128) h
    unfold State.readLoc
    dsimp only
    split <;> (rename_i heq; rw [heq] at hr; exact hr)
  | store k a =>
    have hr := memWf_touch (.store k a) n h
    unfold State.readLoc
    dsimp only
    split <;> (rename_i heq; rw [heq] at hr; exact hr)
  | hbm pa c =>
    have hr := memWf_touch (.hbm pa c) n h
    unfold State.readLoc
    dsimp only
    split <;> (rename_i heq; rw [heq] at hr; exact hr)

/-- A write of bytes of one line at any place keeps the form (R211). -/
theorem State.memWf_writeLoc {s : State} (vf : Nat) (loc : Loc) (bs : List Byte) (h0 : s.memWf) : (s.writeLoc vf loc bs).1.memWf := by
  have h := memWf_overwrite loc bs.length h0
  unfold State.writeLoc
  dsimp only
  generalize s.overwrite loc bs.length = t at h ⊢
  cases loc with
  | maj set off =>
    have hr := memWf_majRead set (off / 128) h
    dsimp only
    split
    · exact memWf_countFails _ _ h
    · split
      · exact memWf_majBegin _ _ _ _ h
      · split <;> (rename_i heq; rw [heq] at hr)
        · exact hr
        · exact memWf_majBegin _ _ _ _ hr
  | store k a =>
    have hr : (t.touchLine (.store k a)).1.memWf := memWf_touch _ 128 h
    dsimp only
    split
    · exact memWf_cstore (memWf_setLineState _ (.store k a) h)
        (Tab.wf_putAll (0 : Byte) bs _ _ (memWf_setLineState LineState.clean (.store k a) h).2.1)
    · split <;> (rename_i heq; rw [heq] at hr)
      · exact memWf_cstore hr (Tab.wf_putAll (0 : Byte) bs _ _ hr.2.1)
      · exact hr
  | hbm pa c =>
    have hr : (t.touchLine (.hbm pa c)).1.memWf := memWf_touch _ 128 h
    dsimp only
    split
    · exact memWf_writePhys _ _ _ _ (memWf_setLineState _ (.hbm pa c) h)
    · split <;> (rename_i heq; rw [heq] at hr)
      · exact memWf_writePhys _ _ _ _ hr
      · exact hr

theorem State.memWf_poisonLoc {s : State} (loc : Loc) (h : s.memWf) : (s.poisonLoc loc).1.memWf := by
  cases loc with
  | maj set off =>
    unfold State.poisonLoc
    dsimp only
    split
    · exact memWf_countFails _ _ h
    · exact memWf_signal _ (memWf_majBegin set (off / 128) (List.replicate 128 0) true h)
  | store k a => exact memWf_signal _ (memWf_setLineState _ _ h)
  | hbm pa c => exact memWf_signal _ (memWf_setLineState _ _ h)

theorem State.memWf_fill {s : State} (cluster vf line : Nat) (h : s.memWf) : (s.fill cluster vf line).memWf := by
  unfold State.fill
  dsimp only
  split
  · exact h
  · exact memWf_congr (memWf_pick (s.banksIn cluster .cache).length h) rfl rfl rfl

theorem State.memWf_updLine {s : State} (cluster : Nat) (loc : Loc) (f : CacheLine → CacheLine) (h : s.memWf) :
    (s.updLine cluster loc f).memWf := by
  unfold State.updLine
  split
  · split
    · exact memWf_congr h rfl rfl rfl
    · exact h
  · exact h
  · exact h

theorem State.memWf_through {s : State} (cluster : Nat) (loc : Loc) (bs : List Byte) (h : s.memWf) : (s.through cluster loc bs).memWf :=
  memWf_updLine _ _ _ h

theorem State.memWf_writeAt {s : State} (cluster vf : Nat) (loc : Loc) (bs : List Byte) (h : s.memWf) :
    (s.writeAt cluster vf loc bs).1.memWf := by
  have hw := memWf_writeLoc vf loc bs h
  unfold State.writeAt
  split <;> (rename_i heq; rw [heq] at hw)
  · exact memWf_through _ _ _ hw
  · exact hw

theorem State.memWf_see {s : State} (r : CpRef) (pa n : Nat) (version : Nat → Nat) (h : s.memWf) : (s.see r pa n version).memWf := by
  unfold State.see
  split
  · exact h
  · exact memWf_updCp _ _ h

theorem State.memWf_seeHome {s : State} (r : CpRef) (loc : Loc) (n : Nat) (h : s.memWf) : (s.seeHome r loc n).memWf := by
  cases loc with
  | hbm pa c => exact memWf_see _ _ _ _ h
  | store k a => exact h
  | maj set off => exact h

theorem State.memWf_writeBy {s : State} (g : Agent) (loc : Loc) (bs : List Byte) (h : s.memWf) : (s.writeBy g loc bs).1.memWf := by
  have hw := memWf_writeAt g.cluster g.vf loc bs h
  unfold State.writeBy
  split <;> (rename_i heq; rw [heq] at hw)
  · exact memWf_seeHome _ _ _ hw
  · exact hw

theorem State.memWf_source {s : State} (g : Agent) (viaCache : Bool) (loc : Loc) (n : Nat) (h : s.memWf) :
    (s.source g viaCache loc n).1.memWf := by
  unfold State.source
  split
  · split
    · split
      · exact h
      · exact memWf_pick _ h
    · exact h
  · exact h

/-- A read from whichever source keeps the form (R213). -/
theorem State.memWf_readFrom {s : State} (g : Agent) (fills : Bool) (src : Option CacheLine) (loc : Loc) (n : Nat) (h : s.memWf) :
    (s.readFrom g fills src loc n).1.memWf := by
  have hr := memWf_readLoc loc n h
  unfold State.readFrom
  split
  · exact memWf_see _ _ _ _ h
  · split <;> (rename_i heq; rw [heq] at hr)
    · exact hr
    · dsimp only
      have hs := memWf_seeHome g.cp loc n hr
      split
      · split
        · exact memWf_fill _ _ _ hs
        · exact hs
      · exact hs
      · exact hs

theorem State.memWf_readHome {s : State} (g : Agent) (loc : Loc) (n : Nat) (h : s.memWf) : (s.readHome g loc n).1.memWf :=
  memWf_readFrom g false none loc n h

theorem State.memWf_stand {s : State} (loc : Loc) (n : Nat) (scope : Scope) (pid cluster : Nat) (arrival : Bool) (k : Know)
    (h : s.memWf) : (s.stand loc n scope pid cluster arrival k).memWf := by
  unfold State.stand
  exact memWf_updLine _ _ _ (memWf_congr h rfl rfl rfl)

theorem State.memWf_revive {s : State} (cluster : Nat) (loc : Loc) (n : Nat) (h : s.memWf) : (s.revive cluster loc n).memWf := by
  unfold State.revive
  exact memWf_updLine _ _ _ (memWf_congr h rfl rfl rfl)

/-! ### Whole ranges -/

theorem State.memWf_zeroBank {s : State} (cluster bank : Nat) (h : s.memWf) : (s.zeroBank cluster bank).memWf :=
  memWf_cstore (m := Tab.clear s.cstore _ _) h (Tab.wf_clear (0 : Byte) s.cstore _ _ h.2.1)

theorem State.memWf_filterStore {s : State} (f : Nat × Byte → Bool) (h : s.memWf) :
    ({ s with cstore := s.cstore.filter f } : State).memWf := memWf_cstore h (Tab.wf_filter (0 : Byte) s.cstore f h.2.1)

theorem State.memWf_spliceStore {s : State} (lo : Nat) (bs : List Byte) (h : s.memWf) :
    ({ s with cstore := Tab.splice 0 s.cstore lo bs } : State).memWf :=
  memWf_cstore h (Tab.wf_splice (0 : Byte) s.cstore lo bs h.2.1)

end Sys2Proof.Machine
end

