-- ==== Sys2Proof/Laws/Trap.lean ====
section
/-! SUPPORT. Taking a precise trap: what it writes and what every policy leaves as it was. -/

namespace Sys2Proof.Machine

/-- A control program that a trap has stopped: its trap registers, and the rest as it stood. -/
def Cp.trappedAs (c d : Cp) (t : Trap) (tpc taddr tlane : Word64) (lane : BitVec 3) : Prop :=
  d.tpc = tpc ∧ d.tcause = 0#53 ++ lane ++ BitVec.ofNat 8 t.code ∧ d.taddr = taddr ∧ d.tlane = tlane
  ∧ d.issuing = false ∧ d.wait = none ∧ d.s = c.s ∧ d.m = c.m ∧ d.stack = c.stack ∧ d.mode = c.mode ∧ d.flags = c.flags
  ∧ d.pend = c.pend ∧ d.asyncs = c.asyncs ∧ d.save = c.save

theorem Pop.cp_abort {p : Pop} {k : Nat} {c : Cp} (h : p.cp k = some c) : p.abort.cp k = some { c with wait := none } := by
  have : ∀ t : Tab Cp, Tab.find (t.map (fun e => (e.1, { e.2 with wait := none }))) k
      = (Tab.find t k).map (fun c => { c with wait := none }) := by
    intro t
    induction t with
    | nil => rfl
    | cons e t ih =>
      obtain ⟨j, w⟩ := e
      simp only [List.map_cons, Tab.find]
      split
      · rfl
      · exact ih
  unfold Pop.cp at h
  simp only [Pop.cp, Pop.abort, this, h, Option.map]

/-- Whatever the policy, the population keeps everything but its control programs and whether it is aborted, and the trapped control
program its trap registers and all it held. -/
theorem deliver_leaves {u : State} {r : CpRef} {q : Pop} {c d : Cp} {t : Trap} {tpc taddr tlane : Word64} {lane : BitVec 3}
    (h : u.cpOf r = some (q, d)) (hd : c.trappedAs d t tpc taddr tlane lane) :
    deliver u r = { u with pops := (deliver u r).pops }
    ∧ (∀ k, k ≠ r.pid → (deliver u r).pop k = u.pop k)
    ∧ ∃ q' d', (deliver u r).cpOf r = some (q', d') ∧ q' = { q with cps := q'.cps, aborted := q'.aborted }
      ∧ c.trappedAs d' t tpc taddr tlane lane := by
  obtain ⟨hp, hc⟩ := State.cpOf_some.1 h
  -- one of three things becomes of the population
  have key : ∀ q2 : Pop, (q2 = q ∨ q2 = q.abort ∨ ∃ d2, q2 = q.setCp r.cid d2 ∧ c.trappedAs d2 t tpc taddr tlane lane) →
      u.setPop r.pid q2 = { u with pops := (u.setPop r.pid q2).pops }
      ∧ (∀ k, k ≠ r.pid → (u.setPop r.pid q2).pop k = u.pop k)
      ∧ ∃ q' d', (u.setPop r.pid q2).cpOf r = some (q', d') ∧ q' = { q with cps := q'.cps, aborted := q'.aborted }
        ∧ c.trappedAs d' t tpc taddr tlane lane := by
    intro q2 hq
    refine ⟨rfl, fun k hk => State.pop_setPop_ne u q2 hk, ?_⟩
    rcases hq with rfl | rfl | ⟨d2, rfl, h2⟩
    · exact ⟨q2, d, State.cpOf_some.2 ⟨by simp, hc⟩, rfl, hd⟩
    · exact ⟨q.abort, _, State.cpOf_some.2 ⟨by simp, Pop.cp_abort hc⟩, rfl, by
        obtain ⟨a1, a2, a3, a4, a5, a6, a7⟩ := hd
        exact ⟨a1, a2, a3, a4, a5, rfl, a7⟩⟩
    · exact ⟨q.setCp r.cid d2, d2, State.cpOf_some.2 ⟨by simp, by simp⟩, rfl, h2⟩
  unfold deliver
  rw [State.updPop_of_pop hp]
  apply key
  simp only [hc]
  cases hh : d.held with
  | none => exact .inl rfl
  | some x =>
    simp only
    cases q.policy with
    | abort => exact .inr (.inl rfl)
    | resume =>
      simp only
      split
      · exact .inr (.inl rfl)
      · exact .inl rfl
    | vector =>
      simp only
      split
      · exact .inr (.inl rfl)
      · refine .inr (.inr ⟨_, rfl, ?_⟩)
        obtain ⟨a1, a2, a3, a4, a5, a6, a7, a8, a9, a10, a11, a12, a13, a14⟩ := hd
        exact ⟨a1, a2, a3, a4, rfl, a6, a7, a8, a9, a10, a11, a12, a13, a14⟩

/-- A precise trap is taken: the statement's words hold, whatever the policy does. -/
theorem Near.takeTrap {s u : State} {r : CpRef} {p q : Pop} {c : Cp} (h : Near s r p q c u) (t : Trap) (tpc taddr tlane : Word64)
    (cause : BitVec 3) (np : Bool) (restart : Cp → Cp) (hr : c.sameBut (restart c)) :
    Trapped s r q c t tpc taddr tlane (laneCauseOf t tlane cause) (Sys2Proof.Machine.takeTrap u r t tpc taddr tlane cause np restart) := by
  obtain ⟨q0, hq0, -⟩ := h.cpOf
  obtain ⟨hp0, hc0⟩ := State.cpOf_some.1 hq0
  have h1 := (h.count q0.home r.pid 0x010 1).updCp (fun c =>
    let c := restart c
    { c with tpc := tpc, tcause := 0#53 ++ laneCauseOf t tlane cause ++ BitVec.ofNat 8 t.code, taddr := taddr, tlane := tlane,
             issuing := false, wait := none, held := some { code := t, repairable := np },
             halted := c.halted || c.attached || c.haltDue || c.stepping, haltDue := false, stepping := false })
  obtain ⟨e1, e2, q1, e3, e4, -⟩ := h1
  have htr : ∀ b, c.trappedAs { restart c with
      tpc := tpc, tcause := 0#53 ++ laneCauseOf t tlane cause ++ BitVec.ofNat 8 t.code, taddr := taddr, tlane := tlane,
      issuing := false, wait := none, held := some { code := t, repairable := np },
      halted := b, haltDue := false, stepping := false }
      t tpc taddr tlane (laneCauseOf t tlane cause) := by
    intro b
    rw [hr]
    exact ⟨rfl, rfl, rfl, rfl, rfl, rfl, rfl, rfl, rfl, rfl, rfl, rfl, rfl, rfl⟩
  unfold Sys2Proof.Machine.takeTrap
  simp only [hp0]
  simp only [State.cpOf_setIssuer, e3]
  split
  · refine ⟨?_, e2, q1, _, e3, by rw [e4], htr _⟩
    rw [e1]; rfl
  · obtain ⟨f1, f2, q2, d2, f3, f4, f5⟩ := deliver_leaves (u := (State.updCp _ r _).setIssuer .none) e3 (htr _)
    refine ⟨?_, fun k hk => (f2 k hk).trans (e2 k hk), q2, d2, f3, by rw [f4, e4], f5⟩
    rw [f1, e1]; rfl

theorem Cp.sameBut_pastWord (c : Cp) (clock : Word64) : c.sameBut (c.pastWord clock) := by
  unfold Cp.pastWord
  split <;> rfl

theorem Near.trapWord {s u : State} {r : CpRef} {p q : Pop} {c : Cp} (h : Near s r p q c u) (t : Trap) (taddr tlane : Word64) :
    Trapped s r q c t c.wordAddr taddr tlane (laneCauseOf t tlane 0) (Sys2Proof.Machine.trapWord u r c t taddr tlane) :=
  h.takeTrap t _ _ _ _ _ _ rfl

theorem Near.trapAfter {s u : State} {r : CpRef} {p q : Pop} {c : Cp} (h : Near s r p q c u) (t : Trap) (taddr tlane : Word64) :
    Trapped s r q c t c.wordAddr taddr tlane (laneCauseOf t tlane 0) (Sys2Proof.Machine.trapAfter u r c t taddr tlane) :=
  h.takeTrap t _ _ _ _ _ _ (Cp.sameBut_pastWord c _)

end Sys2Proof.Machine
end

