-- ==== Sys2Proof/Tests/Slice0.lean ====
section
/-! SUPPORT. Small tests: ill-formed terms that the checks refuse, words written out from the encoding tables, worked examples of
the spec, and a state and operands that meet the hypotheses of each statement. -/

namespace Sys2Proof.Tests

set_option Elab.async false

open Sys2Proof Sys2Proof.Machine

/-! ### Ill-formed terms (R67 to R81) -/

theorem test_wf_scalar_number : wfInstr (.jmp 192) = false ∧ wfInstr (.jmp 191) = true := by decide
theorem test_wf_scalar_block : wfInstr (.qpop 175 0) = false ∧ wfInstr (.qpop 174 0) = true ∧ wfInstr (.cpy 189) = false
    ∧ wfInstr (.cpy2 186) = false ∧ wfInstr (.nput 187) = false := by decide
theorem test_wf_pair : wfInstr (.vid { ty := .s64, mask := 0, vd := 1 }) = false
    ∧ wfInstr (.vid { ty := .s64, mask := 0, vd := 2 }) = true := by decide
theorem test_wf_lane_type : wfInstr (.vadd .wrap { ty := .f32, mask := 0, vd := 0, va := 0, b := .reg 0 }) = false
    ∧ wfInstr (.vfadd .mode { ty := .s32, mask := 0, vd := 0, va := 0, b := .reg 0 }) = false
    ∧ wfInstr (.vand { ty := .nb8, mask := 0, vd := 0, va := 0, b := .reg 0 }) = false
    ∧ wfInstr (.vsad .wrap { ty := .s64, mask := 0, vd := 0, va := 0, b := .reg 0 }) = false := by decide
theorem test_wf_half_immediate : wfInstr (.vfadd .mode { ty := .f16, mask := 0, vd := 0, va := 0, b := .imm 0x10000 }) = false
    ∧ wfInstr (.vfadd .mode { ty := .f16, mask := 0, vd := 0, va := 0, b := .imm 0xFFFF }) = true := by decide
theorem test_wf_scalar_type : wfInstr (.sadd { ty := .s16, sd := 0, sa := 0, b := .imm 0 }) = false
    ∧ wfInstr (.sadd { ty := .f32, sd := 0, sa := 0, b := .imm 0 }) = false
    ∧ wfInstr (.sclz { ty := .f64, sd := 0, sa := 0 }) = false
    ∧ wfInstr (.sfma .mode { ty := .f16, sd := 0, sa := 0, sb := 0, sc := 0 }) = false := by decide
theorem test_wf_conversion : wfInstr (.vcvt .mode .s32 .n32 0 0 0) = false ∧ wfInstr (.vcvt .mode .f32 .f32 0 0 0) = false
    ∧ wfInstr (.sfcvt .mode .s64 .s32 0 0) = false ∧ wfInstr (.sfcvt .mode .f64 .f32 0 0) = true := by decide
theorem test_wf_selector : wfInstr (.srch .eq { ty := .s16, md := 1, ms := 0, comb := .set, sel := 2, va := 0 } 0) = false
    ∧ wfInstr (.srch .eq { ty := .s32, md := 1, ms := 0, comb := .set, sel := 1, va := 0 } 0) = false
    ∧ wfInstr (.srch .eq { ty := .s8, md := 1, ms := 0, comb := .set, sel := 3, va := 0 } 0) = true := by decide
theorem test_wf_half_comparand : wfInstr (.srchi .eq { ty := .b16, md := 1, ms := 0, comb := .set, sel := 0, va := 0 } 0x010000) = false := by
  decide
theorem test_wf_scan_mode : wfInstr (.vscan (.int .wrap) { ty := .f32, mask := 0, vd := 0, va := 0 }) = false
    ∧ wfInstr (.vbcast { ty := .s32, mask := 0, vd := 0, va := 0, b := .reg 0 }) = false := by decide
theorem test_wf_scope : wfInstr (.ld { width := .b32, space := .w, scope := .dev, order := .plain, vdat := 0, sbase := 0, idx := none, imm := 0 }) = false
    ∧ wfInstr (.arrive { space := .w, scope := .sys, sa := 0 } 0 (.imm 1)) = false
    ∧ wfInstr (.arrive { space := .f, scope := .pop, sa := 0 } 0 (.imm 1)) = false := by decide
theorem test_wf_order : wfInstr (.ld { width := .b32, space := .g, scope := .pop, order := .rel, vdat := 0, sbase := 0, idx := none, imm := 0 }) = false
    ∧ wfInstr (.st { width := .b32, space := .g, scope := .pop, order := .acq, vdat := 0, sbase := 0, idx := none, imm := 0 }) = false
    ∧ wfInstr (.st { width := .b32, space := .f, scope := .clu, order := .plain, vdat := 0, sbase := 0, idx := none, imm := 0 }) = false
    ∧ wfInstr (.fence .pop .plain) = false := by decide
theorem test_wf_width : wfInstr (.lds { width := .v2, space := .g, scope := .pop, order := .plain, sd := 0, sbase := 0, imm := 0 }) = false
    ∧ wfInstr (.atom { op := .add, width := .b16, space := .g, scope := .pop, order := .plain, vdat := 0, sbase := 0, idx := none, imm := 0 }) = false
    ∧ wfInstr (.ld { width := .b64, space := .g, scope := .pop, order := .plain, vdat := 1, sbase := 0, idx := none, imm := 0 }) = false := by
  decide
theorem test_wf_reduction : wfInstr (.red { op := .swap, width := .b32, space := .g, scope := .pop, order := .plain, vdat := 0, sbase := 0, idx := none, imm := 0 }) = false
    ∧ wfInstr (.red { op := .cas, width := .b32, space := .g, scope := .pop, order := .plain, vdat := 0, sbase := 0, idx := none, imm := 0 }) = false
    ∧ wfInstr (.satom { op := .cas, width := .b32, space := .g, scope := .pop, order := .plain, sd := 191, sbase := 0, imm := 0 }) = false := by
  decide
theorem test_wf_control_register : wfInstr (.getc 0 23) = false ∧ wfInstr (.getc 0 22) = true ∧ wfInstr (.putc 23 0) = false := by decide
theorem test_wf_press : wfInstr (.pmm 0 0 0 0) = false ∧ wfInstr (.pfmtB { Fmt.zero with f32 := true }) = false
    ∧ wfInstr (.pfmtB { Fmt.zero with rnd := .rne }) = false := by decide
theorem test_wf_scalar_of_lane_word : wfInstr (.vadd .wrap { ty := .s32, mask := 0, vd := 0, va := 0, b := .scalar 192 }) = false
    ∧ wfInstr (.rwget { space := .w, scope := .pop, sa := 0 } 191) = false := by decide
theorem test_wf_register_count : wordOk 16 (.vid { ty := .s32, mask := 0, vd := 16 }) = false
    ∧ wordOk 16 (.vid { ty := .s32, mask := 0, vd := 15 }) = true := by decide

/-! ### Words of the encoding tables and of the worked kernels (R51, R58, R70 to R81) -/

theorem test_decode_lane : decode 0x7A40080500000001#64 = .ok (.vmovi .s32 1 5 1)
    ∧ decode 0x6244000300204000#64 = .ok (.vmul .wrap { ty := .s32, mask := 0, vd := 3, va := 1, b := .scalar 2 })
    ∧ decode 0x6B48000800000001#64 = .ok (.vxor { ty := .s32, mask := 0, vd := 8, va := 0, b := .imm 1 })
    ∧ decode 0x6F48000100000001#64 = .ok (.vshr .wrap { ty := .s32, mask := 0, vd := 1, va := 0, b := .imm 1 })
    ∧ decode 0x794400020000C000#64 = .ok (.vmov { ty := .s32, mask := 0, vd := 2, b := .scalar 6 }) := ⟨rfl, rfl, rfl, rfl, rfl⟩
theorem test_decode_lane_float : decode 0x8FA0000100001000#64 = .ok (.vcvt .mode .f32 .s32 0 1 0)
    ∧ decode 0x81A0000600A01000#64 = .ok (.vfsub .mode { ty := .f32, mask := 0, vd := 6, va := 5, b := .reg 4 })
    ∧ decode 0x8EA0000900E00000#64 = .ok (.vfclass { ty := .f32, mask := 0, vd := 9, va := 7 })
    ∧ decode 0x93A0080300400000#64 = .ok (.vscan (.fp .mode) { ty := .f32, mask := 1, vd := 3, va := 2 })
    ∧ decode 0x94A0080400600000#64 = .ok (.vcompact { ty := .f32, mask := 1, vd := 4, va := 3 })
    ∧ decode 0x92A8000500600005#64 = .ok (.vbcast { ty := .f32, mask := 0, vd := 5, va := 3, b := .imm 5 })
    ∧ decode 0x95A0000700C02000#64 = .ok (.vshfl { ty := .f32, mask := 0, vd := 7, va := 6, b := .reg 8 }) :=
  ⟨rfl, rfl, rfl, rfl, rfl, rfl, rfl⟩
theorem test_decode_search : decode 0x4141100002FFFFFF#64 = .ok (.srchi .ne { ty := .s32, md := 1, ms := 0, comb := .set, sel := 0, va := 2 } 0xFFFFFF) :=
  rfl
theorem test_decode_sets : decode 0x4521120000000000#64 = .ok (.setop 1 (.andn 1 2)) ∧ decode 0x4702100000000000#64 = .ok (.first 2 1)
    ∧ decode 0x4C00100400000000#64 = .ok (.rcount 4 1) ∧ decode 0x4E40100700200000#64 = .ok (.rsum .s32 7 1 1)
    ∧ decode 0x4900200000000000#64 = .ok (.withSet 2) := ⟨rfl, rfl, rfl, rfl, rfl⟩
theorem test_decode_control : decode 0x0411000000000006#64 = .ok (.bset .none 1 6) ∧ decode 0x0C00000000000000#64 = .ok .endCp
    ∧ decode 0x0900020000000000#64 = .ok (.loop 2 0) ∧ decode 0x0D00000100000000#64 = .ok (.succ 0 1) := ⟨rfl, rfl, rfl, rfl⟩
theorem test_decode_scalar : decode 0x3068140000000000#64 = .ok (.smov .s64 20 (.imm 0))
    ∧ decode 0x3060150003000000#64 = .ok (.smov .s64 21 (.reg 3)) := ⟨rfl, rfl⟩
theorem test_decode_memory : decode 0xA980000010000000#64 = .ok (.cpy 4)
    ∧ decode 0xA022000410004000#64 = .ok (.ld { width := .b32, space := .w, scope := .pop, order := .plain, vdat := 1, sbase := 4, idx := some { vidx := 0, sh := 2 }, imm := 0 })
    ∧ decode 0xA120000800004000#64 = .ok (.st { width := .b32, space := .g, scope := .pop, order := .plain, vdat := 2, sbase := 0, idx := some { vidx := 0, sh := 2 }, imm := 0 })
    ∧ decode 0xA4A2000420000200#64 = .ok (.atom { op := .add, width := .b32, space := .w, scope := .pop, order := .plain, vdat := 1, sbase := 8, idx := none, imm := 0 })
    ∧ decode 0xA2A2002420000000#64 = .ok (.lds { width := .b32, space := .w, scope := .pop, order := .plain, sd := 9, sbase := 8, imm := 0 }) :=
  ⟨rfl, rfl, rfl, rfl, rfl⟩
theorem test_decode_queue : decode 0xD400050000000005#64 = .ok (.qstat 5 5) ∧ decode 0xD200000000400005#64 = .ok (.qpopb 0 2 5) := ⟨rfl, rfl⟩
theorem test_decode_sync : decode 0xE120000203000000#64 = .ok (.waitr { space := .w, scope := .pop, sa := 2 } (.reg 3))
    ∧ decode 0xE220000204000000#64 = .ok (.rwset { space := .w, scope := .pop, sa := 2 } 4)
    ∧ decode 0xE021010200000001#64 = .ok (.arrive { space := .w, scope := .pop, sa := 2 } 1 (.imm 1)) := ⟨rfl, rfl, rfl⟩
theorem test_decode_press : decode 0xC50100A000000000#64 = .ok (.pst .f32 0 1) ∧ decode 0xC201270100000000#64 = .ok (.pmmg 0 1 2 7 1)
    ∧ decode 0xC00345F530000000#64 = .ok (.pfmtA { xr := 3, xp := 4, xs := 5, n1 := 7, sg := true, ce := false, len := .l128, f32 := true, rnd := .rne, sc := true })
    ∧ decode 0xC01678F410000000#64 = .ok (.pfmtB { xr := 6, xp := 7, xs := 8, n1 := 7, sg := true, ce := false, len := .l128, f32 := false, rnd := .mode, sc := true }) := ⟨rfl, rfl, rfl, rfl⟩
/-- Reserved codes are refused: opcode 0xFF, a rounding of 111, a SETC sub-op of 2, space 011 of an M word. -/
theorem test_decode_reserved : (decode 0xFF00000000000000#64).toOption = none ∧ (decode 0x80A3800200204000#64).toOption = none
    ∧ (decode 0x4621000000000000#64).toOption = none ∧ (decode 0xA026000410004000#64).toOption = none := ⟨rfl, rfl, rfl, rfl⟩
/-- The encoder gives the words back, bit by bit (R70, R76, R77). -/
theorem test_encode : encode (.vmovi .s32 1 5 1) = some 0x7A40080500000001#64 ∧ encode (.loop 12 (-16)) = some 0x09000C00FFFFFFF0#64
    ∧ encode (.smov .s64 21 (.reg 3)) = some 0x3060150003000000#64 ∧ encode (.qstat 5 5) = some 0xD400050000000005#64
    ∧ encode (.pst .f32 0 1) = some 0xC50100A000000000#64 ∧ encode .fatalError = none := by decide


/-! ### Small states -/

/-- The one control program of the test population, at the word w of its clause. -/
def tc (w : Word64) : Cp := { newCp 0 [] 0 0 0x1000 1 0 Know.zero 0 with clause := [w], issuing := true, fresh := false }

/-- A population of n lanes with these lane registers and control program. -/
def tp (n : Nat) (v : Tab Word32) (c : Cp) : Pop :=
  { loadedPop 0 with lanes := n, v := v, cps := [(0, { c with m := [(0, BitVec.ofNat 16384 (2 ^ n - 1))] })] }

def at0 : CpRef := { pid := 0, cid := 0 }

/-- The device with this population alone, whose control program issues. -/
def ts (p : Pop) : State := { State.reset with pops := [(0, p)], issuer := .cp at0 }

/-- A state with a message endpoint: stage 2, and function 0 gives the sender of the test message every right. -/
def cpAfter (x : Host.Outcome State Fault Refusal) : Option Cp :=
  match x with
  | .next t => (t.cpOf at0).map (fun e => e.2)
  | .fault _ | .refused _ => none

/-- A scalar after a word. -/
def scalarAfter (i : Instr) (s : State) (r : SReg) : Option Word64 := (cpAfter (exec i s)).map (fun c => c.getS r)

/-- A lane register after a word. -/
def laneAfter (i : Instr) (s : State) (l r : Nat) : Option Word32 :=
  match exec i s with
  | .next t => (t.pop 0).map (fun p => p.getV l r)
  | .fault _ | .refused _ => none

def flagsAfter (i : Instr) (s : State) : Option Flags := (cpAfter (exec i s)).map (fun c => c.flags)

/-- The two scalars that a scalar test reads: s1 and s2. -/
def sc (a b : Word64) : Cp := { tc 0 with s := [(1, a), (2, b)] }

/-! ### Worked examples of the spec -/

/-- SMIN of N64 compares unsigned (R163). -/
theorem test_smin_natural :
    scalarAfter (.smin { ty := .n64, sd := 3, sa := 1, b := .reg 2 }) (ts (tp 1 [] (sc 0xFFFFFFFFFFFFFFFF 1))) 3 = some 1
    ∧ scalarAfter (.smin { ty := .s64, sd := 3, sa := 1, b := .reg 2 }) (ts (tp 1 [] (sc 0xFFFFFFFFFFFFFFFF 1))) 3
      = some 0xFFFFFFFFFFFFFFFF := by decide +kernel
/-- SSHL.S32 by 33 shifts by 1 (R164). -/
theorem test_sshl_count : scalarAfter (.sshl { ty := .s32, sd := 3, sa := 1, b := .imm 33 }) (ts (tp 1 [] (sc 0x40000001 0))) 3
    = some 0xFFFFFFFF80000002 := by decide +kernel
/-- Division by zero: quotient 0, remainder the dividend (R88). -/
theorem test_sdiv_zero : scalarAfter (.sdiv { ty := .s64, sd := 3, sa := 1, b := .reg 2 }) (ts (tp 1 [] (sc 7 0))) 3 = some 0
    ∧ scalarAfter (.srem { ty := .s64, sd := 3, sa := 1, b := .reg 2 }) (ts (tp 1 [] (sc 7 0))) 3 = some 7
    ∧ flagsAfter (.sdiv { ty := .s64, sd := 3, sa := 1, b := .reg 2 }) (ts (tp 1 [] (sc 7 0))) = some 2 := by decide +kernel
/-- CALLI s9, s9 branches to the old s9 (R168). -/
theorem test_calli_old_target : (cpAfter (exec (.calli 9 9) (ts (tp 1 [] { tc 0 with s := [(9, 0x2000)] })))).map (fun c => (c.hdr, c.getS 9))
    = some (0x2000, 0x1010) := by decide +kernel
/-- LOOP with a counter of 0 writes all ones and branches (R168). -/
theorem test_loop_zero : (cpAfter (exec (.loop 2 4) (ts (tp 1 [] (tc 0))))).map (fun c => (c.hdr, c.getS 2))
    = some (0x1020, 0xFFFFFFFFFFFFFFFF) := by decide +kernel
/-- VMAD.S8.sat of 100 + 10 × −9 is 10, without a flag; VMULH.S32 of −2 and 3; VCLZ.S16 (R121, R122, R127). -/
theorem test_vmad_whole_sum : laneAfter (.vmad .sat { ty := .s8, mask := 0, vd := 0, va := 1, b := .reg 2 })
      (ts (tp 1 [(0, 100), (1, 10), (2, 0xF7)] (tc 0))) 0 0 = some 10
    ∧ flagsAfter (.vmad .sat { ty := .s8, mask := 0, vd := 0, va := 1, b := .reg 2 }) (ts (tp 1 [(0, 100), (1, 10), (2, 0xF7)] (tc 0)))
      = some 0 := by decide +kernel
theorem test_vmulh : laneAfter (.vmulh { ty := .s32, mask := 0, vd := 0, va := 1, b := .reg 2 })
      (ts (tp 1 [(1, 0xFFFFFFFE), (2, 3)] (tc 0))) 0 0 = some 0xFFFFFFFF
    ∧ laneAfter (.vmulh { ty := .n32, mask := 0, vd := 0, va := 1, b := .reg 2 })
      (ts (tp 1 [(1, 0xFFFFFFFF), (2, 0xFFFFFFFF)] (tc 0))) 0 0 = some 0xFFFFFFFE := by decide +kernel
theorem test_vclz : laneAfter (.vclz { ty := .s16, mask := 0, vd := 0, va := 1 }) (ts (tp 1 [(1, 0x00018000)] (tc 0))) 0 0
    = some 0x000F0000 := by decide +kernel
/-- VMIN of the same bytes as S8 and N8 (R123). -/
theorem test_vmin_sense : laneAfter (.vmin { ty := .s8, mask := 0, vd := 0, va := 1, b := .reg 2 }) (ts (tp 1 [(1, 0x80), (2, 0x7F)] (tc 0))) 0 0
      = some 0x80
    ∧ laneAfter (.vmin { ty := .n8, mask := 0, vd := 0, va := 1, b := .reg 2 }) (ts (tp 1 [(1, 0x80), (2, 0x7F)] (tc 0))) 0 0 = some 0x7F := by
  decide +kernel
/-- VEXT.S32 of pos 28 and len 8 takes bits 31:28, sign-extended (R128). -/
theorem test_vext_cut : laneAfter (.vext { ty := .s32, mask := 0, vd := 0, va := 1, b := .imm 0x81C }) (ts (tp 1 [(1, 0x90000000)] (tc 0))) 0 0
    = some 0xFFFFFFF9 := by decide +kernel
/-- VSAD of 0x80 and 0x7F: 255 as S8, 1 as N8 (R129). -/
theorem test_vsad_sense : laneAfter (.vsad .wrap { ty := .s8, mask := 0, vd := 0, va := 1, b := .reg 2 }) (ts (tp 1 [(1, 0x80), (2, 0x7F)] (tc 0))) 0 0
      = some 255
    ∧ laneAfter (.vsad .wrap { ty := .n8, mask := 0, vd := 0, va := 1, b := .reg 2 }) (ts (tp 1 [(1, 0x80), (2, 0x7F)] (tc 0))) 0 0 = some 1 := by
  decide +kernel
/-- A selector of −0.0 chooses a (R130). -/
theorem test_vsel_pattern : laneAfter (.vsel { ty := .f32, mask := 0, vd := 0, va := 1, b := .reg 2 })
    (ts (tp 1 [(0, 0x80000000), (1, 5), (2, 6)] (tc 0))) 0 0 = some 5 := by decide +kernel
/-- The known answer of the generator, and the uniform number of its first word (R109, R110). -/
theorem test_vrand_known : (List.range 4).map (fun k => laneAfter (.vrand 0 8 0 1) (ts (tp 1 [] (tc 0))) 0 (8 + k))
    = [some 0x6627E8D5, some 0xE169C58D, some 0xBC57AC4C, some 0x9B00DBD8] := by decide +kernel
theorem test_vunif_known : laneAfter (.vunif { ty := .f32, mask := 0, vd := 1, va := 0 }) (ts (tp 1 [(0, 0x6627E8D5)] (tc 0))) 0 1
    = some 0x3ECC4FD0 := by decide +kernel
/-- VFSCALE of 3.0 by −150: the subnormal 2 under RNE, 1 under RTZ (R140). -/
theorem test_vfscale_subnormal : laneAfter (.vfscale .rne { ty := .f32, mask := 0, vd := 1, va := 0, b := .imm 0x1FFF6A })
      (ts (tp 1 [(0, 0x40400000)] (tc 0))) 0 1 = some 2
    ∧ laneAfter (.vfscale .rtz { ty := .f32, mask := 0, vd := 1, va := 0, b := .imm 0x1FFF6A })
      (ts (tp 1 [(0, 0x40400000)] (tc 0))) 0 1 = some 1 := by decide +kernel
/-- Five elements fold as ((x0 + x1) + (x2 + x3)) + x4: 2^24, 1, 1, 1, 1 give 2^24 + 4, by ties to even (R91, R106). -/
theorem test_rsum_tree : scalarAfter (.rsum .f32 3 0 0)
    (ts (tp 5 [(0, 0x4B800000), (2048, 0x3F800000), (4096, 0x3F800000), (6144, 0x3F800000), (8192, 0x3F800000)] (tc 0))) 3
    = some 0x4B800002 := by decide +kernel
/-- A merge of sets after a replay keeps the bits of the lanes outside F (R174). -/
theorem test_join_merge : (cpAfter (exec .join (ts (tp 8 [] { tc 0 with
      replayF := 0x24, save := some { s := [], m := [(1, 0x35)], stack := [], hdr := 0x1000, widx := 0, clause := [0] } }
    |> fun p => { p with cps := p.cps.map (fun e => (e.1, { e.2 with m := [(0, 0x24), (1, 0x20)] })) })))).map (fun c => c.getM 1)
    = some 0x31 := by decide +kernel
/-- A failover of the entry 0x0200000095100001 and its stack gives 0x0301200095100001 (R242, R249). -/
theorem test_failover_entry : (match exec (.stackFailover 1) { State.reset with majSet := [(0, 0x0200000095100001)] } with
    | .next t => some (t.majEntry 0)
    | .fault _ | .refused _ => none) = some 0x0301200095100001 := by decide +kernel

/-! ### States that meet the hypotheses of the statements: words that compute -/

/-- The control program as it stands in the test population. -/
def tcp (n : Nat) (c : Cp) : Cp := { c with m := [(0, BitVec.ofNat 16384 (2 ^ n - 1))] }

theorem meets_standing (n : Nat) (v : Tab Word32) (c : Cp) (h : c.scopeTrap = none) :
    Standing (ts (tp n v c)) at0 (tp n v c) (tcp n c) := ⟨rfl, rfl, h⟩

theorem meets_joinFree (n : Nat) (v : Tab Word32) (c : Cp) (h1 : c.save = none) (h2 : c.d0 ≤ c.stack.length) (h3 : c.loadTickets = 0)
    (h4 : c.storeFault = none) : JoinFree (ts (tp n v c)) (tp n v c) (tcp n c) := ⟨h1, h2, h3, h4, rfl, rfl⟩

/-- A word that the test population of 2,048 registers admits. -/
def okAll (l : List Instr) : Bool := l.all (fun i => wordOk 2048 i)

/-- The X operands of the tests: s191 ← s1 op s2, at each type. -/
def x2 (t : Ty) : X2 := { ty := t, sd := 191, sa := 1, b := .reg 2 }
def x1 (t : Ty) : X1 := { ty := t, sd := 191, sa := 1 }
def x3 (t : Ty) : X3 := { ty := t, sd := 191, sa := 1, sb := 2, sc := 0 }

theorem test_meets_ScalarIntegerResults : Standing (ts (tp 1 [] (sc 7 2))) at0 (tp 1 [] (sc 7 2)) (tcp 1 (sc 7 2))
    ∧ okAll ([Ty.s64, .s32, .n32, .n64].flatMap (fun t => [.sadd (x2 t), .ssub (x2 t), .smul (x2 t), .smulh (x2 t), .sand (x2 t),
        .sor (x2 t), .sxor (x2 t), .sshl (x2 t), .sshr (x2 t), .ssar (x2 t), .smin (x2 t), .smax (x2 t), .sclz (x1 t), .spopc (x1 t),
        .sdiv (x2 t), .srem (x2 t)])) = true := ⟨meets_standing 1 [] _ rfl, by decide⟩
/-- The three cases of a division: a zero divisor with DZE clear and set, the most negative number by −1, and the rest. -/
theorem test_meets_ScalarIntegerResults_division :
    let b := fun (c : Cp) => sense .s64 (xpat .s64 (xsrc c .s64 (.reg 2)))
    let a := fun (c : Cp) => sense .s64 (xpat .s64 (c.getS 1))
    (b (sc 7 0) = 0 ∧ (sc 7 0).mode.getLsbD 7 = false)
    ∧ (b { sc 7 0 with mode := 0x80 } = 0 ∧ ({ sc 7 0 with mode := 0x80 } : Cp).mode.getLsbD 7 = true)
    ∧ (a (sc 0x8000000000000000 0xFFFFFFFFFFFFFFFF) = -(2 ^ 63) ∧ b (sc 0x8000000000000000 0xFFFFFFFFFFFFFFFF) = -1)
    ∧ (a (sc 0x8000000000000001 0xFFFFFFFFFFFFFFFF) ≠ -(2 ^ 63) ∧ b (sc 0x8000000000000001 0xFFFFFFFFFFFFFFFF) = -1) := by decide
theorem test_meets_ScalarMovesAndCompares : okAll ([Ty.s64, .s32, .n32, .n64, .f32, .f64].flatMap (fun t =>
      [.smov t 191 (.reg 1), .sset .ge (x2 t), .ssel (x3 t)]) ++ [.sext (x2 .s32), .sins (x2 .n64), .sliLo 191 1, .sliHi 0 1]) = true
    ∧ (sc 0 0).mode.getLsbD 6 = false ∧ Ty.f64.wide = true ∧ Ty.f64.isFloat = true ∧ Ty.s32.isFloat = false := by decide
theorem test_meets_ScalarFloatResults : okAll ([Ty.f32, .f64].flatMap (fun t => [.sfadd .rne (x2 t), .sfmul .mode (x2 t), .sfdiv .rto (x2 t),
      .sfsqrt .rup (x1 t), .sfma .rna (x3 t)]) ++ [.sfcvt .mode .f64 .f32 1 2, .sfcvt .mode .s32 .f64 1 2, .sfcvt .rtz .f32 .n64 1 2]) = true
    ∧ (fDiv fpF32 (envOf (sc 0 0) .mode) 0x3F800000 0).2 &&& (sc 0 0).enables = 0 := by decide +kernel
theorem test_meets_LaneIntegerArithmetic :
    let o : Lv2 := { ty := .s8, mask := 15, vd := 2047, va := 1, b := .reg 2 }
    okAll [.vadd .sat o, .vsub .wrap o, .vmul .sat o, .vmad .wrap o, .vmulh o, .vmin o, .vmax o,
      .vabs .sat { ty := .s64, mask := 0, vd := 2046, va := 0 }, .vneg .wrap { ty := .n16, mask := 0, vd := 1, va := 0 }] = true
    ∧ (-129 : Int) < -(2 ^ 7) ∧ (2 : Int) ^ 7 - 1 < 128 := by decide
theorem test_meets_LaneBitOperations :
    let o : Lv2 := { ty := .s16, mask := 1, vd := 3, va := 1, b := .imm 17 }
    let o1 : Lv1 := { ty := .n8, mask := 1, vd := 3, va := 1 }
    okAll [.vand o, .vor o, .vxor o, .vandn o, .vnot o1, .vshl .sat o, .vshr .wrap o, .vsar .wrap o, .vrot .wrap o, .vsel o, .vclz o1,
      .vpopc o1, .vbrev o1] = true := by decide
theorem test_meets_LaneFieldsAndMoves :
    let o : Lv2 := { ty := .s32, mask := 0, vd := 3, va := 1, b := .imm 0x81C }
    okAll [.vext o, .vins o, .vsad .sat { o with ty := .n8 }, .vmov { ty := .f64, mask := 0, vd := 2, b := .scalar 191 }, .vmovi .n8 0 3 7,
      .vmovi .s64 0 2 7, .vmovi .f64 0 2 7, .vid { ty := .n64, mask := 0, vd := 4 }, .vunif { ty := .f64, mask := 0, vd := 4, va := 6 }] = true := by
  decide
theorem test_meets_LaneFloatResults :
    let o : Lv2 := { ty := .f16, mask := 0, vd := 3, va := 1, b := .reg 2 }
    let o1 : Lv1 := { ty := .b16, mask := 0, vd := 3, va := 1 }
    okAll [.vfadd .rne o, .vfsub .mode o, .vfmul .rtz o, .vfma .rdn o, .vfms .rup o, .vfnma .rna o, .vfdiv .rto o, .vfmin o, .vfmax o,
      .vfscale .mode { o with b := .imm 0x1FFFFF }, .vfsqrt .mode o1, .vfrnd .mode o1, .vfabs o1, .vfneg o1, .vfclass o1] = true
    ∧ (tc 0).enables = 0 := by decide
/-- An exact and an inexact magnitude, on the tie and to either side of it; a signalling NaN as each operand. -/
theorem test_meets_RoundingAndNanOperands : 8 % 2 ^ 2 = 0 ∧ 2 * (6 % 2 ^ 2) = 2 ^ 2 ∧ 2 * (5 % 2 ^ 2) < 2 ^ 2 ∧ 2 ^ 2 < 2 * (7 % 2 ^ 2)
    ∧ isSnan fpF32 (unpack fpF32 false 0x7F800001) = true ∧ isNan (unpack fpF32 false 0x3F800000) = false := by decide +kernel
theorem test_meets_LaneConversionsAndGenerator : okAll [.vcvt .mode .f64 .b16 0 2 0, .vcvt .rtz .s8 .f32 0 1 0, .vcvt .mode .f16 .n64 0 1 2,
      .vrand 0 2044 0 191] = true ∧ (fConv fpF32 fpB16 (envOf (tc 0) .mode) 0x3F808000).2 &&& (tc 0).enables = 0 := by decide +kernel
theorem test_meets_CrossLaneWords : JoinFree (ts (tp 4 [] (tc 0))) (tp 4 [] (tc 0)) (tcp 4 (tc 0))
    ∧ okAll [.vbcast { ty := .f64, mask := 0, vd := 2, va := 4, b := .imm 3 }, .vshfl { ty := .s8, mask := 0, vd := 2, va := 5, b := .reg 7 },
      .vcompact { ty := .n64, mask := 1, vd := 2, va := 4 }, .vscan (.int .sat) { ty := .s8, mask := 1, vd := 2, va := 4 },
      .vscan (.fp .mode) { ty := .f64, mask := 1, vd := 2, va := 4 }] = true := ⟨meets_joinFree 4 [] _ rfl (by decide) rfl rfl, by decide⟩
/-- The running sums of VSCAN over three lanes: the first as it stands, the others by the addition, which raises no enabled flag. -/
theorem test_meets_CrossLaneWords_sums :
    let x := fun (i : Nat) => (i + 1) * 0x10
    let sum := fun (i : Nat) => [0x10, 0x30, 0x60].getD i 0
    sum 0 = x 0 ∧ ∀ i, i < 2 → sum (i + 1) = (fit .sat true 8 (sense .s8 (sum i) + sense .s8 (x (i + 1)))).1 % 2 ^ 8
      ∧ (fit .sat true 8 (sense .s8 (sum i) + sense .s8 (x (i + 1)))).2 &&& (tc 0).enables = 0 := by decide
theorem test_meets_SearchWords :
    let o : Ls := { ty := .f16, md := 0, ms := 1, comb := .andn, sel := 1, va := 7 }
    okAll [.srch .le o 191, .srchi .ge o 0xFFFF, .srchv .ne o 2047, .srchm o 0 1, .srchr o 0 191] = true
    ∧ isNan (unpack fpF32 false 0x7FC00000) = true ∧ Ty.f32.isFloat = true ∧ Ty.n8.isFloat = false := by decide +kernel
/-- Both ends of the set stack: empty, full, and one level. -/
theorem test_meets_SetWords :
    okAll [.setop 0 (.and 1 2), .setop 1 (.or 1 2), .setop 1 (.andn 1 2), .setop 1 (.xor 1 2), .setop 1 (.not 1), .setop 0 (.mov 15),
      .setc 0 true, .setc 1 false, .setv 0 7, .first 0 1, .firstk 0 1 191, .withSet 2, .elseSet, .popset] = true
    ∧ (tc 0).stack = [] ∧ ({ tc 0 with stack := List.replicate 32 0 } : Cp).stack.length = 32
    ∧ ({ tc 0 with stack := [1] } : Cp).stack = [] ++ [1] := by decide +kernel
theorem test_meets_SetWords_nested : (tcp 4 { tc 0 with stack := [0xFF, 0x0F] }).nested := by
  refine ⟨?_, ?_⟩
  · intro top h
    simp [tcp, tc] at h
    subst h
    decide +kernel
  · rintro (_ | k) a b ha hb
    · simp [tcp, tc] at ha hb; subst ha hb; decide +kernel
    · simp [tcp, tc] at hb
theorem test_meets_FoldIntegerWords : okAll [.rcount 191 1, .rfind 191 1, .rbit .xor 191 1 2047, .rsum .s8 191 1 2047, .rmin .n64 191 1 2046,
      .rmax .s32 191 1 7] = true ∧ (tcp 4 (tc 0)).getM 1 &&& (tp 4 [] (tc 0)).live = 0
    ∧ ((tcp 4 (tc 0)).getM 0 &&& (tp 4 [] (tc 0)).live).getLsbD 0 = true := by decide +kernel
/-- An empty set, a set whose first element is a NaN, and one without a NaN. -/
theorem test_meets_FoldFloatingWords : okAll [.rsum .f64 191 1 2046, .rmin .b16 191 1 2047, .rmax .f32 191 1 7] = true
    ∧ (tc 0).mode.getLsbD 6 = false ∧ (tcp 2 (tc 0)).getM 1 &&& (tp 2 [] (tc 0)).live = 0
    ∧ unpack fpF32 false 0x7FC00000 = .nan 0x7FC00000 ∧ isNan (unpack fpF32 false 0x80000000) = false := by decide +kernel
theorem test_meets_ControlTransfers : okAll [.bra 2, .bsc .ltn 1 191 2, .bsi .ge 191 0x80 2, .call 191 2, .calli 9 9, .jmp 191, .ret 0,
      .loop 191 2, .nop, .yield] = true ∧ JoinFree (ts (tp 1 [] (tc 0))) (tp 1 [] (tc 0)) (tcp 1 (tc 0)) :=
  ⟨by decide, meets_joinFree 1 [] _ rfl (by decide) rfl rfl⟩
/-- A word that is ILLEGAL, and a population of each policy, with a debugger and without. -/
theorem test_meets_TrapsAndPolicies : isCpWord (.jmp 192) = true ∧ wordOk 2048 (.jmp 192) = false ∧ (tcp 1 (tc 0)).undebugged
    ∧ (tcp 1 (tc 0)).widx + 1 = (tcp 1 (tc 0)).clause.length ∧ (tp 1 [] (tc 0)).policy = .abort
    ∧ ({ tp 1 [] (tc 0) with policy := .resume } : Pop).policy = .resume ∧ ({ tc 0 with attached := true } : Cp).attached = true := by
  refine ⟨by decide, by decide, ⟨rfl, rfl, rfl, rfl⟩, by decide, rfl, rfl, rfl⟩
/-- An overflow with OFE, a zero divisor with DZE, and a lane that divides 0 by 0 with IVE set (R158). -/
theorem test_meets_EnabledFlagsTrap :
    (fAdd fpF32 (envOf { tc 0 with mode := 0x100 } .mode) 0x7F7FFFFF 0x7F7FFFFF).2 &&& ({ tc 0 with mode := 0x100 } : Cp).enables ≠ 0
    ∧ ({ tc 0 with mode := 0x80 } : Cp).mode.getLsbD 7 = true
    ∧ (fAdd fpF32 (envOf { tc 0 with mode := 0x40 } .mode) 0x7F800000 0xFF800000).2 &&& ({ tc 0 with mode := 0x40 } : Cp).enables ≠ 0
    ∧ okAll [.sfadd .mode (x2 .f32), .sdiv (x2 .s64), .vfadd .mode { ty := .f32, mask := 0, vd := 0, va := 1, b := .reg 2 }] = true := by
  decide +kernel
theorem test_meets_ControlRegisters : okAll [.getc 191 0, .getc 0 22, .putc 2 191, .putc 22 0] = true
    ∧ ((sc 7 6).getS 1).extractLsb' 0 3 = 7 ∧ ((sc 7 6).getS 2).extractLsb' 0 3 ≠ 7 := by decide
/-- A fragment entry that is READY with lane 1, and no other. -/
theorem test_meets_JoinReplay :
    let s : State := { ts (tp 4 [] (tc 0)) with frags := [(0, { Frag.empty with state := .ready, ctx := 0, lanes := 1 })] }
    let p : Pop := { tp 4 [] (tc 0) with status := [(1, { LaneStatus.zero with parked := true, frag := 0 })] }
    (∀ e ∈ s.fragsOf 0 0, e.2.state = .pending → e.2.lanes = 0) ∧ ((s.ovf 0 0).state = .pending → (s.ovf 0 0).lanes = 0)
    ∧ s.joinLanes p (tcp 4 (tc 0)) .ready 1 := by
  refine ⟨by decide +kernel, by decide +kernel, ?_⟩
  exact Or.inl ⟨(0, { Frag.empty with state := .ready, ctx := 0, lanes := 1 }), by decide +kernel, by decide +kernel, by decide +kernel⟩
/-- A replay pass that has kept the depth of its save area, and one that has not. -/
theorem test_meets_JoinReplay_merge :
    let v : SaveArea := { s := [], m := [], stack := [5], hdr := 0, widx := 0, clause := [] }
    Standing (ts (tp 4 [] { tc 0 with save := some v, stack := [4] })) at0 (tp 4 [] { tc 0 with save := some v, stack := [4] })
      (tcp 4 { tc 0 with save := some v, stack := [4] })
    ∧ ({ tc 0 with save := some v, stack := [4] } : Cp).stack.length = v.stack.length ∧ (tc 0).stack.length ≠ v.stack.length :=
  ⟨meets_standing 4 [] _ rfl, by decide, by decide⟩
/-- A control program below its region's depth; one with a load ticket, at its depth. -/
theorem test_meets_RegionsAndJoinWaits :
    let a : Access := { newAccess 0 (tc 0) (.lds 1) .pop .plain true [] with complete := false }
    ({ tc 0 with d0 := 1 } : Cp).stack.length < ({ tc 0 with d0 := 1 } : Cp).d0
    ∧ (tc 0).d0 ≤ (tc 0).stack.length ∧ ({ tc 0 with pend := [a] } : Cp).loadTickets ≠ 0 ∧ a.fault = none ∧ (tc 0).held = none := by
  decide

/-! ### States that meet the hypotheses of the statements: memory -/

/-- Function 0 maps its first 64 GiB of addresses to the same physical addresses, readable, writable and atomic; entry 1 of its peer
table is a peer with every right, address 0 and job 0; a kernel descriptor of one lane lies at 0x60000 (R207, R306, R309, R362). -/
def mapped (s : State) : State :=
  { s with
    hbm := [(0x10000, 1), (0x10002, 2), (0x20000, 1), (0x20002, 3), (0x30000, 0x3F), (0x40026, 0xC0), (0x40027, 0xBF),
      (0x60001, 0x10), (0x60008, 1), (0x6000A, 8), (0x6000B, 0x10)],
    vft := [(0, 0x8100000000000000), (1, 0x10000), (2, 0x40002)] }

/-- Lanes 0 and 1 at the first and the last 16 bytes of a window of one bank. -/
def ends : Pop := tp 2 [(0, 0), (2048, 65534)] (sc 0x50000 0)

/-- The whole of both lanes' accesses passes the checks and finds its places, in the window and in global memory. -/
theorem test_meets_LaneMemoryWords :
    let c := tcp 2 (sc 0x50000 0)
    let s := ts ends
    let ww := laneWants ends c .w 16 true (fun l => (ends.getV l 0).zeroExtend 64 <<< 3)
    let wg := laneWants ends c .g 8 true (fun l => c.getS 1 + (ends.getV l 0).zeroExtend 64 <<< 3)
    let y := (mapped s).placeEach ends .atomic wg
    s.checkWants ends ww = none ∧ missed (s.placeEach ends .write ww).2 = [] ∧ (mapped s).checkWants ends wg = none ∧ missed y.2 = []
    ∧ (placed y.2).all (fun e => !y.1.stampRefuses 0 0 .dev e.2) = true
    ∧ okAll [.ld { width := .v4, space := .w, scope := .clu, order := .plain, vdat := 2044, sbase := 2, idx := some ⟨0, 3⟩, imm := 0 },
        .st { width := .v4, space := .w, scope := .clu, order := .plain, vdat := 0, sbase := 2, idx := some ⟨0, 3⟩, imm := 0 },
        .atom { op := .fadd, width := .b64, space := .g, scope := .dev, order := .ar, vdat := 2, sbase := 1, idx := some ⟨0, 3⟩, imm := 0 },
        .red { op := .maxn, width := .b64, space := .g, scope := .dev, order := .rel, vdat := 2, sbase := 1, idx := some ⟨0, 3⟩, imm := 0 }]
      = true := by decide +kernel
theorem test_meets_ScalarMemoryWords :
    let p := tp 1 [] (sc 0x50000 524272)
    let s := mapped (ts p)
    let w : Want := { space := .w, lane := none, ea := 524272, size := 16, write := true }
    let g : Want := { space := .g, lane := none, ea := 0x50000, size := 16, write := true }
    s.checkWants p [w] = none ∧ s.checkWants p [g] = none ∧ (s.place p w .both).2 = .ok (.store 0 4718576)
    ∧ (s.place p g .both).2 = .ok (.hbm 0x50000 0) ∧ (s.place p g .both).1.stampRefuses 0 0 .dev (.hbm 0x50000 0) = false
    ∧ ((s.place p g .both).1.readLoc (.hbm 0x50000 0) 16).2 = .ok (List.replicate 16 0)
    ∧ s.mayPerform p (tcp 1 (sc 0x50000 524272)) (newAccess 0 (tc 0) (.rwset 1) .pop .plain false [item [] 0x50000 (.hbm 0x50000 0) 16 0 0]) = true
    ∧ okAll [.lds { width := .b64, space := .w, scope := .pop, order := .acq, sd := 191, sbase := 1, imm := 0 },
        .sts { width := .b8, space := .g, scope := .sys, order := .rel, sd := 191, sbase := 1, imm := 0xFFF },
        .satom { op := .cas, width := .b32, space := .g, scope := .dev, order := .ar, sd := 190, sbase := 1, imm := 0 },
        .arrive ⟨.g, .dev, 1⟩ 191 (.imm 1), .rwset ⟨.w, .pop, 2⟩ 1, .rwget ⟨.g, .sys, 1⟩ 190] = true := by
  refine ⟨?_, ?_, ?_, ?_, ?_, ?_, ?_, ?_⟩ <;> rfl
/-- A misaligned address, one byte beyond the window, a bank that is CACHE, a bank under a lock, and one that passes; an address
with a bit of [63:56] set. -/
theorem test_meets_MemoryChecksInOrder :
    let p := tp 1 [] (sc 0 0)
    let low : Pop := { p with base := 7 }
    let w := fun (ea : Word64) => ({ space := .w, lane := none, ea := ea, size := 4, write := false } : Want)
    let s := ts p
    let l : Lock := { cluster := 0, write := true, engine := .copy, first := 4194304, last := 4194307, owner := 0, entered := 0 }
    (2 : Word64).toNat % 4 ≠ 0 ∧ 524288 * p.banks < (524288 : Word64).toNat + 4 ∧ (524284 : Word64).toNat + 4 ≤ 524288 * p.banks
    ∧ s.roleOf low.cluster low.base = .cache ∧ s.roleOf p.cluster p.base = .scratch
    ∧ ({ s with locks := [l] } : State).lockHit p 4194304 4 false = some 0 ∧ ({ s with locks := [l] } : State).lockHit p 4194308 4 false = none
    ∧ s.checkWants p [w 524284] = none
    ∧ (match (s.place p { w 0x0100000000000000 with space := .g } .read).2 with | .ok _ => false | .error _ => true) = true := by
  decide +kernel
theorem test_meets_FenceAndCacheWords :
    let a := newAccess 0 (tc 0) (.ld 0 .b32) .pop .plain true [item [0] 0 (.store 0 4194304) 4 0 0]
    let p := tp 1 [] (tc 0)
    okAll [.fence .sys .ar, .fence .pop .acq, .pref { scope := .dev, sbase := 191, idx := none, imm := 0 }, .inval ⟨191, 0, 0⟩, .flush ⟨0, 191, 0⟩,
      .bankcfg .fifo 0, .bankcfg .scratch 31] = true ∧ a.op ≠ .fence ∧ a.performed = false ∧ a.complete = false
    ∧ p.banks ≤ (1 : BitVec 5).toNat ∧ (0 : BitVec 5).toNat < p.banks ∧ (ts p).roleOf p.cluster p.base ≠ .fifo
    ∧ (ts p).lockHit p (524288 * p.base) 524288 true = none ∧ ((ts p).fifo p.cluster p.base).waiters = [] ∧ (tcp 1 (tc 0)).pend = [] := by
  decide +kernel
/-- Every 16-byte plane piece that a lane can name lies in the window when base, PS and RS keep them there (R236): the checks pass for
each of the 8 × 4 × 2 pieces of lane 0's group. -/
theorem test_meets_PlaneWords :
    let p := tp 1 [] { tc 0 with s := [(1, 0x40), (2, 0x400), (3, 0x100)] }
    okAll [.stpl ⟨2047, 189, 0⟩, .ldpl ⟨0, 1, 0⟩] = true
    ∧ ((List.range 8).flatMap (fun j => (List.range 4).flatMap (fun k => (List.range 2).map (fun h =>
        ({ space := .w, lane := some 0, size := 16, write := true, ea := BitVec.ofNat 64 (0x40 + 0x400 * j + 0x100 * k + 16 * h) } : Want))))).all
        (fun w => (ts p).checkWants p [w] == none) = true := by decide +kernel
/-- A copy of the first 16 bytes of the window over its last 16, with its completion word between them, and no lock in its way. -/
theorem test_meets_CopyWords :
    let c := { tc 0 with s := [(0, 524272), (2, 0x300000010), (3, 0x100)] }
    let p := tp 1 [(0, 0x60)] c
    let gs : List Want := [{ space := .g, lane := some 0, ea := 0x50000, size := 8, write := false }]
    let wd : List Want := [{ space := .w, lane := some 0, ea := 0x60, size := 8, write := true }]
    okAll [.cpy 188, .cpy2 185, .setld { width := .b64, scope := .dev, vdat := 0, sbase := 191, idx := none, imm := 0 },
      .setst { width := .v4, scope := .pop, vdat := 0, sbase := 1, idx := none, imm := 0 }] = true
    ∧ 1 ≤ (c.getSn 0 2).toNat % 2 ^ 32 ∧ (c.getSn 0 2).toNat % 2 ^ 32 ≤ 16777216 ∧ (c.getSn 0 2).toNat / 2 ^ 34 = 0
    ∧ (c.getSn 0 2).getLsbD 32 = true ∧ (c.getSn 0 2).getLsbD 33 = true ∧ (c.getSn 0 0).toNat + 16 = 524288 * p.banks
    ∧ (ts p).roleOf p.cluster p.base = .scratch ∧ (ts p).locks = []
    ∧ (ts p).checkWants p ((wd.zip gs).flatMap (fun e => [e.1, e.2])) = none
    ∧ missed ((mapped (ts p)).placeEach p .read gs).2 = [] := by decide +kernel

/-- The test population with one access that has not performed. -/
def pending (op : AccOp) (ticket : Bool) (items : List Item) : Pop :=
  tp 1 [] { newCp 0 [] 0 0 0x1000 1 0 Know.zero 0 with pend := [newAccess 0 (tc 0) op .pop .plain ticket items] }

/-- The state of that population between clauses. -/
def waits (p : Pop) : State := { ts p with issuer := .none }

/-- A part of n bytes at the start of the window. -/
def part (n : Nat) : Item := item [0] 0 (.store 0 4194304) n 0 0

theorem meets_pending (op : AccOp) (ticket : Bool) (items : List Item) :
    ∃ c, Pending (waits (pending op ticket items)) ⟨0, 0, 0⟩ (pending op ticket items) c (newAccess 0 (tc 0) op .pop .plain ticket items) :=
  ⟨_, rfl, rfl⟩

theorem meets_sound (n : Nat) (h : n ≤ 128) (s : State) (hs : s.cline = []) : s.sound (.store 0 4194304) n := by
  refine ⟨?_, ?_⟩
  · unfold State.lineState
    rw [hs]
    rfl
  · show 4194304 % 128 + n ≤ 128
    omega

/-- A store, an atomic and a reduction whose parts are one good line, with nothing before them; an atomic of the cluster's atomic unit, whose
part may be read before it is written. -/
theorem test_meets_AccessesPerform :
    let c := fun (op : AccOp) (t : Bool) => ((pending op t [part 4]).cp 0).getD (tc 0)
    let a := fun (op : AccOp) (t : Bool) => newAccess 0 (tc 0) op .pop .plain t [part 4]
    let may := fun (op : AccOp) (t : Bool) => (waits (pending op t [part 4])).mayPerform (pending op t [part 4]) (c op t) (a op t)
    let clu := newAccess 0 (tc 0) (.atom .add 0 .b32) .clu .plain true [part 4]
    may .st false = true ∧ atUnit clu (part 4) = true ∧ (part 4).res = none
    ∧ (waits (pending .st false [])).mayPart clu 0 (part 4) = true ∧ may (.atom .add 0 .b32) true = true ∧ may (.satom .cas 0 .b32) true = true
    ∧ may (.red .add .b32) false = true ∧ (waits (pending .st false [part 4])).ccache = [] ∧ (part 16).size = 16 := by decide +kernel
/-- No other atomic of the device stands beside that one. -/
theorem test_meets_AccessesPerform_unshared (op : AccOp) (t : Bool) :
    (waits (pending op t [part 4])).unshared ⟨0, 0, 0⟩ (pending op t [part 4]) (newAccess 0 (tc 0) op .pop .plain t [part 4]) := by
  intro it _ e he _ x hx b hb h
  simp [waits, ts] at he
  subst he
  simp [pending, tp] at hx
  subst hx
  simp at hb
  subst hb
  simp [newAccess] at h
/-- Loads that read when they complete, and results that are known, of a control program between clauses. -/
theorem test_meets_LoadsComplete :
    let c := fun (op : AccOp) => ((pending op true [part 4]).cp 0).getD (tc 0)
    let a := fun (op : AccOp) => newAccess 0 (tc 0) op .pop .plain true [part 4]
    let may := fun (op : AccOp) => (waits (pending op true [part 4])).mayPerform (pending op true [part 4]) (c op) (a op)
    let res : Item := { part 4 with res := some 7 }
    may (.ld 2047 .b32) = true ∧ may (.lds 191) = true ∧ may (.rwget 190) = true ∧ may (.arrive 0 1) = true ∧ may (.ldpl 7) = true
    ∧ (pending (.lds 0) true [part 4]).quiet = true ∧ (pending (.lds 0) true [part 4]).aborted = false
    ∧ ([part 4].flatMap (fun it => it.lanes)).Nodup ∧ ({ a (.lanes 0) with performed := true, items := [res] } : Access).performed = true
    ∧ res.res.isSome = true ∧ (waits (pending (.lds 0) true [])).majBusy [] = false := by decide +kernel

/-- The test population with one asynchronous operation. -/
def running (a : AsyncOp) : Pop := tp 1 [] { newCp 0 [] 0 0 0x1000 1 0 Know.zero 0 with asyncs := [a] }

theorem meets_outstanding (k : AsyncKind) (w : Bool) : ∃ c, Outstanding (waits (running (newAsync 0 k w false 0))) ⟨0, 0, 0⟩
    (running (newAsync 0 k w false 0)) c (newAsync 0 k w false 0) := ⟨_, rfl, rfl, rfl⟩

/-- A copy within the window that has moved nothing, one that is held, and one that waits without a lock before it; a flush of all and
a transfer of one lane. -/
theorem test_meets_CopyFlushAndTransferEvents :
    let d : CopyDesc := { dst := 64, src := 0, len := 16, rows := 1, dstW := true, srcW := true, dstStride := 0, srcStride := 0, cw := none }
    let p := running (newAsync 0 (.copy d) false false 0)
    let c := (p.cp 0).getD (tc 0)
    let it : SetItem := { lane := 0, off := 0, addr := 0x50000, loc := .hbm 0x50000 0, size := 8, got := none }
    (waits p).earlierDone c 0 = true ∧ (waits p).blocked [] 0 = false ∧ p.windowBusy [] = false ∧ p.quiet = true ∧ c.pend = []
    ∧ ({ newAsync 0 (.copy d) false false 0 with held := some 0 } : AsyncOp).held = some 0 ∧ 1 ≤ d.len
    ∧ (waits p).lineState it.loc = LineState.clean ∧ (waits p).lineState (p.winLoc it.off) = LineState.clean
    ∧ (waits p).l2 = [] ∧ Memory.wf (mapped (waits p)).hbm = true ∧ it.size ≤ 8 := by decide +kernel

/-! ### States that meet the hypotheses of the statements: queues, waits, issue and streams -/

/-- An entry block at s0: key 7, descriptor at 0x60000, npop 1 (R279). -/
def block : Cp := { tc 0 with s := [(0, 7), (1, 0x60000), (2, 1)] }

/-- A cave of function 0 with these entries, in ordered or in set mode (R277). -/
def cave (set : Bool) (es : List CaveEntry) : Cave := { Cave.empty with enable := true, set := set, entries := es }

/-- An entry with a key, by its order of push. -/
def entry (n : Nat) : CaveEntry :=
  { words := List.replicate 18 0, key := BitVec.ofNat 32 n, seq := BitVec.ofNat 32 n, slot := 0, place := .head, born := n, know := Know.zero }

theorem test_meets_QueuePushes :
    let ws := (List.range 18).map (fun i => block.getSn 0 i)
    let full : Cave := cave false (List.replicate 504 (entry 0) ++ [{ entry 0 with slot := 1 }])
    okAll [.qpush 63 0, .qpush 0 174, .qpushTry 191 0 174] = true ∧ badEntry ws = false ∧ (tp 1 [] block).nest < 8
    ∧ ((cave false []).room 1).isSome = true ∧ (cave false []).set = false ∧ full.room 1 = none ∧ full.npool = 0
    ∧ ({ State.reset.sys with stage := 2 } : Sys).stage = 2
    ∧ ({ ts (tp 1 [] block) with sys := { Sys.reset with stage := 2 } } : State).mpServes = false := by decide +kernel
/-- An empty cave, one with an entry, a set with keys and one that is full. -/
theorem test_meets_QueuePopsAndSets : okAll [.qpop 174 0, .qpopb 15 2047 63, .qins 0 63 2047, .qstat 191 63] = true
    ∧ (cave false []).entries = [] ∧ (cave false [entry 1]).entries ≠ [] ∧ (cave true [entry 1]).set = true
    ∧ (cave true [entry 1]).entries.length + 1 ≤ 512 + 4096 * (cave true [entry 1]).segs.length
    ∧ 512 < (cave true (List.replicate 512 (entry 0))).entries.length + 1 ∧ (cave true []).npool = 0 ∧ (cave true []).segs = [] := by decide +kernel
theorem test_meets_CaveEvents :
    let c : Cp := { newCp 0 [] 0 0 0x1000 1 0 Know.zero 0 with clause := [(encode (.qpush 0 0)).getD 0], wait := some (queueWait .qpush 0 0 0) }
    let s : State := { waits (tp 1 [] c) with caves := [(0, cave false [{ entry 0 with place := .seg 5 0 }])] }
    (s.cave 0).headUse < 512 ∧ (s.cave 0).headUse < (s.cave 0).entries.length ∧ s.hline = [] ∧ s.mpServes = true
    ∧ s.cpsWith (fun _ c => heldOn 0 c) = [at0] ∧ 5 ∉ (cave false []).segs ∧ (cave false []).segs.length < 255
    ∧ (match c.clause[c.widx]?.map decode with | some (.ok (.qpush cv sa)) => cv == 0 && sa == 0 | _ => false) = true := by decide +kernel
/-- A FIFO bank with room for a batch and without, with words for it and without (R290). -/
theorem test_meets_FifoWords :
    let p := tp 2 [] (tc 0)
    let s : State := { ts p with role := [(8, .fifo)], fifos := [(8, { head := 0, tail := 131071, waiters := [], know := Know.zero })] }
    let f := s.fifo p.cluster p.base
    okAll [.fpush 0 0 2047, .fpop 15 2047 31] = true ∧ s.roleOf p.cluster p.base = .fifo ∧ f.waiters = []
    ∧ (p.laneList ((tcp 2 (tc 0)).getM 0 &&& p.live)).length = 2 ∧ 131072 < (f.tail - f.head).toNat + 2
    ∧ (f.tail - f.head).toNat + 1 ≤ 131072 ∧ 2 ≤ (f.tail - f.head).toNat ∧ (Fifo.empty.tail - Fifo.empty.head).toNat < 1 := by decide +kernel
/-- A descriptor of a put of the last 16 bytes of the window to peer 1, with a completion word at 0. -/
theorem test_meets_NetworkOperations :
    let c := { tc 0 with s := [(0, 1), (2, 524272), (3, 0x100000010)] }
    let p := tp 1 [] c
    let s := mapped (ts p)
    let word : List Want := [{ space := .w, lane := none, ea := 0, size := 16, write := true }]
    let data := lineParts .w 524272 16 false ++ [({ space := .w, lane := none, ea := 524287, size := 1, write := false } : Want)]
    let d : NetDesc := { op := .get, peer := 1, remote := 0, localAddr := 524272, len := 16, window := true, cw := 0, remoteCw := allOnes64 }
    okAll [.nput 186, .nget 0, .narrive 0] = true ∧ (c.getSn 0 0).toNat < s.npeers 0 ∧ (c.getSn 0 3).toNat / 2 ^ 33 = 0
    ∧ s.checkWants p (word ++ data) = none ∧ s.peerReady 0 1 = true
    ∧ (match (s.placeAll p .read data).2 with | .ok l => l.length == data.length | .error _ => false) = true
    ∧ (match (s.placeAll p .both word).2 with | .ok l => l == [Loc.store 0 4194304] | .error _ => false) = true
    ∧ d.cw ≠ allOnes64 ∧ d.cw.toNat % 16 = 0 ∧ d.localAddr.toNat + d.len ≤ 2 ^ 64 ∧ 2 ^ 30 ≤ ((0x40000000 : Word64) - 0).toNat := by
  decide +kernel
/-- A rennet word whose generation is 0: WAITR with g = 0xFFFFFFFF passes, with g = 0 parks, and with g = 0x80000001 passes no more. -/
theorem test_meets_WaitWords :
    let p := tp 1 [] (tc 0)
    let want : Want := { space := .w, lane := none, ea := 0, size := 16, write := false }
    let k := fun (g : Word32) => ((0 : Word32) - g).toNat
    let w : Wait := { kind := .waitr, space := .w, addr := 0, value := 0, aux := 0 }
    okAll [.waitr ⟨.w, .pop, 191⟩ (.imm 0xFFFFFF), .waitr ⟨.g, .sys, 0⟩ (.reg 191), .waitt 63 63, .waitt 0 0] = true
    ∧ (ts p).checkWants p [want] = none ∧ (match ((ts p).place p want .read).2 with | .ok l => l == p.winLoc 0 | .error _ => false) = true
    ∧ (1 ≤ k 0xFFFFFFFF ∧ k 0xFFFFFFFF < 2 ^ 31) ∧ ¬(1 ≤ k 0) ∧ (k 0x80000001 < 2 ^ 31) ∧ ¬(k 0x80000000 < 2 ^ 31)
    ∧ (tc 0).faultWithin 0 = none ∧ (tc 0).loadTickets ≤ 0
    ∧ ({ tc 0 with wait := some w, waitLoc := some (p.winLoc 0), waitDue := true } : Cp).waitDue = true ∧ p.preempting = false
    ∧ p.aborted = false := by decide +kernel
theorem test_meets_CounterWords : okAll [.pmcr 191 15, .pmcs 0 191] = true ∧ Tab.rises 0 [(0, PmcSel.zero), (5, PmcSel.zero)] = true
    ∧ ¬(9 ≤ PmcSel.zero.code ∧ PmcSel.zero.code ≤ 11) ∧ 9 ≤ ({ code := 9, only := none } : PmcSel).code
    ∧ (0x1012 : Word64).toNat / 2 ^ 13 = 0 ∧ (0x1012 : Word64).toNat % 4096 ≤ 0x012 ∧ 0x012 < (0x013 : Word64).toNat % 4096
    ∧ (0x2000 : Word64).toNat / 2 ^ 13 ≠ 0 := by decide
/-- A control program at a clause that is fetched whole, one inside its clause, and one that has been ready for 48 clk. -/
theorem test_meets_IssueEvents :
    let c := newCp 0 [] 0 0 0x1000 1 0 Know.zero 0
    let p := tp 1 [] c
    let m := mapped (waits p)
    let s : State := { m with hbm := (0x1005, 0x3F) :: (0x1006, 0x10) :: (0x1007, 0xF0) :: m.hbm }
    let inside := tp 1 [] { tc 0 with issuing := false }
    (s.chosen 0 0).isSome = true ∧ p.quiet = true ∧ c.clause = [] ∧ (tc 0).clause ≠ [] ∧ ((waits inside).chosen 0 0).isSome = true
    ∧ (match (s.fetchClause 0 p 0x1000).2 with | .ok x => x == (0xF0103F0000000000#64, [0#64, 0#64]) | .error _ => false) = true
    ∧ clauseCheck 0xF0103F0000000000 [0, 0] = none ∧ clauseCheck 0xF3103F0000000000 [0, 0] = some .illegal ∧ c.loadTickets = 0
    ∧ c.ready p = true ∧ 48 ≤ ((48 : Word64) - c.readySince).toNat
    ∧ (match (s.fetchClause 0 p 0x1008).2 with | .ok _ => false | .error f => f.cause == none) = true := by decide +kernel
/-- A held trap of each kind that TRAP_RESUME treats alike, under RESUME. -/
theorem test_meets_IssueEvents_held :
    let c : Cp := { newCp 0 [] 0 0 0x1000 1 0 Know.zero 0 with held := some { code := .clause, repairable := true } }
    let p : Pop := { tp 1 [] c with policy := .resume }
    p.policy = .resume ∧ c.held = some { code := .clause, repairable := true } ∧ c.halted = false ∧ p.aborted = false
    ∧ ((waits p).cpOf at0).isSome = true ∧ (mapped (waits p)).present 0 0 0x50000 = true ∧ (waits p).present 0 0 0x50000 = false := by
  decide +kernel
theorem test_meets_SuccessorAndStreamWords :
    let p := tp 1 [] (tc 0)
    okAll [.succ 191 0, .pstart 191 0] = true ∧ (0x20 : Word64).toNat % 64 ≠ 0 ∧ (0x40 : Word64).toNat % 64 = 0 ∧ (8 : Word64).toNat % 8 = 0
    ∧ (4 : Word64).toNat % 8 ≠ 0 ∧ (524272 : Word64).toNat + 16 ≤ 524288 * p.banks ∧ 524288 * p.banks < (524288 : Word64).toNat + 16
    ∧ p.stream = none ∧ p.tiles ≠ 0 ∧ ({ p with tiles := 0 } : Pop).tiles = 0 ∧ (tc 0).pend = []
    ∧ (p.cps.any (fun e => e.1 != 0)) = false := by decide +kernel
/-- A successor of the descriptor at 0x60000 and a record of zeros at 0x70000, which keeps nothing; a record with a REVIVE bit and a
reserved bit is SHAPE 12. -/
theorem test_meets_SuccessorHandover :
    let c : Cp := { newCp 0 [] 0 0 0x1000 1 0 Know.zero 0 with wait := some (queueWait .succ3 0 0 0), succ := some (0x60000, 0x70000) }
    let p := tp 1 [] c
    let s := mapped (waits p)
    let step4 := s.succWords at0 p 0x60000 8
    (match step4.2 with | some (.ok ws) => ws.length == 8 | _ => false) = true
    ∧ (match (step4.1.succWords at0 p 0x70000 9).2 with | some (.ok x) => x == List.replicate 9 0 | _ => false) = true ∧ (match p.naming with | some x => x.1 == 0 && x.2.2 == (0x60000, 0x70000) | none => false) = true ∧ p.idle = true
    ∧ p.aborted = false ∧ p.preempting = false ∧ c.halted = false
    ∧ (match (s.loadWords p.cpUnits 0 0 0x60000 8).2 with
        | .ok ws => s.succShape 0 p ws (List.replicate 9 0) == none && s.succShape 0 p ws (3 :: List.replicate 8 0) == some 12
        | .error _ => false) = true
    ∧ (match (s.loadWords p.cpUnits 0 0 0x70000 9).2 with | .ok x => x == List.replicate 9 0 | .error _ => false) = true := by
  decide +kernel

/-- The test population with a stream at these registers. -/
def streaming (x : Stream) : Pop := { tp 1 [] (newCp 0 [] 0 0 0x1000 1 0 Know.zero 0) with stream := some x }

/-- A stream at a clause of one word. -/
def st (w : Word64) : Stream := { newStream (tc 0) 0x2000 0 0 with clause := [w], started := true }

theorem meets_streaming (x : Stream) :
    Streaming { ts (streaming x) with issuer := .stream 0 } 0 (streaming x) x ∧ HasStream (waits (streaming x)) 0 (streaming x) x :=
  ⟨⟨rfl, rfl, rfl⟩, ⟨rfl, rfl⟩⟩

/-- Offsets at the last 16 bytes of the window, beyond it, misaligned, and in a bank of another role; a counter at 1. -/
theorem test_meets_StreamRegisterWords :
    let p := streaming { st 0 with x := [(1, 524272), (2, 1)] }
    let x := { st 0 with x := [(1, 524272), (2, 1)] }
    [Instr.pfmtA Fmt.zero, .pfmtB Fmt.zero, .psetx 15 1, .paddx 15 1, .ploop 2 (-16), .pwait 1 2, .parrive 1 1, .pend].all wfInstr = true
    ∧ x.reg 2 - 1 = 0 ∧ (x.reg 1).toNat % 16 = 0 ∧ (x.reg 1).toNat + 16 ≤ 524288 * p.banks ∧ 524288 * p.banks < 524288 + 16
    ∧ (8 : Word32).toNat % 16 ≠ 0 ∧ (waits p).roleOf p.cluster p.base = .scratch ∧ ({ waits p with role := [(8, .fifo)] } : State).roleOf 0 8 ≠ .scratch
    ∧ (1 ≤ ((0 : Word32) - 0xFFFFFFFF).toNat ∧ ((0 : Word32) - 0xFFFFFFFF).toNat < 2 ^ 31) := by decide +kernel
/-- A dense pass over two 4,096-byte chunks of the window with room, one whose base is misaligned, one that runs beyond the window, one
in a bank of another role; a stream with two operations; tile 0 owned and not. -/
theorem test_meets_TileWords :
    let p := streaming (st 0)
    let s := waits p
    let q := fun (b : Nat) => ({ fmt := { Fmt.zero with n1 := 7 }, base := b, rs := 32, ps := 4096, sc := 0 } : Operand)
    let kind := fun (a : Nat) => TileKind.pmm 0 (q a) (q 65536) 1 none false
    let code := fun (s : State) (g : Range) => if g.aligned = false then 4
      else if g.runs.any (fun e => decide (524288 * p.banks < e.1 + e.2)) then 3
      else if g.runs.any (fun e => s.roleOf p.cluster (p.base + e.1 / 524288) != .scratch) then 6 else 0
    [Instr.pmm 0 1 2 1, .pzero 1, .pld 0 1, .pst .nb8 0 1, .pmmg 0 1 2 3 255].all wfInstr = true
    ∧ (tileRanges (kind 0)).map (code s) = [0, 0] ∧ (tileRanges (kind 16)).map (code s) = [4, 0] ∧ (tileRanges (kind 520192)).map (code s) = [3, 0]
    ∧ (tileRanges (kind 0)).map (code { s with role := [(8, .fifo)] }) = [6, 6]
    ∧ tilesNamed (kind 0) &&& ~~~p.tiles = 0 ∧ tilesNamed (kind 0) &&& ~~~(0xFFFE : BitVec 16) ≠ 0 ∧ s.locks = [] ∧ (st 0).ops.length < 2
    ∧ p.windowBusy (rangeLocks p 0 0 (tileRanges (kind 0))) = false ∧ ({ st 0 with lockWait := true } : Stream).lockWait = true := by decide +kernel
/-- A stream between clauses whose next clause is good, one held, and the words and operations its other events wait for. -/
theorem test_meets_StreamEvents :
    let x := newStream (tc 0) 0x2000 0 0
    let p := streaming x
    let m := mapped (waits p)
    let w := (encode .pend).getD 0
    let s : State := { m with hbm := (0x2005, 0xFF) :: (0x2006, 0x0F) :: (0x2007, 0xF3) :: (0x200F, w.extractLsb' 56 8) :: m.hbm }
    let o : TileOp := { serial := 0, kind := .pzero 1, waiting := true, granted := false, issued := 0, flags := 0, poison := false,
                        mark := (st 0).mark, parts := [], got := [] }
    let ops := fun (o : TileOp) => { x with ops := [o] }
    (match (s.fetchClause 0 p 0x2000).2 with | .ok y => streamClauseOk y.1 y.2 | .error _ => false) = true
    ∧ streamClauseOk 0xF01FFF0000000000 [w] = false
    ∧ (match (s.fetchClause 0 p 0x0100000000000000).2 with | .ok _ => false | .error f => f.cause == none) = true
    ∧ ((ops o).ops.find? (fun y => y.waiting && !y.unread && !s.blocked (ops o).owners y.serial)) = some o
    ∧ p.aborted = false ∧ s.sys.recovery = false
    ∧ (match ((st ((encode (.pwait 1 2)).getD 0)).clause[0]?).map decode with | some (.ok (.pwait a b)) => a == 1 && b == 2 | _ => false) = true
    ∧ ({ x with held := some 0x2000, parrive := some (0, 1), stopped := true } : Stream).held = some 0x2000 := by decide +kernel
/-- One operation of each kind that is the only one ready. -/
theorem test_meets_PressGrant :
    let q : Operand := { fmt := Fmt.zero, base := 0, rs := 32, ps := 4096, sc := 0 }
    let o := fun (k : TileKind) => ({ serial := 0, kind := k, waiting := false, granted := false, issued := 0, flags := 0, poison := false,
                                      mark := (st 0).mark, parts := [], got := [] } : TileOp)
    let s := fun (k : TileKind) => waits (streaming { st 0 with ops := [o k] })
    let ready := fun (k : TileKind) => (s k).pressReady 0 == [(0, streaming { st 0 with ops := [o k] }, { st 0 with ops := [o k] }, o k)]
    [TileKind.pzero 0xFFFF, .pld 15 0, .pst .s8 0 q, .pst .nb8 0 { q with rs := 16, ps := 2048 }, .pmm 0 q q 1 none false,
      .pmm 0 q q 1 (some (List.replicate 128 0xFFFF)) false].all ready = true
    ∧ (s (.pzero 1)).pressBusy 0 = false ∧ (s (.pzero 1)).tileBad 0 0 = false ∧ Tab.rises 0 (s (.pzero 1)).tiles = true
    ∧ ((blocksOf Fmt.zero [1] [.fin false 1 0] 32)[0]?).isSome = true := by decide +kernel

/-! ### States that meet the hypotheses of the statements: the device -/

/-- A device in stage 2 with one enabled cluster, whose function 0 is mapped and owns it, with a save area of 16 pages at 0x80000
(R309). -/
def ready (s : State) : State :=
  { mapped s with
    vft := [(0, 0x8100000100000000), (1, 0x10000), (2, 0x40002), (3, 0x80010)]
    sys := { Sys.reset with stage := 2, enabled := 1, passed := 1 } }

def sig : Auth := { seq := 1, sigOk := true, port := 7, secured := true, delivery := .rud, words := [0x0601000000000000, 0, 0, 0], len := 0 }

theorem meets_accepted (s : State) (h1 : s.sys.stage ≠ 0) (h2 : s.mgmtSeq = 0) (h3 : (s.endpoint mgmtEndpoint).ports.getLsbD 7 = true) :
    Accepted s sig := ⟨h1, rfl, h3, by decide, rfl, by rw [h2]; decide⟩

/-- An entry of depth 1 with npop 1 whose descriptor lies at 0x60000; a completion word at 0x50000 with the second flag. -/
def task (flags : Word64) : CaveEntry :=
  { entry 0 with words := [7, 0x60000, 0x10001 + flags] ++ List.replicate 14 0 ++ [0x50000] }

/-- An entry that is taken up, whose descriptor is good and fits; one with a misaligned address and one whose address has no page; a
completion word with its place. -/
theorem test_meets_DistributorTakesUp :
    let s : State := { ready State.reset with caves := [(3, { cave false [task 0] with launch := true })] }
    s.sys.recovery = false ∧ s.nextVf = some 0 ∧ s.nextCave 0 = some 3 ∧ (task 0).words.length = 18
    ∧ (match s.cavePop 3 (s.forcesDet 0) with
        | some (s1, e) => e == task 0 && (Tab.find s.tasks s1.serial).isNone && s1.asidValid 0 0
            && (match (s1.loadWords [] 0 0 0x60000 8).2 with
              | .ok ws => descOk ws && (s1.vacant.placeDesc 0 (descOf ws)).isSome
                  && (s1.vacant.placeDesc 0 { descOf ws with lanes := 16384, regs := 2048 }).isNone
              | .error _ => false)
            && (match (s1.translate [] 0 0 0x50000 .both).2 with | .ok l => l == Loc.hbm 0x50000 0 | .error _ => false)
            && (match (s1.loadWords [] 0 0 0x0100000000000000 8).2 with | .ok _ => false | .error f => f.2 != .majority)
        | none => false) = true
    ∧ (0x60020 : Word64).toNat % 64 ≠ 0 ∧ (0x60000 : Word64).toNat % 64 = 0 ∧ s.pops.length + s.images.length + 1 < 16383
    ∧ (0x10001 : Word64).getLsbD 20 = false ∧ (0x110001 : Word64).getLsbD 20 = true ∧ (0x210001 : Word64).getLsbD 21 = true := by
  decide +kernel

/-- A population of one lane, eight registers, no window and no tile, on core 0. -/
def small (c : Cp) : Pop := { tp 1 [(3, 9)] c with regs := 8, banks := 0, tiles := 0, word1 := 0x0000000010080001 }

/-- A pending task with a population left to place, a population that has ended, one that may be stopped, and one that has been. -/
theorem test_meets_PopulationEvents :
    let c := newCp 0 [] 0 0 0x1000 1 0 Know.zero 0
    let u : Task := { words := (task 0).words, desc := [0x1000, 0x10080001], vf := 0, cave := 3, seq := 0, next := 0, left := 1, status := 0, run := 0, know := Know.zero }
    let s : State := { ready State.reset with pending := [(0, 5)], tasks := [(5, u)], pops := [(0, { small { c with ended := true } with task := 5 })] }
    let p : Pop := { small c with preempting := true }
    let t : State := { ready State.reset with pops := [(0, p)] }
    Tab.find s.pending 0 = some 5 ∧ Tab.find s.tasks 5 = some u ∧ u.next < 1 ∧ (s.placeDesc 0 (descOf u.desc)).isSome = true
    ∧ ({ c with ended := true } : Cp).ended = true ∧ c.asyncs = [] ∧ c.pend = [] ∧ (u.words.getD 2 0).getLsbD 21 = false
    ∧ (t.savePlace 0 (imageBound p)).isSome = true ∧ p.drained = true ∧ Tab.rises 0 p.cps = true
    ∧ t.savePlace 0 (t.mapOf p).len = some 0x80000 := by decide +kernel
/-- An image in the save area that one place fits; a population that is stopped, and a function with none; a checkpoint of no
population, sealed under generation 1. -/
theorem test_meets_RestoreAndCheckpoint :
    let p : Pop := { small (newCp 0 [(2, 5)] 0 0 0x1000 1 0 Know.zero 0) with preempting := true }
    let s : State := { ready State.reset with pops := [(0, p)] }
    (match exec (.preemptImage 0) s with
      | .next t =>
        (match t.images.find? (fun x => x.vf == 0 && x.popid == 0) with
          | some m =>
            let bs := t.physBytes m.addr m.len
            let h := imageHeadOf bs
            let g := imageMapOf h bs
            h.vf == 0 && h.popid == 0 && (t.pop 0).isNone && decide (h.desc.regs ≤ 2048) && t.readable m.addr g h.banks
              && (t.restorePlaces h ((m.record.cps.filter (fun e => !e.2.ended)).length) (imageIndices bs g.status h.desc.lanes).length).length == 1
          | none => false)
      | .fault _ | .refused _ => false) = true
    ∧ (s.popsOf 0).all (fun e => e.2.preempting && !e.2.aborted && e.2.drained) = true ∧ 0x90000 % 128 = 0
    ∧ (match exec (.checkpoint sig 0 0x90000) (ready State.reset) with
        | .next t => t.sealed 0 0x90000 1 && !t.sealed 0 0x90000 2
        | .fault _ | .refused _ => false) = true := by decide +kernel
theorem test_meets_FragmentEvents :
    let f : Frag := { Frag.empty with state := .pending, ctx := 0, lanes := 1 }
    let s : State := { mapped (waits (tp 1 [] (newCp 0 [] 0 0 0x1000 1 0 Know.zero 0))) with frags := [(0, f)], ovfs := [(0, f)] }
    (s.fragAt ⟨0, 0, false⟩).state = .pending ∧ (s.fragAt ⟨0, 0, true⟩).state = .pending ∧ (s.fragOwner 0 0).isSome = true ∧ f.more = false := by
  decide +kernel
/-- A halted control program with one level on its set stack. -/
theorem test_meets_DebuggerWords :
    let c : Cp := { newCp 0 [] 0 0 0x1000 1 0 Know.zero 0 with halted := true, attached := true, stack := [1] }
    let s := ready (waits (tp 1 [] c))
    Accepted s sig ∧ c.halted = true ∧ c.ended = false ∧ c.stack[0]? = some 1 ∧ c.wait = none ∧ s.fifos = [] ∧ c.held = none
    ∧ (tp 1 [] c).quiet = true ∧ ((s.pops.all (fun e => Tab.rises 0 e.2.cps)) = true) :=
  ⟨meets_accepted _ (by decide) rfl (by decide +kernel), by decide +kernel⟩

/-- The entry of the spec's worked example, with its three copies on stacks 1, 5 and 9 (R240). -/
def maj : State := { State.reset with majSet := [(0, 0x0200000095100001)], clock := 65536 }

/-- A write that two copies may accept, one that is late, a write-back that is due, a copy that has failed, a line on which all copies
agree, and a dirty line in a way that its mask no longer allows. -/
theorem test_meets_MajorityEvents :
    let e : Word64 := 0x0200000095100001
    let w : MajWrite := { serial := 0, set := 0, line := 0, tag := 0x0200000000000109, data := List.replicate 128 1, poison := false,
                          accepted := 0, reported := 0, complete := false, sent := 0, since := 0 }
    let b : MajBack := { serial := 0, set := 0, line := 0, copy := 2, tag := w.tag, data := w.data, poison := false }
    let s : State := { maj with majWrites := [w], majBacks := [b] }
    let l : L2Line := { vf := 0, way := 3, bytes := [(0, 1)] }
    let d : State := { maj with l2 := [(0, l)], wayMask := [(0, 0xFFF7)] }
    s.majWrite 0 = some w ∧ w.data.length = 128 ∧ majLost e = false ∧ majLive e = [0, 1, 2] ∧ ((majLive e).map (majStack e)).Nodup
    ∧ majQ e = 2 ∧ (0 : Word64).toNat < w.tag.toNat ∧ 65536 ≤ (s.clock - w.sent).toNat ∧ s.majBacks.find? (fun x => x.serial == 0) = some b
    ∧ maj.majWrites = [] ∧ majEpoch e < 254 ∧ maj.stackFailed.getLsbD 11 = false ∧ majFailed (0x0301200095100001 : Word64) 0 = true
    ∧ maj.scrubRateOf (majStack e (majHome e)) ≠ 0 ∧ maj.majFlight 0 0 = none
    ∧ maj.copyView (12 * 0 + majStack e 0) = some (0, List.replicate 128 0, false)
    ∧ 0 ∈ ({ maj with majOwn := [(1, 0)] } : State).majLines 0 ∧ majLost (0x0200000095100005 : Word64) = true
    ∧ sliceOf 0 = 0 ∧ (Tab.get 0xFFFF#16 d.wayMask 0).getLsbD l.way = false ∧ Tab.rises 0 l.bytes = true ∧ d.hbm = [] := by decide +kernel

/-- The peer of the mapped function sends. -/
def msg (d : Delivery) : Msg := { vf := 0, sender := { addr := 0, job := 0 }, delivery := d, port := 7, secured := false, type := 0, tag := 1 }

/-- Stage 0, recovery mode, a RUDI message that RUDI may not carry, a sender without an entry, one without the right. -/
theorem test_meets_AdmissionOfMessages :
    let s := ready State.reset
    let other : Msg := { msg .rod with sender := { addr := 1, job := 0 } }
    let poor : State := { s with hbm := s.hbm.map (fun e => if e.1 = 0x40026 ∨ e.1 = 0x40027 then (e.1, if e.1 = 0x40027 then 0xA0 else 0) else e) }
    s.senderEntry (msg .rod) = some (1, 0x7F) ∧ s.senderEntry other = none ∧ poor.senderEntry (msg .rod) = some (1, 0) ∧ s.portHeld (msg .rod) = false
    ∧ State.reset.sys.stage = 0 ∧ s.sys.stage ≠ 0 ∧ ({ s.sys with recovery := true } : Sys).recovery = true
    ∧ rudiOk (.memw (msg .rudi) 0 0 []) = false ∧ rudiOk (.query (msg .rudi)) = true ∧ rightOf (.hostLaunch (msg .rod) 0 []) = some 0
    ∧ authOf (.portConfig sig 0 true) = some sig ∧ authFormed { sig with delivery := .rudi } = false
    ∧ [(1 : BitVec 8), 6, 9, 0, 0x80].all answered = true ∧ [(7 : BitVec 8), 8, 0x81, 0x88].any answered = false
    ∧ (match exec (.portConfig sig 0 true) s with | .next t => t.mgmtSeq == 1 | .fault _ | .refused _ => false) = true
    ∧ (match exec (.portConfig { sig with seq := 0 } 0 true) s with | .next t => t.outbox == [.mgmt 0x86 0 .badSig []] | .fault _ | .refused _ => false) = true := by
  decide +kernel
/-- The peer's message with every right; a cave that takes an entry and one that is full; a place that is mapped and one that is not;
the greatest body and one more byte; an entry with a reserved bit. -/
theorem test_meets_HostMessages :
    let s : State := { ready State.reset with caves := [(3, cave false [])] }
    let block := [7, 0x60000, 1] ++ List.replicate 15 (0 : Word64)
    let h : HostHold := { serial := 0, msg := msg .rod, uet := false, write := false, asid := 0, addr := 0x50000, len := 8, body := [], since := 0 }
    let full := cave false (List.replicate 504 (entry 0))
    s.sys.stage ≠ 0 ∧ s.sys.recovery = false ∧ s.portHeld (msg .rod) = false ∧ s.senderEntry (msg .rod) = some (1, 0x7F)
    ∧ (msg .rod).delivery ≠ .rudi ∧ block.length = 18 ∧ badHostEntry block = false ∧ badHostEntry (block.set 2 (2 ^ 32)) = true
    ∧ ((cave false []).room 0).isSome = true ∧ full.room 0 = none ∧ full.npool = 0
    ∧ (match (s.translate [] 0 0 0x50000 .both).2 with | .ok l => l == Loc.hbm 0x50000 0 | .error _ => false) = true
    ∧ (match (s.translate [] 0 1 0x50000 .read).2 with | .ok _ => false | .error e => e == .permission) = true
    ∧ s.lineState (.hbm 0x50000 0) = LineState.clean ∧ (0x50000 : Word64).toNat % 128 + 128 ≤ 128 ∧ (0x50000 : Word64).toNat % 16 = 0
    ∧ ({ s with holds := [h] } : State).hold 0 = some h ∧ h.len ≠ 0 ∧ h.addr.toNat % 128 + h.len ≤ 128
    ∧ 2 ^ 30 ≤ ((0x40000000 : Word64) - h.since).toNat ∧ (0x50008 : Word64).toNat % Width.b64.size = 0 := by decide +kernel
/-- A page that is not present: the leaf's present bit is clear. -/
theorem test_meets_HostMessages_held :
    let s := ready State.reset
    let s : State := { s with hbm := s.hbm.map (fun e => if e.1 = 0x30000 then (e.1, 0x3D) else e) }
    (match (s.translate [] 0 0 0x50000 .write).2 with | .ok _ => false | .error e => e == .notPresent) = true
    ∧ (match ((s.makePresent 0 0 0x50000).translate [] 0 0 0x50000 .write).2 with | .ok l => l == Loc.hbm 0x50000 0 | .error _ => false) = true := by
  decide +kernel
/-- Entries that the tables take, and the boundary of each range that they refuse. -/
theorem test_meets_TableWrites :
    let s := ready State.reset
    let w0 : Word64 := 0x8100000100000000
    let e : Word64 := 0x0000000095100001
    let homes := fun (e : Word64) => (List.range (majCopies e)).map (majStack e)
    s.vfWord 0 0 = w0 ∧ w0.extractLsb' 0 32 = 0 ∧ w0.extractLsb' 56 6 ≠ 0 ∧ (s.vfWord 1 0).getLsbD 63 = false
    ∧ (0x0102000000000000 : Word64).extractLsb' 60 4 = 0 ∧ (0x0102000000000000 : Word64).extractLsb' 0 49 = 0 ∧ (s.cave 63).enable = false
    ∧ ({ cave false [] with vf := 1 } : Cave).word0 = 0x0102000000000000 ∧ majValid (s.majEntry 15) = false ∧ homes e = [1, 5, 9]
    ∧ (homes 0x0000000099900001).Nodup = False ∧ 12 ≤ majStack (0x00000000C5100001 : Word64) 2 ∧ e.extractLsb' 3 17 = 0
    ∧ e.extractLsb' 40 5 = 0 ∧ e.extractLsb' 53 3 = 0 ∧ majValid (maj.majEntry 0) = true ∧ s.bankHeld 0 8 = false
    ∧ (ts (tp 1 [] (tc 0))).bankHeld 0 8 = true ∧ Tab.get false s.majDue 0 = false
    ∧ ({ s with majDue := [(0, true)] } : State).majDue.any (fun x => x.2) = true := by
  refine ⟨?_, ?_, ?_, ?_, ?_, ?_, ?_, ?_, ?_, ?_, ?_, ?_, ?_, ?_, ?_, ?_, ?_, ?_, ?_, ?_⟩
  case refine_11 => simp; decide +kernel
  all_goals decide +kernel
theorem test_meets_ManagementWords :
    let s := ready State.reset
    let x : Inval := { serial := 0, range := { vf := 0, asid := none, range := some (0, 65536) }, tag := 0 }
    Accepted s sig ∧ ({ s with invals := [x] } : State).invals.find? (fun i => i.serial == 0) = some x ∧ s.invalBusy x.range = false :=
  ⟨meets_accepted _ (by decide) rfl (by decide +kernel), by decide +kernel⟩
/-- A slot that verifies and one that does not; a start in stage 1, 600 s old, in which cluster 0 is all that is not disabled. -/
theorem test_meets_Starts :
    let y : Sys := { Sys.reset with stage := 1, disabled := 0xFFFFFE }
    (Tab.get Slot.empty Sys.reset.slots 0).sigOk = true ∧ (Tab.get Slot.empty Sys.reset.slots 0).security = BitVec.allOnes 32
    ∧ (Tab.get Slot.empty Sys.reset.slots 1).sigOk = false ∧ y.stage = 1 ∧ y.failedStarts < 3 ∧ y.startFailed = false
    ∧ (∀ k, k < 24 → y.passed.getLsbD k = true ∨ (1 : BitVec 24).getLsbD k = true ∨ y.disabled.getLsbD k = true)
    ∧ 600 * 1700000000 ≤ ((1020000000000 : Word64) - y.startClock).toNat
    ∧ (∀ k, k < 16 → majValid (maj.majEntry k) = true → majEpoch (maj.majEntry k) < 254) := by decide +kernel
theorem test_meets_DeviceHealth :
    let s : State := { ready State.reset with clock := 1020000000000, log := [(0, [{ vf := 0, cave := 0, popix := 0, seq := 0 }])] }
    s.sys.stage = 2 ∧ s.sys.enabled.getLsbD 0 = true ∧ s.sys.quarantine.getLsbD 0 = false ∧ s.pops = []
    ∧ 60 * 1700000000 * s.sys.period ≤ (s.clock - Tab.get 0 s.sys.lastPass 0).toNat ∧ s.reporters 0 = [1]
    ∧ majValid (s.majEntry s.sys.dumpSet) = false ∧ majLost (maj.majEntry 0) = false ∧ throttleRank .press = throttleRank s.sys.throttle + 1
    ∧ throttleRank .none + 1 = throttleRank .press ∧ throttleRank .bandwidth ≠ throttleRank s.sys.throttle + 1 := by decide +kernel
theorem test_meets_EncodeDecode : wfInstr (.vcompact { ty := .n64, mask := 15, vd := 2046, va := 0 }) = true
    ∧ encode (.vcompact { ty := .n64, mask := 15, vd := 2046, va := 0 }) = some 0x94707FFE00000000#64 := by decide
/-- A word that decodes and one that does not, at a control program and at a stream. -/
theorem test_meets_StepRunsDecoded : (tc 0).clause[(tc 0).widx]? = some 0 ∧ decode 0 = .ok .nop ∧ (decode 0xFF00000000000000#64).toOption = none
    ∧ (st 0xC0FF).clause[(st 0xC0FF).widx]? = some 0xC0FF ∧ (decode 0xC0FF#64).toOption = none := ⟨rfl, rfl, rfl, rfl, rfl⟩
/-- A state whose next step exists, with memory in its form. -/
theorem test_meets_StepKeepsMemoryForm : (mapped (ts (tp 1 [] (tc 0)))).memWf
    ∧ (match step (mapped (ts (tp 1 [] (tc 0)))) with | .next _ => true | .fault _ | .refused _ => false) = true :=
  ⟨⟨by decide, rfl, rfl⟩, by decide +kernel⟩

/-! ### States that meet the clauses on refused, blocked and partly done work -/

/-- Enabled flags of further words: a compare of a signalling NaN, a remainder by 0, a lane's scaling that overflows, its inexact
rounding, and the last of two lanes that overflows alone. -/
theorem test_meets_EnabledFlagsTrap_forms :
    isSnan fpF32 (unpack fpF32 false 0x7F800001) = true ∧ sense .s64 (xpat .s64 (xsrc (sc 7 0) .s64 (.reg 2))) = 0
    ∧ (fScale fpF32 (envOf { tc 0 with mode := 0x100 } .mode) 0x7F000000 200).2 &&& ({ tc 0 with mode := 0x100 } : Cp).enables ≠ 0
    ∧ (fRound fpF32 (envOf { tc 0 with mode := 0x400 } .mode) 0x3FC00000).2 &&& ({ tc 0 with mode := 0x400 } : Cp).enables ≠ 0
    ∧ (fMul fpF32 (envOf { tc 0 with mode := 0x100 } .mode) 0x3F800000 0x3F800000).2 &&& ({ tc 0 with mode := 0x100 } : Cp).enables = 0
    ∧ okAll [.sset .lt (x2 .f64), .srem (x2 .n32), .sfcvt .mode .s32 .f64 1 2, .sfsqrt .mode (x1 .f32)] = true := by decide +kernel

/-- Function 0 as mapped, but its one leaf is not present, or may not be written. -/
def unmapped (leaf : Byte) (s : State) : State :=
  let m := mapped s
  { m with hbm := m.hbm.map (fun e => if e.1 = 0x30000 then (e.1, leaf) else e) }

/-- A fragment entry of context 0 that is older than born. -/
def live (st : FragState) (born : Nat) : Frag := { Frag.empty with state := st, ctx := 0, lanes := 1, born := born }

/-- Both lanes' stores meet a page that is not present: with a free entry, with none on the core, with four entries of the context one of
which is READY, and with four that are DEAD; a page that may not be written. -/
theorem test_meets_LaneFaults :
    let c := tcp 2 (sc 0x50000 0)
    let wants := laneWants ends c .g 8 true (fun l => c.getS 1 + (ends.getV l 0).zeroExtend 64 <<< 3)
    let missing := fun (s : State) => (missed (s.placeEach ends .write wants).2).map (fun e => (e.1, e.2.2))
    let s := unmapped 0x3D (ts ends)
    let none_ : State := { s with frags := (List.range 256).map (fun k => (k, { live .pending k with ctx := 1 })) }
    let four := fun (st : FragState) => ({ s with frags := (List.range 4).map (fun k => (k, live (if k = 2 then st else .dead) k)) } : State)
    let open_ := fun (s : State) => (s.fragsOf ends.home c.ctx).any (fun e => e.2.state == .pending || e.2.state == .ready)
    s.checkWants ends wants = none ∧ missing s = [(0, .notPresent), (1, .notPresent)]
    ∧ (s.fragsOf ends.home c.ctx).length < 4 ∧ (s.frag ends.home 0).state = .free
    ∧ (none_.fragsOf ends.home c.ctx).length < 4 ∧ (List.range 256).all (fun j => (none_.frag ends.home j).state != .free) = true
    ∧ ((four .ready).fragsOf ends.home c.ctx).length = 4 ∧ open_ (four .ready) = true ∧ open_ (four .dead) = false
    ∧ (s.ovf ends.home c.ctx).state ≠ .dead ∧ missing (unmapped 0x37 (ts ends)) = [(0, .permission), (1, .permission)]
    ∧ ({ c with mode := 0x800 } : Cp).mode.getLsbD 11 = true := by decide +kernel

/-- A refused atomic's lanes, a floating reduction under DET, an ordered load that a stamp of another cluster refuses, and a walk that
meets a bad line. -/
theorem test_meets_RefusedMemoryWords :
    let c := tcp 2 (sc 0x50000 0)
    let wants := laneWants ends c .g 8 true (fun l => c.getS 1 + (ends.getV l 0).zeroExtend 64 <<< 3)
    let s := unmapped 0x3D (ts ends)
    let w : Want := { space := .g, lane := none, ea := 0x50000, size := 8, write := false }
    let m : State := { mapped (ts ends) with stamps := [{ slice := 37, scope := .clu, popid := 1, clu := 1, line := 0x50000 / 128, age := 0 }] }
    let bad : State := { mapped (ts ends) with hline := [(0x10000 / 128, { poison := false, bad := 1 })] }
    ((missed (s.placeEach ends .atomic wants).2).filter (fun e => e.2.2 == .notPresent || e.2.2 == .permission)).length = 2
    ∧ (tc 0).mode.getLsbD 5 = false ∧ ({ tc 0 with mode := 0x20 } : Cp).mode.getLsbD 5 = true
    ∧ m.stampRefuses 0 0 .clu (.hbm 0x50000 0) = true ∧ m.checkWants ends [w] = none
    ∧ (match (bad.place ends w .read).2 with | .ok _ => false | .error e => e == .uncorrectable) = true
    ∧ discarded (.st { width := .b32, space := .w, scope := .pop, order := .plain, vdat := 0, sbase := 2, idx := none, imm := 0 }) = true := by
  decide +kernel
/-- A copy's source lock over bytes that another operation has locked. -/
theorem test_meets_CopyWords_overlap :
    let l : Lock := { cluster := 0, write := true, engine := .copy, first := 4194400, last := 4194500, owner := 0, entered := 0 }
    let k : Lock := { cluster := 0, write := false, engine := .copy, first := 4194304, last := 4194431, owner := 1, entered := 0 }
    let s : State := { ts (tp 1 [] (tc 0)) with locks := [l], serial := 1 }
    (∀ x ∈ s.locks, x.owner < s.serial) ∧ l.cluster = k.cluster ∧ k.first ≤ l.last ∧ l.first ≤ k.last := by decide +kernel
/-- A store of two parts that do not meet, one in the window and one in memory, and a stamp that does not refuse it. -/
theorem test_meets_AccessesPerform_parts :
    let its := [part 4, { part 4 with loc := .hbm 0x50000 0 }]
    let p := pending .st false its
    let a := newAccess 0 (tc 0) .st .pop .plain false its
    its[1]? = some { part 4 with loc := .hbm 0x50000 0 } ∧ overlap [its.getD 1 (part 4)] [part 4] = false
    ∧ its.all (fun it => !(waits p).stampRefuses 0 0 .pop it.loc) = true ∧ (waits p).mayPerform p ((p.cp 0).getD (tc 0)) a = true
    ∧ (mapped (waits p)).memWf := ⟨by decide +kernel, by decide +kernel, by decide +kernel, by decide +kernel, by decide, rfl, rfl⟩
/-- A cluster that holds no line is coherent with memory. -/
theorem test_meets_AccessesPerform_coherent : (waits (pending .st false [part 4])).coherent 0 0 := by
  intro l hl
  simp [waits, ts, State.reset] at hl
/-- A copy from memory to the window within one line, and one whose source page is not present. -/
theorem test_meets_CopyEvents_pages :
    let d : CopyDesc := { dst := 64, src := 0x50000, len := 16, rows := 1, dstW := true, srcW := false, dstStride := 0, srcStride := 0, cw := none }
    let a := { newAsync 0 (.copy d) false false 0 with held := some 0x50000 }
    let p := running a
    let s := mapped (waits p)
    let ok := fun (x : Met Loc) (l : Loc) => match x.2 with | .ok k => k == l | .error _ => false
    a.moved < d.len * d.rows ∧ s.majBusy a.majWait = false ∧ d.src.toNat % 128 + d.len ≤ 128 ∧ d.dst.toNat % 128 + d.len ≤ 128
    ∧ ok (s.sidePlace p false 0x50000 .read) (.hbm 0x50000 0) = true ∧ ok (s.sidePlace p true 64 .write) (p.winLoc 64) = true
    ∧ s.lineState (.hbm 0x50000 0) = LineState.clean
    ∧ (match ((unmapped 0x3D (waits p)).sidePlace p false 0x50000 .read).2 with | .ok _ => false | .error e => e == .notPresent) = true
    ∧ a.held = some (d.src + BitVec.ofNat 64 (a.moved / d.len) * d.srcStride + BitVec.ofNat 64 (a.moved % d.len)) := by decide +kernel
/-- A transfer of one lane that may move, and one more that waits behind it at the same bytes. -/
theorem test_meets_TransferEvents_parts :
    let t := fun (l : Nat) => ({ lane := l, off := 0, addr := 0x50000, loc := .hbm 0x50000 0, size := 8, got := none } : SetItem)
    let p := running (newAsync 0 (.setTransfer true [t 0, t 1]) false false 0)
    let c := (p.cp 0).getD (tc 0)
    mayMove p c 0 true [] (t 0) = true ∧ mayMove p c 0 true [t 0] (t 1) = false := by decide +kernel

/-- A try push that waits for the management processor, and a launch held on the same cave, before and after a segment is linked. -/
theorem test_meets_CaveEvents_held :
    let ws := (List.range 18).map (fun i => block.getSn 0 i)
    let a := newAccess 0 (tc 0) (.tryPush 5 0 1 ws) .dev .plain true []
    let full := cave false (List.replicate 511 (entry 0) ++ [{ entry 0 with slot := 1 }])
    let m : Msg := { vf := 0, sender := { addr := 0, job := 0 }, delivery := .rod, port := 0, secured := true, type := 1, tag := 0 }
    let p := tp 1 [] { newCp 0 [] 0 0 0x1000 1 0 Know.zero 0 with pend := [a] }
    let h : LaunchHold := { msg := m, cave := 0, entry := ws, src := 1 }
    let s : State := { waits p with caves := [(0, full)] }
    let t : State := { waits (tp 1 [] (tc 0)) with caves := [(0, full)], launches := [h] }
    s.heldTries 0 = [(at0, a, 5, 1, ws)] ∧ (∀ h ∈ s.launches, h.cave ≠ 0) ∧ full.reason 0 (some false) = none ∧ full.room 1 = none
    ∧ full.npool = 0 ∧ (Cave.room { full with segs := [7] } 1).isSome = true ∧ s.mpServes = true
    ∧ t.launches.filter (fun h => h.cave == 0) = [h] ∧ t.heldTries 0 = [] ∧ full.room 0 = none
    ∧ (Cave.room { full with segs := [7] } 0).isSome = true := by decide +kernel
/-- A FIFO at which another control program waits, one at which this one is the first, and a batch of no lane. -/
theorem test_meets_FifoWords_waiters :
    let other : CpRef := { pid := 0, cid := 1 }
    let f : Fifo := { head := 0, tail := 5, waiters := [other], know := Know.zero }
    (¬(f.waiters = [] ∨ f.waiters.head? = some at0)) ∧ (f.tail - f.head).toNat + 2 ≤ 131072
    ∧ ({ f with waiters := [at0, other] } : Fifo).waiters.head? = some at0
    ∧ (tp 2 [] (tc 0)).laneList ((tcp 2 (tc 0)).getM 1 &&& (tp 2 [] (tc 0)).live) = [] := by decide +kernel
/-- A peer that is not ready; a put that has been acknowledged, and one that is answered too late; a get whose bytes have landed. -/
theorem test_meets_NetworkOperations_ends :
    let d : NetDesc := { op := .put, peer := 1, remote := 0, localAddr := 0, len := 16, window := true, cw := 32, remoteCw := 64 }
    let a := newAsync 0 (.net d) false false 0
    let p := running a
    let s := mapped (waits p)
    let far : State := { s with hbm := s.hbm.map (fun e => if e.1 = 0x40027 then (e.1, 0x80) else e) }
    s.peerReady 0 1 = true ∧ far.peerReady 0 1 = false ∧ (∃ c, Outstanding s ⟨0, 0, 0⟩ p c a) ∧ s.sys.recovery = false
    ∧ d.cw.toNat % 16 = 0 ∧ d.remoteCw ≠ allOnes64 ∧ a.acked = false ∧ ({ a with acked := true } : AsyncOp).acked = true
    ∧ ¬(2 ^ 30 ≤ (s.clock - a.since).toNat) ∧ 2 ^ 30 ≤ ((0x40000000 : Word64) - a.since).toNat
    ∧ (match (s.translate p.cpUnits 0 0 0x50000 .both).2 with | .ok l => l == .hbm 0x50000 0 | .error _ => false) = true := by
  refine ⟨by decide +kernel, by decide +kernel, ⟨_, rfl, rfl, rfl⟩, rfl, by decide, by decide, rfl, rfl, by decide, by decide, by decide +kernel⟩
/-- A WAITT that was its clause's last word, with a SCOPE trap due, with a halt due, and with neither. -/
theorem test_meets_WaitWords_ends :
    let w : Wait := { kind := .waitt, space := .w, addr := 0, value := 0, aux := 0 }
    let c : Cp := { newCp 0 [] 0 0 0x1000 1 0 Know.zero 0 with wait := some w }
    let k : ScopeTrap := { tpc := 0x1008, taddr := 0, tlane := allOnes64 }
    c.clause = [] ∧ c.scopeTrap = none ∧ c.haltDue = false ∧ c.stepping = false ∧ ({ c with scopeTrap := some k } : Cp).scopeTrap = some k
    ∧ ({ c with haltDue := true } : Cp).haltDue = true ∧ c.loadTickets ≤ w.aux.toNat % 64 ∧ c.asyncs.length ≤ w.aux.toNat / 256 % 64
    ∧ (∀ b ∈ c.pend, b.fault = none) ∧ c.halted = false := by decide +kernel

/-- A control program whose turn it is, one that holds the turn of another back, and one whose header's wait field is not met. -/
theorem test_meets_IssueEvents_turns :
    let a : Access := { newAccess 0 (tc 0) (.lds 1) .pop .plain true [] with complete := false }
    let c := newCp 0 [] 0 0 0x1000 1 0 Know.zero 0
    let p := tp 1 [] c
    let m := mapped (waits p)
    let at1000 := fun (s : State) => { s with hbm := (0x1005, 0x3F) :: (0x1006, 0x10) :: (0x1007, 0xF0) :: s.hbm }
    let q := tp 1 [] { c with pend := [a] }
    let d := (q.cp 0).getD c
    (at1000 m).enters at0 p = true ∧ c.storeFault = none ∧ (at1000 m).headerUnmet 0 p c = none
    ∧ loadBound 0xF000000000000000 [0, 0] = 0 ∧ d.loadTickets = 1 ∧ d.faultWithin 0 = none ∧ d.ready q = true := by decide +kernel
/-- A population that may be handed over, with no access on its way. -/
theorem test_meets_SuccessorHandover_release :
    let c : Cp := { newCp 0 [] 0 0 0x1000 1 0 Know.zero 0 with wait := some (queueWait .succ3 0 0 0), succ := some (0x60000, 0x70000) }
    let p := tp 1 [] c
    (mapped (waits p)).canRelease 0 p = true ∧ (∀ e ∈ p.cps, e.2.pend = []) := by decide +kernel
/-- A gathered pass whose index vector another engine writes, and one whose vector it does not touch. -/
theorem test_meets_TileWords_gather :
    let p := streaming { st 0 with x := [(3, 65536)] }
    let l : Lock := { cluster := 0, write := true, engine := .copy, first := 524288 * p.base + 65600, last := 524288 * p.base + 65700, owner := 0, entered := 0 }
    wfInstr (.pmmg 0 1 2 3 255) = true ∧ l.cluster = p.cluster ∧ l.write = true ∧ 524288 * p.base + 65536 ≤ l.last
    ∧ l.first < 524288 * p.base + 65536 + 256 ∧ ¬(l.first < 524288 * p.base + 32768 + 256) ∧ (65536 : Nat) % 2 = 0 := by decide +kernel
/-- A stream that has started and whose target is no header, and one that has not started. -/
theorem test_meets_StreamEvents_target :
    let x := { st 0 with clause := [] }
    let p := streaming x
    let s := mapped (waits p)
    (match (s.fetchClause 0 p 0x2000).2 with | .ok _ => false | .error f => f.cause == none) = true ∧ x.started = true
    ∧ (0x2000 : Word64).toNat % 8 = 0 ∧ (newStream (tc 0) 0x2000 0 0).started = false ∧ x.unread = none
    ∧ s.sound (.store 0 4194304) 16 := ⟨by decide +kernel, rfl, by decide, rfl, rfl, meets_sound 16 (by decide) _ rfl⟩
/-- A granted operation at the head of its stream, with all its locks and none of its pieces done. -/
theorem test_meets_PressGrant_granted :
    let o : TileOp := { serial := 0, kind := .pzero 1, waiting := false, granted := false, issued := 0, flags := 0, poison := false,
                        mark := (st 0).mark, parts := [], got := [] }
    let x := fun (l : List TileOp) => { st 0 with ops := l }
    let g := (waits (streaming (x [o]))).grantTile (streaming (x [o])) (x [o]) o
    (x [g]).ops = g :: [] ∧ o.parts = [] ∧ o.got = [] ∧ o.poison = false ∧ Tab.rises 0 (waits (streaming (x [g]))).tiles = true
    ∧ Rounds .rne 3 2 2 ∧ Rounds .rna 1 2 1 ∧ Rounds .rto 3 2 1 ∧ isFinite (.inf true) = false
    ∧ (∃ n m e, unpack fpF32 false 0x3FC00000 = .fin n m e) := by
  refine ⟨rfl, rfl, rfl, rfl, rfl, ?_, ?_, ?_, rfl, ⟨_, _, _, rfl⟩⟩ <;> unfold Rounds <;> decide
/-- Tasks that ask for one arrival each, whose completion word is mapped. -/
theorem test_meets_PopulationEvents_arrival :
    let u : Task := { words := (task 0x200000).words, desc := [0x1000, 0x10080001], vf := 0, cave := 3, seq := 0, next := 1, left := 1,
                      status := 0, run := 1, know := Know.zero }
    let s := ready State.reset
    (u.words.getD 2 0).getLsbD 21 = true ∧ (u.words.getD 17 0).toNat % 16 = 0 ∧ s.majWrites = []
    ∧ (match (s.translate [] 0 0 (u.words.getD 17 0) .both).2 with | .ok l => l == .hbm 0x50000 0 | .error _ => false) = true
    ∧ s.lineState (.hbm 0x50000 0) = LineState.clean := by decide +kernel
/-- A fragment entry of one page, which firmware can make present, and one whose page has no leaf. -/
theorem test_meets_FragmentEvents_pages :
    let f : FragRef := { core := 0, idx := 0, ovf := false }
    let c := newCp 0 [] 0 0 0x1000 1 0 Know.zero 0
    let p := tp 1 [] c
    let s := unmapped 0x3D (waits p)
    let x : Frag := { Frag.empty with state := .pending, ctx := 0, lanes := 1, page := 5 }
    let made := fun (a : Word64) => (s.makePresent 0 0 a).present 0 0 a
    (match s.fragOwner 0 0 with | some e => e.1 == at0 | none => false) = true ∧ x.more = false ∧ s.fragPages f x at0 p c = some [0x50000]
    ∧ s.present 0 0 0x50000 = false ∧ made 0x50000 = true ∧ made 0x0080000000000000 = false := by decide +kernel
/-- Two levels of a halted control program, of which one is written. -/
theorem test_meets_DebuggerWords_levels :
    let c : Cp := { tc 0 with halted := true, stack := [0xFF, 0x0F] }
    1 < c.depth ∧ (c.stack.set 0 (0x3 : LaneSet))[1]? = some 0x0F ∧ c.ended = false := by decide +kernel
/-- A load and a store of a majority line: its copies agree, its write is on its way, and fewer than a quorum can be read. -/
theorem test_meets_MajorityEvents_accesses :
    let it : Item := { part 4 with loc := .maj 0 0, lanes := [] }
    let p := pending (.lds 0) true [it]
    let q := pending .sts false [it]
    let may := fun (p : Pop) (op : AccOp) (t : Bool) => (waits p).mayPerform p ((p.cp 0).getD (tc 0)) (newAccess 0 (tc 0) op .pop .plain t [it])
    let s : State := { waits p with majSet := maj.majSet }
    let w : MajWrite := { serial := 9, set := 0, line := 0, tag := 0x0200000000000109, data := List.replicate 128 1, poison := false,
                          accepted := 0, reported := 0, complete := false, sent := 0, since := 0 }
    let e := s.majEntry 0
    let v : Word64 × List Byte × Bool := (0, List.replicate 128 0, false)
    let bad : State := { s with hline := [(1, { poison := false, bad := 1 }), (5, { poison := false, bad := 1 })] }
    let readable := fun (s : State) => (majLive e).filter (fun j => (s.copyView (12 * 0 + majStack e j)).isSome)
    it.bits = BitVec.allOnes 128 ∧ majLost e = false ∧ may p (.lds 0) true = true ∧ may q .sts false = true
    ∧ s.majFlight 0 0 = none ∧ ({ s with majWrites := [w] } : State).majFlight 0 0 = some w
    ∧ (majLive e).all (fun j => s.copyView (12 * 0 + majStack e j) == some v) = true
    ∧ (readable bad).length < majQ e ∧ majQ e ≤ (readable s).length
    ∧ Tab.get 0 s.version (8 * majStack e (majHome e) + 0 % 8) + 1 < 2 ^ 48 := by decide +kernel

/-- Messages on a port that their endpoint does not have, without the security it requires, and for a function without entries. -/
theorem test_meets_AdmissionOfMessages_ports :
    let s := ready State.reset
    let cfg : EndpointCfg := { EndpointCfg.zero with ports := 0x7F, secure := true }
    let t : State := { s with endpoints := [(0, cfg), (16, cfg)] }
    s.reached (msg .rod) = true ∧ t.reached (msg .rod) = false ∧ t.reached { msg .rod with port := 0 } = false
    ∧ t.reached { msg .rod with port := 0, secured := true } = true ∧ s.reached { msg .rod with vf := 16 } = false
    ∧ (t.endpoint 16).ports.getLsbD sig.port.toNat = false ∧ s.stuck s = false
    ∧ (s.readPeers (msg .rod)).senderEntry (msg .rod) = some (1, 0x7F) := by decide +kernel
/-- A launch that is held in a test mode, and a held read that goes on once its page is present. -/
theorem test_meets_HostMessages_holds :
    let s : State := { ready State.reset with sys := { Sys.reset with stage := 2, testMode := true } }
    let h : HostHold := { serial := 0, msg := msg .rod, uet := false, write := false, asid := 0, addr := 0x50000, len := 8, body := [], since := 0 }
    let u := (unmapped 0x3D (ready State.reset)).makePresent 0 0 0x50000
    s.mpServes = true ∧ (ready State.reset).mpServes = false ∧ s.readPeers (msg .rod) = s
    ∧ (match (u.translate [] 0 0 0x50000 .read).2 with | .ok l => l == .hbm 0x50000 0 | .error _ => false) = true
    ∧ u.lineState (.hbm 0x50000 0) = LineState.clean ∧ (s.clock - h.since).toNat < 2 ^ 30 := by decide +kernel
/-- Words of a function's tables, the dump region at the end of a set and beyond it, and a bank role that waits. -/
theorem test_meets_TableWrites_more :
    (let s := ready State.reset
     Accepted s sig ∧ (List.range 2).all (fun k => decide (s.lineState (.hbm (0x40000 + 8 * k) 1) = LineState.clean)) = true)
    ∧ 0x40000 % 8 = 0 ∧ 0x40000 + 8 * 2 ≤ 576 * 2 ^ 30 ∧ 48 * 2 ^ 30 - 128 + 128 ≤ 48 * 2 ^ 30
    ∧ ¬(48 * 2 ^ 30 - 128 + 129 ≤ 48 * 2 ^ 30) ∧ Tab.rises 0 [(8, BankRole.cache)] = true :=
  ⟨⟨meets_accepted _ (by decide) rfl (by decide +kernel), by decide +kernel⟩, by decide, by decide, by decide, by decide, by decide⟩
/-- A start that has failed, a set for the dump, and a cluster whose test is due in stage 1. -/
theorem test_meets_Starts_more :
    let y : Sys := { Sys.reset with stage := 1, startFailed := true }
    let s : State := { maj with sys := { Sys.reset with stage := 1, enabled := 1, passed := 1 }, clock := 1020000000000 }
    y.startFailed = true ∧ y.recovery = false ∧ y.failedStarts < 3 ∧ majValid (s.majEntry s.sys.dumpSet) = true
    ∧ majLost (s.majEntry s.sys.dumpSet) = false ∧ s.sys.stage ≠ 0
    ∧ 60 * 1700000000 * s.sys.period ≤ (s.clock - Tab.get 0 s.sys.lastPass 0).toNat := by decide +kernel

end Sys2Proof.Tests
end

section
/-! SUPPORT. The numbers that scalar words compute: patterns of integers, shifts and fields, counts of bits, and division, each in the
terms of its rule (R88, R126 to R128, R163 to R166). -/

namespace Sys2Proof.Machine

/-! ### Patterns -/

theorem patOf_natCast (w x : Nat) : patOf w (x : Int) = x % 2 ^ w := by
  have h : (x : Int) % 2 ^ w = ((x % 2 ^ w : Nat) : Int) := by push_cast; rfl
  rw [patOf, h, Int.toNat_natCast]

theorem patOf_natCast_of_lt {w x : Nat} (h : x < 2 ^ w) : patOf w (x : Int) = x := by
  rw [patOf_natCast, Nat.mod_eq_of_lt h]

theorem xpat_lt (t : Ty) (v : Word64) : xpat t v < 2 ^ t.bits := Nat.mod_lt _ (Nat.two_pow_pos _)

theorem senseOf_mod (signed : Bool) (w x : Nat) : senseOf signed w (x % 2 ^ w) = senseOf signed w x := by
  simp only [senseOf, Nat.mod_mod]

theorem Ty.bits_pos (t : Ty) : 0 < t.bits := by cases t <;> decide

theorem Ty.bits_le (t : Ty) : t.bits ≤ 64 := by cases t <;> decide

/-- A small number is extended to itself, whatever the type. -/
theorem ext_of_lt (t : Ty) {n : Nat} (h : n < 2 ^ 31) : ext t n = BitVec.ofNat 64 n := by
  have hz : (BitVec.ofNat 32 n).setWidth 64 = BitVec.ofNat 64 n := by
    apply BitVec.eq_of_toNat_eq
    simp only [BitVec.toNat_setWidth, BitVec.toNat_ofNat]
    omega
  have hm : (BitVec.ofNat 32 n).msb = false := by
    rw [BitVec.msb_eq_false_iff_two_mul_lt, BitVec.toNat_ofNat]
    omega
  unfold ext
  split
  · rfl
  · split
    · rw [BitVec.signExtend_eq_setWidth_of_msb_false hm, hz]
    · exact hz

/-- At a 64-bit type a register's pattern is extended to the register. -/
theorem ext_xpat_of_wide {t : Ty} (h : t.wide = true) (v : Word64) : ext t (xpat t v) = v := by
  have hb : t.bits = 64 := by simpa [Ty.wide] using h
  rw [ext, if_pos h, xpat, hb, Nat.mod_eq_of_lt v.isLt, BitVec.ofNat_toNat, BitVec.setWidth_eq]

/-- The low half of a register, as the 32-bit types read it. -/
theorem ofNat_mod_eq_extractLsb' (v : Word64) : BitVec.ofNat 32 (v.toNat % 2 ^ 32) = v.extractLsb' 0 32 := by
  apply BitVec.eq_of_toNat_eq
  simp

/-! ### Counts of bits -/

theorem bitLength_zero (w : Nat) : bitLength w 0 = 0 := by
  induction w with
  | zero => rfl
  | succ w ih =>
    rw [bitLength, Nat.zero_mod, if_pos (Nat.two_pow_pos w)]
    exact ih

/-- A number that is not 0 has its highest 1 at the last of the bits it needs. -/
theorem bitLength_spec {w x : Nat} (hx : x ≠ 0) (h : x < 2 ^ w) :
    0 < bitLength w x ∧ bitLength w x ≤ w ∧ 2 ^ (bitLength w x - 1) ≤ x ∧ x < 2 ^ bitLength w x := by
  induction w with
  | zero =>
    rw [Nat.pow_zero] at h
    omega
  | succ w ih =>
    rw [bitLength, Nat.mod_eq_of_lt h]
    by_cases hlt : x < 2 ^ w
    · obtain ⟨hpos, hle, hlow, hhigh⟩ := ih hlt
      rw [if_pos hlt]
      exact ⟨hpos, Nat.le_succ_of_le hle, hlow, hhigh⟩
    · rw [if_neg hlt]
      exact ⟨Nat.succ_pos w, Nat.le_refl _, Nat.le_of_not_lt hlt, h⟩

/-- Leading zeros by the place of the highest 1 (R163). -/
theorem leadingZeros_spec {w x : Nat} (h : x < 2 ^ w) :
    (x = 0 ∧ leadingZeros w x = w)
    ∨ (leadingZeros w x < w ∧ 2 ^ (w - leadingZeros w x - 1) ≤ x ∧ x < 2 ^ (w - leadingZeros w x)) := by
  by_cases hx : x = 0
  · exact .inl ⟨hx, by rw [hx, leadingZeros, bitLength_zero, Nat.sub_zero]⟩
  · obtain ⟨hpos, hle, hlow, hhigh⟩ := bitLength_spec hx h
    have hw : w - leadingZeros w x = bitLength w x := by
      rw [leadingZeros]
      omega
    rw [hw]
    exact .inr ⟨by omega, hlow, hhigh⟩

theorem leadingZeros_le (w x : Nat) : leadingZeros w x ≤ w := Nat.sub_le _ _

theorem popCount_eq_length (w x : Nat) : popCount w x = ((List.range w).filter (fun k => x.testBit k)).length := by
  induction w generalizing x with
  | zero => rfl
  | succ w ih =>
    have hs : (fun k => x.testBit k) ∘ Nat.succ = fun k => (x / 2).testBit k := funext fun k => Nat.testBit_succ x k
    rw [popCount, ih, List.range_succ_eq_map, List.filter_cons, List.filter_map, hs, Nat.testBit_zero]
    rcases Nat.mod_two_eq_zero_or_one x with h | h
    · simp [h]
    · simp [h, Nat.add_comm]

theorem popCount_le (w x : Nat) : popCount w x ≤ w := by
  rw [popCount_eq_length]
  exact Nat.le_trans (List.length_filter_le _ _) (Nat.le_of_eq List.length_range)

/-! ### Fields -/

theorem fieldOf_bounds {w : Nat} (hw : 0 < w) (b : Nat) : (fieldOf w b).1 ≤ (fieldOf w b).2 ∧ (fieldOf w b).2 ≤ w := by
  have hp : b % 64 % w < w := Nat.mod_lt _ hw
  simp only [fieldOf]
  omega

/-- The bits of the old value with the bits from p to t replaced by the low bits of a. -/
theorem testBit_splice (a c : Nat) {p t : Nat} (h : p ≤ t) (k : Nat) :
    (c % 2 ^ p + a % 2 ^ (t - p) * 2 ^ p + c / 2 ^ t * 2 ^ t).testBit k
      = if p ≤ k ∧ k < t then a.testBit (k - p) else c.testBit k := by
  have hc : c % 2 ^ p < 2 ^ p := Nat.mod_lt _ (Nat.two_pow_pos _)
  have ha : a % 2 ^ (t - p) < 2 ^ (t - p) := Nat.mod_lt _ (Nat.two_pow_pos _)
  have hlow : 2 ^ p * (a % 2 ^ (t - p)) + c % 2 ^ p < 2 ^ t := by
    calc 2 ^ p * (a % 2 ^ (t - p)) + c % 2 ^ p
        < 2 ^ p * (a % 2 ^ (t - p)) + 2 ^ p := by omega
      _ = 2 ^ p * (a % 2 ^ (t - p) + 1) := (Nat.mul_succ _ _).symm
      _ ≤ 2 ^ p * 2 ^ (t - p) := Nat.mul_le_mul_left _ ha
      _ = 2 ^ t := by rw [← Nat.pow_add, Nat.add_sub_cancel' h]
  have hsum : c % 2 ^ p + a % 2 ^ (t - p) * 2 ^ p + c / 2 ^ t * 2 ^ t
      = 2 ^ t * (c / 2 ^ t) + (2 ^ p * (a % 2 ^ (t - p)) + c % 2 ^ p) := by
    rw [Nat.mul_comm (a % _), Nat.mul_comm (c / _), Nat.add_comm (c % _), Nat.add_comm (2 ^ t * _)]
  rw [hsum, Nat.testBit_two_pow_mul_add _ hlow, Nat.testBit_two_pow_mul_add _ hc]
  by_cases hkt : k < t
  · by_cases hkp : k < p
    · have hn : ¬(p ≤ k ∧ k < t) := by omega
      rw [if_pos hkt, if_pos hkp, if_neg hn, Nat.testBit_mod_two_pow]
      simp [hkp]
    · have hy : p ≤ k ∧ k < t := by omega
      have hd : k - p < t - p := by omega
      rw [if_pos hkt, if_neg hkp, if_pos hy, Nat.testBit_mod_two_pow]
      simp [hd]
  · have hn : ¬(p ≤ k ∧ k < t) := by omega
    have hk : k - t + t = k := by omega
    rw [if_neg hkt, if_neg hn, Nat.testBit_div_two_pow, hk]

theorem testBit_insertField {w : Nat} (hw : 0 < w) (a b c k : Nat) :
    (insertField w a b c).testBit k
      = if (fieldOf w b).1 ≤ k ∧ k < (fieldOf w b).2 then a.testBit (k - (fieldOf w b).1) else c.testBit k :=
  testBit_splice a c (fieldOf_bounds hw b).1 k

theorem insertField_lt {w c : Nat} (hw : 0 < w) (a b : Nat) (hc : c < 2 ^ w) : insertField w a b c < 2 ^ w := by
  refine Nat.lt_pow_two_of_testBit _ fun k hk => ?_
  have hn : ¬((fieldOf w b).1 ≤ k ∧ k < (fieldOf w b).2) := by have := (fieldOf_bounds hw b).2; omega
  rw [testBit_insertField hw, if_neg hn]
  exact Nat.testBit_lt_two_pow (Nat.lt_of_lt_of_le hc (Nat.pow_le_pow_right (by decide) hk))

/-- The field of SEXT, cut or in the signed sense of its own width (R166). -/
theorem extractField_eq (signed : Bool) (w a b : Nat) :
    extractField signed w a b =
      if signed = true ∧ (fieldOf w b).1 < (fieldOf w b).2 then
        patOf w (senseOf true ((fieldOf w b).2 - (fieldOf w b).1) (a / 2 ^ (fieldOf w b).1))
      else a / 2 ^ (fieldOf w b).1 % 2 ^ ((fieldOf w b).2 - (fieldOf w b).1) := by
  simp only [extractField, senseOf_mod]

/-! ### Division (R88) -/

theorem divide_zero (signed : Bool) (w : Nat) (a : Int) : divide signed w a 0 = (0, a, fDZ) := by
  simp [divide]

theorem divide_minimum {signed : Bool} {w : Nat} {a b : Int} (hs : signed = true) (ha : a = -(2 ^ (w - 1))) (hb : b = -1) :
    divide signed w a b = (a, 0, 0) := by
  simp [divide, hs, ha, hb, loBound]

theorem divide_general {signed : Bool} {w : Nat} {a b : Int} (hb : b ≠ 0) (h : ¬(signed = true ∧ a = -(2 ^ (w - 1)) ∧ b = -1)) :
    divide signed w a b = (a.tdiv b, a.tmod b, 0) := by
  rw [divide, if_neg hb]
  exact if_neg h

/-- The truncated quotient and remainder: they make up a, and the remainder is smaller than b with the sign of a. -/
theorem tdiv_tmod_spec (a : Int) {b : Int} (hb : b ≠ 0) :
    a = a.tdiv b * b + a.tmod b ∧ (a.tmod b).natAbs < b.natAbs ∧ (0 ≤ a → 0 ≤ a.tmod b) ∧ (a ≤ 0 → a.tmod b ≤ 0) := by
  refine ⟨(Int.tdiv_mul_add_tmod a b).symm, ?_, Int.tmod_nonneg b, fun ha => ?_⟩
  · rw [Int.natAbs_tmod]
    exact Nat.mod_lt _ (Int.natAbs_pos.2 hb)
  · have h : 0 ≤ (-a).tmod b := Int.tmod_nonneg b (by omega)
    rw [Int.neg_tmod] at h
    omega

/-! ### Flags (R158, R159) -/

theorem Cp.getLsbD_enables (c : Cp) {k : Nat} (hk : k < 5) : c.enables.getLsbD k = c.mode.getLsbD (6 + k) := by
  rw [Cp.enables, BitVec.getLsbD_append, if_pos hk, BitVec.getLsbD_extractLsb', decide_eq_true hk, Bool.true_and]

/-- A single flag is untrapped just when its enable in the mode register is 0. -/
theorem Cp.twoPow_and_enables_eq_zero (c : Cp) {k : Nat} (hk : k < 5) :
    BitVec.twoPow 6 k &&& c.enables = 0 ↔ c.mode.getLsbD (6 + k) = false := by
  have hall : ∀ j : Fin 5, BitVec.twoPow 6 j ≠ 0 := by decide
  have hne : BitVec.twoPow 6 k ≠ 0 := hall ⟨k, hk⟩
  rw [BitVec.twoPow_and, c.getLsbD_enables hk]
  cases c.mode.getLsbD (6 + k) with
  | false => exact iff_of_true rfl rfl
  | true => exact iff_of_false hne Bool.noConfusion

theorem Cp.fDZ_and_enables_eq_zero (c : Cp) : fDZ &&& c.enables = 0 ↔ c.mode.getLsbD 7 = false :=
  c.twoPow_and_enables_eq_zero (k := 1) (by decide)

theorem Cp.fIV_and_enables_eq_zero (c : Cp) : fIV &&& c.enables = 0 ↔ c.mode.getLsbD 6 = false :=
  c.twoPow_and_enables_eq_zero (k := 0) (by decide)

@[simp] theorem Cp.zero_and_enables (c : Cp) : (0 : Flags) &&& c.enables = 0 := BitVec.zero_and

@[simp] theorem Cp.raise_zero (c : Cp) : c.raise 0 = c := by
  have h : c.flags ||| 0 = c.flags := BitVec.or_zero
  rw [Cp.raise, h]

end Sys2Proof.Machine
end

section
/-! SUPPORT. What a scalar word does: it writes its scalar, raises its flags and goes on, or takes FPTRAP for an enabled flag (R98, R162). -/

namespace Sys2Proof.Machine

/-- A scalar word raises an enabled flag: its scalar and flags are written, and FPTRAP follows with no lane concerned (R157, R162). -/
theorem Near.scalarDone_trapped {s u : State} {r : CpRef} {p q : Pop} {c : Cp} (h : Near s r p q c u) (sd : SReg) (v : Word64)
    (fl : Flags) (hf : fl &&& c.enables ≠ 0) :
    Trapped s r q ((c.setS sd v).raise fl) .fpTrap c.wordAddr 0 allOnes64 0 (Sys2Proof.Machine.scalarDone u r sd v fl) := by
  have h' := (h.updCp (fun c => c.setS sd v)).updCp (fun c => c.raise fl)
  obtain ⟨q', hq', -⟩ := h'.cpOf
  have he : ((c.setS sd v).raise fl).enables = c.enables := rfl
  simp only [Sys2Proof.Machine.scalarDone, Sys2Proof.Machine.finish, hq', he, if_neg hf]
  exact h'.trapAfter .fpTrap 0 allOnes64

section
variable {s : State} {r : CpRef} {p : Pop} {c : Cp} {i : Instr} {mn : String} {f : CpRef → Pop → Cp → State → State}
  {sd : SReg} {v : Word64}

/-- A scalar word none of whose flags is enabled. -/
theorem Standing.scalar_raises (h : Standing s r p c) (hw : wordOk p.regs i = true) (he : exec i s = onCp mn i s f) (fl : Flags)
    (hf : ∀ u, f r p c u = scalarDone u r sd v fl) (hn : fl &&& c.enables = 0) :
    GoesOn i s r p c p ((c.setS sd v).raise fl) := by
  refine ⟨_, he.trans (onCp_eq h hw f), ?_⟩
  rw [hf]
  exact h.near.scalarDone h.noScope sd v fl hn

/-- A scalar word that raises no flag. -/
theorem Standing.scalar_writes (h : Standing s r p c) (hw : wordOk p.regs i = true) (he : exec i s = onCp mn i s f)
    (hf : ∀ u, f r p c u = scalarDone u r sd v 0) : GoesOn i s r p c p (c.setS sd v) := by
  have := h.scalar_raises hw he 0 hf c.zero_and_enables
  rwa [Cp.raise_zero] at this

/-- A scalar word that raises an enabled flag. -/
theorem Standing.scalar_traps (h : Standing s r p c) (hw : wordOk p.regs i = true) (he : exec i s = onCp mn i s f) (fl : Flags)
    (hf : ∀ u, f r p c u = scalarDone u r sd v fl) (hn : fl &&& c.enables ≠ 0) :
    Completes i s (Trapped s r p ((c.setS sd v).raise fl) .fpTrap c.wordAddr 0 allOnes64 0) := by
  refine ⟨_, he.trans (onCp_eq h hw f), ?_⟩
  rw [hf]
  exact h.near.scalarDone_trapped sd v fl hn

end

section
variable {s : State} {r : CpRef} {p : Pop} {c : Cp} {i : Instr} {mn : String} {o : X2}

/-- An integer word writes its exact result modulo 2^w (R164). -/
theorem Standing.xInt_writes (h : Standing s r p c) (f : Int → Int → Int) (he : exec i s = xInt mn i o s f)
    (hw : wordOk p.regs i = true) :
    GoesOn i s r p c p (c.setS o.sd (ext o.ty
      (f (sense o.ty (xpat o.ty (c.getS o.sa))) (sense o.ty (xpat o.ty (xsrc c o.ty o.b))) % 2 ^ o.ty.bits).toNat)) :=
  h.scalar_writes hw he (fun _ => rfl)

/-- A word on patterns writes the pattern that its function gives, extended. -/
theorem Standing.xBits_writes (h : Standing s r p c) (f : Nat → Nat → Nat) (he : exec i s = xBits mn i o s f)
    (hw : wordOk p.regs i = true) :
    GoesOn i s r p c p (c.setS o.sd (ext o.ty (f (xpat o.ty (c.getS o.sa)) (xpat o.ty (xsrc c o.ty o.b))))) :=
  h.scalar_writes hw he (fun _ => rfl)

/-- The same where the pattern is that of an exact result. -/
theorem Standing.xBits_writes_patOf (h : Standing s r p c) (f : Nat → Nat → Nat) {v : Int} (he : exec i s = xBits mn i o s f)
    (hv : f (xpat o.ty (c.getS o.sa)) (xpat o.ty (xsrc c o.ty o.b)) = patOf o.ty.bits v) (hw : wordOk p.regs i = true) :
    GoesOn i s r p c p (c.setS o.sd (ext o.ty (v % 2 ^ o.ty.bits).toNat)) := by
  have := h.xBits_writes f he hw
  rwa [hv] at this

/-- What SDIV and SREM write and raise, from the quotient, remainder and flag of their division (R88). -/
theorem Standing.divWord_raises (h : Standing s r p c) {rem : Bool} {q m : Int} {fl : Flags} (he : exec i s = divWord mn i o s rem)
    (hw : wordOk p.regs i = true)
    (hd : divide o.ty.isSigned o.ty.bits (sense o.ty (xpat o.ty (c.getS o.sa))) (sense o.ty (xpat o.ty (xsrc c o.ty o.b))) = (q, m, fl))
    (hn : fl &&& c.enables = 0) :
    GoesOn i s r p c p ((c.setS o.sd (ext o.ty ((if rem then m else q) % 2 ^ o.ty.bits).toNat)).raise fl) :=
  h.scalar_raises hw he fl (fun _ => by rw [hd]; rfl) hn

/-- The same where the flag's trap is enabled. -/
theorem Standing.divWord_traps (h : Standing s r p c) {rem : Bool} {q m : Int} {fl : Flags} (he : exec i s = divWord mn i o s rem)
    (hw : wordOk p.regs i = true)
    (hd : divide o.ty.isSigned o.ty.bits (sense o.ty (xpat o.ty (c.getS o.sa))) (sense o.ty (xpat o.ty (xsrc c o.ty o.b))) = (q, m, fl))
    (hn : fl &&& c.enables ≠ 0) :
    Completes i s (Trapped s r p ((c.setS o.sd (ext o.ty ((if rem then m else q) % 2 ^ o.ty.bits).toNat)).raise fl)
      .fpTrap c.wordAddr 0 allOnes64 0) :=
  h.scalar_traps hw he fl (fun _ => by rw [hd]; rfl) hn

end

section
variable {s : State} {r : CpRef} {p : Pop} {c : Cp}

/-- SCLZ writes the count of zeros above the highest 1. -/
theorem Standing.sclz_writes (h : Standing s r p c) (o : X1) (hw : wordOk p.regs (.sclz o) = true) :
    GoesOn (.sclz o) s r p c p (c.setS o.sd (BitVec.ofNat 64 (leadingZeros o.ty.bits (xpat o.ty (c.getS o.sa))))) := by
  have hlt : leadingZeros o.ty.bits (xpat o.ty (c.getS o.sa)) < 2 ^ 31 := by
    have := leadingZeros_le o.ty.bits (xpat o.ty (c.getS o.sa))
    have := Ty.bits_le o.ty
    omega
  rw [← ext_of_lt o.ty hlt]
  exact h.scalar_writes hw (show execSclz o s = _ from rfl) (fun _ => rfl)

/-- SPOPC writes the count of ones. -/
theorem Standing.spopc_writes (h : Standing s r p c) (o : X1) (hw : wordOk p.regs (.spopc o) = true) :
    GoesOn (.spopc o) s r p c p (c.setS o.sd (BitVec.ofNat 64 (popCount o.ty.bits (xpat o.ty (c.getS o.sa))))) := by
  have hlt : popCount o.ty.bits (xpat o.ty (c.getS o.sa)) < 2 ^ 31 := by
    have := popCount_le o.ty.bits (xpat o.ty (c.getS o.sa))
    have := Ty.bits_le o.ty
    omega
  rw [← ext_of_lt o.ty hlt]
  exact h.scalar_writes hw (show execSpopc o s = _ from rfl) (fun _ => rfl)

end

end Sys2Proof.Machine
end

section
/-! SUPPORT. The scalar moves, selects, compares and fields, each with what it writes and raises (R165, R166). -/

namespace Sys2Proof.Machine

/-! ### Moves -/

/-- What SMOV leaves in its destination of a source (R165); `Standing.smov_writes` ties it to the word. -/
def movedAs (t : Ty) (v : Word64) : Word64 :=
  if t = .f32 then (v.extractLsb' 0 32).zeroExtend 64 else if t = .f64 then v else ext t (xpat t v)

theorem movedAs_of_wide {t : Ty} (h : t.wide = true) (v : Word64) : movedAs t v = v := by
  have hne : t ≠ .f32 := by rintro rfl; exact Bool.noConfusion h
  rw [movedAs, if_neg hne, ext_xpat_of_wide h, ite_self]

theorem movedAs_s32 (v : Word64) : movedAs .s32 v = (v.extractLsb' 0 32).signExtend 64 := by
  rw [← ofNat_mod_eq_extractLsb']
  rfl

theorem movedAs_n32_or_f32 {t : Ty} (h : t = .n32 ∨ t = .f32) (v : Word64) :
    movedAs t v = (v.extractLsb' 0 32).zeroExtend 64 := by
  rcases h with rfl | rfl
  · rw [← ofNat_mod_eq_extractLsb']
    rfl
  · rfl

section
variable {s : State} {r : CpRef} {p : Pop} {c : Cp}

theorem Standing.smov_writes (h : Standing s r p c) (ty : Ty) (sd : SReg) (src : XSrc) (hw : wordOk p.regs (.smov ty sd src) = true) :
    GoesOn (.smov ty sd src) s r p c p (c.setS sd (movedAs ty (xsrc c ty src))) :=
  h.scalar_writes hw (show execSmov ty sd src s = _ from rfl) (fun _ => rfl)

theorem Standing.sliLo_writes (h : Standing s r p c) (sd : SReg) (imm : BitVec 32) (hw : wordOk p.regs (.sliLo sd imm) = true) :
    GoesOn (.sliLo sd imm) s r p c p (c.setS sd (imm.zeroExtend 64)) :=
  h.scalar_writes hw (show execSliLo sd imm s = _ from rfl) (fun _ => rfl)

theorem Standing.sliHi_writes (h : Standing s r p c) (sd : SReg) (imm : BitVec 32) (hw : wordOk p.regs (.sliHi sd imm) = true) :
    GoesOn (.sliHi sd imm) s r p c p (c.setS sd (imm ++ (c.getS sd).extractLsb' 0 32)) :=
  h.scalar_writes hw (show execSliHi sd imm s = _ from rfl) (fun _ => rfl)

theorem Standing.ssel_writes (h : Standing s r p c) (o : X3) (hw : wordOk p.regs (.ssel o) = true) :
    GoesOn (.ssel o) s r p c p (c.setS o.sd (if xpat o.ty (c.getS o.sc) ≠ 0 then c.getS o.sa else c.getS o.sb)) :=
  h.scalar_writes hw (show execSsel o s = _ from rfl) (fun _ => rfl)

/-! ### Fields -/

theorem Standing.sext_writes (h : Standing s r p c) (o : X2) (hw : wordOk p.regs (.sext o) = true) :
    GoesOn (.sext o) s r p c p (c.setS o.sd (ext o.ty
      (extractField o.ty.isSigned o.ty.bits (xpat o.ty (c.getS o.sa)) (xpat o.ty (xsrc c o.ty o.b))))) :=
  h.xBits_writes (fun a b => extractField o.ty.isSigned o.ty.bits a b) rfl hw

theorem Standing.sins_writes (h : Standing s r p c) (o : X2) (hw : wordOk p.regs (.sins o) = true) :
    GoesOn (.sins o) s r p c p (c.setS o.sd (ext o.ty
      (insertField o.ty.bits (xpat o.ty (c.getS o.sa)) (xpat o.ty (xsrc c o.ty o.b)) (xpat o.ty (c.getS o.sd))))) :=
  h.scalar_writes hw (show execSins o s = _ from rfl) (fun _ => rfl)

/-! ### Compares -/

/-- A NaN makes NE true and every other compare false (R165). -/
theorem condFp_eq (cc : Cond) (x y : FVal) : condFp cc x y = if isNan x || isNan y then cc == .ne else condFp cc x y := by
  by_cases h : (isNan x || isNan y) = true
  · rw [if_pos h]
    exact if_pos h
  · rw [if_neg h]

theorem flagIf_and_eq_zero {f e : Flags} (h : f &&& e = 0) (b : Bool) : flagIf b f &&& e = 0 := by
  cases b with
  | false => exact BitVec.zero_and
  | true => exact h

/-- SSET of two integer patterns compares in the type's sense. -/
theorem Standing.sset_writes_int (h : Standing s r p c) (cc : Cond) (o : X2) (hi : o.ty.isFloat = false)
    (hw : wordOk p.regs (.sset cc o) = true) :
    GoesOn (.sset cc o) s r p c p (c.setS o.sd
      (if condInt cc (sense o.ty (xpat o.ty (c.getS o.sa))) (sense o.ty (xpat o.ty (xsrc c o.ty o.b))) then 1 else 0)) :=
  h.scalar_writes hw (show execSset cc o s = _ from rfl) (fun _ => if_neg (by rw [hi]; decide))

/-- When SSET of two floating patterns raises IV: a signalling NaN, or any NaN under LT to GE (R165). -/
def ssetInvalid (f : FpFmt) (cc : Cond) (x y : FVal) : Bool :=
  isSnan f x || isSnan f y || ((isNan x || isNan y) && cc != .eq && cc != .ne)

/-- SSET of two floating patterns compares after DAZ; with IVE off it goes on. -/
theorem Standing.sset_raises (h : Standing s r p c) (cc : Cond) (o : X2) (hw : wordOk p.regs (.sset cc o) = true)
    (hf : o.ty.isFloat = true) (hm : c.mode.getLsbD 6 = false) :
    GoesOn (.sset cc o) s r p c p
      ((c.setS o.sd (if condFp cc (unpack (fpOf o.ty) c.daz (xpat o.ty (c.getS o.sa)))
          (unpack (fpOf o.ty) c.daz (xpat o.ty (xsrc c o.ty o.b))) then 1 else 0)).raise
        (flagIf (ssetInvalid (fpOf o.ty) cc (unpack (fpOf o.ty) c.daz (xpat o.ty (c.getS o.sa)))
          (unpack (fpOf o.ty) c.daz (xpat o.ty (xsrc c o.ty o.b)))) fIV)) := by
  refine h.scalar_raises hw (show execSset cc o s = _ from rfl) _ (fun _ => (if_pos hf).trans ?_)
    (flagIf_and_eq_zero (c.fIV_and_enables_eq_zero.2 hm) _)
  simp only [ssetInvalid, Bool.not_or, Bool.and_assoc, bne]

end

end Sys2Proof.Machine
end

section
/-! SUPPORT. The integer rows of the scalar instructions, and the scalar moves and compares (R163 to R166). -/

open Sys2Proof Sys2Proof.Machine

/-- Settles O1: each word's function is the rule's, modulo 2^w; a division goes by the three cases of R88. -/
theorem scalarIntegerResults : Obligations.ScalarIntegerResults := by
  unfold Obligations.ScalarIntegerResults
  refine ⟨fun s r p c o o1 h => ?_, fun s r p c o h => ?_⟩
  · intro w x y a b x1 writes
    have hx : x < 2 ^ w := xpat_lt o.ty _
    have hy : y < 2 ^ w := xpat_lt o.ty _
    refine ⟨h.xInt_writes (· + ·) rfl, h.xInt_writes (· - ·) rfl, h.xInt_writes (· * ·) rfl,
      h.xInt_writes (fun a b => a * b / 2 ^ w) rfl,
      h.xBits_writes_patOf (· &&& ·) rfl (patOf_natCast_of_lt (Nat.and_lt_two_pow x hy)).symm,
      h.xBits_writes_patOf (· ||| ·) rfl (patOf_natCast_of_lt (Nat.or_lt_two_pow hx hy)).symm,
      h.xBits_writes_patOf (· ^^^ ·) rfl (patOf_natCast_of_lt (Nat.xor_lt_two_pow hx hy)).symm,
      h.xBits_writes_patOf (fun a b => shiftLeft w a (b % w)) rfl (patOf_natCast w _).symm,
      h.xBits_writes_patOf (fun a b => shiftRight a (b % w)) rfl
        (patOf_natCast_of_lt (Nat.lt_of_le_of_lt (Nat.div_le_self x _) hx)).symm,
      h.xBits_writes_patOf (fun a b => shiftArith w a (b % w)) rfl rfl,
      h.xInt_writes min rfl, h.xInt_writes max rfl, fun hw => ?_, fun hw => ?_⟩
    · exact ⟨_, h.sclz_writes o1 hw, leadingZeros_spec (xpat_lt o1.ty _)⟩
    · have := h.spopc_writes o1 hw
      rwa [popCount_eq_length] at this
  · intro w a b writes traps hdiv hrem
    refine ⟨fun hb hm => ?_, fun hb hm => ?_, fun _ hs ha hb => ?_, fun hb hmin => ?_⟩
    · have hd : divide o.ty.isSigned w a b = (0, a, fDZ) := by rw [hb, divide_zero]
      have hn := c.fDZ_and_enables_eq_zero.2 hm
      exact ⟨h.divWord_raises (rem := false) rfl hdiv hd hn, h.divWord_raises (rem := true) rfl hrem hd hn⟩
    · have hd : divide o.ty.isSigned w a b = (0, a, fDZ) := by rw [hb, divide_zero]
      have hn : fDZ &&& c.enables ≠ 0 := by rw [Ne, c.fDZ_and_enables_eq_zero, hm]; decide
      exact ⟨h.divWord_traps (rem := false) rfl hdiv hd hn, h.divWord_traps (rem := true) rfl hrem hd hn⟩
    · have hd : divide o.ty.isSigned w a b = (a, 0, 0) := divide_minimum hs ha hb
      exact ⟨h.divWord_raises (rem := false) rfl hdiv hd c.zero_and_enables, h.divWord_raises (rem := true) rfl hrem hd c.zero_and_enables⟩
    · have hd : divide o.ty.isSigned w a b = (a.tdiv b, a.tmod b, 0) := divide_general hb hmin
      exact ⟨_, _, h.divWord_raises (rem := false) rfl hdiv hd c.zero_and_enables, h.divWord_raises (rem := true) rfl hrem hd c.zero_and_enables,
        tdiv_tmod_spec a hb⟩

/-- Settles O2: each move, select, compare and field word writes the value of its rule; a floating compare also raises IV. -/
theorem scalarMovesAndCompares : Obligations.ScalarMovesAndCompares := by
  unfold Obligations.ScalarMovesAndCompares
  refine ⟨fun s r p c ty sd src imm cc o o3 h => ?_, fun s r p c cc o h hw hf hm => ?_⟩
  · intro w x y pos top writes
    refine ⟨fun ht hw => ?_, fun ht hw => ?_, fun ht hw => ?_, h.sliLo_writes sd imm, h.sliHi_writes sd imm,
      h.sset_writes_int cc o, h.ssel_writes o3, fun hw => ?_, fun hw => ?_⟩
    · have := h.smov_writes ty sd src hw
      rwa [movedAs_of_wide ht] at this
    · subst ht
      have := h.smov_writes .s32 sd src hw
      rwa [movedAs_s32] at this
    · have := h.smov_writes ty sd src hw
      rwa [movedAs_n32_or_f32 ht] at this
    · have := h.sext_writes o hw
      rwa [extractField_eq] at this
    · exact ⟨_, insertField_lt (Ty.bits_pos o.ty) x y (xpat_lt o.ty _), h.sins_writes o hw,
        fun k _ => testBit_insertField (Ty.bits_pos o.ty) x y _ k⟩
  · intro f x y nan
    have := h.sset_raises cc o hw hf hm
    rwa [condFp_eq] at this

end
